-- ==== Sys2Proof/Word.lean ====
section
/-! DEFINITION. The word types of the block (00_scope.md R11: every integer is unsigned; 30_encoding.md R91, R98). -/

namespace Sys2Proof

/-- A byte, an integer 0 to 255 (R11). -/
abbrev Byte := BitVec 8

/-- A 16-bit operand field or ring register (R91, R34). -/
abbrev Half := BitVec 16

/-- A response word or a status word (R98, R38). -/
abbrev Word32 := BitVec 32

/-- A command word (R91). -/
abbrev Word64 := BitVec 64

end Sys2Proof
end

