-- ==== Sys2Proof/Config.lean ====
section
/-! DEFINITION. The parameters of 00_scope.md R8, their constraints, the test configuration `CFG_T` of R10, and the
free values of the collaborators (93_implementation_defined.md U2, U4, U9, U10, U13). -/

namespace Sys2Proof

/-- The implementation parameters of R8, each OPEN there. A machine state carries one (log 1), so a statement about all
states is a statement about all parameter values. -/
structure Config where
  pageBytes : Nat
  rowBytes : Nat
  pageBase : Nat
  eeSize : Nat
  eePage : Nat
  ctrlW : Byte
  ctrlR : Byte
  ticksPerSecond : Nat
  tickBits : Nat
  ellipsis : List Char
  rbMemBytes : Nat
  ewsReadAckpoll : Bool
  deriving DecidableEq, Repr

namespace Config

/-- `PRINT_ROW_BYTES`, fixed (R8). -/
def printRowBytes : Nat := 32

/-- `ACKPOLL_TIMEOUT_MS`, fixed (R8). -/
def ackpollTimeoutMs : Nat := 5

/-- `ROWS` (R8). -/
def rows (c : Config) : Nat := c.pageBytes / c.rowBytes

/-- `PR`, the number of diagnostic rows of the flash page (R204). -/
def printRows (c : Config) : Nat := c.pageBytes / printRowBytes

/-- The number of EEPROM pages, `EE_SIZE div EE_PAGE` (R52). -/
def eePages (c : Config) : Nat := c.eeSize / c.eePage

/-- `TIMEOUT_TICKS` (R8, R152). -/
def timeoutTicks (c : Config) : Nat := ackpollTimeoutMs * c.ticksPerSecond / 1000

/-- The constraints of R8, row by row. The clause "multiple of 32 if EWS.PRINT is used" is no constraint here but the
precondition of EWS.PRINT (R102). -/
abbrev Valid (c : Config) : Prop :=
  (1 ≤ c.pageBytes ∧ c.pageBytes % c.rowBytes = 0 ∧ c.pageBytes % printRowBytes = 0 ∧ c.pageBytes ≤ 65535)
  ∧ (1 ≤ c.rowBytes)
  ∧ (c.pageBase % c.pageBytes = 0 ∧ c.pageBase + c.pageBytes ≤ 2 ^ 32)
  ∧ (1 ≤ c.eeSize ∧ c.eeSize % c.eePage = 0 ∧ c.eeSize ≤ 65536)
  ∧ (1 ≤ c.eePage)
  ∧ (c.ctrlW ≠ c.ctrlR)
  ∧ (1000 ≤ c.ticksPerSecond)
  ∧ (2 * c.timeoutTicks < 2 ^ c.tickBits)
  ∧ (1 ≤ c.rbMemBytes ∧ c.rbMemBytes ≤ 65535)

/-- `CFG_T` (R10): the spec's own test configuration, no real device's. -/
def cfgT : Config where
  pageBytes := 128
  rowBytes := 64
  pageBase := 0x00001F80
  eeSize := 256
  eePage := 64
  ctrlW := 0xA0#8
  ctrlR := 0xA1#8
  ticksPerSecond := 1000000
  tickBits := 32
  ellipsis := ['.', '.', '.', ' ', ' ', ' ', ' ', ' ']
  rbMemBytes := 16
  ewsReadAckpoll := true

/-- Free value (log 5, log 16): the k-th byte the NVM device yields or holds where the spec says any value (U2, U4, U13). -/
opaque freeNvm : Nat → Byte

/-- Free value (log 6, log 16): the k-th byte the bus or the EEPROM yields where the spec says any value (U10, U13). -/
opaque freeBus : Nat → Byte

/-- Free value (log 4): the k-th read of a ring byte that nothing has written since reset (U9). -/
opaque freeRing : Nat → Byte

end Config
end Sys2Proof
end

