-- ==== Sys2Proof/Syntax.lean ====
section
/-! DEFINITION. The twelve commands of 00_scope.md R3, one constructor per row of the opcode table, with the operands of
30_encoding.md R105 in its order; a payload is a list of bytes. -/

namespace Sys2Proof

/-- The three units (R2). -/
inductive UnitId where
  | fpc
  | ews
  | rpa
  deriving DecidableEq, Repr

/-- A command with its operands and payload (R3, R92, R94, R105). -/
inductive Instr where
  /-- FPC.READ n (R121) -/
  | fpcRead (n : Half)
  /-- FPC.WRITE n, data (R123) -/
  | fpcWrite (n : Half) (data : List Byte)
  /-- FPC.UPDATE n, data (R124) -/
  | fpcUpdate (n : Half) (data : List Byte)
  /-- FPC.ERASE (R122) -/
  | fpcErase
  /-- FPC.PRINT (R204) -/
  | fpcPrint
  /-- EWS.READ address, n (R153) -/
  | ewsRead (address n : Half)
  /-- EWS.WRITE address, n, data (R154) -/
  | ewsWrite (address n : Half) (data : List Byte)
  /-- EWS.ERASEALL (R155) -/
  | ewsEraseAll
  /-- EWS.PRINT (R205) -/
  | ewsPrint
  /-- RPA.READ n (R182) -/
  | rpaRead (n : Half)
  /-- RPA.WRITE n, src (R183) -/
  | rpaWrite (n : Half) (src : List Byte)
  /-- RPA.CFG cap, rd, wr (R181) -/
  | rpaCfg (cap rd wr : Half)
  deriving DecidableEq, Repr

/-- The payload a command carries (R94); empty for the eight commands without one. -/
def Instr.payload : Instr → List Byte
  | .fpcRead _ => []
  | .fpcWrite _ data => data
  | .fpcUpdate _ data => data
  | .fpcErase => []
  | .fpcPrint => []
  | .ewsRead _ _ => []
  | .ewsWrite _ _ data => data
  | .ewsEraseAll => []
  | .ewsPrint => []
  | .rpaRead _ => []
  | .rpaWrite _ src => src
  | .rpaCfg _ _ _ => []

end Sys2Proof
end

