-- ==== Sys2Proof/WellFormed.lean ====
section
/-! DEFINITION. Which terms of `Instr` are commands: a payload is "exactly `LEN` bytes" (30_encoding.md R94). Every other
operand is any value of its 16-bit field (R93); narrower ranges are preconditions of the running command (R102). -/

namespace Sys2Proof

/-- The payload, where the command has one, is exactly `LEN` bytes (R94). -/
def Instr.wellFormed : Instr → Bool
  | .fpcRead _ => true
  | .fpcWrite n data => data.length == n.toNat
  | .fpcUpdate n data => data.length == n.toNat
  | .fpcErase => true
  | .fpcPrint => true
  | .ewsRead _ _ => true
  | .ewsWrite _ n data => data.length == n.toNat
  | .ewsEraseAll => true
  | .ewsPrint => true
  | .rpaRead _ => true
  | .rpaWrite n src => src.length == n.toNat
  | .rpaCfg _ _ _ => true

end Sys2Proof
end

