-- ==== Sys2Proof/Decode.lean ====
section
/-! DEFINITION. Command words: fields, formats, opcode map, decoder and encoder (30_encoding.md R91 to R97). The decoder
is total on any bytes and rejects by name; the encoder stands after it, written from the same map. -/

namespace Sys2Proof

/-! ## The command word -/

namespace Cw

/-- `OPC`, `cw[63:56]` (R91). -/
def opc (cw : Word64) : Byte := cw.extractLsb' 56 8

/-- `RSV`, `cw[55:48]` (R91). -/
def rsv (cw : Word64) : Byte := cw.extractLsb' 48 8

/-- `A`, `cw[47:32]`: `CAP` in format FC (R91). -/
def fieldA (cw : Word64) : Half := cw.extractLsb' 32 16

/-- `B`, `cw[31:16]`: `ADDR` in format FA, `RD` in format FC (R91). -/
def fieldB (cw : Word64) : Half := cw.extractLsb' 16 16

/-- `C`, `cw[15:0]`: `LEN` in formats FL and FA, `WR` in format FC (R91). -/
def fieldC (cw : Word64) : Half := cw.extractLsb' 0 16

/-- A command word from its opcode and its three operand fields, `RSV` zero (R91). -/
def make (opc : Byte) (a b c : Half) : Word64 := opc ++ (0#8) ++ a ++ b ++ c

/-- The eight bytes of a command word, most significant first (R95). -/
def bytes (cw : Word64) : List Byte :=
  [cw.extractLsb' 56 8, cw.extractLsb' 48 8, cw.extractLsb' 40 8, cw.extractLsb' 32 8,
   cw.extractLsb' 24 8, cw.extractLsb' 16 8, cw.extractLsb' 8 8, cw.extractLsb' 0 8]

/-- The command word that eight bytes spell, most significant first (R95). -/
def ofBytes (b7 b6 b5 b4 b3 b2 b1 b0 : Byte) : Word64 :=
  b7 ++ b6 ++ b5 ++ b4 ++ b3 ++ b2 ++ b1 ++ b0

end Cw

/-- The four bytes of a response word as a byte stream sends them, `rw[31:24]` first (R95). -/
def Rw.bytes (rw : Word32) : List Byte :=
  [rw.extractLsb' 24 8, rw.extractLsb' 16 8, rw.extractLsb' 8 8, rw.extractLsb' 0 8]

/-! ## The opcode map (R96) -/

/-- The four formats (R92). -/
inductive Format where
  | f0
  | fl
  | fa
  | fc
  deriving DecidableEq, Repr

/-- The bits a format fixes: the opcode and every must-be-zero field (R92, R96). -/
def Format.mask : Format → Word64
  | .f0 => 0xFFFFFFFFFFFFFFFF#64
  | .fl => 0xFFFFFFFFFFFF0000#64
  | .fa => 0xFFFFFFFF00000000#64
  | .fc => 0xFFFF000000000000#64

/-- The twelve rows of the opcode map, by mnemonic (R96). -/
inductive Opcode where
  | fpcRead
  | fpcWrite
  | fpcUpdate
  | fpcErase
  | fpcPrint
  | ewsRead
  | ewsWrite
  | ewsEraseAll
  | ewsPrint
  | rpaRead
  | rpaWrite
  | rpaCfg
  deriving DecidableEq, Repr

namespace Opcode

/-- The opcode values (R96). -/
def toByte : Opcode → Byte
  | .fpcRead => 0x10#8
  | .fpcWrite => 0x11#8
  | .fpcUpdate => 0x12#8
  | .fpcErase => 0x13#8
  | .fpcPrint => 0x14#8
  | .ewsRead => 0x20#8
  | .ewsWrite => 0x21#8
  | .ewsEraseAll => 0x22#8
  | .ewsPrint => 0x23#8
  | .rpaRead => 0x30#8
  | .rpaWrite => 0x31#8
  | .rpaCfg => 0x32#8

/-- The rows in the order of R96. -/
def all : List Opcode :=
  [.fpcRead, .fpcWrite, .fpcUpdate, .fpcErase, .fpcPrint, .ewsRead, .ewsWrite, .ewsEraseAll, .ewsPrint, .rpaRead,
   .rpaWrite, .rpaCfg]

/-- The row an opcode byte names; every other value is reserved (R103). -/
def ofByte? (b : Byte) : Option Opcode := all.find? (fun op => op.toByte == b)

/-- The unit that takes the command, `OPC[7:4]` (R91). -/
def unit : Opcode → UnitId
  | .fpcRead | .fpcWrite | .fpcUpdate | .fpcErase | .fpcPrint => .fpc
  | .ewsRead | .ewsWrite | .ewsEraseAll | .ewsPrint => .ews
  | .rpaRead | .rpaWrite | .rpaCfg => .rpa

/-- The format column of R96. -/
def format : Opcode → Format
  | .fpcErase | .fpcPrint | .ewsEraseAll | .ewsPrint => .f0
  | .fpcRead | .fpcWrite | .fpcUpdate | .rpaRead | .rpaWrite => .fl
  | .ewsRead | .ewsWrite => .fa
  | .rpaCfg => .fc

/-- The payload column of R96. -/
def hasPayload : Opcode → Bool
  | .fpcWrite | .fpcUpdate | .ewsWrite | .rpaWrite => true
  | .fpcRead | .fpcErase | .fpcPrint | .ewsRead | .ewsEraseAll | .ewsPrint | .rpaRead | .rpaCfg => false

/-- The mask column of R96. -/
def mask (op : Opcode) : Word64 := op.format.mask

/-- The match column of R96: the opcode, every other bit zero. -/
def matchWord (op : Opcode) : Word64 := Cw.make op.toByte 0#16 0#16 0#16

/-- How many payload bytes a command word takes: decided by `OPC` alone and `C` alone (R94). -/
def payloadLength (op : Opcode) (cw : Word64) : Nat := if op.hasPayload then (Cw.fieldC cw).toNat else 0

/-- The command a word of this row spells, its operands used as they stand (R92, R93). -/
def build (op : Opcode) (cw : Word64) (payload : List Byte) : Instr :=
  match op with
  | .fpcRead => .fpcRead (Cw.fieldC cw)
  | .fpcWrite => .fpcWrite (Cw.fieldC cw) payload
  | .fpcUpdate => .fpcUpdate (Cw.fieldC cw) payload
  | .fpcErase => .fpcErase
  | .fpcPrint => .fpcPrint
  | .ewsRead => .ewsRead (Cw.fieldB cw) (Cw.fieldC cw)
  | .ewsWrite => .ewsWrite (Cw.fieldB cw) (Cw.fieldC cw) payload
  | .ewsEraseAll => .ewsEraseAll
  | .ewsPrint => .ewsPrint
  | .rpaRead => .rpaRead (Cw.fieldC cw)
  | .rpaWrite => .rpaWrite (Cw.fieldC cw) payload
  | .rpaCfg => .rpaCfg (Cw.fieldA cw) (Cw.fieldB cw) (Cw.fieldC cw)

end Opcode

/-! ## The decoder -/

/-- Why bytes spell no command. -/
inductive DecodeError where
  /-- fewer bytes than the command word and its payload need (R94) -/
  | truncated
  /-- `OPC` is not one of the twelve (R97 step 1, R103) -/
  | unknownOpcode
  /-- `RSV` or a must-be-zero field is not zero (R97 step 3, R103) -/
  | reservedField
  deriving DecidableEq, Repr

/-- A command word and the bytes on the payload port: the command and the payload bytes left over (R94, R96, R97 steps 1
to 3). -/
def decodeCommand (cw : Word64) (pay : List Byte) : Except DecodeError (Instr × List Byte) :=
  match Opcode.ofByte? (Cw.opc cw) with
  | none => .error .unknownOpcode
  | some op =>
    if pay.length < op.payloadLength cw then .error .truncated
    else if cw &&& op.mask = op.matchWord then
      .ok (op.build cw (pay.take (op.payloadLength cw)), pay.drop (op.payloadLength cw))
    else .error .reservedField

/-- The decoder of a command in its byte-stream form (R95): eight bytes of command word, then the payload. It answers the
command and the bytes after it. -/
def decode : List Byte → Except DecodeError (Instr × List Byte)
  | b7 :: b6 :: b5 :: b4 :: b3 :: b2 :: b1 :: b0 :: rest => decodeCommand (Cw.ofBytes b7 b6 b5 b4 b3 b2 b1 b0) rest
  | _ => .error .truncated

/-! ## A unit's command port (R97) -/

/-- What a unit that is not busy finds on its ports. -/
inductive Fetched where
  /-- no command word is presented -/
  | empty
  /-- a command word is presented and its payload is not yet whole (R94) -/
  | waiting
  /-- the word spells no command of this unit: its opcode, the words and the payload left (R97 steps 1 and 3) -/
  | illegal (opc : Byte) (cmd : List Word64) (pay : List Byte)
  /-- a command, its opcode, the words and the payload left (R97 steps 2 to 4 come next) -/
  | command (i : Instr) (opc : Byte) (cmd : List Word64) (pay : List Byte)
  deriving DecidableEq, Repr

/-- Unit `u` looks at its command port `cmd` and its payload port `pay` (R97 steps 1 to 3): an opcode that is not one of
this unit's is illegal and takes no payload; else the payload is taken whole; then the must-be-zero fields are checked. -/
def fetchAt (u : UnitId) (cmd : List Word64) (pay : List Byte) : Fetched :=
  match cmd with
  | [] => .empty
  | cw :: rest =>
    match Opcode.ofByte? (Cw.opc cw) with
    | none => .illegal (Cw.opc cw) rest pay
    | some op =>
      if op.unit ≠ u then .illegal (Cw.opc cw) rest pay
      else
        match decodeCommand cw pay with
        | .ok (i, pay') => .command i (Cw.opc cw) rest pay'
        | .error .truncated => .waiting
        | .error _ => .illegal (Cw.opc cw) rest (pay.drop (op.payloadLength cw))

/-- The unit whose number is `OPC[7:4]` (R91); a word that names no unit is taken to FPC's port. -/
def unitOfOpc (opc : Byte) : UnitId :=
  if opc.extractLsb' 4 4 = 2#4 then .ews else if opc.extractLsb' 4 4 = 3#4 then .rpa else .fpc

/-! ## The encoder -/

namespace Instr

/-- The row of R96 a command belongs to. -/
def opcode : Instr → Opcode
  | .fpcRead _ => .fpcRead
  | .fpcWrite _ _ => .fpcWrite
  | .fpcUpdate _ _ => .fpcUpdate
  | .fpcErase => .fpcErase
  | .fpcPrint => .fpcPrint
  | .ewsRead _ _ => .ewsRead
  | .ewsWrite _ _ _ => .ewsWrite
  | .ewsEraseAll => .ewsEraseAll
  | .ewsPrint => .ewsPrint
  | .rpaRead _ => .rpaRead
  | .rpaWrite _ _ => .rpaWrite
  | .rpaCfg _ _ _ => .rpaCfg

/-- A command's word (R92, R96). -/
def word (i : Instr) : Word64 :=
  let opc := i.opcode.toByte
  match i with
  | .fpcRead n => Cw.make opc 0#16 0#16 n
  | .fpcWrite n _ => Cw.make opc 0#16 0#16 n
  | .fpcUpdate n _ => Cw.make opc 0#16 0#16 n
  | .fpcErase => Cw.make opc 0#16 0#16 0#16
  | .fpcPrint => Cw.make opc 0#16 0#16 0#16
  | .ewsRead address n => Cw.make opc 0#16 address n
  | .ewsWrite address n _ => Cw.make opc 0#16 address n
  | .ewsEraseAll => Cw.make opc 0#16 0#16 0#16
  | .ewsPrint => Cw.make opc 0#16 0#16 0#16
  | .rpaRead n => Cw.make opc 0#16 0#16 n
  | .rpaWrite n _ => Cw.make opc 0#16 0#16 n
  | .rpaCfg cap rd wr => Cw.make opc cap rd wr

/-- The unit that takes the command (R91). -/
def unit (i : Instr) : UnitId := i.opcode.unit

end Instr

/-- A command in its byte-stream form (R95): the word, most significant byte first, then the payload in index order. -/
def encode (i : Instr) : List Byte := Cw.bytes i.word ++ i.payload

/-! ## The opcode table's numbering -/

/-- The payload bytes of a command whose bits are numbered as the opcode table numbers them: bits 63:0 the command word,
payload byte `k` the eight bits from `64 + 8*k` on; every bit from `nbits` on is zero. -/
def tablePayload (nbits w len : Nat) : List Byte :=
  (List.range len).map (fun k => BitVec.ofNat 8 ((w % 2 ^ nbits) >>> (64 + 8 * k)))

/-- The command word of a table-numbered command. -/
def tableWord (nbits w : Nat) : Word64 := BitVec.ofNat 64 (w % 2 ^ nbits)

/-- The payload bytes that follow `tableWord`, as many as its opcode takes (R94). -/
def tablePayloadOf (nbits w : Nat) : List Byte :=
  match Opcode.ofByte? (Cw.opc (tableWord nbits w)) with
  | none => []
  | some op => tablePayload nbits w (op.payloadLength (tableWord nbits w))

/-- The command the decoder reads from a command whose bits, numbered as the opcode table numbers them, are `w`: the bytes
are laid out as R95 sends them and given to `decode`. -/
def decodeTableWord (nbits w : Nat) : Option Instr :=
  match decode (Cw.bytes (tableWord nbits w) ++ tablePayloadOf nbits w) with
  | .ok (i, _) => some i
  | .error _ => none

end Sys2Proof
end

