-- ==== Sys2Proof/Machine/State.lean ====
section
/-! DEFINITION. The state of the block and of the collaborators it is modelled with, as plain data (10_state.md R20 to R46;
20_memory.md R64, R74, R78), and the state after reset (R46, R251). Fields marked "model's own" are no state of the spec. -/

namespace Sys2Proof.Machine

/-! ## Memories -/

/-- A sparse byte memory: addresses strictly rising, no entry equal to what an unlisted address reads as. -/
abbrev Memory := List Host.Cell

/-- The spaces of R50 that are held as memories. -/
inductive Space where
  /-- the flash page, by NVM address (R51) -/
  | flash
  /-- the EEPROM, addresses 0 to `EE_SIZE-1` (R52) -/
  | eeprom
  /-- the ring memory, indices 0 to `RB_MEM_BYTES-1` (R33, R53) -/
  | ring
  deriving DecidableEq, Repr

/-- What an unlisted address reads as. Flash and EEPROM: 0xFF, the erased value (DESIGN CHOICE, log 3). Ring: no value, the
byte was never written since reset and a read of it draws a free value (R33, U9, log 4). -/
def Space.unlisted : Space → Option Byte
  | .flash => some 0xFF#8
  | .eeprom => some 0xFF#8
  | .ring => none

/-- The canonical form: addresses strictly rising and no entry equal to what an unlisted address reads as. -/
abbrev Memory.wf (sp : Space) (m : Memory) : Prop :=
  List.Pairwise (fun x y => x.1 < y.1) m ∧ ∀ x ∈ m, some x.2 ≠ sp.unlisted

/-! ## Ports, call traces -/

/-- A unit's command port and payload port: what the host has presented and the unit has not taken (R90, R94, R100). -/
structure Port where
  cmd : List Word64
  pay : List Byte
  deriving DecidableEq, Repr

/-- A call FPC made to the NVM primitive, with its arguments and result (R11, R60). -/
inductive NvmCall where
  | pageErase (a : Nat)
  | rowWrite (buf : List Byte) (a : Nat)
  | isBusy (result : Bool)
  | read (n a : Nat) (result : List Byte)
  deriving DecidableEq, Repr

/-- A call EWS made to the bus primitive or the tick source, with its arguments and result (R11, R70, R78). -/
inductive BusCall where
  | now (result : Nat)
  | start
  | stop
  | send (b : Byte) (ack : Bool)
  | receive (ack : Bool) (result : Byte)
  deriving DecidableEq, Repr

/-! ## FPC and the NVM device -/

/-- `fpc_state` (R23). -/
inductive FpcPhase where
  | idle
  | erasing
  | writing
  deriving DecidableEq, Repr

/-- `fpc_pos`: the labels of R127 and R206. -/
inductive FpcPos where
  /-- `F_READY` -/
  | ready
  /-- `F_RD` -/
  | rd
  /-- `F_UCMP` -/
  | ucmp
  /-- `F_ER` -/
  | er
  /-- `F_EP` -/
  | ep
  /-- `F_FILL` -/
  | fill
  /-- `F_RW` -/
  | rw
  /-- `F_WP` -/
  | wp
  /-- `F_PR` -/
  | pr
  deriving DecidableEq, Repr

/-- `fpc_op` (R25). -/
inductive FpcOp where
  | none
  | read
  | write
  | update
  | erase
  | print
  deriving DecidableEq, Repr

/-- The NVM device (R64) with the model's own schedule of its `DONE` step. -/
structure Nvm where
  /-- `flash[a]` (R64) -/
  flash : Memory
  /-- `nvm_busy` (R64) -/
  busy : Bool
  /-- `erase_count` (R64) -/
  eraseCount : Nat
  /-- `rowwrite_count` (R64) -/
  rowWriteCount : Nat
  /-- model's own: the first address of the operation in progress (log 16) -/
  regionAddr : Nat
  /-- model's own: how many bytes that operation touches (log 16) -/
  regionLen : Nat
  /-- model's own: is `DONE` taken before the next FPC sequencer step, the one after, ...; when the list is used up, before
  every step unless `stalled` (R66, R79, log 7) -/
  sched : List Bool
  /-- model's own: a stalled device, one that takes no `DONE` of its own accord (R66, log 7) -/
  stalled : Bool
  /-- model's own: how many free bytes have been drawn (log 5) -/
  draws : Nat
  deriving DecidableEq, Repr

/-- FPC's state, its ports and streams (R22 to R26, R44, R90), and the NVM device, which FPC alone reaches (R20). -/
structure Fpc where
  /-- `scratch` (R22) -/
  scratch : List Byte
  /-- `fpc_state` (R23) -/
  phase : FpcPhase
  /-- `fpc_pos` (R24) -/
  pos : FpcPos
  /-- `fpc_row` (R24) -/
  row : Nat
  /-- `fpc_inrun` (R24) -/
  inrun : Bool
  /-- `fpc_op` (R25) -/
  op : FpcOp
  /-- `fpc_n` (R25) -/
  n : Half
  /-- `fpc_data` (R25) -/
  data : List Byte
  /-- `fpc_busy` (R26) -/
  busy : Bool
  /-- the opcode the response will echo (R98, log 20) -/
  opc : Byte
  /-- the response stream (R44) -/
  rsp : List Word32
  /-- `DOUT` (R44) -/
  dout : List Byte
  /-- `DIAG` (R44) -/
  diag : List Char
  /-- the command and payload ports (R90) -/
  port : Port
  /-- model's own: the calls made, the newest first (R11, log 22) -/
  trace : List NvmCall
  /-- the NVM device (R64) -/
  nvm : Nvm
  deriving DecidableEq, Repr

/-! ## EWS, the EEPROM device and the tick source -/

/-- `ews_op` (R28). -/
inductive EwsOp where
  | none
  | read
  | write
  | eraseAll
  | print
  deriving DecidableEq, Repr

/-- `ews_pos`: the labels of R160. A label whose line makes several calls has one constructor per call (log 18). -/
inductive EwsPos where
  /-- `E_READY` -/
  | ready
  /-- `E_R1`, its choice between StartSequence and the plain start, and the plain start -/
  | r1
  /-- `E_R1`, `BUS.Send(CTRL_W)` of the plain form -/
  | r1Ctl
  /-- `E_R1`, `BUS.Send(address[15:8])` of the plain form -/
  | r1Hi
  /-- `E_R1`, `BUS.Send(address[7:0])` of the plain form -/
  | r1Lo
  /-- `E_R1`, `BUS.Stop()` -/
  | r1Stop
  /-- `E_R2`, `BUS.Start()` -/
  | r2
  /-- `E_R2`, `BUS.Send(CTRL_R)` -/
  | r2Ctl
  /-- `E_R2`, `BUS.Receive` -/
  | r2Rx
  /-- `E_R2`, `BUS.Stop()` and what follows it -/
  | r2Stop
  /-- `E_W0` -/
  | w0
  /-- `E_WB` -/
  | wb
  /-- `E_WX` -/
  | wx
  /-- `E_WS` -/
  | ws
  /-- `E_EA` -/
  | ea
  /-- `E_PR` -/
  | pr
  /-- `SS_T0` -/
  | ssT0
  /-- `SS_ST` -/
  | ssST
  /-- `SS_CT` -/
  | ssCT
  /-- `SS_CK` -/
  | ssCK
  /-- `SS_HI` -/
  | ssHI
  /-- `SS_LO` -/
  | ssLO
  deriving DecidableEq, Repr

/-- `ee_mode` (R74). -/
inductive EeMode where
  | idle
  | ctrl
  | aHi
  | aLo
  | wData
  | rData
  | ignore
  deriving DecidableEq, Repr

/-- The EEPROM device (R74). -/
structure Eeprom where
  /-- `ee` (R74) -/
  ee : Memory
  /-- `ee_ptr` (R74) -/
  ptr : Nat
  /-- `ee_hi` (R74) -/
  hi : Byte
  /-- `ee_mode` (R74) -/
  mode : EeMode
  /-- `ee_got` (R74) -/
  got : Nat
  /-- `ee_commit` (R74) -/
  commit : Bool
  /-- model's own: an EEPROM that takes no `DONE` of its own accord (R77, log 8) -/
  stalled : Bool
  /-- model's own: how many free bytes have been drawn (log 6) -/
  draws : Nat
  deriving DecidableEq, Repr

/-- The tick source (R78). -/
structure Clock where
  /-- `tick` (R78) -/
  tick : Nat
  deriving DecidableEq, Repr

/-- Model's own: what EWS's collaborators do before one EWS sequencer step (R77, R78, log 8). -/
structure EwsMove where
  /-- the EEPROM takes `DONE` -/
  done : Bool
  /-- the tick counter advances by this much -/
  ticks : Nat
  deriving DecidableEq, Repr

/-- EWS's state, its ports and streams (R27 to R32, R44, R90), and the EEPROM and the tick source, which EWS alone
reaches (R20). -/
structure Ews where
  /-- `ews_addr` (R27) -/
  addr : BitVec 17
  /-- `ews_op` (R28) -/
  op : EwsOp
  /-- `ews_n` (R28) -/
  n : Half
  /-- `ews_data` (R28) -/
  data : List Byte
  /-- `ews_i` (R28) -/
  i : Nat
  /-- `ews_page` (R28) -/
  page : Nat
  /-- `ews_pbuf` (R28) -/
  pbuf : List Byte
  /-- `ews_txn_open` (R29) -/
  txnOpen : Bool
  /-- `ews_t0` (R30) -/
  t0 : Nat
  /-- `ews_timed_out` (R31) -/
  timedOut : Bool
  /-- `ews_pos` (R32) -/
  pos : EwsPos
  /-- `ews_busy` (R32) -/
  busy : Bool
  /-- the latched `ADDR` operand (R97 step 5, log 17) -/
  opAddr : Half
  /-- the loop index of EWS.READ (R160, log 17) -/
  ri : Nat
  /-- the bytes received so far, `d` of R153 (log 17) -/
  rx : List Byte
  /-- the opcode the response will echo (R98, log 20) -/
  opc : Byte
  /-- the response stream (R44) -/
  rsp : List Word32
  /-- `DOUT` (R44) -/
  dout : List Byte
  /-- `DIAG` (R44) -/
  diag : List Char
  /-- the command and payload ports (R90) -/
  port : Port
  /-- model's own: the calls made, the newest first (R11, log 22) -/
  trace : List BusCall
  /-- the EEPROM device (R74) -/
  eeprom : Eeprom
  /-- the tick source (R78) -/
  clock : Clock
  /-- model's own: what the collaborators do before each coming sequencer step; when it is used up the tick stands still and
  the EEPROM takes `DONE` at once unless stalled (R79, log 8) -/
  sched : List EwsMove
  deriving DecidableEq, Repr

/-! ## RPA -/

/-- `rpa_op` (R36). -/
inductive RpaOp where
  | none
  | read
  | write
  | cfg
  deriving DecidableEq, Repr

/-- RPA's state, its ports and streams (R33 to R36, R44, R90). -/
structure Rpa where
  /-- `rb_mem`, the bytes written since reset (R33, log 4) -/
  mem : Memory
  /-- `rb_cap` (R34) -/
  cap : Half
  /-- `rb_rd` (R34) -/
  rd : Half
  /-- `rb_wr` (R34) -/
  wr : Half
  /-- `rpa_op` (R36) -/
  op : RpaOp
  /-- `rpa_n` (R36) -/
  n : Half
  /-- `rpa_data` (R36) -/
  data : List Byte
  /-- `rpa_busy` (R36) -/
  busy : Bool
  /-- the latched `CAP` operand (R97 step 5, log 21) -/
  opCap : Half
  /-- the latched `RD` operand (R97 step 5, log 21) -/
  opRd : Half
  /-- the latched `WR` operand (R97 step 5, log 21) -/
  opWr : Half
  /-- the opcode the response will echo (R98, log 20) -/
  opc : Byte
  /-- the response stream (R44) -/
  rsp : List Word32
  /-- `DOUT` (R44) -/
  dout : List Byte
  /-- `DIAG` (R44) -/
  diag : List Char
  /-- the command and payload ports (R90) -/
  port : Port
  /-- model's own: how many free bytes have been drawn (log 4) -/
  draws : Nat
  deriving DecidableEq, Repr

/-! ## The whole machine -/

/-- What the host may do at its ports at any time (R262). -/
inductive HostMove where
  /-- present a command word and payload bytes on a unit's ports (R90); DESIGN CHOICE: payload comes only in a move with a command
  word, never in one of its own (log 30) -/
  | present (u : UnitId) (cw : Word64) (payload : List Byte)
  /-- read the unit's status word; a read has no effect (R38) -/
  | readStatus (u : UnitId)
  /-- reset the block (R250) -/
  | reset
  deriving DecidableEq, Repr

/-- The three units with their collaborators, the parameters, and what the host does next. -/
structure State where
  /-- the parameters of R8; no step changes them (R21, log 1) -/
  cfg : Config
  fpc : Fpc
  ews : Ews
  rpa : Rpa
  /-- model's own: the host's coming moves, each with the number of sequencer steps, an acceptance among them, after which it
  lands (log 12) -/
  host : List (Nat × HostMove)
  /-- model's own: the unit whose turn it is (log 11) -/
  turn : UnitId
  deriving DecidableEq, Repr

/-- Why the machine stops. The spec has no exception (R220); only a position the sequencer tables do not list stops. -/
inductive Fault where
  /-- Raised by `step` and the meanings when a busy unit is at a sequencer position that no row of its table lists for its
  command: "A step not listed does not exist" (R127, R160). Safe: no run from reset gets there (log 23). -/
  | noSuchStep (u : UnitId)
  deriving DecidableEq, Repr

/-- Why an instruction has no meaning. -/
inductive Refusal where
  /-- Raised by an arm of `exec` that has no meaning yet. Safe. No arm uses it. -/
  | notModelled (mnemonic : String)
  deriving DecidableEq, Repr

/-! ## Reset values (R46, R250, R251) -/

/-- FPC at the values of R46 (the unspecified ones: log 2), with the NVM device as it is. -/
def Fpc.atReset (c : Config) (nvm : Nvm) (trace : List NvmCall) : Fpc where
  scratch := List.replicate c.pageBytes 0#8
  phase := .idle
  pos := .ready
  row := 0
  inrun := false
  op := .none
  n := 0#16
  data := []
  busy := false
  opc := 0#8
  rsp := []
  dout := []
  diag := []
  port := ⟨[], []⟩
  trace := trace
  nvm := nvm

/-- EWS at the values of R46 (the unspecified ones: log 2), with its collaborators as they are. -/
def Ews.atReset (c : Config) (eeprom : Eeprom) (clock : Clock) (sched : List EwsMove) (trace : List BusCall) : Ews where
  addr := 0#17
  op := .none
  n := 0#16
  data := []
  i := 0
  page := 0
  pbuf := List.replicate c.eePage 0#8
  txnOpen := false
  t0 := 0
  timedOut := false
  pos := .ready
  busy := false
  opAddr := 0#16
  ri := 0
  rx := []
  opc := 0#8
  rsp := []
  dout := []
  diag := []
  port := ⟨[], []⟩
  trace := trace
  eeprom := eeprom
  clock := clock
  sched := sched

/-- RPA at the values of R46 (the unspecified ones: log 2); the ring holds no byte written since reset (log 4). -/
def Rpa.atReset (draws : Nat) : Rpa where
  mem := []
  cap := 0#16
  rd := 0#16
  wr := 0#16
  op := .none
  n := 0#16
  data := []
  busy := false
  opCap := 0#16
  opRd := 0#16
  opWr := 0#16
  opc := 0#8
  rsp := []
  dout := []
  diag := []
  port := ⟨[], []⟩
  draws := draws

/-- The NVM device before the first command: nothing listed, not busy, ideal (R79, logs 3, 7, 25). -/
def Nvm.initial : Nvm where
  flash := []
  busy := false
  eraseCount := 0
  rowWriteCount := 0
  regionAddr := 0
  regionLen := 0
  sched := []
  stalled := false
  draws := 0

/-- The EEPROM before the first command: nothing listed, bus idle, not committing, ideal (R79, logs 3, 8, 25). -/
def Eeprom.initial : Eeprom where
  ee := []
  ptr := 0
  hi := 0#8
  mode := .idle
  got := 0
  commit := false
  stalled := false
  draws := 0

/-- The machine right after reset (R46, R251), in the configuration `CFG_T` (log 1), with no host move pending. -/
def State.reset : State where
  cfg := Config.cfgT
  fpc := Fpc.atReset Config.cfgT Nvm.initial []
  ews := Ews.atReset Config.cfgT Eeprom.initial ⟨0⟩ [] []
  rpa := Rpa.atReset 0
  host := []
  turn := .fpc

end Sys2Proof.Machine
end

