-- ==== Sys2Proof/Machine/Ops.lean ====
section
/-! DEFINITION. The named operations every command is made of: byte memories, the collaborator calls of 00_scope.md R11 with
the contracts of 20_memory.md R60 to R78, ports, responses, completion, refusal and reset. -/

namespace Sys2Proof.Machine

/-! ## Byte memories (R50, R54) -/

/-- The listed byte at an address. -/
def Memory.get? : Memory → Nat → Option Byte
  | [], _ => none
  | (k, v) :: m, a => if k = a then some v else Memory.get? m a

/-- What an address of a space reads as: the listed byte, else what an unlisted address of that space reads as. -/
def Memory.read? (sp : Space) (m : Memory) (a : Nat) : Option Byte :=
  match m.get? a with
  | some b => some b
  | none => sp.unlisted

/-- Write one byte, keeping the canonical form. -/
def Memory.set (sp : Space) : Memory → Nat → Byte → Memory
  | [], a, b => if sp.unlisted = some b then [] else [(a, b)]
  | (k, v) :: m, a, b =>
    if a < k then
      if sp.unlisted = some b then (k, v) :: m else (a, b) :: (k, v) :: m
    else if a = k then
      if sp.unlisted = some b then m else (a, b) :: m
    else (k, v) :: Memory.set sp m a b

/-- Write a sequence of bytes, element `k` at `a + k` (R54). -/
def Memory.setBytes (sp : Space) : Memory → Nat → List Byte → Memory
  | m, _, [] => m
  | m, a, b :: bs => Memory.setBytes sp (m.set sp a b) (a + 1) bs

/-- The byte at an address of a space whose unlisted addresses read as a byte (flash, EEPROM). -/
def Memory.byte (sp : Space) (m : Memory) (a : Nat) : Byte := (m.read? sp a).getD 0#8

/-- The `n` bytes from `a` on, lowest address first (R54). -/
def Memory.bytes (sp : Space) (m : Memory) (a n : Nat) : List Byte :=
  (List.range n).map (fun k => m.byte sp (a + k))

/-- `n` free bytes of a collaborator, from its draw number `d` on. -/
def freeBytes (free : Nat → Byte) (d n : Nat) : List Byte := (List.range n).map (fun k => free (d + k))

/-- `MemRead(RING, a, n)`: a byte never written since reset is a free value (R33, U9, log 4). -/
def ringBytes (m : Memory) (d a n : Nat) : List Byte :=
  (List.range n).map (fun k => (m.read? .ring (a + k)).getD (Config.freeRing (d + k)))

/-! ## The NVM primitive (R60 to R67) -/

/-- The device step `DONE`, enabled when busy (R64). -/
def Nvm.takeDone (d : Nvm) : Nvm := { d with busy := false }

/-- What the device does before an FPC sequencer step: `DONE` or nothing, as its schedule says (R66, log 7). -/
def Nvm.moves (d : Nvm) : Nvm :=
  match d.sched with
  | [] => if d.stalled then d else d.takeDone
  | true :: rest => { d.takeDone with sched := rest }
  | false :: rest => { d with sched := rest }

/-- `NVM.PageErase(a)` (R61, R64). Started while the device is busy, it leaves any value in the page (R253 not met, log 5). -/
def Nvm.pageErase (c : Config) (a : Nat) (d : Nvm) : Nvm :=
  let content := if d.busy then freeBytes Config.freeNvm d.draws c.pageBytes else List.replicate c.pageBytes 0xFF#8
  { d with
    flash := d.flash.setBytes .flash a content
    busy := true
    eraseCount := d.eraseCount + 1
    regionAddr := a
    regionLen := c.pageBytes
    draws := if d.busy then d.draws + c.pageBytes else d.draws }

/-- The device's requirement on `RowWrite`: not busy, the row all 0xFF (R62, R64). -/
def Nvm.rowReady (c : Config) (a : Nat) (d : Nvm) : Bool :=
  !d.busy && (d.flash.bytes .flash a c.rowBytes).all (fun b => b == 0xFF#8)

/-- `NVM.RowWrite(buf, a)` (R62, R64). Where its requirement fails, it leaves any value in the row (U4, log 5). -/
def Nvm.rowWrite (c : Config) (buf : List Byte) (a : Nat) (d : Nvm) : Nvm :=
  let content := if d.rowReady c a then buf else freeBytes Config.freeNvm d.draws c.rowBytes
  { d with
    flash := d.flash.setBytes .flash a content
    busy := true
    rowWriteCount := d.rowWriteCount + 1
    regionAddr := a
    regionLen := c.rowBytes
    draws := if d.rowReady c a then d.draws else d.draws + c.rowBytes }

/-- The bytes `NVM.Read(n, a)` returns (R64, R65): any bytes while the device is busy (U2, log 5). -/
def Nvm.readResult (n a : Nat) (d : Nvm) : List Byte :=
  if d.busy then freeBytes Config.freeNvm d.draws n else d.flash.bytes .flash a n

/-- The device after `NVM.Read(n, a)`: a read has no effect on it (R59); the model counts the free bytes it drew. -/
def Nvm.afterRead (n : Nat) (d : Nvm) : Nvm :=
  if d.busy then { d with draws := d.draws + n } else d

/-- A reset that cuts a device operation leaves any value in the bytes it touches (R252, U13, log 16). -/
def Nvm.cut (d : Nvm) : Nvm :=
  if d.busy then
    { d with
      flash := d.flash.setBytes .flash d.regionAddr (freeBytes Config.freeNvm d.draws d.regionLen)
      draws := d.draws + d.regionLen }
  else d

namespace Fpc

/-- The device's move before a sequencer step (R66). -/
def moves (f : Fpc) : Fpc := { f with nvm := f.nvm.moves }

/-- FPC calls `NVM.PageErase(a)`. -/
def callPageErase (c : Config) (a : Nat) (f : Fpc) : Fpc :=
  { f with nvm := f.nvm.pageErase c a, trace := .pageErase a :: f.trace }

/-- FPC calls `NVM.RowWrite(buf, a)`. -/
def callRowWrite (c : Config) (buf : List Byte) (a : Nat) (f : Fpc) : Fpc :=
  { f with nvm := f.nvm.rowWrite c buf a, trace := .rowWrite buf a :: f.trace }

/-- FPC calls `NVM.IsBusy()`, which returns `nvm_busy` (R63, R64). -/
def callIsBusy (f : Fpc) : Fpc := { f with trace := .isBusy f.nvm.busy :: f.trace }

/-- FPC calls `NVM.Read(n, a)`. -/
def callRead (n a : Nat) (f : Fpc) : Fpc :=
  { f with nvm := f.nvm.afterRead n, trace := .read n a (f.nvm.readResult n a) :: f.trace }

end Fpc

/-! ## The EEPROM device (R74 to R77) -/

namespace Eeprom

/-- The device step `DONE`, enabled while committing (R75, R77). -/
def takeDone (e : Eeprom) : Eeprom := { e with commit := false }

/-- `BUS.Start()` at the device (R75). -/
def start (e : Eeprom) : Eeprom := { e with mode := .ctrl, got := 0 }

/-- `BUS.Stop()` at the device: a write transaction with data starts the commit (R75, R77). -/
def stop (e : Eeprom) : Eeprom :=
  { e with mode := .idle, commit := if e.mode = .wData ∧ 1 ≤ e.got then true else e.commit }

/-- The acknowledge `BUS.Send(b)` returns (R75). -/
def sendAck (c : Config) (b : Byte) (e : Eeprom) : Bool :=
  match e.mode with
  | .ctrl => !e.commit && (b == c.ctrlW || b == c.ctrlR)
  | .aHi => true
  | .aLo => true
  | .wData => true
  | .rData => false
  | .ignore => false
  | .idle => false

/-- The write pointer after a data byte: it wraps inside the page (R75). -/
def nextWritePtr (c : Config) (p : Nat) : Nat := p / c.eePage * c.eePage + (p + 1) % c.eePage

/-- The device after `BUS.Send(b)` (R75). -/
def afterSend (c : Config) (b : Byte) (e : Eeprom) : Eeprom :=
  match e.mode with
  | .ctrl =>
    if e.commit then { e with mode := .ignore }
    else if b = c.ctrlW then { e with mode := .aHi }
    else if b = c.ctrlR then { e with mode := .rData }
    else { e with mode := .ignore }
  | .aHi => { e with hi := b, mode := .aLo }
  | .aLo => { e with ptr := (e.hi ++ b).toNat % c.eeSize, mode := .wData }
  | .wData => { e with ee := e.ee.set .eeprom e.ptr b, got := e.got + 1, ptr := nextWritePtr c e.ptr }
  | .rData => e
  | .ignore => e
  | .idle => e

/-- The byte `BUS.Receive` returns (R76): any byte from a device not in its read state (U10, log 6). -/
def receiveResult (e : Eeprom) : Byte :=
  match e.mode with
  | .rData => e.ee.byte .eeprom e.ptr
  | .ctrl | .aHi | .aLo | .wData | .ignore | .idle => Config.freeBus e.draws

/-- The device after `BUS.Receive(ack)` (R76). -/
def afterReceive (c : Config) (ack : Bool) (e : Eeprom) : Eeprom :=
  match e.mode with
  | .rData => { e with ptr := (e.ptr + 1) % c.eeSize, mode := if ack then .rData else .ignore }
  | .ctrl | .aHi | .aLo | .wData | .ignore | .idle => { e with draws := e.draws + 1 }

/-- The addresses of the data bytes taken in the open write transaction, the last one first (R75). -/
def openBytes (c : Config) (e : Eeprom) : List Nat :=
  (List.range (min e.got c.eePage)).map
    (fun j => e.ptr / c.eePage * c.eePage + (e.ptr % c.eePage + c.eePage - 1 - j) % c.eePage)

/-- Put free bytes at the given addresses. -/
def spoil : Memory → List Nat → Nat → Memory
  | m, [], _ => m
  | m, a :: as, d => spoil (m.set .eeprom a (Config.freeBus d)) as (d + 1)

/-- A reset inside a write transaction leaves any value in the bytes of that transaction, which no stop commits (R252,
U13, log 16); the device itself keeps its state (R250). -/
def cut (c : Config) (e : Eeprom) : Eeprom :=
  if e.mode = .wData then
    { e with ee := spoil e.ee (e.openBytes c) e.draws, draws := e.draws + (e.openBytes c).length }
  else e

end Eeprom

/-! ## The bus primitive and the tick source (R70 to R73, R78) -/

/-- Elapsed ticks since `ews_t0`, modulo `2^TICK_BITS` (R152). -/
def elapsed (c : Config) (now t0 : Nat) : Nat := (now + 2 ^ c.tickBits - t0 % 2 ^ c.tickBits) % 2 ^ c.tickBits

/-- The positions between StartSequence's first `TICK.Now()` and its last possible one: elapsed time is being measured
(R151). -/
def EwsPos.timing : EwsPos → Bool
  | .ssST | .ssCT | .ssCK => true
  | .ready | .r1 | .r1Ctl | .r1Hi | .r1Lo | .r1Stop | .r2 | .r2Ctl | .r2Rx | .r2Stop | .w0 | .wb | .wx | .ws | .ea | .pr => false
  | .ssT0 | .ssHI | .ssLO => false

namespace Ews

/-- How far the tick really advances where the tick source would advance by `k`: while StartSequence measures, by so much at
most that fewer than `2^TICK_BITS` ticks have passed since `ews_t0`, so that elapsed time never decreases (R78); else by `k`. -/
def tickAdvance (c : Config) (e : Ews) (k : Nat) : Nat :=
  if e.pos.timing then min k (2 ^ c.tickBits - 1 - elapsed c e.clock.tick e.t0) else k

/-- What the EEPROM and the tick source do before an EWS sequencer step (R77, R78, log 8). -/
def moves (c : Config) (e : Ews) : Ews :=
  match e.sched with
  | [] => if e.eeprom.stalled then e else { e with eeprom := e.eeprom.takeDone }
  | m :: rest =>
    { e with
      eeprom := if m.done then e.eeprom.takeDone else e.eeprom
      clock := ⟨(e.clock.tick + e.tickAdvance c m.ticks) % 2 ^ c.tickBits⟩
      sched := rest }

/-- EWS calls `TICK.Now()`, which returns `tick` (R78). -/
def callNow (e : Ews) : Ews := { e with trace := .now e.clock.tick :: e.trace }

/-- EWS calls `BUS.Start()` and notes the open transaction (R71, R29). -/
def callStart (e : Ews) : Ews :=
  { e with eeprom := e.eeprom.start, txnOpen := true, trace := .start :: e.trace }

/-- EWS calls `BUS.Stop()` and notes the closed transaction (R71, R29). -/
def callStop (e : Ews) : Ews :=
  { e with eeprom := e.eeprom.stop, txnOpen := false, trace := .stop :: e.trace }

/-- EWS calls `BUS.Send(b)` (R72). -/
def callSend (c : Config) (b : Byte) (e : Ews) : Ews :=
  { e with eeprom := e.eeprom.afterSend c b, trace := .send b (e.eeprom.sendAck c b) :: e.trace }

/-- EWS calls `BUS.Receive(ack)` and keeps the byte (R73, R153). -/
def callReceive (c : Config) (ack : Bool) (e : Ews) : Ews :=
  { e with
    eeprom := e.eeprom.afterReceive c ack
    rx := e.rx ++ [e.eeprom.receiveResult]
    trace := .receive ack e.eeprom.receiveResult :: e.trace }

end Ews

/-! ## Responses: completion and refusal (R98, R99, R220, R223) -/

/-- The result codes (R99). -/
inductive ResultCode where
  | ok
  | okTimedOut
  | errIllegal
  | errPrecond
  deriving DecidableEq, Repr

/-- `RESULT` (R99). -/
def ResultCode.toByte : ResultCode → Byte
  | .ok => 0x00#8
  | .okTimedOut => 0x01#8
  | .errIllegal => 0x80#8
  | .errPrecond => 0x81#8

/-- The response word `rw[31:0]` (R98). -/
def response (opc : Byte) (r : ResultCode) (value : Half) : Word32 := opc ++ r.toByte ++ value

/-- `complete(OK, 0)` of FPC (R120). -/
def Fpc.complete (f : Fpc) : Fpc :=
  { f with op := .none, pos := .ready, busy := false, rsp := f.rsp ++ [response f.opc .ok 0#16] }

/-- `raise Refuse(code)` at FPC's port: the response and nothing else (R223, R224). -/
def Fpc.refuse (opc : Byte) (r : ResultCode) (f : Fpc) : Fpc := { f with rsp := f.rsp ++ [response opc r 0#16] }

/-- The result of an EWS command that ran to its end (R150, R222). -/
def Ews.result (e : Ews) : ResultCode := if e.timedOut then .okTimedOut else .ok

/-- `complete(...)` of EWS (R150). -/
def Ews.complete (e : Ews) : Ews :=
  { e with op := .none, pos := .ready, busy := false, rsp := e.rsp ++ [response e.opc e.result 0#16] }

/-- `raise Refuse(code)` at EWS's port (R223, R224). -/
def Ews.refuse (opc : Byte) (r : ResultCode) (e : Ews) : Ews := { e with rsp := e.rsp ++ [response opc r 0#16] }

/-- `complete(OK, value)` of RPA (R36, R98). -/
def Rpa.complete (value : Half) (r : Rpa) : Rpa :=
  { r with op := .none, busy := false, rsp := r.rsp ++ [response r.opc .ok value] }

/-- `raise Refuse(code)` at RPA's port (R223, R224). -/
def Rpa.refuse (opc : Byte) (code : ResultCode) (r : Rpa) : Rpa := { r with rsp := r.rsp ++ [response opc code 0#16] }

/-! ## Ports (R90, R100) -/

/-- The ports of a unit. -/
def State.port (u : UnitId) (s : State) : Port :=
  match u with
  | .fpc => s.fpc.port
  | .ews => s.ews.port
  | .rpa => s.rpa.port

/-- The response stream of a unit (R44). -/
def State.responses (u : UnitId) (s : State) : List Word32 :=
  match u with
  | .fpc => s.fpc.rsp
  | .ews => s.ews.rsp
  | .rpa => s.rpa.rsp

/-- The response stream of a unit where its port is a byte stream: every word most significant byte first (R95). -/
def State.responseBytes (u : UnitId) (s : State) : List Byte := (s.responses u).flatMap Rw.bytes

/-- The machine with other ports at a unit. -/
def State.setPort (u : UnitId) (p : Port) (s : State) : State :=
  match u with
  | .fpc => { s with fpc := { s.fpc with port := p } }
  | .ews => { s with ews := { s.ews with port := p } }
  | .rpa => { s with rpa := { s.rpa with port := p } }

/-- A unit refuses a command word (R223, R224). -/
def State.refuse (u : UnitId) (opc : Byte) (r : ResultCode) (s : State) : State :=
  match u with
  | .fpc => { s with fpc := s.fpc.refuse opc r }
  | .ews => { s with ews := s.ews.refuse opc r }
  | .rpa => { s with rpa := s.rpa.refuse opc r }

/-- The host presents a command word and payload bytes on a unit's ports, behind what already waits there (R90). -/
def State.present (u : UnitId) (cw : Word64) (payload : List Byte) (s : State) : State :=
  s.setPort u ⟨(s.port u).cmd ++ [cw], (s.port u).pay ++ payload⟩

/-! ## Reset (R250 to R252) -/

/-- Reset: every piece of block state at its value of R46, ports empty, a running command abandoned; the collaborators
keep their state, but for the bytes of an operation or transaction that was cut (R250, R252). -/
def State.blockReset (s : State) : State :=
  { s with
    fpc := Fpc.atReset s.cfg s.fpc.nvm.cut s.fpc.trace
    ews := Ews.atReset s.cfg (s.ews.eeprom.cut s.cfg) s.ews.clock s.ews.sched s.ews.trace
    rpa := Rpa.atReset s.rpa.draws }

/-- A move of the host lands (R262). -/
def State.hostMove (m : HostMove) (s : State) : State :=
  match m with
  | .present u cw payload => s.present u cw payload
  | .readStatus _ => s
  | .reset => s.blockReset

/-! ## Running a sequencer -/

/-- Run a sequencer: one step after another until `stop` holds or `fuel` steps are made; `none` where a step does not
exist (R127). -/
def runSeq {σ : Type} (seq : σ → Option σ) (stop : σ → Bool) : Nat → σ → Option σ
  | 0, x => some x
  | fuel + 1, x =>
    match seq x with
    | none => none
    | some y => if stop y then some y else runSeq seq stop fuel y

/-- How many sequencer steps the running command may make before a move of the host lands; `full` if none is pending
(R262, log 12). -/
def State.budget (full : Nat) (s : State) : Nat :=
  match s.host with
  | [] => full
  | (k, _) :: _ => k

/-- How many sequencer steps a command may make after its acceptance, itself a sequencer step (R127, R187), before a move of the
host lands; `full` if none is pending (R262, log 12). -/
def State.budgetAccepted (full : Nat) (s : State) : Nat :=
  match s.host with
  | [] => full
  | (k, _) :: _ => k - 1

end Sys2Proof.Machine
end

