-- ==== Sys2Proof/Machine/Operands.lean ====
section
/-! DEFINITION. Operand forms: address arithmetic, preconditions (30_encoding.md R102), the bytes and addresses an EWS
command works on, and the cursor arithmetic of the ring (42_ringbuffer_pointer_arith.md R180). -/

namespace Sys2Proof.Machine

/-! ## FPC -/

/-- `LEN <= PAGE_BYTES` (R102). -/
def fpcLengthOk (c : Config) (n : Half) : Bool := decide (n.toNat ≤ c.pageBytes)

/-- The NVM address of hardware row `r` (R126). -/
def rowAddress (c : Config) (r : Nat) : Nat := c.pageBase + r * c.rowBytes

/-- The NVM address of diagnostic row `r` (R204). -/
def printAddress (c : Config) (r : Nat) : Nat := c.pageBase + Config.printRowBytes * r

/-- The row buffer of row `r`, `scratch[r*ROW_BYTES .. (r+1)*ROW_BYTES-1]` (R126). -/
def rowBuffer (c : Config) (scratch : List Byte) (r : Nat) : List Byte :=
  (scratch.drop (r * c.rowBytes)).take c.rowBytes

/-- What `F_FILL` leaves in scratch: the payload over a fill of 0xFF (R123, R127). -/
def stagedPage (c : Config) (n : Half) (data : List Byte) : List Byte :=
  data ++ List.replicate (c.pageBytes - n.toNat) 0xFF#8

/-! ## EWS -/

/-- `LEN >= 1` and `ADDR + LEN <= EE_SIZE`, the sum formed without overflow (R102, R188). -/
def ewsRangeOk (c : Config) (address n : Half) : Bool :=
  decide (1 ≤ n.toNat) && decide (address.toNat + n.toNat ≤ c.eeSize)

/-- `EE_PAGE mod 32 = 0` (R102, R205). -/
def ewsPrintOk (c : Config) : Bool := decide (c.eePage % Config.printRowBytes = 0)

/-- The high byte of an EEPROM address, sent first (R55). -/
def addressHi (a : Nat) : Byte := BitVec.ofNat 8 (a / 256)

/-- The low byte of an EEPROM address, sent second (R55). -/
def addressLo (a : Nat) : Byte := BitVec.ofNat 8 a

/-- The `address` an EWS command's body works at: the operand, or the page's first address (R153, R154, R155, R205). -/
def Ews.bodyAddress (c : Config) (e : Ews) : Nat :=
  match e.op with
  | .eraseAll | .print => e.page * c.eePage
  | .read | .write | .none => e.opAddr.toNat

/-- The `n` an EWS command's body works with (R153, R154, R155, R205). -/
def Ews.bodyLength (c : Config) (e : Ews) : Nat :=
  match e.op with
  | .eraseAll | .print => c.eePage
  | .read | .write | .none => e.n.toNat

/-- `data[k]` of an EWS command's body: the payload, or 0xFF for EWS.ERASEALL (R154, R155). -/
def Ews.bodyByte (e : Ews) (k : Nat) : Byte :=
  match e.op with
  | .eraseAll => 0xFF#8
  | .read | .write | .print | .none => e.data.getD k 0#8

/-- The `address` StartSequence is run with: `ews_addr` inside EWS.WRITE's body, the body's address inside EWS.READ's (R151,
R153, R154). -/
def Ews.startAddress (c : Config) (e : Ews) : Nat :=
  match e.op with
  | .write | .eraseAll => e.addr.toNat
  | .read | .print | .none => e.bodyAddress c

/-- The number of transactions of a write (R154). -/
def transactions (c : Config) (address n : Nat) : Nat := (address + n - 1) / c.eePage - address / c.eePage + 1

/-! ## RPA -/

/-- The four results of `rpa_arith` (R180). -/
structure RingMove where
  wrap : Bool
  head : Nat
  tail : Nat
  next : Nat
  deriving DecidableEq, Repr

/-- `rpa_arith(cap, cursor, n)` (R180): the wrap test is `>=`. -/
def rpaArith (cap cursor n : Nat) : RingMove :=
  let wrap := decide (cap ≤ cursor + n)
  let head := if wrap then cap - cursor else n
  { wrap := wrap, head := head, tail := n - head, next := (cursor + n) % cap }

/-- `rb_cap >= 1` and `LEN <= rb_cap` (R102, R184). -/
def ringLengthOk (cap n : Half) : Bool := decide (1 ≤ cap.toNat) && decide (n.toNat ≤ cap.toNat)

/-- `1 <= CAP <= RB_MEM_BYTES` and `RD < CAP` and `WR < CAP` (R102, R181). -/
def ringConfigOk (c : Config) (cap rd wr : Half) : Bool :=
  decide (1 ≤ cap.toNat) && decide (cap.toNat ≤ c.rbMemBytes) && decide (rd.toNat < cap.toNat) && decide (wr.toNat < cap.toNat)

end Sys2Proof.Machine
end

