-- ==== Sys2Proof/Machine/Flags.lean ====
section
/-! DEFINITION. The boolean conditions of 10_state.md R37, each as the rule that tests it computes it, and the status words
of R38. -/

namespace Sys2Proof.Machine

/-! ## Conditions (R37). "NVM busy" is `nvm.busy` and "ack" is `Eeprom.sendAck`; "wrap" is in `rpaArith`. -/

/-- "differ": the first `n` bytes of scratch are not the payload (R37, R124). -/
def differ (scratch : List Byte) (n : Half) (data : List Byte) : Bool := scratch.take n.toNat != data

/-- "blank": every byte of a diagnostic row is 0xFF (R37, R204). -/
def blank (row : List Byte) : Bool := row.all (fun b => b == 0xFF#8)

/-- "timed out": elapsed ticks `>= TIMEOUT_TICKS` (R37, R152). -/
def pollTimedOut (c : Config) (now t0 : Nat) : Bool := decide (c.timeoutTicks ≤ elapsed c now t0)

/-- "page crossed": the incremented address begins a page (R37, R154); it is tested only with a byte still to send. -/
def pageCrossed (c : Config) (addr : BitVec 17) : Bool := decide (addr.toNat % c.eePage = 0)

/-! ## Status words (R38) -/

/-- The encoding of `fpc_state` (R23). -/
def FpcPhase.code : FpcPhase → BitVec 2
  | .idle => 0#2
  | .erasing => 1#2
  | .writing => 2#2

/-- `FPC_STATUS` (R38). -/
def fpcStatus (s : State) : Word32 := (0#29) ++ BitVec.ofBool s.fpc.busy ++ s.fpc.phase.code

/-- `EWS_STATUS` (R38). -/
def ewsStatus (s : State) : Word32 :=
  (0#29) ++ BitVec.ofBool s.ews.timedOut ++ BitVec.ofBool s.ews.txnOpen ++ BitVec.ofBool s.ews.busy

/-- `RPA_STATUS` (R38). -/
def rpaStatus (s : State) : Word32 := s.rpa.cap ++ (0#15) ++ BitVec.ofBool s.rpa.busy

/-- `RPA_CURSORS` (R38). -/
def rpaCursors (s : State) : Word32 := s.rpa.rd ++ s.rpa.wr

end Sys2Proof.Machine
end

