-- ==== Sys2Proof/Machine/Diag.lean ====
section
/-! DEFINITION. The diagnostic line format (43_diagnostic_print.md R200 to R203). -/

namespace Sys2Proof.Machine

/-- A hexadecimal digit, uppercase (R200). -/
def hexDigit (d : Nat) : Char :=
  match d % 16 with
  | 0 => '0' | 1 => '1' | 2 => '2' | 3 => '3' | 4 => '4' | 5 => '5' | 6 => '6' | 7 => '7'
  | 8 => '8' | 9 => '9' | 10 => 'A' | 11 => 'B' | 12 => 'C' | 13 => 'D' | 14 => 'E' | _ => 'F'

/-- `HEX2(b)`, high nibble first (R200). -/
def hex2 (b : Byte) : List Char := [hexDigit (b.toNat / 16), hexDigit b.toNat]

/-- `HEX8(a)`, most significant digit first, zero-padded (R200). -/
def hex8 (a : Nat) : List Char :=
  [hexDigit (a / 0x10000000), hexDigit (a / 0x1000000), hexDigit (a / 0x100000), hexDigit (a / 0x10000),
   hexDigit (a / 0x1000), hexDigit (a / 0x100), hexDigit (a / 0x10), hexDigit a]

/-- `cell(b)`, the three characters that show one byte (R201). -/
def cell (b : Byte) : List Char :=
  if 0x20 ≤ b.toNat ∧ b.toNat ≤ 0x7E then [' ', Char.ofNat b.toNat, ' '] else hex2 b ++ [' ']

/-- `line(prefix, row)` (R202). -/
def line (pre : List Char) (row : List Byte) : List Char := pre ++ [' ', '|', ' '] ++ row.flatMap cell ++ ['\n']

/-- The lines of one EEPROM page, every row with its address, none suppressed (R205). -/
def pageLines (c : Config) (page : Nat) (buf : List Byte) : List Char :=
  (List.range (c.eePage / Config.printRowBytes)).flatMap (fun j =>
    line (hex8 (page * c.eePage + Config.printRowBytes * j))
      ((buf.drop (Config.printRowBytes * j)).take Config.printRowBytes))

end Sys2Proof.Machine
end

