-- ==== Sys2Proof/Machine/Ews.lean ====
section
/-! DEFINITION. EWS: the sequencer (41_eeprom_write_splitter.md R150 to R160), StartSequence (R151) inside it, and the
meanings of its four commands (R153 to R155, 43_diagnostic_print.md R205). -/

namespace Sys2Proof.Machine

/-! ## The sequencer -/

/-- After the last call of EWS.READ's body (R153) or of one page of EWS.PRINT (R205): the bytes go out, and the command ends
or goes to its next page. -/
def Ews.readDone (c : Config) (e : Ews) : Option Ews :=
  match e.op with
  | .read => some { e with dout := e.dout ++ e.rx }.complete
  | .print =>
    let g := { e with pbuf := e.rx, diag := e.diag ++ pageLines c e.page e.rx }
    if e.page + 1 < c.eePages then some { g with page := e.page + 1, pos := .pr }
    else if e.page + 1 = c.eePages then some g.complete
    else none
  | .none | .write | .eraseAll => none

/-- After the last call of EWS.WRITE's body (R154) or of one page of EWS.ERASEALL (R155). -/
def Ews.writeDone (c : Config) (e : Ews) : Option Ews :=
  match e.op with
  | .write => some e.complete
  | .eraseAll =>
    if e.page + 1 < c.eePages then some { e with page := e.page + 1, pos := .ea }
    else if e.page + 1 = c.eePages then some e.complete
    else none
  | .none | .read | .print => none

/-- Where StartSequence returns to: the byte loop of EWS.WRITE's body or the stop of EWS.READ's first transaction (R153,
R154). -/
def Ews.startReturn (e : Ews) : Option EwsPos :=
  match e.op with
  | .write | .eraseAll => some .wb
  | .read | .print => some .r1Stop
  | .none => none

/-- Where the byte loop goes after a byte, `addr` and `i` being the incremented ones (R154). -/
def afterByte (c : Config) (len : Nat) (addr : BitVec 17) (i : Nat) : EwsPos :=
  if i < len then (if pageCrossed c addr then .wx else .wb) else .ws

/-- The pseudocode line EWS is at, the collaborators having moved (R151, R153, R154, R155, R160, R205); `none` where no line
fits the command. -/
def ewsLine (c : Config) (e : Ews) : Option Ews :=
  match e.pos with
  | .ready => none
  -- E_R1, E_R2 (R153)
  | .r1 => if c.ewsReadAckpoll then some { e with pos := .ssT0 } else some { e.callStart with pos := .r1Ctl }
  | .r1Ctl => some { e.callSend c c.ctrlW with pos := .r1Hi }
  | .r1Hi => some { e.callSend c (addressHi (e.bodyAddress c)) with pos := .r1Lo }
  | .r1Lo => some { e.callSend c (addressLo (e.bodyAddress c)) with pos := .r1Stop }
  | .r1Stop => some { e.callStop with pos := .r2 }
  | .r2 => some { e.callStart with pos := .r2Ctl }
  | .r2Ctl => some { e.callSend c c.ctrlR with ri := 0, rx := [], pos := .r2Rx }
  | .r2Rx =>
    some { e.callReceive c (decide (e.ri + 1 ≠ e.bodyLength c)) with
           ri := e.ri + 1, pos := if e.ri + 1 < e.bodyLength c then .r2Rx else .r2Stop }
  | .r2Stop => Ews.readDone c e.callStop
  -- E_W0, E_WB, E_WX, E_WS (R154)
  | .w0 => some { e with addr := BitVec.ofNat 17 (e.bodyAddress c), i := 0, pos := .ssT0 }
  | .wb =>
    some { e.callSend c (e.bodyByte e.i) with
           addr := e.addr + 1, i := e.i + 1, pos := afterByte c (e.bodyLength c) (e.addr + 1) (e.i + 1) }
  | .wx => some { e.callStop with pos := .ssT0 }
  | .ws => Ews.writeDone c e.callStop
  -- E_EA (R155), E_PR (R205): the heads of the page loops
  | .ea => some { e with pos := .w0 }
  | .pr => some { e with pos := .r1 }
  -- StartSequence (R151)
  | .ssT0 => some { e.callNow with t0 := e.clock.tick, pos := .ssST }
  | .ssST => some { e.callStart with pos := .ssCT }
  | .ssCT => some { e.callSend c c.ctrlW with pos := if e.eeprom.sendAck c c.ctrlW then .ssHI else .ssCK }
  | .ssCK =>
    if pollTimedOut c e.clock.tick e.t0 then some { e.callNow with timedOut := true, pos := .ssHI }
    else some { e.callNow with pos := .ssST }
  | .ssHI => some { e.callSend c (addressHi (e.startAddress c)) with pos := .ssLO }
  | .ssLO => e.startReturn.map (fun p => { e.callSend c (addressLo (e.startAddress c)) with pos := p })

/-- One step of the EWS side: the EEPROM and the tick source move or not (R77, R78), then EWS makes one step (R160). -/
def ewsSeq (c : Config) (e : Ews) : Option Ews := ewsLine c (e.moves c)

/-- EWS is back at the top of the acknowledge-poll loop with an EEPROM that will take no `DONE` and a tick that will not
move: the loop does not end (R222, U11). -/
def Ews.hung (c : Config) (e : Ews) : Bool :=
  e.eeprom.commit && e.eeprom.stalled && e.sched.isEmpty && e.pos == .ssST && !pollTimedOut c e.clock.tick e.t0

/-- Where a run of EWS's sequencer ends: the command is complete, or it hangs (R220). -/
def Ews.stops (c : Config) (e : Ews) : Bool := !e.busy || e.hung c

/-- Enough sequencer steps for any EWS command: one per scheduled move of the collaborators, and per byte or page of the
EEPROM no more than sixteen. -/
def ewsFuel (c : Config) (e : Ews) : Nat := e.sched.length + 16 * (c.eeSize + 2)

/-- EWS, in the middle of a command, makes at most so many sequencer steps: fewer where the command ends or hangs. -/
def ewsRun (steps : Nat) (s : State) : Host.Outcome State Fault Refusal :=
  match runSeq (ewsSeq s.cfg) (Ews.stops s.cfg) steps s.ews with
  | some e => .next { s with ews := e }
  | none => .fault (.noSuchStep .ews)

/-- EWS goes on with a command: until it ends, or hangs, or a move of the host lands (log 9). -/
def ewsResume (s : State) : Host.Outcome State Fault Refusal := ewsRun (s.budget (ewsFuel s.cfg s.ews)) s

/-- EWS has just accepted a command: it runs on, unless a move of the host lands right after the acceptance (log 9). -/
def ewsStart (s : State) : Host.Outcome State Fault Refusal := ewsRun (s.budgetAccepted (ewsFuel s.cfg s.ews)) s

/-! ## Acceptance (R97 steps 4 and 5, R150) -/

/-- A command is accepted: the operands are latched, `ews_busy` set, `ews_timed_out` cleared, the page counter at the first
page (R97 step 5, R150, R155, R205). -/
def Ews.accept (op : EwsOp) (start : EwsPos) (opc : Opcode) (address n : Half) (data : List Byte) (e : Ews) : Ews :=
  { e with
    op := op, pos := start, opc := opc.toByte, opAddr := address, n := n, data := data, busy := true, timedOut := false }

/-- An EWS command at its unit: it waits while the unit is busy (R100), is refused where its precondition fails (R97 step 4),
else is accepted and run. -/
def ewsCommand (op : EwsOp) (start : EwsPos) (opc : Opcode) (address n : Half) (data : List Byte) (ok : Bool) (s : State) :
    Host.Outcome State Fault Refusal :=
  if s.ews.busy then .next s
  else if ok then ewsStart { s with ews := s.ews.accept op start opc address n data }
  else .next (s.refuse .ews opc.toByte .errPrecond)

/-! ## The meanings -/

/-- EWS.READ address, n (R153). -/
def execEwsRead (address n : Half) (s : State) : Host.Outcome State Fault Refusal :=
  ewsCommand .read .r1 .ewsRead address n [] (ewsRangeOk s.cfg address n) s

/-- EWS.WRITE address, n, data (R154). -/
def execEwsWrite (address n : Half) (data : List Byte) (s : State) : Host.Outcome State Fault Refusal :=
  ewsCommand .write .w0 .ewsWrite address n data (ewsRangeOk s.cfg address n) s

/-- A command that visits every page, from page 0 on (R155, R205). -/
def ewsPagesCommand (op : EwsOp) (start : EwsPos) (opc : Opcode) (ok : Bool) (s : State) :
    Host.Outcome State Fault Refusal :=
  if s.ews.busy then .next s
  else if ok then
    ewsStart { s with ews := { s.ews.accept op start opc 0#16 0#16 [] with page := 0 } }
  else .next (s.refuse .ews opc.toByte .errPrecond)

/-- EWS.ERASEALL (R155); always accepted (R102). -/
def execEwsEraseAll (s : State) : Host.Outcome State Fault Refusal :=
  ewsPagesCommand .eraseAll .ea .ewsEraseAll true s

/-- EWS.PRINT (R205); accepted when `EE_PAGE mod 32 = 0` (R102). -/
def execEwsPrint (s : State) : Host.Outcome State Fault Refusal :=
  ewsPagesCommand .print .pr .ewsPrint (ewsPrintOk s.cfg) s

end Sys2Proof.Machine
end

