-- ==== Sys2Proof/Machine/Fpc.lean ====
section
/-! DEFINITION. FPC: the sequencer's step relation (40_flash_page_controller.md R127, 43_diagnostic_print.md R206) and the
meanings of its five commands (R120 to R124, R204). -/

namespace Sys2Proof.Machine

/-! ## The sequencer -/

/-- The `F_PR` step's output (R204): the first and the last row and every row that is not blank with its address, the first
of a run of blank interior rows with the marker, the others of the run not at all. -/
def printRow (c : Config) (r : Nat) (inrun : Bool) (row : List Byte) : List Char :=
  if r = 0 ∨ r + 1 = c.printRows ∨ blank row = false then line (hex8 (printAddress c r)) row
  else if inrun then [] else line c.ellipsis row

/-- `fpc_inrun` after the `F_PR` step (R204). -/
def printInrun (c : Config) (r : Nat) (row : List Byte) : Bool :=
  if r = 0 ∨ r + 1 = c.printRows ∨ blank row = false then false else true

/-- The effect of the `F_PR` line on the streams and the run flag, `row` being the bytes just read (R204, R206). -/
def Fpc.emitRow (c : Config) (row : List Byte) (f : Fpc) : Fpc :=
  { f with diag := f.diag ++ printRow c f.row f.inrun row, inrun := printInrun c f.row row }

/-- The row of R127's table for the position FPC is at, the device having moved; `none` where no row is listed. -/
def fpcRow (c : Config) (f : Fpc) : Option Fpc :=
  match f.pos with
  | .ready => none
  | .rd =>
    some { f.callRead f.n.toNat c.pageBase with
           dout := f.dout ++ f.nvm.readResult f.n.toNat c.pageBase }.complete
  | .ucmp =>
    let page := f.nvm.readResult c.pageBytes c.pageBase
    let g := { f.callRead c.pageBytes c.pageBase with scratch := page }
    if differ page f.n f.data then some { g with op := .write, pos := .er } else some g.complete
  | .er => some { f.callPageErase c c.pageBase with phase := .erasing, pos := .ep }
  | .ep =>
    if f.nvm.busy then some f.callIsBusy
    else
      match f.op with
      | .erase => some { f.callIsBusy with phase := .idle }.complete
      | .write => some { f.callIsBusy with phase := .writing, pos := .fill }
      | .none | .read | .update | .print => none
  | .fill => some { f with scratch := stagedPage c f.n f.data, row := 0, pos := .rw }
  | .rw =>
    if f.row < c.rows then
      some { f.callRowWrite c (rowBuffer c f.scratch f.row) (rowAddress c f.row) with pos := .wp }
    else none
  | .wp =>
    if f.nvm.busy then some f.callIsBusy
    else if f.row + 1 < c.rows then some { f.callIsBusy with row := f.row + 1, pos := .rw }
    else if f.row + 1 = c.rows then some { f.callIsBusy with phase := .idle }.complete
    else none
  | .pr =>
    let row := f.nvm.readResult Config.printRowBytes (printAddress c f.row)
    let g := (f.callRead Config.printRowBytes (printAddress c f.row)).emitRow c row
    if f.row + 1 < c.printRows then some { g with row := f.row + 1 }
    else if f.row + 1 = c.printRows then some g.complete
    else none

/-- One step of the FPC side: the device moves or not (R66), then FPC makes one step of its sequencer (R127). -/
def fpcSeq (c : Config) (f : Fpc) : Option Fpc := fpcRow c f.moves

/-- FPC polls a stalled device that will take no `DONE` (R66, R225): the poll loop does not end. -/
def Fpc.hung (f : Fpc) : Bool :=
  f.nvm.busy && f.nvm.stalled && f.nvm.sched.isEmpty && (f.pos == .ep || f.pos == .wp)

/-- Where a run of FPC's sequencer ends: the command is complete, or it hangs (R220). -/
def Fpc.stops (f : Fpc) : Bool := !f.busy || f.hung

/-- Enough sequencer steps for any FPC command (R127): one per scheduled device move, two per hardware row, one per
diagnostic row, four more. -/
def fpcFuel (c : Config) (f : Fpc) : Nat := f.nvm.sched.length + 2 * c.rows + c.printRows + 4

/-- FPC, in the middle of a command, makes at most so many sequencer steps: fewer where the command ends or hangs. -/
def fpcRun (steps : Nat) (s : State) : Host.Outcome State Fault Refusal :=
  match runSeq (fpcSeq s.cfg) Fpc.stops steps s.fpc with
  | some f => .next { s with fpc := f }
  | none => .fault (.noSuchStep .fpc)

/-- FPC goes on with a command: until it ends, or hangs, or a move of the host lands (log 9). -/
def fpcResume (s : State) : Host.Outcome State Fault Refusal := fpcRun (s.budget (fpcFuel s.cfg s.fpc)) s

/-- FPC has just accepted a command: it runs on, unless a move of the host lands right after the acceptance (log 9). -/
def fpcStart (s : State) : Host.Outcome State Fault Refusal := fpcRun (s.budgetAccepted (fpcFuel s.cfg s.fpc)) s

/-! ## Acceptance (R97 steps 4 and 5, R120, R127) -/

/-- FPC takes a command: not busy and `fpc_state = IDLE` (R120). -/
def Fpc.takes (f : Fpc) : Bool := !f.busy && f.phase == .idle

/-- A command is accepted: the operands are latched and `fpc_busy` is set (R97 step 5, R120, R127). -/
def Fpc.accept (op : FpcOp) (start : FpcPos) (opc : Opcode) (n : Half) (data : List Byte) (f : Fpc) : Fpc :=
  { f with op := op, pos := start, opc := opc.toByte, n := n, data := data, busy := true }

/-- An FPC command at its unit: it waits while the unit is busy (R100), is refused where its precondition fails (R97 step 4),
else is accepted and run. -/
def fpcCommand (op : FpcOp) (start : FpcPos) (opc : Opcode) (n : Half) (data : List Byte) (ok : Bool) (s : State) :
    Host.Outcome State Fault Refusal :=
  if s.fpc.takes = false then .next s
  else if ok then fpcStart { s with fpc := s.fpc.accept op start opc n data }
  else .next (s.refuse .fpc opc.toByte .errPrecond)

/-! ## The meanings -/

/-- FPC.READ n (R121). -/
def execFpcRead (n : Half) (s : State) : Host.Outcome State Fault Refusal :=
  fpcCommand .read .rd .fpcRead n [] (fpcLengthOk s.cfg n) s

/-- FPC.WRITE n, data (R123). -/
def execFpcWrite (n : Half) (data : List Byte) (s : State) : Host.Outcome State Fault Refusal :=
  fpcCommand .write .er .fpcWrite n data (fpcLengthOk s.cfg n) s

/-- FPC.UPDATE n, data (R124). -/
def execFpcUpdate (n : Half) (data : List Byte) (s : State) : Host.Outcome State Fault Refusal :=
  fpcCommand .update .ucmp .fpcUpdate n data (fpcLengthOk s.cfg n) s

/-- FPC.ERASE (R122); always accepted (R102). -/
def execFpcErase (s : State) : Host.Outcome State Fault Refusal :=
  fpcCommand .erase .er .fpcErase 0#16 [] true s

/-- FPC.PRINT (R204); always accepted (R102). Acceptance sets `fpc_row` and `fpc_inrun` (R127). -/
def execFpcPrint (s : State) : Host.Outcome State Fault Refusal :=
  if s.fpc.takes = false then .next s
  else fpcCommand .print .pr .fpcPrint 0#16 [] true { s with fpc := { s.fpc with row := 0, inrun := false } }

end Sys2Proof.Machine
end

