-- ==== Sys2Proof/Machine/Rpa.lean ====
section
/-! DEFINITION. RPA: the meanings of its three commands (42_ringbuffer_pointer_arith.md R181 to R187). A command is accepted
in one step; its copy and its cursor update are the next (R187). -/

namespace Sys2Proof.Machine

/-- RPA.CFG after acceptance (R181). -/
def Rpa.doConfig (r : Rpa) : Rpa := { r with cap := r.opCap, rd := r.opRd, wr := r.opWr }.complete r.opCap

/-- The cursor arithmetic of RPA.READ (R182). -/
def Rpa.readMove (r : Rpa) : RingMove := rpaArith r.cap.toNat r.rd.toNat r.n.toNat

/-- The bytes RPA.READ copies: the head from the read cursor, then the tail from index 0 (R182). -/
def Rpa.readBytes (r : Rpa) : List Byte :=
  ringBytes r.mem r.draws r.rd.toNat r.readMove.head
    ++ ringBytes r.mem (r.draws + r.readMove.head) 0 (if r.readMove.wrap then r.readMove.tail else 0)

/-- RPA.READ after acceptance: the copy, then the read cursor (R182). -/
def Rpa.doRead (r : Rpa) : Rpa :=
  { r with
    dout := r.dout ++ r.readBytes
    rd := BitVec.ofNat 16 r.readMove.next
    draws := r.draws + r.n.toNat }.complete (BitVec.ofNat 16 r.readMove.next)

/-- The cursor arithmetic of RPA.WRITE (R183). -/
def Rpa.writeMove (r : Rpa) : RingMove := rpaArith r.cap.toNat r.wr.toNat r.n.toNat

/-- The ring after RPA.WRITE's copies: the head at the write cursor, then the tail at index 0 (R183). -/
def Rpa.writtenRing (r : Rpa) : Memory :=
  let m := r.mem.setBytes .ring r.wr.toNat (r.data.take r.writeMove.head)
  if r.writeMove.wrap then m.setBytes .ring 0 ((r.data.drop r.writeMove.head).take r.writeMove.tail) else m

/-- RPA.WRITE after acceptance: the copies, then the write cursor (R183). -/
def Rpa.doWrite (r : Rpa) : Rpa :=
  { r with mem := r.writtenRing, wr := BitVec.ofNat 16 r.writeMove.next }.complete (BitVec.ofNat 16 r.writeMove.next)

/-- RPA's step after acceptance; none without a command. -/
def rpaSeq (r : Rpa) : Option Rpa :=
  match r.op with
  | .none => none
  | .cfg => some r.doConfig
  | .read => some r.doRead
  | .write => some r.doWrite

/-- Where a run of RPA ends: the command is complete; it cannot hang (R226). -/
def Rpa.stops (r : Rpa) : Bool := !r.busy

/-- RPA, in the middle of a command, makes at most so many sequencer steps: fewer where the command ends. -/
def rpaRun (steps : Nat) (s : State) : Host.Outcome State Fault Refusal :=
  match runSeq rpaSeq Rpa.stops steps s.rpa with
  | some r => .next { s with rpa := r }
  | none => .fault (.noSuchStep .rpa)

/-- RPA goes on with a command: until it ends or a move of the host lands (logs 9, 21). -/
def rpaResume (s : State) : Host.Outcome State Fault Refusal := rpaRun (s.budget 1) s

/-- RPA has just accepted a command: it runs on, unless a move of the host lands right after the acceptance, which then sees the
cursors not yet moved (R187, logs 9, 21). -/
def rpaStart (s : State) : Host.Outcome State Fault Refusal := rpaRun (s.budgetAccepted 1) s

/-- A command is accepted: the operands are latched and `rpa_busy` is set (R36, R97 step 5). -/
def Rpa.accept (op : RpaOp) (opc : Opcode) (n : Half) (data : List Byte) (r : Rpa) : Rpa :=
  { r with op := op, opc := opc.toByte, n := n, data := data, busy := true }

/-- An RPA command at its unit: it waits while the unit is busy (R100), is refused where its precondition fails (R97 step 4,
R184), else is accepted and run. -/
def rpaCommand (accepted : Rpa) (opc : Opcode) (ok : Bool) (s : State) : Host.Outcome State Fault Refusal :=
  if s.rpa.busy then .next s
  else if ok then rpaStart { s with rpa := accepted }
  else .next (s.refuse .rpa opc.toByte .errPrecond)

/-! ## The meanings -/

/-- RPA.READ n (R182). -/
def execRpaRead (n : Half) (s : State) : Host.Outcome State Fault Refusal :=
  rpaCommand (s.rpa.accept .read .rpaRead n []) .rpaRead (ringLengthOk s.rpa.cap n) s

/-- RPA.WRITE n, src (R183). -/
def execRpaWrite (n : Half) (src : List Byte) (s : State) : Host.Outcome State Fault Refusal :=
  rpaCommand (s.rpa.accept .write .rpaWrite n src) .rpaWrite (ringLengthOk s.rpa.cap n) s

/-- RPA.CFG cap, rd, wr (R181). -/
def execRpaCfg (cap rd wr : Half) (s : State) : Host.Outcome State Fault Refusal :=
  rpaCommand { s.rpa.accept .cfg .rpaCfg s.rpa.n [] with opCap := cap, opRd := rd, opWr := wr } .rpaCfg
    (ringConfigOk s.cfg cap rd wr) s

end Sys2Proof.Machine
end

