-- ==== Sys2Proof/Machine/Dispatch.lean ====
section
/-! DEFINITION. `exec`: one arm per command (00_scope.md R3). -/

namespace Sys2Proof.Machine

def exec (i : Instr) (s : State) : Host.Outcome State Fault Refusal :=
  match i with
  | .fpcRead n => Sys2Proof.Machine.execFpcRead n s
  | .fpcWrite n data => Sys2Proof.Machine.execFpcWrite n data s
  | .fpcUpdate n data => Sys2Proof.Machine.execFpcUpdate n data s
  | .fpcErase => Sys2Proof.Machine.execFpcErase s
  | .fpcPrint => Sys2Proof.Machine.execFpcPrint s
  | .ewsRead address n => Sys2Proof.Machine.execEwsRead address n s
  | .ewsWrite address n data => Sys2Proof.Machine.execEwsWrite address n data s
  | .ewsEraseAll => Sys2Proof.Machine.execEwsEraseAll s
  | .ewsPrint => Sys2Proof.Machine.execEwsPrint s
  | .rpaRead n => Sys2Proof.Machine.execRpaRead n s
  | .rpaWrite n src => Sys2Proof.Machine.execRpaWrite n src s
  | .rpaCfg cap rd wr => Sys2Proof.Machine.execRpaCfg cap rd wr s

end Sys2Proof.Machine
end

