-- ==== Sys2Proof/Machine/Turn.lean ====
section
/-! DEFINITION. What one step of the machine is made of: a move of the host, or the turn of one unit (R81, R97, R100, R262). -/

namespace Sys2Proof.Machine

/-- The unit whose turn comes after another's (log 11). -/
def nextUnit : UnitId → UnitId
  | .fpc => .ews
  | .ews => .rpa
  | .rpa => .fpc

/-- A step is over: the next unit has the turn, and a move of the host that was to land in this step is now due (logs 11,
12). -/
def State.endTurn (s : State) : State :=
  { s with
    turn := nextUnit s.turn
    host := match s.host with
      | [] => []
      | (_, m) :: rest => (0, m) :: rest }

/-- Apply a function to the next state, if there is one. -/
def mapNext (g : State → State) : Host.Outcome State Fault Refusal → Host.Outcome State Fault Refusal
  | .next s => .next (g s)
  | .fault r => .fault r
  | .refused r => .refused r

/-- Is a unit in the middle of a command, or not yet able to take one (R100, R120)? -/
def State.occupied (u : UnitId) (s : State) : Bool :=
  match u with
  | .fpc => !s.fpc.takes
  | .ews => s.ews.busy
  | .rpa => s.rpa.busy

/-- A unit goes on with the command it is in the middle of. -/
def resume (u : UnitId) (s : State) : Host.Outcome State Fault Refusal :=
  match u with
  | .fpc => fpcResume s
  | .ews => ewsResume s
  | .rpa => rpaResume s

/-- A unit that is not busy looks at its ports (R97): nothing there, or a payload not yet whole, leaves the machine as it is;
an illegal word is refused; a command is run. -/
def takeCommand (u : UnitId) (s : State) : Host.Outcome State Fault Refusal :=
  match fetchAt u (s.port u).cmd (s.port u).pay with
  | .empty => .next s
  | .waiting => .next s
  | .illegal opc cmd pay => .next ((s.setPort u ⟨cmd, pay⟩).refuse u opc .errIllegal)
  | .command i _ cmd pay => exec i (s.setPort u ⟨cmd, pay⟩)

/-- The turn of the unit `s.turn` (R100). -/
def unitTurn (s : State) : Host.Outcome State Fault Refusal :=
  if s.occupied s.turn then resume s.turn s else takeCommand s.turn s

/-- One step: a host move that is due, else the turn of one unit (R81, R262). -/
def machineStep (s : State) : Host.Outcome State Fault Refusal :=
  match s.host with
  | (0, m) :: rest => .next ({ s with host := rest }.hostMove m)
  | _ => mapNext State.endTurn (unitTurn s)

/-- A unit with no command in progress, its other state as it is. -/
def State.free (u : UnitId) (s : State) : State :=
  match u with
  | .fpc => { s with fpc := { s.fpc with busy := false, op := .none, pos := .ready, phase := .idle } }
  | .ews => { s with ews := { s.ews with busy := false, op := .none, pos := .ready } }
  | .rpa => { s with rpa := { s.rpa with busy := false, op := .none } }

/-- A command word and its payload alone on the ports of the unit its opcode names, that unit free, its turn come, and no
host move pending: the next step takes it (log 13). -/
def State.withCommand (cw : Word64) (payload : List Byte) (s : State) : State :=
  let u := unitOfOpc (Cw.opc cw)
  { (s.free u).setPort u ⟨[cw], payload⟩ with turn := u, host := [] }

end Sys2Proof.Machine
end

