-- ==== Sys2Proof/Machine/Step.lean ====
section
/-! DEFINITION. One step of the machine, and the placing of a command where the next step takes it. -/

namespace Sys2Proof.Machine

/-- One step (R81, R97, R262). -/
def step (s : State) : Host.Outcome State Fault Refusal := machineStep s

/-- The state with the command whose bits, numbered as the opcode table numbers them, are `w`, where the next step takes it
(log 13). -/
def State.withFetchWord (s : State) (nbits w : Nat) : State :=
  s.withCommand (tableWord nbits w) (tablePayloadOf nbits w)

end Sys2Proof.Machine
end

