-- ==== Sys2Proof/Safety.lean ====
section
/-! DEFINITION. The invariant of the machine, the conditions under which a command runs to its end, and the terms in which
claims about its results are stated. -/

namespace Sys2Proof.Machine

/-! ## The invariant -/

/-- `fpc_state` at a sequencer position: ERASING exactly at `F_EP`, WRITING exactly at `F_FILL`, `F_RW`, `F_WP` (R127). -/
def FpcPos.phase : FpcPos → FpcPhase
  | .ep => .erasing
  | .fill | .rw | .wp => .writing
  | .ready | .rd | .ucmp | .er | .pr => .idle

/-- The commands that reach an FPC position (R127). -/
def FpcPos.serves : FpcPos → FpcOp → Bool
  | .ready, op => op == .none
  | .rd, op => op == .read
  | .ucmp, op => op == .update
  | .er, op => op == .write || op == .erase
  | .ep, op => op == .write || op == .erase
  | .fill, op => op == .write
  | .rw, op => op == .write
  | .wp, op => op == .write
  | .pr, op => op == .print

/-- The page's addresses (R51). -/
abbrev inPage (c : Config) (a : Nat) : Prop := c.pageBase ≤ a ∧ a < c.pageBase + c.pageBytes

/-- What every step keeps of FPC and its device (R22 to R26, R64, R127). -/
abbrev Fpc.Inv (c : Config) (f : Fpc) : Prop :=
  f.phase = f.pos.phase
  ∧ f.pos.serves f.op = true
  ∧ (f.busy = false ↔ f.pos = .ready)
  ∧ f.scratch.length = c.pageBytes
  ∧ f.n.toNat ≤ c.pageBytes
  ∧ (f.op = .write ∨ f.op = .update → f.data.length = f.n.toNat)
  ∧ (f.pos = .rw ∨ f.pos = .wp → f.row < c.rows)
  ∧ (f.pos = .pr → f.row < c.printRows)
  ∧ Memory.wf .flash f.nvm.flash
  ∧ (∀ x ∈ f.nvm.flash, inPage c x.1)
  ∧ (f.nvm.busy = true →
      c.pageBase ≤ f.nvm.regionAddr ∧ f.nvm.regionAddr + f.nvm.regionLen ≤ c.pageBase + c.pageBytes)

/-- The commands that reach an EWS position (R160). -/
def EwsPos.serves : EwsPos → EwsOp → Bool
  | .ready, op => op == .none
  | .r1, op | .r1Ctl, op | .r1Hi, op | .r1Lo, op | .r1Stop, op => op == .read || op == .print
  | .r2, op | .r2Ctl, op | .r2Rx, op | .r2Stop, op => op == .read || op == .print
  | .w0, op | .wb, op | .wx, op | .ws, op => op == .write || op == .eraseAll
  | .ea, op => op == .eraseAll
  | .pr, op => op == .print
  | .ssT0, op | .ssST, op | .ssCT, op | .ssCK, op | .ssHI, op | .ssLO, op => op != .none

/-- The positions at which a transaction is open: between a start and its stop (R29). `SS_ST` is reached both without one and,
on a retry, with one. -/
def EwsPos.inTxn : EwsPos → Bool
  | .r1Ctl | .r1Hi | .r1Lo | .r1Stop | .r2Ctl | .r2Rx | .r2Stop => true
  | .wb | .wx | .ws | .ssCT | .ssCK | .ssHI | .ssLO => true
  | .ready | .r1 | .r2 | .w0 | .ea | .pr | .ssT0 | .ssST => false

/-- The positions inside EWS.WRITE's body at which a byte is still to be sent (R154). -/
def EwsPos.sending : EwsPos → Bool
  | .wb | .wx | .ssT0 | .ssST | .ssCT | .ssCK | .ssHI | .ssLO => true
  | .ready | .r1 | .r1Ctl | .r1Hi | .r1Lo | .r1Stop | .r2 | .r2Ctl | .r2Rx | .r2Stop | .w0 | .ws | .ea | .pr => false

/-- EWS is running EWS.WRITE's body, for itself or for EWS.ERASEALL (R154, R155). -/
abbrev Ews.writes (e : Ews) : Prop := e.op = .write ∨ e.op = .eraseAll

/-- EWS is running a command that visits every page (R155, R205). -/
abbrev Ews.visits (e : Ews) : Prop := e.op = .eraseAll ∨ e.op = .print

/-- What every step keeps of EWS's own state (R27 to R32, R154, R160). -/
abbrev Ews.BlockInv (c : Config) (e : Ews) : Prop :=
  e.pos.serves e.op = true
  ∧ (e.busy = false ↔ e.pos = .ready)
  ∧ (e.pos ≠ .ssST → e.txnOpen = e.pos.inTxn)
  ∧ (e.op = .read ∨ e.op = .write → 1 ≤ e.n.toNat ∧ e.opAddr.toNat + e.n.toNat ≤ c.eeSize)
  ∧ (e.op = .write → e.data.length = e.n.toNat)
  ∧ (e.visits → e.page < c.eePages)
  ∧ (e.op = .print → c.eePage % Config.printRowBytes = 0)
  ∧ e.addr.toNat ≤ c.eeSize
  ∧ (e.writes → e.pos.sending = true → e.i < e.bodyLength c ∧ e.addr.toNat = e.bodyAddress c + e.i)
  ∧ (e.pos = .wx → e.addr.toNat % c.eePage = 0)
  ∧ (e.pos = .r2Rx → e.ri < e.bodyLength c ∧ e.rx.length = e.ri)
  ∧ (e.pos = .r2Stop → e.rx.length = e.bodyLength c)
  ∧ e.pbuf.length = c.eePage
  ∧ e.t0 < 2 ^ c.tickBits

/-- What every step keeps of EWS's collaborators (R74, R78). -/
abbrev Ews.DeviceInv (c : Config) (e : Ews) : Prop :=
  Memory.wf .eeprom e.eeprom.ee
  ∧ (∀ x ∈ e.eeprom.ee, x.1 < c.eeSize)
  ∧ e.eeprom.ptr < c.eeSize
  ∧ e.clock.tick < 2 ^ c.tickBits

/-- What every step keeps of RPA (R33 to R36, R184). -/
abbrev Rpa.Inv (c : Config) (r : Rpa) : Prop :=
  (r.busy = false ↔ r.op = .none)
  ∧ r.cap.toNat ≤ c.rbMemBytes
  ∧ (r.cap = 0#16 → r.rd = 0#16 ∧ r.wr = 0#16)
  ∧ (r.cap ≠ 0#16 → r.rd.toNat < r.cap.toNat ∧ r.wr.toNat < r.cap.toNat)
  ∧ (r.op = .read ∨ r.op = .write → ringLengthOk r.cap r.n = true)
  ∧ (r.op = .write → r.data.length = r.n.toNat)
  ∧ (r.op = .cfg → ringConfigOk c r.opCap r.opRd r.opWr = true)
  ∧ Memory.wf .ring r.mem
  ∧ (∀ x ∈ r.mem, x.1 < c.rbMemBytes)

/-- The invariant of the machine: valid parameters (R8) and the invariants of the three units. -/
abbrev State.Inv (s : State) : Prop :=
  s.cfg.Valid ∧ s.fpc.Inv s.cfg ∧ s.ews.BlockInv s.cfg ∧ s.ews.DeviceInv s.cfg ∧ s.rpa.Inv s.cfg

/-- The EEPROM hears what EWS sends it: in StartSequence and in EWS.WRITE's body the device has either given up on the
transaction or is in step with the address EWS is at, so its write pointer is `ews_addr` at every data byte (R75, R158). -/
abbrev Ews.InStep (c : Config) (e : Ews) : Prop :=
  (e.pos = .ssCT → e.eeprom.mode = .ctrl)
  ∧ (e.pos = .ssCK → e.eeprom.mode = .ignore)
  ∧ (e.pos = .ssHI → e.eeprom.mode = .aHi ∨ e.eeprom.mode = .ignore)
  ∧ (e.pos = .ssLO →
      (e.eeprom.mode = .aLo ∧ e.eeprom.hi = addressHi (e.startAddress c)) ∨ e.eeprom.mode = .ignore)
  ∧ (e.pos = .wb → (e.eeprom.mode = .wData ∧ e.eeprom.ptr = e.addr.toNat) ∨ e.eeprom.mode = .ignore)

/-- EWS is in the acknowledge-poll loop with an EEPROM that will take no `DONE` and a tick that will not move (R222, U11). -/
abbrev Ews.InHang (c : Config) (e : Ews) : Prop :=
  e.busy = true ∧ e.eeprom.commit = true ∧ e.eeprom.stalled = true ∧ e.sched = []
  ∧ pollTimedOut c e.clock.tick e.t0 = false
  ∧ (e.pos = .ssST ∨ (e.pos = .ssCT ∧ e.eeprom.mode = .ctrl) ∨ e.pos = .ssCK)

/-! ## When a command runs to its end -/

/-- FPC is idle, no host move lands, and its duty of R253 is met: the device is not busy; and it is not stalled (R66). -/
abbrev State.ReadyForFpc (s : State) : Prop :=
  s.Inv ∧ s.host = [] ∧ s.fpc.busy = false ∧ s.fpc.nvm.busy = false ∧ s.fpc.nvm.stalled = false

/-- EWS is idle, no host move lands, and the EEPROM is not stalled (R77). It may be committing. -/
abbrev State.ReadyForEws (s : State) : Prop :=
  s.Inv ∧ s.host = [] ∧ s.ews.busy = false ∧ s.ews.eeprom.stalled = false

/-- RPA is idle and no host move lands. -/
abbrev State.ReadyForRpa (s : State) : Prop := s.Inv ∧ s.host = [] ∧ s.rpa.busy = false

/-- The unit is ready to run a command to its end. -/
abbrev State.ReadyFor (u : UnitId) (s : State) : Prop :=
  match u with
  | .fpc => s.ReadyForFpc
  | .ews => s.ReadyForEws
  | .rpa => s.ReadyForRpa

/-- No host move is due now. -/
abbrev State.NoMoveDue (s : State) : Prop := s.host.head?.map (fun x => x.1) ≠ some 0

/-! ## What results are stated in -/

/-- The content of the flash page, lowest address first (R51). -/
def State.page (s : State) : List Byte := s.fpc.nvm.flash.bytes .flash s.cfg.pageBase s.cfg.pageBytes

/-- Every piece of block state that the table of R46 gives a value at that value, the ports empty (R250). -/
abbrev State.AtResetValues (t : State) : Prop :=
  (t.fpc.phase = .idle ∧ t.fpc.pos = .ready ∧ t.fpc.row = 0 ∧ t.fpc.inrun = false ∧ t.fpc.op = .none
    ∧ t.fpc.busy = false ∧ t.fpc.rsp = [] ∧ t.fpc.dout = [] ∧ t.fpc.diag = [] ∧ t.fpc.port.cmd = [])
  ∧ (t.ews.op = .none ∧ t.ews.txnOpen = false ∧ t.ews.timedOut = false ∧ t.ews.pos = .ready ∧ t.ews.busy = false
    ∧ t.ews.rsp = [] ∧ t.ews.dout = [] ∧ t.ews.diag = [] ∧ t.ews.port.cmd = [])
  ∧ (t.rpa.cap = 0#16 ∧ t.rpa.rd = 0#16 ∧ t.rpa.wr = 0#16 ∧ t.rpa.op = .none ∧ t.rpa.busy = false
    ∧ t.rpa.rsp = [] ∧ t.rpa.dout = [] ∧ t.rpa.diag = [] ∧ t.rpa.port.cmd = [])

/-- The byte at a flash address. -/
def State.flashAt (s : State) (a : Nat) : Option Byte := s.fpc.nvm.flash.read? .flash a

/-- The byte at an EEPROM address. -/
def State.eeAt (s : State) (a : Nat) : Option Byte := s.ews.eeprom.ee.read? .eeprom a

/-- The byte at a ring index, if one was written since reset. -/
def State.ringAt (s : State) (k : Nat) : Option Byte := s.rpa.mem.read? .ring k

/-- The 32 bytes of diagnostic row `r` of a page. -/
def printRowOf (page : List Byte) (r : Nat) : List Byte := (page.drop (Config.printRowBytes * r)).take Config.printRowBytes

/-- A row that FPC.PRINT shows with its address: the first, the last, every one that is not blank (R204, "in words"). -/
def shown (c : Config) (page : List Byte) (r : Nat) : Bool :=
  decide (r = 0) || decide (r + 1 = c.printRows) || !blank (printRowOf page r)

/-- What FPC.PRINT shows for row `r`: its address line; for a blank interior row the marker line if it is the first of its
run, that is if the row before it is a shown one; else nothing (R204, "in words"). -/
def printedLine (c : Config) (page : List Byte) (r : Nat) : Option (List Char) :=
  if shown c page r then some (line (hex8 (printAddress c r)) (printRowOf page r))
  else if shown c page (r - 1) then some (line c.ellipsis (printRowOf page r))
  else none

/-- The lines FPC.PRINT shows of a page, in order (R204). -/
def printedLines (c : Config) (page : List Byte) : List (List Char) :=
  (List.range c.printRows).filterMap (printedLine c page)

/-- What EWS.PRINT shows of an EEPROM content: every page, every row (R205). -/
def printedEeprom (c : Config) (ee : Memory) : List Char :=
  (List.range c.eePages).flatMap (fun p => pageLines c p (ee.bytes .eeprom (p * c.eePage) c.eePage))

/-- The part of EWS's state that says what it does next and what it reports: everything but what it has received, sent out
or been told by its collaborators. -/
def Ews.control (e : Ews) : (EwsPos × EwsOp × Bool × Bool × Bool) × (BitVec 17 × Nat × Nat × Nat) × List Word32 :=
  ((e.pos, e.op, e.busy, e.txnOpen, e.timedOut), (e.addr, e.i, e.page, e.ri), e.rsp)

/-- The machine with another content of scratch. -/
def State.withScratch (x : List Byte) (s : State) : State := { s with fpc := { s.fpc with scratch := x } }

/-- How many times a call of a kind stands in a trace. -/
def countCalls (p : BusCall → Bool) (trace : List BusCall) : Nat := trace.countP p

/-- The calls of EWS since a state: the trace of R11, oldest first. -/
def newCalls (before after : List BusCall) : List BusCall := (after.take (after.length - before.length)).reverse

/-- The precondition of a command, as R102 tables it. -/
def precondition (i : Instr) (s : State) : Bool :=
  match i with
  | .fpcRead n => fpcLengthOk s.cfg n
  | .fpcWrite n _ => fpcLengthOk s.cfg n
  | .fpcUpdate n _ => fpcLengthOk s.cfg n
  | .fpcErase => true
  | .fpcPrint => true
  | .ewsRead address n => ewsRangeOk s.cfg address n
  | .ewsWrite address n _ => ewsRangeOk s.cfg address n
  | .ewsEraseAll => true
  | .ewsPrint => ewsPrintOk s.cfg
  | .rpaRead n => ringLengthOk s.rpa.cap n
  | .rpaWrite n _ => ringLengthOk s.rpa.cap n
  | .rpaCfg cap rd wr => ringConfigOk s.cfg cap rd wr

end Sys2Proof.Machine
end

