-- ==== Sys2Proof/Certificates/Slice0/Obligations.lean ====
section
/-! DEFINITION. The statements for the provers, each from a rule of the spec. -/

open Sys2Proof Sys2Proof.Machine

/-! ## Encoding -/

/-- R91, R92, R95, R96: words written out from the formats decode to the commands they stand for (V1, V2, V7, V8, V11, V12)
and a word with a must-be-zero field not zero is refused (V15). -/
def Obligations.DecodeWordsOfTheManual : Prop :=
  decode [0x10#8, 0#8, 0#8, 0#8, 0#8, 0#8, 0#8, 4#8] = .ok (.fpcRead 4#16, [])
  ∧ decode [0x11#8, 0#8, 0#8, 0#8, 0#8, 0#8, 0#8, 2#8, 0x48#8, 0x69#8] = .ok (.fpcWrite 2#16 [0x48#8, 0x69#8], [])
  ∧ decode [0x21#8, 0#8, 0#8, 0#8, 0#8, 0x3F#8, 0#8, 2#8, 0x11#8, 0x22#8]
      = .ok (.ewsWrite 0x3F#16 2#16 [0x11#8, 0x22#8], [])
  ∧ decode [0x22#8, 0#8, 0#8, 0#8, 0#8, 0#8, 0#8, 0#8] = .ok (.ewsEraseAll, [])
  ∧ decode [0x31#8, 0#8, 0#8, 0#8, 0#8, 0#8, 0#8, 3#8, 0xA1#8, 0xB2#8, 0xC3#8]
      = .ok (.rpaWrite 3#16 [0xA1#8, 0xB2#8, 0xC3#8], [])
  ∧ decode [0x32#8, 0#8, 0#8, 8#8, 0#8, 7#8, 0#8, 7#8] = .ok (.rpaCfg 8#16 7#16 7#16, [])
  ∧ decode [0x10#8, 0#8, 0#8, 1#8, 0#8, 0#8, 0#8, 4#8] = .error .reservedField

/-- R91 to R96: decoding an encoded well-formed command gives it back, with every operand and payload, and leaves the bytes
behind it. -/
def Obligations.DecodeOfEncode : Prop :=
  ∀ (i : Instr) (rest : List Byte), i.wellFormed = true → decode (encode i ++ rest) = .ok (i, rest)

/-- R91 to R96: bytes that decode to a command are that command's encoding followed by the bytes left over, and the command
is well-formed: no two byte strings of one length spell one command. -/
def Obligations.EncodeOfDecode : Prop :=
  ∀ (bs : List Byte) (i : Instr) (rest : List Byte),
    decode bs = .ok (i, rest) → i.wellFormed = true ∧ encode i ++ rest = bs

/-- R96: with its payload whole, a command word is the command of a row exactly when `cw & mask = match` for that row; the
twelve rows with the mask and match the rule tables. -/
def Obligations.RowIsMaskAndMatch : Prop :=
  (∀ (cw : Word64) (pay : List Byte) (op : Opcode), op.payloadLength cw ≤ pay.length →
    ((∃ i rest, decodeCommand cw pay = .ok (i, rest) ∧ i.opcode = op) ↔ cw &&& op.mask = op.matchWord))
  ∧ Opcode.all.map (fun op => (op.matchWord, op.mask)) =
    [(0x1000000000000000#64, 0xFFFFFFFFFFFF0000#64), (0x1100000000000000#64, 0xFFFFFFFFFFFF0000#64),
     (0x1200000000000000#64, 0xFFFFFFFFFFFF0000#64), (0x1300000000000000#64, 0xFFFFFFFFFFFFFFFF#64),
     (0x1400000000000000#64, 0xFFFFFFFFFFFFFFFF#64), (0x2000000000000000#64, 0xFFFFFFFF00000000#64),
     (0x2100000000000000#64, 0xFFFFFFFF00000000#64), (0x2200000000000000#64, 0xFFFFFFFFFFFFFFFF#64),
     (0x2300000000000000#64, 0xFFFFFFFFFFFFFFFF#64), (0x3000000000000000#64, 0xFFFFFFFFFFFF0000#64),
     (0x3100000000000000#64, 0xFFFFFFFFFFFF0000#64), (0x3200000000000000#64, 0xFFFF000000000000#64)]

/-- R95, R98, R99: a response word is sent `rw[31:24]` first: on a byte stream it is the opcode, the result code, the high and
the low byte of the value; so a refusal adds exactly four bytes to the unit's response bytes, the last two zero. -/
def Obligations.ResponseBytes : Prop :=
  (∀ (opc : Byte) (r : ResultCode) (value : Half),
    Rw.bytes (response opc r value)
      = [opc, (match r with | .ok => 0x00#8 | .okTimedOut => 0x01#8 | .errIllegal => 0x80#8 | .errPrecond => 0x81#8),
         value.extractLsb' 8 8, value.extractLsb' 0 8])
  ∧ ∀ (s : State) (u : UnitId) (opc : Byte),
    (s.refuse u opc .errIllegal).responseBytes u = s.responseBytes u ++ [opc, 0x80#8, 0#8, 0#8]
    ∧ (s.refuse u opc .errPrecond).responseBytes u = s.responseBytes u ++ [opc, 0x81#8, 0#8, 0#8]

/-! ## Decoding at a unit, refusals, waiting -/

/-- R97, R103, R223, R224: a unit that can take a command and finds a word that is no command of its own refuses it with
`ERR_ILLEGAL` and the word's opcode; the response is all that is added, and the unit can take the next command at once. An
opcode that is not the unit's takes no payload; a must-be-zero field that is not zero takes the payload, whole. -/
def Obligations.IllegalWordIsRefused : Prop :=
  ∀ (s : State) (cw : Word64) (rest : List Word64), s.NoMoveDue → s.occupied s.turn = false →
    (s.port s.turn).cmd = cw :: rest →
    ((∀ op : Opcode, op.unit = s.turn → Cw.opc cw ≠ op.toByte) →
      step s = .next (((s.setPort s.turn ⟨rest, (s.port s.turn).pay⟩).refuse s.turn (Cw.opc cw) .errIllegal).endTurn))
    ∧ (∀ op : Opcode, op.unit = s.turn → Cw.opc cw = op.toByte → op.payloadLength cw ≤ (s.port s.turn).pay.length →
      cw &&& op.mask ≠ op.matchWord →
      step s = .next (((s.setPort s.turn ⟨rest, (s.port s.turn).pay.drop (op.payloadLength cw)⟩).refuse s.turn
        (Cw.opc cw) .errIllegal).endTurn))
    ∧ (∀ pay, ((s.setPort s.turn ⟨rest, pay⟩).refuse s.turn (Cw.opc cw) .errIllegal).occupied s.turn = false)

/-- R223, R102: a command whose precondition fails, at a unit that can take one, changes nothing but the response stream of its
unit, which gets `ERR_PRECOND` and the command's opcode; at the port its word and its payload are consumed; the unit can take
the next command at once. -/
def Obligations.PreconditionRefusal : Prop :=
  (∀ (i : Instr) (s : State), s.occupied i.unit = false → precondition i s = false →
    exec i s = .next (s.refuse i.unit i.opcode.toByte .errPrecond)
    ∧ (s.refuse i.unit i.opcode.toByte .errPrecond).occupied i.unit = false)
  ∧ (∀ (s : State) (cw : Word64) (rest : List Word64) (i : Instr) (pay : List Byte),
    s.NoMoveDue → s.occupied s.turn = false → (s.port s.turn).cmd = cw :: rest →
    decodeCommand cw (s.port s.turn).pay = .ok (i, pay) → i.unit = s.turn → precondition i s = false →
    step s = .next (((s.setPort s.turn ⟨rest, pay⟩).refuse s.turn (Cw.opc cw) .errPrecond).endTurn))

/-- R102, R184, at the edges. FPC.READ, FPC.WRITE and FPC.UPDATE: zero length and the whole page are accepted, one byte over the
page is refused. EWS.READ and EWS.WRITE: zero length is refused, a range that ends at the end of the EEPROM is accepted, one that
ends one past it is refused. RPA.READ and RPA.WRITE: an unconfigured ring is refused; with a configured one zero length and the
whole ring are accepted, one byte over the ring is refused. RPA.CFG: the largest capacity and cursors one below the capacity are
accepted; capacity zero, a capacity over the memory and a cursor at or over the capacity are refused. EWS.PRINT goes by the page
size; FPC.ERASE, FPC.PRINT and EWS.ERASEALL are always accepted. -/
def Obligations.PreconditionEdges : Prop :=
  ∀ (s : State) (n address cap rd wr : Half) (data : List Byte),
    (∀ i ∈ [Instr.fpcRead n, .fpcWrite n data, .fpcUpdate n data],
      (n.toNat = 0 ∨ n.toNat = s.cfg.pageBytes → precondition i s = true)
      ∧ (n.toNat = s.cfg.pageBytes + 1 → precondition i s = false))
    ∧ (∀ i ∈ [Instr.ewsRead address n, .ewsWrite address n data],
      (n.toNat = 0 → precondition i s = false)
      ∧ (1 ≤ n.toNat → address.toNat + n.toNat = s.cfg.eeSize → precondition i s = true)
      ∧ (address.toNat + n.toNat = s.cfg.eeSize + 1 → precondition i s = false))
    ∧ (∀ i ∈ [Instr.rpaRead n, .rpaWrite n data],
      (s.rpa.cap.toNat = 0 → precondition i s = false)
      ∧ (1 ≤ s.rpa.cap.toNat → n.toNat = 0 ∨ n.toNat = s.rpa.cap.toNat → precondition i s = true)
      ∧ (n.toNat = s.rpa.cap.toNat + 1 → precondition i s = false))
    ∧ (1 ≤ cap.toNat → cap.toNat ≤ s.cfg.rbMemBytes → rd.toNat + 1 ≤ cap.toNat → wr.toNat + 1 ≤ cap.toNat →
        precondition (.rpaCfg cap rd wr) s = true)
    ∧ (cap.toNat = 0 ∨ s.cfg.rbMemBytes < cap.toNat ∨ cap.toNat ≤ rd.toNat ∨ cap.toNat ≤ wr.toNat →
        precondition (.rpaCfg cap rd wr) s = false)
    ∧ (precondition .ewsPrint s = true ↔ s.cfg.eePage % 32 = 0)
    ∧ ∀ i ∈ [Instr.fpcErase, .fpcPrint, .ewsEraseAll], precondition i s = true

/-- R100: while a unit is busy its command port and payload port are not looked at: a step of its turn takes nothing from
them, whatever the running command does. -/
def Obligations.BusyUnitLeavesItsPorts : Prop :=
  ∀ (s t : State), s.NoMoveDue → s.occupied s.turn = true → step s = .next t → ∀ u, t.port u = s.port u

/-- R251: a unit that can take a command and finds none waits: nothing but the turn changes. The rest is the model's reading: that
a command whose payload is not yet whole stays at the port with the bytes that are there, the unit not busy (log 14), and that the
turn passes (log 11). -/
def Obligations.IdleUnitWaits : Prop :=
  ∀ (s : State), s.NoMoveDue → s.occupied s.turn = false →
    ((s.port s.turn).cmd = []
      ∨ ∃ cw rest, (s.port s.turn).cmd = cw :: rest
          ∧ ∃ op : Opcode, op.unit = s.turn ∧ Cw.opc cw = op.toByte ∧ (s.port s.turn).pay.length < op.payloadLength cw) →
    step s = .next s.endTurn

/-- R97: when the word at the port of the unit whose turn it is decodes, with the payload bytes, to a command of that unit,
the step is `exec` of it with the word and its payload taken from the ports. That one step of the machine runs the whole command
and that the turn then passes to the next unit are the model's choices (logs 9, 11). -/
def Obligations.StepRunsDecodedCommand : Prop :=
  ∀ (s : State) (cw : Word64) (rest : List Word64) (i : Instr) (pay : List Byte),
    s.NoMoveDue → s.occupied s.turn = false → (s.port s.turn).cmd = cw :: rest →
    decodeCommand cw (s.port s.turn).pay = .ok (i, pay) → i.unit = s.turn →
    step s = mapNext State.endTurn (exec i (s.setPort s.turn ⟨rest, pay⟩))

/-- Log 13: `withCommand` places a well-formed command where the next step runs exactly it. -/
def Obligations.WithCommandRunsNext : Prop :=
  ∀ (s : State) (i : Instr), i.wellFormed = true →
    step (s.withCommand i.word i.payload)
      = mapNext State.endTurn (exec i { (s.free i.unit).setPort i.unit ⟨[], []⟩ with turn := i.unit, host := [] })

/-! ## Status and reset -/

/-- R38: the fields of the four status words, and every other bit zero; a status read, which may come at any time, changes
nothing. -/
def Obligations.StatusWordFields : Prop :=
  ∀ s : State,
    ((fpcStatus s).extractLsb' 0 2 = s.fpc.phase.code ∧ (fpcStatus s).getLsbD 2 = s.fpc.busy
      ∧ (fpcStatus s).extractLsb' 3 29 = 0#29)
    ∧ ((ewsStatus s).getLsbD 0 = s.ews.busy ∧ (ewsStatus s).getLsbD 1 = s.ews.txnOpen
      ∧ (ewsStatus s).getLsbD 2 = s.ews.timedOut ∧ (ewsStatus s).extractLsb' 3 29 = 0#29)
    ∧ ((rpaStatus s).getLsbD 0 = s.rpa.busy ∧ (rpaStatus s).extractLsb' 1 15 = 0#15
      ∧ (rpaStatus s).extractLsb' 16 16 = s.rpa.cap)
    ∧ ((rpaCursors s).extractLsb' 0 16 = s.rpa.wr ∧ (rpaCursors s).extractLsb' 16 16 = s.rpa.rd)
    ∧ (FpcPhase.idle.code = 0#2 ∧ FpcPhase.erasing.code = 1#2 ∧ FpcPhase.writing.code = 2#2)
    ∧ ∀ u rest, s.host = (0, .readStatus u) :: rest → step s = .next { s with host := rest }

/-- R46, R251: the values the spec gives for reset, in the reset state and after every reset move, from any state; the flash page
and the EEPROM keep their content across a reset move that cuts no operation (R252). -/
def Obligations.ResetLeavesTheTableOfR46 : Prop :=
  State.reset.AtResetValues
  ∧ ∀ (s : State) (rest : List (Nat × HostMove)), s.host = (0, .reset) :: rest →
    ∃ t, step s = .next t ∧ t.AtResetValues
      ∧ (s.fpc.nvm.busy = false → ∀ a, t.flashAt a = s.flashAt a)
      ∧ (s.ews.eeprom.mode ≠ .wData → ∀ a, t.eeAt a = s.eeAt a)

/-- R250, R252: a reset move lands between any two sequencer steps and does not touch the collaborators: the NVM device keeps
its busy flag and its counts, and every byte outside an operation it was in the middle of; the EEPROM keeps its pointer, its
commit, its transaction and every byte outside the open write transaction, the tick runs on; the parameters stay. -/
def Obligations.ResetKeepsCollaborators : Prop :=
  ∀ (s : State) (rest : List (Nat × HostMove)), s.Inv → s.host = (0, .reset) :: rest →
    ∃ t, step s = .next t ∧ t.cfg = s.cfg
      ∧ t.fpc.nvm.busy = s.fpc.nvm.busy ∧ t.fpc.nvm.eraseCount = s.fpc.nvm.eraseCount
      ∧ t.fpc.nvm.rowWriteCount = s.fpc.nvm.rowWriteCount
      ∧ (∀ a, (s.fpc.nvm.busy = true →
              ¬ (s.fpc.nvm.regionAddr ≤ a ∧ a < s.fpc.nvm.regionAddr + s.fpc.nvm.regionLen)) →
            t.flashAt a = s.flashAt a)
      ∧ t.ews.eeprom.ptr = s.ews.eeprom.ptr ∧ t.ews.eeprom.commit = s.ews.eeprom.commit
      ∧ t.ews.eeprom.mode = s.ews.eeprom.mode ∧ t.ews.eeprom.hi = s.ews.eeprom.hi
      ∧ t.ews.eeprom.got = s.ews.eeprom.got ∧ t.ews.clock = s.ews.clock
      ∧ (∀ a, (s.ews.eeprom.mode = .wData → a ∉ s.ews.eeprom.openBytes s.cfg) → t.eeAt a = s.eeAt a)

/-! ## The FPC commands -/

/-- R121: FPC.READ completes in one sequencer step with the first `n` bytes of the page on `DOUT` and `OK`; this is the whole
next state: scratch, `fpc_state`, the page and every other unit are as before. That the payload latch ends empty is the model's
reading (log 29). -/
def Obligations.FpcReadResult : Prop :=
  ∀ (s : State) (n : Half), s.ReadyForFpc → n.toNat ≤ s.cfg.pageBytes →
    exec (.fpcRead n) s = .next { s with fpc := { s.fpc with
      n := n, data := [], opc := 0x10#8
      dout := s.fpc.dout ++ s.page.take n.toNat
      rsp := s.fpc.rsp ++ [0x10000000#32]
      nvm := s.fpc.nvm.moves
      trace := .read n.toNat s.cfg.pageBase (s.page.take n.toNat) :: s.fpc.trace } }

/-- R121, R64, U2: FPC.READ does not look at the device's busy flag: with a device that is left busy and takes no `DONE` before the
read, stalled or not, it completes all the same, with `n` bytes of any value; the page is as before. That the payload latch ends
empty is the model's reading (log 29). -/
def Obligations.FpcReadOfBusyDevice : Prop :=
  ∀ (s : State) (n : Half), s.Inv → s.host = [] → s.fpc.busy = false → n.toNat ≤ s.cfg.pageBytes →
    s.fpc.nvm.moves.busy = true →
    ∃ nvm trace d, exec (.fpcRead n) s = .next { s with fpc := { s.fpc with
        n := n, data := [], opc := 0x10#8
        dout := s.fpc.dout ++ d
        rsp := s.fpc.rsp ++ [0x10000000#32]
        nvm := nvm, trace := trace } }
      ∧ d.length = n.toNat ∧ nvm.busy = true ∧ (∀ a, nvm.flash.read? .flash a = s.flashAt a)

/-- R122: FPC.ERASE completes, whatever the number of polls: every byte of the page is 0xFF, `erase_count` has grown by one,
`OK`; every byte outside the page, all else of FPC (scratch among it) and every other unit are as before. The command's operand
latches hold its zero `LEN` and empty payload (log 29). -/
def Obligations.FpcEraseResult : Prop :=
  ∀ s : State, s.ReadyForFpc →
    ∃ nvm trace, exec .fpcErase s = .next { s with fpc := { s.fpc with
        n := 0#16, data := [], opc := 0x13#8
        rsp := s.fpc.rsp ++ [0x13000000#32]
        nvm := nvm, trace := trace } }
      ∧ nvm.eraseCount = s.fpc.nvm.eraseCount + 1 ∧ nvm.rowWriteCount = s.fpc.nvm.rowWriteCount
      ∧ (∀ a, inPage s.cfg a → nvm.flash.read? .flash a = some 0xFF#8)
      ∧ (∀ a, ¬ inPage s.cfg a → nvm.flash.read? .flash a = s.flashAt a)
      ∧ nvm.busy = false

/-- R123: FPC.WRITE completes, whatever the number of polls: the page is the payload over a fill of 0xFF, `erase_count` has
grown by one and `rowwrite_count` by `ROWS`, scratch is the staged page, `fpc_row` the last row, `OK`; every byte outside the
page, all else of FPC and every other unit are as before. -/
def Obligations.FpcWriteResult : Prop :=
  ∀ (s : State) (n : Half) (data : List Byte), s.ReadyForFpc → n.toNat ≤ s.cfg.pageBytes → data.length = n.toNat →
    ∃ nvm trace, exec (.fpcWrite n data) s = .next { s with fpc := { s.fpc with
        n := n, data := data, opc := 0x11#8
        scratch := data ++ List.replicate (s.cfg.pageBytes - n.toNat) 0xFF#8
        row := s.cfg.rows - 1
        rsp := s.fpc.rsp ++ [0x11000000#32]
        nvm := nvm, trace := trace } }
      ∧ nvm.eraseCount = s.fpc.nvm.eraseCount + 1 ∧ nvm.rowWriteCount = s.fpc.nvm.rowWriteCount + s.cfg.rows
      ∧ (∀ a, inPage s.cfg a → nvm.flash.read? .flash a = some (data.getD (a - s.cfg.pageBase) 0xFF#8))
      ∧ (∀ a, ¬ inPage s.cfg a → nvm.flash.read? .flash a = s.flashAt a)
      ∧ nvm.busy = false

/-- R123, R126: with a device that is done before the next call, the calls of FPC.WRITE are, in order, `PageErase`, `IsBusy`,
and for each row in increasing order one `RowWrite` of its part of the staged page at its address and one `IsBusy`. -/
def Obligations.FpcWriteCallTrace : Prop :=
  ∀ (s : State) (n : Half) (data : List Byte), s.ReadyForFpc → s.fpc.nvm.sched = [] → n.toNat ≤ s.cfg.pageBytes →
    data.length = n.toNat →
    ∃ f, exec (.fpcWrite n data) s = .next { s with fpc := f }
      ∧ f.trace.reverse = s.fpc.trace.reverse ++ [.pageErase s.cfg.pageBase, .isBusy false]
          ++ (List.range s.cfg.rows).flatMap (fun r =>
              [.rowWrite (((data ++ List.replicate (s.cfg.pageBytes - n.toNat) 0xFF#8).drop (r * s.cfg.rowBytes)).take
                  s.cfg.rowBytes) (s.cfg.pageBase + r * s.cfg.rowBytes), .isBusy false])

/-- R124: FPC.UPDATE whose payload equals the first `n` bytes of the page reads the whole page into scratch in one call and
does nothing else: no erase, no row-write, `OK`. -/
def Obligations.FpcUpdateEqualIsNoOp : Prop :=
  ∀ (s : State) (n : Half) (data : List Byte), s.ReadyForFpc → n.toNat ≤ s.cfg.pageBytes → data.length = n.toNat →
    s.page.take n.toNat = data →
    exec (.fpcUpdate n data) s = .next { s with fpc := { s.fpc with
      n := n, data := data, opc := 0x12#8
      scratch := s.page
      rsp := s.fpc.rsp ++ [0x12000000#32]
      nvm := s.fpc.nvm.moves
      trace := .read s.cfg.pageBytes s.cfg.pageBase s.page :: s.fpc.trace } }

/-- R124, R264: FPC.UPDATE whose payload differs from the first `n` bytes of the page does what FPC.WRITE does, one erase and
`ROWS` row-writes, and answers as an update; bytes `n` on are lost to the fill of 0xFF; every byte outside the page, all else of
FPC and every other unit are as before. -/
def Obligations.FpcUpdateDifferentWrites : Prop :=
  ∀ (s : State) (n : Half) (data : List Byte), s.ReadyForFpc → n.toNat ≤ s.cfg.pageBytes → data.length = n.toNat →
    s.page.take n.toNat ≠ data →
    ∃ nvm trace, exec (.fpcUpdate n data) s = .next { s with fpc := { s.fpc with
        n := n, data := data, opc := 0x12#8
        scratch := data ++ List.replicate (s.cfg.pageBytes - n.toNat) 0xFF#8
        row := s.cfg.rows - 1
        rsp := s.fpc.rsp ++ [0x12000000#32]
        nvm := nvm, trace := trace } }
      ∧ nvm.eraseCount = s.fpc.nvm.eraseCount + 1 ∧ nvm.rowWriteCount = s.fpc.nvm.rowWriteCount + s.cfg.rows
      ∧ (∀ a, inPage s.cfg a → nvm.flash.read? .flash a = some (data.getD (a - s.cfg.pageBase) 0xFF#8))
      ∧ (∀ a, ¬ inPage s.cfg a → nvm.flash.read? .flash a = s.flashAt a)
      ∧ nvm.busy = false

/-- R124, the document's property: an update that differs and the same update again make exactly one erase cycle and one set
of row-writes between them. -/
def Obligations.FpcUpdateTwiceIsOneCycle : Prop :=
  ∀ (s : State) (n : Half) (data : List Byte), s.ReadyForFpc → n.toNat ≤ s.cfg.pageBytes → data.length = n.toNat →
    s.page.take n.toNat ≠ data →
    ∃ t u, exec (.fpcUpdate n data) s = .next t ∧ exec (.fpcUpdate n data) t = .next u
      ∧ u.fpc.nvm.eraseCount = s.fpc.nvm.eraseCount + 1
      ∧ u.fpc.nvm.rowWriteCount = s.fpc.nvm.rowWriteCount + s.cfg.rows
      ∧ u.fpc.rsp = s.fpc.rsp ++ [0x12000000#32, 0x12000000#32] ∧ u.page = t.page

/-- R129: what FPC.WRITE wrote, FPC.READ of the same length gives back. -/
def Obligations.FpcRoundTrip : Prop :=
  ∀ (s : State) (n : Half) (data : List Byte), s.ReadyForFpc → n.toNat ≤ s.cfg.pageBytes → data.length = n.toNat →
    ∃ t u, exec (.fpcWrite n data) s = .next t ∧ exec (.fpcRead n) t = .next u ∧ u.fpc.dout = s.fpc.dout ++ data

/-- R130: `scratch` carries nothing from one command to the next: with FPC at rest, whatever scratch holds, every command has
the same outcome but for scratch itself. -/
def Obligations.ScratchIsDeadBetweenCommands : Prop :=
  ∀ (i : Instr) (s : State) (x : List Byte), s.fpc.busy = false →
    mapNext (State.withScratch []) (exec i (s.withScratch x)) = mapNext (State.withScratch []) (exec i s)

/-- R204, R206: FPC.PRINT completes with the lines of the page that the rule's words describe, after one `NVM.Read` of 32 bytes
per row with addresses increasing by 32; the page, all else of FPC (scratch among it) and every other unit are as before. The
command's operand latches hold its zero `LEN` and empty payload (log 29). -/
def Obligations.FpcPrintResult : Prop :=
  ∀ s : State, s.ReadyForFpc →
    ∃ nvm trace, exec .fpcPrint s = .next { s with fpc := { s.fpc with
        n := 0#16, data := [], opc := 0x14#8
        row := s.cfg.printRows - 1, inrun := false
        diag := s.fpc.diag ++ (printedLines s.cfg s.page).flatten
        rsp := s.fpc.rsp ++ [0x14000000#32]
        nvm := nvm, trace := trace } }
      ∧ trace.reverse = s.fpc.trace.reverse ++ (List.range s.cfg.printRows).map (fun r =>
          .read 32 (s.cfg.pageBase + 32 * r) (printRowOf s.page r))
      ∧ nvm.eraseCount = s.fpc.nvm.eraseCount ∧ nvm.rowWriteCount = s.fpc.nvm.rowWriteCount
      ∧ (∀ a, nvm.flash.read? .flash a = s.flashAt a) ∧ nvm.busy = false

/-- R207: FPC.PRINT adds between `min(PR, 2)` and `PR` lines to `DIAG`, each the line of a row of the page with that row's address
or the marker in place of it; of a page blank but for its first and last rows it shows two lines when `PR = 2` and three when
`PR >= 3`. Where the marker itself has no newline, the lines are as many as the newlines. -/
def Obligations.FpcPrintLineCounts : Prop :=
  ∀ s : State, s.ReadyForFpc →
    ∃ (t : State) (lines : List (List Char)), exec .fpcPrint s = .next t
      ∧ t.fpc.diag = s.fpc.diag ++ lines.flatten
      ∧ (∀ l ∈ lines, ∃ r < s.cfg.printRows,
          l = line (hex8 (printAddress s.cfg r)) (printRowOf s.page r) ∨ l = line s.cfg.ellipsis (printRowOf s.page r))
      ∧ min s.cfg.printRows 2 ≤ lines.length ∧ lines.length ≤ s.cfg.printRows
      ∧ ((∀ r, 0 < r → r + 1 < s.cfg.printRows → blank (printRowOf s.page r) = true) →
          (s.cfg.printRows = 2 → lines.length = 2) ∧ (3 ≤ s.cfg.printRows → lines.length = 3))
      ∧ ('\n' ∉ s.cfg.ellipsis → t.fpc.diag.count '\n' = s.fpc.diag.count '\n' + lines.length)

/-- R200 to R202: a line of 32 bytes has its prefix, three characters of separator, three per byte and the newline; an address
is eight characters, so an address line is 108. -/
def Obligations.LineLengths : Prop :=
  ∀ (pre : List Char) (row : List Byte) (a : Nat), row.length = 32 →
    (line pre row).length = pre.length + 100 ∧ (line (hex8 a) row).length = 108
    ∧ ∀ b : Byte, (cell b).length = 3

/-- R225: FPC.ERASE with a device that never takes its `DONE` step leaves FPC erasing, busy, with no response. -/
def Obligations.FpcEraseHangs : Prop :=
  ∀ s : State, s.Inv → s.host = [] → s.fpc.busy = false → s.fpc.nvm.stalled = true → s.fpc.nvm.sched = [] →
    ∃ f, exec .fpcErase s = .next { s with fpc := f } ∧ f.hung = true ∧ f.pos = .ep ∧ f.phase = .erasing ∧ f.busy = true
      ∧ f.rsp = s.fpc.rsp

/-- R225: nothing inside the block ends a hang; only a reset does: every step that is no reset leaves FPC polling, busy, in the
same `fpc_state`, ERASING or WRITING, without a response, and every command waiting at its port still waiting; a reset leaves it
idle and ready. -/
def Obligations.FpcHangIsForEver : Prop :=
  ∀ s t : State, s.Inv → s.fpc.hung = true → step s = .next t →
    ((∀ rest, s.host ≠ (0, .reset) :: rest) →
      t.fpc.hung = true ∧ t.fpc.busy = true ∧ t.fpc.phase = s.fpc.phase
      ∧ (t.fpc.phase = .erasing ∨ t.fpc.phase = .writing) ∧ t.fpc.rsp = s.fpc.rsp
      ∧ s.fpc.port.cmd <+: t.fpc.port.cmd)
    ∧ (∀ rest, s.host = (0, .reset) :: rest → t.fpc.busy = false ∧ t.fpc.phase = .idle ∧ t.fpc.pos = .ready)

/-- R127, R160: a sequencer step makes at most one collaborator call. And the shape of the bus traffic (R157): `BUS.Stop` is
called only with a transaction open and closes it; `BUS.Receive` only in the read loop, with `ack` false exactly for the last
byte; `TICK.Now` only inside StartSequence; a `BUS.Start` with a transaction open only in its loop. -/
def Obligations.OneCallPerSequencerStep : Prop :=
  (∀ (c : Config) (f g : Fpc), fpcRow c f = some g → g.trace = f.trace ∨ ∃ k, g.trace = k :: f.trace)
  ∧ (∀ (c : Config) (e g : Ews), e.BlockInv c → ewsLine c e = some g →
      g.trace = e.trace
      ∨ ∃ k, g.trace = k :: e.trace
        ∧ (k = .stop → e.txnOpen = true ∧ g.txnOpen = false)
        ∧ (k = .start → g.txnOpen = true ∧ (e.txnOpen = true → e.pos = .ssST))
        ∧ (∀ a b, k = .receive a b → e.pos = .r2Rx ∧ (a = false ↔ e.ri + 1 = e.bodyLength c))
        ∧ (∀ n, k = .now n → e.pos = .ssT0 ∨ e.pos = .ssCK))

/-! ## The NVM device -/

/-- R61, R62, R63: an erase started on an idle device leaves the page all 0xFF when the device is next not busy; a row-write
on a blank row leaves the row equal to the buffer; nothing else of the flash changes; both set the busy flag. -/
def Obligations.NvmContract : Prop :=
  ∀ (c : Config) (d : Nvm) (a : Nat) (buf : List Byte), Memory.wf .flash d.flash → d.busy = false →
    (d.pageErase c a).busy = true
    ∧ (d.pageErase c a).takeDone.readResult c.pageBytes a = List.replicate c.pageBytes 0xFF#8
    ∧ (∀ x, ¬ (a ≤ x ∧ x < a + c.pageBytes) → (d.pageErase c a).flash.read? .flash x = d.flash.read? .flash x)
    ∧ (buf.length = c.rowBytes → d.readResult c.rowBytes a = List.replicate c.rowBytes 0xFF#8 →
        (d.rowWrite c buf a).busy = true
        ∧ (d.rowWrite c buf a).takeDone.readResult c.rowBytes a = buf
        ∧ ∀ x, ¬ (a ≤ x ∧ x < a + c.rowBytes) → (d.rowWrite c buf a).flash.read? .flash x = d.flash.read? .flash x)

/-! ## The EWS commands -/

/-- R152, R151: the acknowledge poll, having been refused, retries with a fresh start while the ticks elapsed since entry,
modulo `2^TICK_BITS`, are fewer than `TIMEOUT_TICKS`, and goes on with the timed-out flag set once they are not. -/
def Obligations.EwsPollTimeout : Prop :=
  ∀ (c : Config) (e : Ews), e.pos = .ssCK → e.t0 < 2 ^ c.tickBits → e.clock.tick < 2 ^ c.tickBits →
    ∃ e', ewsLine c e = some e'
      ∧ (if (if e.t0 ≤ e.clock.tick then e.clock.tick - e.t0 else e.clock.tick + 2 ^ c.tickBits - e.t0)
            < 5 * c.ticksPerSecond / 1000
         then e'.pos = .ssST ∧ e'.timedOut = e.timedOut
         else e'.pos = .ssHI ∧ e'.timedOut = true)
      ∧ e'.txnOpen = e.txnOpen ∧ e'.eeprom = e.eeprom

/-- R78, R262: the tick inside StartSequence: from the entry's `TICK.Now()` to the last one `ews_t0` stands and the time elapsed
since it never decreases, whatever the tick source would do; it grows by exactly what the tick source advances as long as fewer
than `2^TICK_BITS` ticks have passed, and not at all where the tick stands still. That an advance beyond that is cut to the
largest allowed one is the model's way to allow no other (log 8). -/
def Obligations.ElapsedNeverDecreases : Prop :=
  ∀ (c : Config) (e g : Ews), e.t0 < 2 ^ c.tickBits → e.clock.tick < 2 ^ c.tickBits →
    (e.pos = .ssST ∨ e.pos = .ssCT ∨ e.pos = .ssCK) → ewsSeq c e = some g →
    g.t0 = e.t0 ∧ elapsed c e.clock.tick e.t0 ≤ elapsed c g.clock.tick g.t0
    ∧ (∀ m rest, e.sched = m :: rest → elapsed c e.clock.tick e.t0 + m.ticks < 2 ^ c.tickBits →
        elapsed c g.clock.tick g.t0 = elapsed c e.clock.tick e.t0 + m.ticks)
    ∧ (e.sched = [] → g.clock.tick = e.clock.tick)

/-- R156, R151: EWS looks at one acknowledge, the one of `CTRL_W` inside StartSequence: there it goes on to the address bytes if the
EEPROM acknowledges and to the timeout check if not, and nothing else of the EEPROM matters; at every other position what it does
next and what it reports is the same whatever the EEPROM is, so every other acknowledge is discarded. -/
def Obligations.EwsLooksAtOneAcknowledge : Prop :=
  (∀ (c : Config) (e : Ews) (d : Eeprom), e.pos = .ssCT →
    ∃ g, ewsLine c { e with eeprom := d } = some g
      ∧ g.trace = .send c.ctrlW (d.sendAck c c.ctrlW) :: e.trace
      ∧ g.control = Ews.control { e with pos := if d.sendAck c c.ctrlW then .ssHI else .ssCK })
  ∧ ∀ (c : Config) (e : Ews) (d : Eeprom), e.pos ≠ .ssCT →
    (ewsLine c { e with eeprom := d }).map Ews.control = (ewsLine c e).map Ews.control

/-- R31: the timed-out flag is set exactly when StartSequence leaves its loop because the timeout has elapsed, is cleared when an
EWS command is accepted, is sticky in between, never changes what EWS does next but selects the result code of the response, and
is false after reset. -/
def Obligations.TimedOutFlag : Prop :=
  (∀ (c : Config) (e g : Ews), ewsLine c e = some g →
    (g.timedOut = true ↔ e.timedOut = true ∨ (e.pos = .ssCK ∧ pollTimedOut c e.clock.tick e.t0 = true)))
  ∧ (∀ (op : EwsOp) (start : EwsPos) (opc : Opcode) (address n : Half) (data : List Byte) (e : Ews),
    (e.accept op start opc address n data).timedOut = false)
  ∧ (∀ (c : Config) (e : Ews) (b : Bool),
    (ewsLine c { e with timedOut := b }).map (fun g => { g with timedOut := false, rsp := [] })
      = (ewsLine c e).map (fun g => { g with timedOut := false, rsp := [] }))
  ∧ (∀ e : Ews, e.complete.rsp = e.rsp ++ [response e.opc (if e.timedOut then .okTimedOut else .ok) 0#16])
  ∧ State.reset.ews.timedOut = false

/-- R153, R76, R157: EWS.READ completes, whatever the EEPROM and the tick do, with `n` bytes on `DOUT`; the result is `OK` or
`OK_TIMED_OUT` by the flag; if no acknowledge poll gave up, the bytes are the EEPROM's at `address` on, also across pages. The
EEPROM's content, all else of EWS and every other unit are as before; no commit is started. That `ews_addr` and `ews_i` are as
before, and that the payload latch ends empty, is the model's reading (logs 17, 29). -/
def Obligations.EwsReadResult : Prop :=
  ∀ (s : State) (address n : Half), s.ReadyForEws → 1 ≤ n.toNat → address.toNat + n.toNat ≤ s.cfg.eeSize →
    ∃ late t0 d eeprom clock sched trace, exec (.ewsRead address n) s = .next { s with ews := { s.ews with
        n := n, data := [], opAddr := address, opc := 0x20#8
        timedOut := late, t0 := t0, ri := n.toNat, rx := d
        dout := s.ews.dout ++ d
        rsp := s.ews.rsp ++ [if late then 0x20010000#32 else 0x20000000#32]
        eeprom := eeprom, clock := clock, sched := sched, trace := trace } }
      ∧ d.length = n.toNat
      ∧ (late = false → (s.cfg.ewsReadAckpoll = true ∨ s.ews.eeprom.commit = false) →
          d = s.ews.eeprom.ee.bytes .eeprom address.toNat n.toNat)
      ∧ (s.cfg.ewsReadAckpoll = false → late = false ∧ t0 = s.ews.t0)
      ∧ (∀ a, eeprom.ee.read? .eeprom a = s.eeAt a)
      ∧ (s.ews.eeprom.commit = false → eeprom.commit = false) ∧ eeprom.mode = .idle

/-- R153, R157: with an ideal EEPROM and a tick that stands still, the calls of EWS.READ are exactly these, in this order: the
acknowledge-polled write-direction transaction with the address, high byte first, then the read-direction transaction, every byte
acknowledged but the last. -/
def Obligations.EwsReadCallTrace : Prop :=
  ∀ (s : State) (address n : Half), s.ReadyForEws → s.ews.sched = [] → s.cfg.ewsReadAckpoll = true → 1 ≤ n.toNat →
    address.toNat + n.toNat ≤ s.cfg.eeSize →
    ∃ e, exec (.ewsRead address n) s = .next { s with ews := e }
      ∧ newCalls s.ews.trace e.trace =
          [.now s.ews.clock.tick, .start, .send s.cfg.ctrlW true, .send (address.extractLsb' 8 8) true,
           .send (address.extractLsb' 0 8) true, .stop, .start, .send s.cfg.ctrlR true]
          ++ (List.range n.toNat).map (fun k =>
              .receive (decide (k + 1 < n.toNat)) (s.ews.eeprom.ee.byte .eeprom (address.toNat + k)))
          ++ [.stop]

/-- R154, R158, R82: EWS.WRITE completes, whatever the EEPROM and the tick do; the result is `OK` or `OK_TIMED_OUT` by the flag;
if no acknowledge poll gave up, payload byte `k` is at `address + k` and the EEPROM is committing the last transaction; every byte
outside the `n` written addresses, all else of EWS and every other unit are as before. -/
def Obligations.EwsWriteResult : Prop :=
  ∀ (s : State) (address n : Half) (data : List Byte), s.ReadyForEws → 1 ≤ n.toNat →
    address.toNat + n.toNat ≤ s.cfg.eeSize → data.length = n.toNat →
    ∃ late t0 eeprom clock sched trace, exec (.ewsWrite address n data) s = .next { s with ews := { s.ews with
        n := n, data := data, opAddr := address, opc := 0x21#8
        addr := BitVec.ofNat 17 (address.toNat + n.toNat), i := n.toNat
        timedOut := late, t0 := t0
        rsp := s.ews.rsp ++ [if late then 0x21010000#32 else 0x21000000#32]
        eeprom := eeprom, clock := clock, sched := sched, trace := trace } }
      ∧ (late = false → (∀ k, k < n.toNat → eeprom.ee.read? .eeprom (address.toNat + k) = data[k]?)
          ∧ eeprom.commit = true)
      ∧ (∀ a, ¬ (address.toNat ≤ a ∧ a < address.toNat + n.toNat) → eeprom.ee.read? .eeprom a = s.eeAt a)
      ∧ eeprom.mode = .idle

/-- R154: with the ideal EEPROM, EWS.WRITE makes one transaction per page touched, `T` in all: `T` calls of `BUS.Start`, of
`BUS.Stop` and of `TICK.Now`, and three sends per transaction besides the `n` data bytes. -/
def Obligations.EwsWriteTransactions : Prop :=
  ∀ (s : State) (address n : Half) (data : List Byte), s.ReadyForEws → s.ews.sched = [] → 1 ≤ n.toNat →
    address.toNat + n.toNat ≤ s.cfg.eeSize → data.length = n.toNat →
    let T := (address.toNat + n.toNat - 1) / s.cfg.eePage - address.toNat / s.cfg.eePage + 1
    ∃ e, exec (.ewsWrite address n data) s = .next { s with ews := e }
      ∧ countCalls (fun k => k == .start) (newCalls s.ews.trace e.trace) = T
      ∧ countCalls (fun k => k == .stop) (newCalls s.ews.trace e.trace) = T
      ∧ countCalls (fun k => match k with | .now _ => true | _ => false) (newCalls s.ews.trace e.trace) = T
      ∧ countCalls (fun k => match k with | .send _ _ => true | _ => false) (newCalls s.ews.trace e.trace)
          = 3 * T + n.toNat

/-- R155: EWS.ERASEALL completes, whatever the EEPROM and the tick do; if no acknowledge poll gave up, every byte of the EEPROM
is 0xFF; all else of EWS and every other unit are as before. That `ews_page` ends at the last page number and the operand latches
at zero is the model's reading (logs 19, 29). -/
def Obligations.EwsEraseAllResult : Prop :=
  ∀ s : State, s.ReadyForEws →
    ∃ late t0 eeprom clock sched trace, exec .ewsEraseAll s = .next { s with ews := { s.ews with
        n := 0#16, data := [], opAddr := 0#16, opc := 0x22#8
        addr := BitVec.ofNat 17 s.cfg.eeSize, i := s.cfg.eePage, page := s.cfg.eePages - 1
        timedOut := late, t0 := t0
        rsp := s.ews.rsp ++ [if late then 0x22010000#32 else 0x22000000#32]
        eeprom := eeprom, clock := clock, sched := sched, trace := trace } }
      ∧ (late = false → ∀ a, a < s.cfg.eeSize → eeprom.ee.read? .eeprom a = some 0xFF#8)
      ∧ (∀ a, s.cfg.eeSize ≤ a → eeprom.ee.read? .eeprom a = s.eeAt a)
      ∧ eeprom.mode = .idle

/-- R205: EWS.PRINT, where pages are whole rows, completes, whatever the EEPROM and the tick do; if no acknowledge poll gave up,
`DIAG` has every row of every page with its address, none suppressed; the EEPROM's content, all else of EWS and every other unit
are as before. That `ews_page` ends at the last page number, the operand latches at zero and the receive latch at the last page's
bytes is the model's reading (logs 17, 19, 29); they are that if no acknowledge poll gave up, and in any case a page long. -/
def Obligations.EwsPrintResult : Prop :=
  ∀ s : State, s.ReadyForEws → s.cfg.eePage % 32 = 0 →
    ∃ late t0 d lines eeprom clock sched trace, exec .ewsPrint s = .next { s with ews := { s.ews with
        n := 0#16, data := [], opAddr := 0#16, opc := 0x23#8
        page := s.cfg.eePages - 1, pbuf := d, rx := d, ri := s.cfg.eePage
        timedOut := late, t0 := t0
        diag := s.ews.diag ++ lines
        rsp := s.ews.rsp ++ [if late then 0x23010000#32 else 0x23000000#32]
        eeprom := eeprom, clock := clock, sched := sched, trace := trace } }
      ∧ d.length = s.cfg.eePage
      ∧ (late = false → (s.cfg.ewsReadAckpoll = true ∨ s.ews.eeprom.commit = false) →
          lines = printedEeprom s.cfg s.ews.eeprom.ee
          ∧ d = s.ews.eeprom.ee.bytes .eeprom ((s.cfg.eePages - 1) * s.cfg.eePage) s.cfg.eePage)
      ∧ (s.cfg.ewsReadAckpoll = false → late = false ∧ t0 = s.ews.t0)
      ∧ (∀ a, eeprom.ee.read? .eeprom a = s.eeAt a)
      ∧ (s.ews.eeprom.commit = false → eeprom.commit = false) ∧ eeprom.mode = .idle

/-- R162: after an EWS.WRITE that no poll gave up on, an EWS.READ of the same range that no poll gave up on gives the data
back. -/
def Obligations.EwsRoundTrip : Prop :=
  ∀ (s : State) (address n : Half) (data : List Byte), s.ReadyForEws → s.cfg.ewsReadAckpoll = true → 1 ≤ n.toNat →
    address.toNat + n.toNat ≤ s.cfg.eeSize → data.length = n.toNat →
    ∃ t, exec (.ewsWrite address n data) s = .next t
      ∧ (t.ews.timedOut = false →
          ∃ u, exec (.ewsRead address n) t = .next u
            ∧ (u.ews.timedOut = false → u.ews.dout = s.ews.dout ++ data))

/-- R158, R75: the device's write pointer is `ews_addr` at every data byte EWS sends to a device that listens, so it never wraps
inside a transaction: an invariant of every step. -/
def Obligations.EwsWritePointerFollowsAddress : Prop :=
  ∀ s t : State, s.Inv → s.ews.InStep s.cfg → step s = .next t → t.ews.InStep s.cfg

/-- R222, U11: an EEPROM that never takes its `DONE` step while the tick stands still keeps StartSequence in its loop: a command
that begins with the acknowledge poll leaves EWS busy with no response, and every further step but a reset leaves it so, also one
in which the host presents a command or reads the status, which then waits at the port; a reset leaves it idle. That the hang is a
next state is the model's reading (log 10). -/
def Obligations.EwsHangs : Prop :=
  (∀ (i : Instr) (s : State), i.unit = .ews → precondition i s = true →
      (s.cfg.ewsReadAckpoll = true ∨ i.opcode = .ewsWrite ∨ i.opcode = .ewsEraseAll) →
      s.Inv → s.host = [] → s.ews.busy = false →
      s.ews.eeprom.commit = true → s.ews.eeprom.stalled = true → s.ews.sched = [] →
      ∃ e, exec i s = .next { s with ews := e } ∧ e.hung s.cfg = true ∧ e.InHang s.cfg ∧ e.rsp = s.ews.rsp)
  ∧ (∀ s t : State, s.ews.InHang s.cfg → step s = .next t →
      ((∀ rest, s.host ≠ (0, .reset) :: rest) →
        t.ews.InHang s.cfg ∧ t.ews.rsp = s.ews.rsp ∧ t.ews.timedOut = s.ews.timedOut
        ∧ s.ews.port.cmd <+: t.ews.port.cmd)
      ∧ (∀ rest, s.host = (0, .reset) :: rest → t.ews.busy = false ∧ t.ews.pos = .ready))

/-- R75, R256 (V52): the device itself, driven by a master that does not split, wraps its write pointer to the start of the page:
the byte after the last one of a page lands on the page's first address. -/
def Obligations.EepromPointerWraps : Prop :=
  ∀ (c : Config) (e : Eeprom) (p : Nat) (b : Byte), c.Valid → Memory.wf .eeprom e.ee → e.mode = .wData →
    e.ptr = p * c.eePage + (c.eePage - 1) → 2 ≤ c.eePage →
    ((e.afterSend c b).ptr = p * c.eePage)
    ∧ (((e.afterSend c b).afterSend c 0x22#8).ee.read? .eeprom (p * c.eePage) = some 0x22#8)
    ∧ (((e.afterSend c b).afterSend c 0x22#8).ee.read? .eeprom (e.ptr + 1) = e.ee.read? .eeprom (e.ptr + 1))

/-! ## The RPA commands -/

/-- R180: the cursor arithmetic: under its preconditions `head + tail = n`, `tail <= cursor`, `next` is below the capacity, equals
`tail` when the copy wraps and `cursor + n` when it does not; the wrap test fires exactly at `n = cap - cursor`, with an empty
tail. -/
def Obligations.RingArithmetic : Prop :=
  ∀ cap cursor n : Nat, 1 ≤ cap → cursor < cap → n ≤ cap →
    ((rpaArith cap cursor n).wrap = true ↔ cap ≤ cursor + n)
    ∧ (rpaArith cap cursor n).head = (if cap ≤ cursor + n then cap - cursor else n)
    ∧ (rpaArith cap cursor n).head + (rpaArith cap cursor n).tail = n
    ∧ (rpaArith cap cursor n).tail ≤ cursor
    ∧ (rpaArith cap cursor n).next = (cursor + n) % cap
    ∧ (rpaArith cap cursor n).next = (if cap ≤ cursor + n then (rpaArith cap cursor n).tail else cursor + n)
    ∧ (cursor + n = cap → (rpaArith cap cursor n).wrap = true ∧ (rpaArith cap cursor n).tail = 0)

/-- R181: RPA.CFG loads the three registers and answers the capacity; the ring's bytes, the streams and every other unit are as
before. That RPA.CFG keeps `rpa_n`, empties the payload latch and leaves its operands in latches of their own is the model's
reading (logs 21, 29). -/
def Obligations.RpaCfgResult : Prop :=
  ∀ (s : State) (cap rd wr : Half), s.ReadyForRpa → 1 ≤ cap.toNat → cap.toNat ≤ s.cfg.rbMemBytes →
    rd.toNat < cap.toNat → wr.toNat < cap.toNat →
    exec (.rpaCfg cap rd wr) s = .next { s with rpa := { s.rpa with
      cap := cap, rd := rd, wr := wr, opCap := cap, opRd := rd, opWr := wr, opc := 0x32#8, data := []
      rsp := s.rpa.rsp ++ [0x3200#16 ++ cap] } }

/-- R182: RPA.READ puts `n` bytes on `DOUT`, byte `k` the ring's at `(rb_rd + k) mod rb_cap` where one was written since reset,
and moves the read cursor by `n` modulo the capacity, which it answers; the ring, the write cursor, all else of RPA and every
other unit are as before. That the payload latch ends empty is the model's reading (log 29). -/
def Obligations.RpaReadResult : Prop :=
  ∀ (s : State) (n : Half), s.ReadyForRpa → 1 ≤ s.rpa.cap.toNat → n.toNat ≤ s.rpa.cap.toNat →
    ∃ d draws, exec (.rpaRead n) s = .next { s with rpa := { s.rpa with
        n := n, data := [], opc := 0x30#8
        rd := BitVec.ofNat 16 ((s.rpa.rd.toNat + n.toNat) % s.rpa.cap.toNat)
        dout := s.rpa.dout ++ d
        rsp := s.rpa.rsp ++ [0x3000#16 ++ BitVec.ofNat 16 ((s.rpa.rd.toNat + n.toNat) % s.rpa.cap.toNat)]
        draws := draws } }
      ∧ d.length = n.toNat
      ∧ (∀ k b, k < n.toNat → s.ringAt ((s.rpa.rd.toNat + k) % s.rpa.cap.toNat) = some b → d[k]? = some b)

/-- R183, R185: RPA.WRITE puts payload byte `k` at `(rb_wr + k) mod rb_cap`, changes no other ring byte, and moves the write
cursor by `n` modulo the capacity, which it answers, whatever has been read; the read cursor, all else of RPA and every other
unit are as before. -/
def Obligations.RpaWriteResult : Prop :=
  ∀ (s : State) (n : Half) (src : List Byte), s.ReadyForRpa → 1 ≤ s.rpa.cap.toNat → n.toNat ≤ s.rpa.cap.toNat →
    src.length = n.toNat →
    ∃ mem, exec (.rpaWrite n src) s = .next { s with rpa := { s.rpa with
        n := n, data := src, opc := 0x31#8
        mem := mem
        wr := BitVec.ofNat 16 ((s.rpa.wr.toNat + n.toNat) % s.rpa.cap.toNat)
        rsp := s.rpa.rsp ++ [0x3100#16 ++ BitVec.ofNat 16 ((s.rpa.wr.toNat + n.toNat) % s.rpa.cap.toNat)] } }
      ∧ (∀ k, k < n.toNat → mem.read? .ring ((s.rpa.wr.toNat + k) % s.rpa.cap.toNat) = src[k]?)
      ∧ (∀ a, (∀ k, k < n.toNat → a ≠ (s.rpa.wr.toNat + k) % s.rpa.cap.toNat) → mem.read? .ring a = s.ringAt a)

/-- R182, R183, the document's property: from equal cursors, `n` bytes written and then read come back in order, also across the
end of the array. -/
def Obligations.RpaRoundTrip : Prop :=
  ∀ (s : State) (n : Half) (src : List Byte), s.ReadyForRpa → 1 ≤ s.rpa.cap.toNat → n.toNat ≤ s.rpa.cap.toNat →
    src.length = n.toNat → s.rpa.rd = s.rpa.wr →
    ∃ t u, exec (.rpaWrite n src) s = .next t ∧ exec (.rpaRead n) t = .next u ∧ u.rpa.dout = s.rpa.dout ++ src
      ∧ u.rpa.rd = u.rpa.wr

/-- R187, R38: the cursor is written last: in the step that takes a ring command, a host move that lands right after its acceptance
finds RPA busy, the cursors, the ring and the streams as they were; a status read is then the next step and sees them so; and
when RPA's turn comes again, whatever the rest of the machine does meanwhile, the command goes on to the end it has without the
move. That a move is numbered by the sequencer steps before it, acceptance among them, is the model's choice (log 12). -/
def Obligations.RpaCursorMovesLast : Prop :=
  ∀ (s : State) (cw : Word64) (ws : List Word64) (i : Instr) (pay : List Byte) (m : HostMove) (rest : List (Nat × HostMove)),
    s.turn = .rpa → s.host = (1, m) :: rest → s.rpa.busy = false → s.rpa.port.cmd = cw :: ws →
    decodeCommand cw s.rpa.port.pay = .ok (i, pay) → i.unit = .rpa → precondition i s = true →
    ∃ t, step s = .next t ∧ t.host = (0, m) :: rest
      ∧ (rpaStatus t).getLsbD 0 = true ∧ rpaCursors t = rpaCursors s ∧ t.rpa.cap = s.rpa.cap
      ∧ t.rpa.mem = s.rpa.mem ∧ t.rpa.dout = s.rpa.dout ∧ t.rpa.rsp = s.rpa.rsp
      ∧ (m = .readStatus .rpa → step t = .next { t with host := rest })
      ∧ ∀ v : State, v.rpa = t.rpa → v.turn = .rpa → v.NoMoveDue →
          ∃ w x, step v = .next w
            ∧ exec i { s with host := [], rpa := { s.rpa with port := ⟨ws, pay⟩ } } = .next x ∧ w.rpa = x.rpa

/-! ## The whole machine -/

/-- The invariant holds in the reset state. -/
def Obligations.ResetMeetsInvariant : Prop := State.reset.Inv ∧ State.reset.ews.InStep State.reset.cfg

/-- The invariant of the machine is kept by every step: the parameters valid, each sequencer position with its command, phase and
transaction, the cursors below the capacity, the latches in range, the three memories canonical and inside their spaces. -/
def Obligations.EveryStepKeepsInvariant : Prop := ∀ s t : State, s.Inv → step s = .next t → t.Inv

/-- R220, R127: no exception exists: from every state that meets the invariant a step answers a next state. -/
def Obligations.EveryStepAnswersNext : Prop := ∀ s : State, s.Inv → ∃ t, step s = .next t

/-- R21: no step changes the parameters. -/
def Obligations.ParametersAreFixed : Prop := ∀ s t : State, step s = .next t → t.cfg = s.cfg

/-- R20, R81, R234: the units share nothing: a command of one unit leaves the two others exactly as they are, and what it does to
its own depends on its own state, the parameters and the host's moves alone. -/
def Obligations.UnitsAreIndependent : Prop :=
  ∀ (i : Instr) (s s' t t' : State), exec i s = .next t → exec i s' = .next t' → s.cfg = s'.cfg → s.host = s'.host →
    match i.unit with
    | .fpc => t.ews = s.ews ∧ t.rpa = s.rpa ∧ (s.fpc = s'.fpc → t.fpc = t'.fpc)
    | .ews => t.fpc = s.fpc ∧ t.rpa = s.rpa ∧ (s.ews = s'.ews → t.ews = t'.ews)
    | .rpa => t.fpc = s.fpc ∧ t.ews = s.ews ∧ (s.rpa = s'.rpa → t.rpa = t'.rpa)

/-- R90, R98, R220: a command at a unit that can take one either is answered with exactly one response word, which carries its
opcode, or leaves the unit in the middle of it with none. -/
def Obligations.OneResponsePerCommand : Prop :=
  ∀ (i : Instr) (s t : State), s.occupied i.unit = false → exec i s = .next t →
    match i.unit with
    | .fpc => if t.fpc.busy then t.fpc.rsp = s.fpc.rsp
        else ∃ w, t.fpc.rsp = s.fpc.rsp ++ [w] ∧ w.extractLsb' 24 8 = i.opcode.toByte
    | .ews => if t.ews.busy then t.ews.rsp = s.ews.rsp
        else ∃ w, t.ews.rsp = s.ews.rsp ++ [w] ∧ w.extractLsb' 24 8 = i.opcode.toByte
    | .rpa => if t.rpa.busy then t.rpa.rsp = s.rpa.rsp
        else ∃ w, t.rpa.rsp = s.rpa.rsp ++ [w] ∧ w.extractLsb' 24 8 = i.opcode.toByte

/-- R262, R100, R230: with devices that are not stalled, a host move other than a reset that lands in the middle of a command, after
its acceptance or after any later sequencer step, does not disturb it: the unit is busy there if the move comes right after the
acceptance, and where it is, the command, going on after the move, ends exactly as the undisturbed one, with the move's own
effect at the ports. That a command runs to its end in one step of the machine when no move lands is the model's choice (logs 9,
12). -/
def Obligations.InterruptedCommandGoesOn : Prop :=
  ∀ (i : Instr) (s t : State) (k : Nat) (m : HostMove) (rest : List (Nat × HostMove)),
    s.ReadyFor i.unit → i.wellFormed = true → precondition i s = true → m ≠ .reset →
    exec i { s with host := (k + 1, m) :: rest } = .next t →
    (k = 0 → t.occupied i.unit = true)
    ∧ (t.occupied i.unit = true →
        resume i.unit ({ t with host := [] }.hostMove m) = mapNext (State.hostMove m) (exec i s))

/-- R44: the response, data-out and diagnostic streams of every unit are append-only: a step that is not a reset move only adds
at their ends. -/
def Obligations.StreamsOnlyGrow : Prop :=
  ∀ s t : State, (∀ rest, s.host ≠ (0, .reset) :: rest) → step s = .next t →
    (s.fpc.rsp <+: t.fpc.rsp ∧ s.fpc.dout <+: t.fpc.dout ∧ s.fpc.diag <+: t.fpc.diag)
    ∧ (s.ews.rsp <+: t.ews.rsp ∧ s.ews.dout <+: t.ews.dout ∧ s.ews.diag <+: t.ews.diag)
    ∧ (s.rpa.rsp <+: t.rpa.rsp ∧ s.rpa.dout <+: t.rpa.dout ∧ s.rpa.diag = t.rpa.diag)
end

