-- ==== Sys2Proof/Laws/Decode.lean ====
section
/-! SUPPORT. The laws of command words: their fields, their bytes, the opcode map, and the mask of a row in terms of the fields. -/

namespace Sys2Proof

namespace Cw

/-- Bit `i` of a word made of fields. -/
theorem getLsbD_make (o : Byte) (a b c : Half) (i : Nat) :
    (make o a b c).getLsbD i = if i < 16 then c.getLsbD i else if i < 32 then b.getLsbD (i - 16)
      else if i < 48 then a.getLsbD (i - 32) else if i < 56 then false else o.getLsbD (i - 56) := by
  simp only [make, BitVec.getLsbD_append]
  by_cases h0 : i < 16
  · rw [if_pos h0, if_pos h0]
  rw [if_neg h0, if_neg h0]
  by_cases h1 : i < 32
  · rw [if_pos (by omega : i - 16 < 16), if_pos h1]
  rw [if_neg (by omega : ¬ i - 16 < 16), if_neg h1]
  by_cases h2 : i < 48
  · rw [if_pos (by omega : i - 16 - 16 < 16), if_pos h2]; congr 1
  rw [if_neg (by omega : ¬ i - 16 - 16 < 16), if_neg h2]
  by_cases h3 : i < 56
  · rw [if_pos (by omega : i - 16 - 16 - 16 < 8), if_pos h3]; simp
  rw [if_neg (by omega : ¬ i - 16 - 16 - 16 < 8), if_neg h3]; congr 1

@[simp] theorem opc_make (o : Byte) (a b c : Half) : opc (make o a b c) = o := by
  apply BitVec.eq_of_getLsbD_eq; intro i hi
  simp only [opc, BitVec.getLsbD_extractLsb', getLsbD_make, hi, decide_true, Bool.true_and]
  rw [if_neg (by omega), if_neg (by omega), if_neg (by omega), if_neg (by omega)]; congr 1; omega

@[simp] theorem rsv_make (o : Byte) (a b c : Half) : rsv (make o a b c) = 0#8 := by
  apply BitVec.eq_of_getLsbD_eq; intro i hi
  simp only [rsv, BitVec.getLsbD_extractLsb', getLsbD_make, hi, decide_true, Bool.true_and]
  rw [if_neg (by omega), if_neg (by omega), if_neg (by omega), if_pos (by omega)]; simp

@[simp] theorem fieldA_make (o : Byte) (a b c : Half) : fieldA (make o a b c) = a := by
  apply BitVec.eq_of_getLsbD_eq; intro i hi
  simp only [fieldA, BitVec.getLsbD_extractLsb', getLsbD_make, hi, decide_true, Bool.true_and]
  rw [if_neg (by omega), if_neg (by omega), if_pos (by omega)]; congr 1; omega

@[simp] theorem fieldB_make (o : Byte) (a b c : Half) : fieldB (make o a b c) = b := by
  apply BitVec.eq_of_getLsbD_eq; intro i hi
  simp only [fieldB, BitVec.getLsbD_extractLsb', getLsbD_make, hi, decide_true, Bool.true_and]
  rw [if_neg (by omega), if_pos (by omega)]; congr 1; omega

@[simp] theorem fieldC_make (o : Byte) (a b c : Half) : fieldC (make o a b c) = c := by
  apply BitVec.eq_of_getLsbD_eq; intro i hi
  simp only [fieldC, BitVec.getLsbD_extractLsb', getLsbD_make, hi, decide_true, Bool.true_and]
  rw [if_pos (by omega)]; congr 1; omega

/-- A word whose reserved field is zero is made of its other fields (R91). -/
theorem make_fields {cw : Word64} (h : rsv cw = 0#8) : make (opc cw) (fieldA cw) (fieldB cw) (fieldC cw) = cw := by
  apply BitVec.eq_of_getLsbD_eq; intro i hi
  rw [getLsbD_make]
  simp only [opc, fieldA, fieldB, fieldC, BitVec.getLsbD_extractLsb']
  split_ifs with h1 h2 h3 h4
  · simp [h1]
  · rw [decide_eq_true (by omega)]; simp only [Bool.true_and]; congr 1; omega
  · rw [decide_eq_true (by omega)]; simp only [Bool.true_and]; congr 1; omega
  · have h5 : (rsv cw).getLsbD (i - 48) = cw.getLsbD i := by
      simp only [rsv, BitVec.getLsbD_extractLsb']
      rw [decide_eq_true (by omega)]; simp only [Bool.true_and]; congr 1; omega
    rw [← h5, h]; simp
  · rw [decide_eq_true (by omega)]; simp only [Bool.true_and]; congr 1; omega

/-- Two words with the same five fields are equal (R91). -/
theorem ext_fields {x y : Word64} (h1 : opc x = opc y) (h2 : rsv x = rsv y) (h3 : fieldA x = fieldA y)
    (h4 : fieldB x = fieldB y) (h5 : fieldC x = fieldC y) : x = y := by
  apply BitVec.eq_of_getLsbD_eq; intro i hi
  have e1 := congrArg (fun z => BitVec.getLsbD z (i - 56)) h1
  have e2 := congrArg (fun z => BitVec.getLsbD z (i - 48)) h2
  have e3 := congrArg (fun z => BitVec.getLsbD z (i - 32)) h3
  have e4 := congrArg (fun z => BitVec.getLsbD z (i - 16)) h4
  have e5 := congrArg (fun z => BitVec.getLsbD z i) h5
  simp only [opc, rsv, fieldA, fieldB, fieldC, BitVec.getLsbD_extractLsb'] at e1 e2 e3 e4 e5
  by_cases g1 : i < 16
  · simpa [g1] using e5
  by_cases g2 : i < 32
  · have g : i - 16 < 16 := by omega
    have g' : 16 + (i - 16) = i := by omega
    simpa [g, g'] using e4
  by_cases g3 : i < 48
  · have g : i - 32 < 16 := by omega
    have g' : 32 + (i - 32) = i := by omega
    simpa [g, g'] using e3
  by_cases g4 : i < 56
  · have g : i - 48 < 8 := by omega
    have g' : 48 + (i - 48) = i := by omega
    simpa [g, g'] using e2
  · have g : i - 56 < 8 := by omega
    have g' : 56 + (i - 56) = i := by omega
    simpa [g, g'] using e1

/-- Bit `i` of the word that eight bytes spell (R95). -/
theorem getLsbD_ofBytes (b7 b6 b5 b4 b3 b2 b1 b0 : Byte) (i : Nat) :
    (ofBytes b7 b6 b5 b4 b3 b2 b1 b0).getLsbD i =
      if i < 8 then b0.getLsbD i else if i < 16 then b1.getLsbD (i - 8) else if i < 24 then b2.getLsbD (i - 16)
      else if i < 32 then b3.getLsbD (i - 24) else if i < 40 then b4.getLsbD (i - 32) else if i < 48 then b5.getLsbD (i - 40)
      else if i < 56 then b6.getLsbD (i - 48) else b7.getLsbD (i - 56) := by
  simp only [ofBytes, BitVec.getLsbD_append]
  by_cases h0 : i < 8
  · simp [h0]
  by_cases h1 : i < 16
  · have g : i - 8 < 8 := by omega
    simp [h0, h1, g]
  by_cases h2 : i < 24
  · have g : ¬ i - 8 < 8 := by omega
    have g' : i - 8 - 8 < 8 := by omega
    simp [h0, h1, h2, g, g']; congr 1
  by_cases h3 : i < 32
  · have g : ¬ i - 8 < 8 := by omega
    have g1 : ¬ i - 8 - 8 < 8 := by omega
    have g2 : i - 8 - 8 - 8 < 8 := by omega
    simp [h0, h1, h2, h3, g, g1, g2]; congr 1
  by_cases h4 : i < 40
  · have g : ¬ i - 8 < 8 := by omega
    have g1 : ¬ i - 8 - 8 < 8 := by omega
    have g2 : ¬ i - 8 - 8 - 8 < 8 := by omega
    have g3 : i - 8 - 8 - 8 - 8 < 8 := by omega
    simp [h0, h1, h2, h3, h4, g, g1, g2, g3]; congr 1
  by_cases h5 : i < 48
  · have g : ¬ i - 8 < 8 := by omega
    have g1 : ¬ i - 8 - 8 < 8 := by omega
    have g2 : ¬ i - 8 - 8 - 8 < 8 := by omega
    have g3 : ¬ i - 8 - 8 - 8 - 8 < 8 := by omega
    have g4 : i - 8 - 8 - 8 - 8 - 8 < 8 := by omega
    simp [h0, h1, h2, h3, h4, h5, g, g1, g2, g3, g4]; congr 1
  by_cases h6 : i < 56
  · have g : ¬ i - 8 < 8 := by omega
    have g1 : ¬ i - 8 - 8 < 8 := by omega
    have g2 : ¬ i - 8 - 8 - 8 < 8 := by omega
    have g3 : ¬ i - 8 - 8 - 8 - 8 < 8 := by omega
    have g4 : ¬ i - 8 - 8 - 8 - 8 - 8 < 8 := by omega
    have g5 : i - 8 - 8 - 8 - 8 - 8 - 8 < 8 := by omega
    simp [h0, h1, h2, h3, h4, h5, h6, g, g1, g2, g3, g4, g5]; congr 1
  · have g : ¬ i - 8 < 8 := by omega
    have g1 : ¬ i - 8 - 8 < 8 := by omega
    have g2 : ¬ i - 8 - 8 - 8 < 8 := by omega
    have g3 : ¬ i - 8 - 8 - 8 - 8 < 8 := by omega
    have g4 : ¬ i - 8 - 8 - 8 - 8 - 8 < 8 := by omega
    have g5 : ¬ i - 8 - 8 - 8 - 8 - 8 - 8 < 8 := by omega
    simp [h0, h1, h2, h3, h4, h5, h6, g, g1, g2, g3, g4, g5]; congr 1

/-- A word's bytes spell it (R95). -/
theorem ofBytes_bytes (cw : Word64) :
    ofBytes (cw.extractLsb' 56 8) (cw.extractLsb' 48 8) (cw.extractLsb' 40 8) (cw.extractLsb' 32 8) (cw.extractLsb' 24 8)
      (cw.extractLsb' 16 8) (cw.extractLsb' 8 8) (cw.extractLsb' 0 8) = cw := by
  apply BitVec.eq_of_getLsbD_eq; intro i hi
  rw [getLsbD_ofBytes]
  simp only [BitVec.getLsbD_extractLsb']
  split_ifs with h0 h1 h2 h3 h4 h5 h6
  · simp [h0]
  all_goals (rw [decide_eq_true (by omega)]; simp only [Bool.true_and]; congr 1; omega)

/-- The bytes of a word that bytes spell are those bytes (R95). -/
theorem bytes_ofBytes (b7 b6 b5 b4 b3 b2 b1 b0 : Byte) :
    bytes (ofBytes b7 b6 b5 b4 b3 b2 b1 b0) = [b7, b6, b5, b4, b3, b2, b1, b0] := by
  have h : ∀ (s : Nat) (b : Byte), (∀ i, i < 8 → (ofBytes b7 b6 b5 b4 b3 b2 b1 b0).getLsbD (s + i) = b.getLsbD i) →
      (ofBytes b7 b6 b5 b4 b3 b2 b1 b0).extractLsb' s 8 = b := by
    intro s b hb
    apply BitVec.eq_of_getLsbD_eq; intro i hi
    simp only [BitVec.getLsbD_extractLsb', hi, decide_true, Bool.true_and]
    exact hb i hi
  unfold bytes
  rw [h 56 b7, h 48 b6, h 40 b5, h 32 b4, h 24 b3, h 16 b2, h 8 b1, h 0 b0] <;> intro i hi <;> rw [getLsbD_ofBytes]
  · rw [if_pos (by omega)]; congr 1; omega
  · rw [if_neg (by omega), if_pos (by omega)]; congr 1; omega
  · rw [if_neg (by omega), if_neg (by omega), if_pos (by omega)]; congr 1; omega
  · rw [if_neg (by omega), if_neg (by omega), if_neg (by omega), if_pos (by omega)]; congr 1; omega
  · rw [if_neg (by omega), if_neg (by omega), if_neg (by omega), if_neg (by omega), if_pos (by omega)]; congr 1; omega
  · rw [if_neg (by omega), if_neg (by omega), if_neg (by omega), if_neg (by omega), if_neg (by omega), if_pos (by omega)]
    congr 1; omega
  · rw [if_neg (by omega), if_neg (by omega), if_neg (by omega), if_neg (by omega), if_neg (by omega), if_neg (by omega),
      if_pos (by omega)]
    congr 1; omega
  · rw [if_neg (by omega), if_neg (by omega), if_neg (by omega), if_neg (by omega), if_neg (by omega), if_neg (by omega),
      if_neg (by omega)]
    congr 1; omega

end Cw

/-! ## The opcode map -/

namespace Opcode

@[simp] theorem ofByte?_toByte (op : Opcode) : ofByte? op.toByte = some op := by cases op <;> decide

theorem toByte_of_ofByte? {b : Byte} {op : Opcode} (h : ofByte? b = some op) : op.toByte = b := by
  have := List.find?_some h; simpa using this

theorem ofByte?_eq_some {b : Byte} {op : Opcode} : ofByte? b = some op ↔ b = op.toByte :=
  ⟨fun h => (toByte_of_ofByte? h).symm, fun h => h ▸ ofByte?_toByte op⟩

theorem toByte_injective {x y : Opcode} (h : x.toByte = y.toByte) : x = y := by
  have := ofByte?_toByte x; rw [h, ofByte?_toByte] at this; cases this; rfl

theorem ofByte?_eq_none {b : Byte} : ofByte? b = none ↔ ∀ op : Opcode, b ≠ op.toByte := by
  constructor
  · intro h op he; rw [ofByte?_eq_some.2 he] at h; cases h
  · intro h
    cases ho : ofByte? b with
    | none => rfl
    | some op => exact absurd (ofByte?_eq_some.1 ho) (h op)

/-- A field of a word under a row's mask. -/
theorem extract_and (cw m : Word64) (s n : Nat) : (cw &&& m).extractLsb' s n = cw.extractLsb' s n &&& m.extractLsb' s n := by
  apply BitVec.eq_of_getLsbD_eq; intro i hi
  simp [hi]

/-- What a row's mask asks of a word, in terms of its fields (R92, R96). -/
theorem and_mask_iff (op : Opcode) (cw : Word64) :
    cw &&& op.mask = op.matchWord ↔
      Cw.opc cw = op.toByte ∧ Cw.rsv cw = 0#8
      ∧ (op.format ≠ .fc → Cw.fieldA cw = 0#16)
      ∧ (op.format = .f0 ∨ op.format = .fl → Cw.fieldB cw = 0#16)
      ∧ (op.format = .f0 → Cw.fieldC cw = 0#16) := by
  have key : cw &&& op.mask = op.matchWord ↔
      Cw.opc cw &&& Cw.opc op.mask = op.toByte ∧ Cw.rsv cw &&& Cw.rsv op.mask = 0#8
      ∧ Cw.fieldA cw &&& Cw.fieldA op.mask = 0#16 ∧ Cw.fieldB cw &&& Cw.fieldB op.mask = 0#16
      ∧ Cw.fieldC cw &&& Cw.fieldC op.mask = 0#16 := by
    constructor
    · intro h
      have h1 := congrArg Cw.opc h
      have h2 := congrArg Cw.rsv h
      have h3 := congrArg Cw.fieldA h
      have h4 := congrArg Cw.fieldB h
      have h5 := congrArg Cw.fieldC h
      simp only [matchWord, Cw.opc_make, Cw.rsv_make, Cw.fieldA_make, Cw.fieldB_make, Cw.fieldC_make] at h1 h2 h3 h4 h5
      refine ⟨?_, ?_, ?_, ?_, ?_⟩
      · rw [← h1]; exact (extract_and _ _ _ _).symm
      · rw [← h2]; exact (extract_and _ _ _ _).symm
      · rw [← h3]; exact (extract_and _ _ _ _).symm
      · rw [← h4]; exact (extract_and _ _ _ _).symm
      · rw [← h5]; exact (extract_and _ _ _ _).symm
    · rintro ⟨h1, h2, h3, h4, h5⟩
      apply Cw.ext_fields <;> simp only [matchWord, Cw.opc_make, Cw.rsv_make, Cw.fieldA_make, Cw.fieldB_make, Cw.fieldC_make]
      · exact (extract_and _ _ _ _).trans h1
      · exact (extract_and _ _ _ _).trans h2
      · exact (extract_and _ _ _ _).trans h3
      · exact (extract_and _ _ _ _).trans h4
      · exact (extract_and _ _ _ _).trans h5
  rw [key]
  have m8 : ∀ b : Byte, b &&& 0xFF#8 = b := fun b => by
    rw [show (0xFF#8) = BitVec.allOnes 8 from rfl, BitVec.and_allOnes]
  have m16 : ∀ b : Half, b &&& 0xFFFF#16 = b := fun b => by
    rw [show (0xFFFF#16) = BitVec.allOnes 16 from rfl, BitVec.and_allOnes]
  have z16 : ∀ b : Half, b &&& 0#16 = 0#16 := fun b => BitVec.and_zero
  have o : Cw.opc op.mask = 0xFF#8 := by cases op <;> decide
  have r : Cw.rsv op.mask = 0xFF#8 := by cases op <;> decide
  rw [o, r, m8, m8]
  cases hf : op.format with
  | f0 =>
    have ha : Cw.fieldA op.mask = 0xFFFF#16 := by rw [mask, hf]; decide
    have hb : Cw.fieldB op.mask = 0xFFFF#16 := by rw [mask, hf]; decide
    have hc : Cw.fieldC op.mask = 0xFFFF#16 := by rw [mask, hf]; decide
    rw [ha, hb, hc, m16, m16, m16]; simp
  | fl =>
    have ha : Cw.fieldA op.mask = 0xFFFF#16 := by rw [mask, hf]; decide
    have hb : Cw.fieldB op.mask = 0xFFFF#16 := by rw [mask, hf]; decide
    have hc : Cw.fieldC op.mask = 0#16 := by rw [mask, hf]; decide
    rw [ha, hb, hc, m16, m16, z16]; simp
  | fa =>
    have ha : Cw.fieldA op.mask = 0xFFFF#16 := by rw [mask, hf]; decide
    have hb : Cw.fieldB op.mask = 0#16 := by rw [mask, hf]; decide
    have hc : Cw.fieldC op.mask = 0#16 := by rw [mask, hf]; decide
    rw [ha, hb, hc, m16, z16, z16]; simp
  | fc =>
    have ha : Cw.fieldA op.mask = 0#16 := by rw [mask, hf]; decide
    have hb : Cw.fieldB op.mask = 0#16 := by rw [mask, hf]; decide
    have hc : Cw.fieldC op.mask = 0#16 := by rw [mask, hf]; decide
    rw [ha, hb, hc, z16, z16, z16]; simp

end Opcode

/-! ## The decoder -/

/-- A byte string is decoded by its word and the bytes behind it (R95). -/
theorem decode_bytes (cw : Word64) (rest : List Byte) : decode (Cw.bytes cw ++ rest) = decodeCommand cw rest := by
  simp only [Cw.bytes, decode, List.cons_append, List.nil_append, Cw.ofBytes_bytes]

/-- When a word and a payload are a command. -/
theorem decodeCommand_ok {cw : Word64} {pay : List Byte} {i : Instr} {rest : List Byte} :
    decodeCommand cw pay = .ok (i, rest) ↔
      ∃ op : Opcode, Cw.opc cw = op.toByte ∧ op.payloadLength cw ≤ pay.length ∧ cw &&& op.mask = op.matchWord
        ∧ i = op.build cw (pay.take (op.payloadLength cw)) ∧ rest = pay.drop (op.payloadLength cw) := by
  unfold decodeCommand
  constructor
  · intro h
    split at h
    · cases h
    · rename_i op ho
      split_ifs at h with h1 h2
      cases h
      exact ⟨op, Opcode.ofByte?_eq_some.1 ho, by omega, h2, rfl, rfl⟩
  · rintro ⟨op, h1, h2, h3, rfl, rfl⟩
    rw [h1, Opcode.ofByte?_toByte]
    simp [h3, Nat.not_lt.2 h2]

@[simp] theorem Opcode.opcode_build (op : Opcode) (cw : Word64) (pay : List Byte) : (op.build cw pay).opcode = op := by
  cases op <;> rfl

@[simp] theorem Instr.opc_word (i : Instr) : Cw.opc i.word = i.opcode.toByte := by cases i <;> simp [word, opcode]

/-- The length of a well-formed command's payload is what its word says (R94). -/
theorem Instr.payloadLength_word {i : Instr} (h : i.wellFormed = true) : i.opcode.payloadLength i.word = i.payload.length := by
  cases i <;> simp_all [opcode, word, payload, wellFormed, Opcode.payloadLength, Opcode.hasPayload]

/-- Where `OPC[7:4]` sends a command's word (R91). -/
@[simp] theorem unitOfOpc_toByte (op : Opcode) : unitOfOpc op.toByte = op.unit := by cases op <;> decide

end Sys2Proof
end

