-- ==== Sys2Proof/Laws/Memory.lean ====
section
/-! SUPPORT. The laws of the sparse byte memories: a read after a write, and the canonical form kept by every write. -/

namespace Sys2Proof.Machine.Memory

/-- Strictly rising addresses, the first half of the canonical form. -/
abbrev sorted (m : Memory) : Prop := List.Pairwise (fun x y => x.1 < y.1) m

theorem get?_eq_none_of_lt {m : Memory} {a : Nat} (h : ∀ x ∈ m, a < x.1) : get? m a = none := by
  induction m with
  | nil => rfl
  | cons x m ih =>
    obtain ⟨k, v⟩ := x
    have hk : a < k := h (k, v) (by simp)
    have : k ≠ a := by omega
    simp only [get?, this, if_false]
    exact ih (fun y hy => h y (by simp [hy]))

theorem mem_of_get? {m : Memory} {a : Nat} {b : Byte} (h : get? m a = some b) : (a, b) ∈ m := by
  induction m with
  | nil => simp [get?] at h
  | cons x m ih =>
    obtain ⟨k, v⟩ := x
    by_cases hk : k = a
    · simp [get?, hk] at h; simp [hk, h]
    · simp [get?, hk] at h; simp [ih h]

/-- Every entry after a write is the written one or was there before. -/
theorem mem_set {sp : Space} {m : Memory} {a : Nat} {b : Byte} {x : Host.Cell} (h : x ∈ set sp m a b) :
    x = (a, b) ∨ x ∈ m := by
  induction m with
  | nil => simp only [set] at h; split at h <;> simp_all
  | cons y m ih =>
    obtain ⟨k, v⟩ := y
    simp only [set] at h
    split_ifs at h <;> simp only [List.mem_cons] at h ⊢ <;> tauto

theorem sorted_set {sp : Space} {m : Memory} {a : Nat} {b : Byte} (h : sorted m) : sorted (set sp m a b) := by
  induction m with
  | nil => simp only [set]; split <;> simp [sorted]
  | cons y m ih =>
    obtain ⟨k, v⟩ := y
    obtain ⟨hk, hm⟩ := List.pairwise_cons.1 h
    simp only [set]
    split_ifs with h1 h2 h3 h4
    · exact h
    · exact List.pairwise_cons.2 ⟨by
        intro z hz; rcases List.mem_cons.1 hz with rfl | hz
        · exact h1
        · exact lt_trans h1 (hk z hz), h⟩
    · exact hm
    · exact List.pairwise_cons.2 ⟨fun z hz => h3 ▸ hk z hz, hm⟩
    · refine List.pairwise_cons.2 ⟨fun z hz => ?_, ih hm⟩
      rcases mem_set hz with rfl | hz
      · change k < a; omega
      · exact hk z hz

theorem get?_set {sp : Space} {m : Memory} {a x : Nat} {b : Byte} (h : sorted m) :
    get? (set sp m a b) x = if x = a then (if sp.unlisted = some b then none else some b) else get? m x := by
  induction m with
  | nil => simp only [set]; split_ifs <;> simp_all [get?] <;> omega
  | cons y m ih =>
    obtain ⟨k, v⟩ := y
    obtain ⟨hk, hm⟩ := List.pairwise_cons.1 h
    have hnone : a ≤ k → get? m a = none := fun hak =>
      get?_eq_none_of_lt (fun z hz => lt_of_le_of_lt hak (hk z hz))
    by_cases h1 : a < k
    · have hka : k ≠ a := by omega
      by_cases h2 : sp.unlisted = some b
      · by_cases hx : x = a
        · subst hx; simp [set, h1, h2, get?, hka, hnone (le_of_lt h1)]
        · simp [set, h1, h2, get?, hx]
      · by_cases hx : x = a
        · subst hx; simp [set, h1, h2, get?]
        · have : a ≠ x := fun e => hx e.symm
          simp [set, h1, h2, get?, hx, this]
    · by_cases h3 : a = k
      · subst h3
        by_cases h2 : sp.unlisted = some b
        · by_cases hx : x = a
          · subst hx; simp [set, h2, hnone (le_refl _)]
          · have : a ≠ x := fun e => hx e.symm
            simp [set, h2, get?, hx, this]
        · by_cases hx : x = a
          · subst hx; simp [set, h2, get?]
          · have : a ≠ x := fun e => hx e.symm
            simp [set, h2, get?, hx, this]
      · by_cases hxk : k = x
        · subst hxk
          have : k ≠ a := fun e => h3 e.symm
          simp [set, h1, h3, get?, this]
        · simp [set, h1, h3, get?, hxk, ih hm]

/-- Read after write: the written byte at its address, every other address as before. -/
theorem read?_set {sp : Space} {m : Memory} {a x : Nat} {b : Byte} (h : wf sp m) :
    read? sp (set sp m a b) x = if x = a then some b else read? sp m x := by
  simp only [read?, get?_set h.1]
  by_cases hx : x = a
  · by_cases h2 : sp.unlisted = some b <;> simp [hx, h2]
  · simp [hx]

/-- A write keeps the canonical form. -/
theorem wf_set {sp : Space} {m : Memory} {a : Nat} {b : Byte} (h : wf sp m) : wf sp (set sp m a b) := by
  refine ⟨sorted_set h.1, ?_⟩
  have key : ∀ m : Memory, (∀ x ∈ m, some x.2 ≠ sp.unlisted) → ∀ x ∈ set sp m a b, some x.2 ≠ sp.unlisted := by
    intro m
    induction m with
    | nil =>
      intro _ x hx
      simp only [set] at hx
      split_ifs at hx with h2
      · simp at hx
      · simp only [List.mem_singleton] at hx; subst hx; exact fun e => h2 e.symm
    | cons y m ih =>
      obtain ⟨k, v⟩ := y
      intro hm x hx
      simp only [set] at hx
      have hm' : ∀ x ∈ m, some x.2 ≠ sp.unlisted := fun x hx => hm x (by simp [hx])
      split_ifs at hx with h1 h2 h3 h4
      · exact hm x hx
      · rcases List.mem_cons.1 hx with rfl | hx
        · exact fun e => h2 e.symm
        · exact hm x hx
      · exact hm' x hx
      · rcases List.mem_cons.1 hx with rfl | hx
        · exact fun e => h4 e.symm
        · exact hm' x hx
      · rcases List.mem_cons.1 hx with rfl | hx
        · exact hm _ (by simp)
        · exact ih hm' x hx
  exact key m h.2

/-- A write of many bytes keeps the canonical form. -/
theorem wf_setBytes {sp : Space} {bs : List Byte} : ∀ {m : Memory} {a : Nat}, wf sp m → wf sp (setBytes sp m a bs) := by
  induction bs with
  | nil => intro m a h; exact h
  | cons b bs ih => intro m a h; exact ih (wf_set h)

/-- Every entry after a write of many bytes is inside the written range or was there before. -/
theorem mem_setBytes {sp : Space} {bs : List Byte} :
    ∀ {m : Memory} {a : Nat} {x : Host.Cell}, x ∈ setBytes sp m a bs → (a ≤ x.1 ∧ x.1 < a + bs.length) ∨ x ∈ m := by
  induction bs with
  | nil => intro m a x h; exact .inr h
  | cons b bs ih =>
    intro m a x h
    rcases ih h with h | h
    · left; simp only [List.length_cons]; omega
    · rcases mem_set h with rfl | h
      · left; simp
      · exact .inr h

/-- Read after a write of many bytes. -/
theorem read?_setBytes {sp : Space} {bs : List Byte} :
    ∀ {m : Memory} {a x : Nat}, wf sp m →
      read? sp (setBytes sp m a bs) x = if a ≤ x ∧ x < a + bs.length then bs[x - a]? else read? sp m x := by
  induction bs with
  | nil => intro m a x h; simp only [setBytes, List.length_nil]; rw [if_neg]; omega
  | cons b bs ih =>
    intro m a x h
    simp only [setBytes, ih (wf_set h), read?_set h, List.length_cons]
    by_cases hx : x = a
    · subst hx
      rw [if_neg (by omega), if_pos rfl, if_pos (by omega)]; simp
    · by_cases hr : a + 1 ≤ x ∧ x < a + 1 + bs.length
      · rw [if_pos hr, if_pos (by omega)]
        obtain ⟨k, hk⟩ : ∃ k, x - a = k + 1 := ⟨x - a - 1, by omega⟩
        rw [hk, List.getElem?_cons_succ]; congr 1; omega
      · rw [if_neg hr, if_neg hx, if_neg (by omega)]

@[simp] theorem length_bytes {sp : Space} {m : Memory} {a n : Nat} : (bytes sp m a n).length = n := by simp [bytes]

theorem getElem?_bytes {sp : Space} {m : Memory} {a n k : Nat} (h : k < n) :
    (bytes sp m a n)[k]? = some (byte sp m (a + k)) := by simp [bytes, h]

/-- An address of the flash or of the EEPROM always reads as a byte. -/
theorem read?_eq_some_byte {sp : Space} {m : Memory} {a : Nat} (h : sp ≠ .ring) : read? sp m a = some (byte sp m a) := by
  cases hg : get? m a with
  | some b => simp [byte, read?, hg]
  | none => cases sp <;> simp [byte, read?, hg, Space.unlisted] at h ⊢

/-- The bytes of a range are given by the reads of its addresses. -/
theorem bytes_congr {sp : Space} {m m' : Memory} {a n : Nat}
    (h : ∀ x, a ≤ x → x < a + n → read? sp m x = read? sp m' x) : bytes sp m a n = bytes sp m' a n := by
  apply List.ext_getElem?
  intro k
  by_cases hk : k < n
  · rw [getElem?_bytes hk, getElem?_bytes hk]; simp only [byte]; rw [h (a + k) (by omega) (by omega)]
  · rw [List.getElem?_eq_none (by simp; omega), List.getElem?_eq_none (by simp; omega)]

/-- Reading back a range just written gives what was written. -/
theorem bytes_setBytes {sp : Space} {m : Memory} {a : Nat} {bs : List Byte} (h : wf sp m) :
    bytes sp (setBytes sp m a bs) a bs.length = bs := by
  apply List.ext_getElem?
  intro k
  by_cases hk : k < bs.length
  · rw [getElem?_bytes hk]
    simp only [byte, read?_setBytes h]
    rw [if_pos (by omega), Nat.add_sub_cancel_left, List.getElem?_eq_getElem hk]; rfl
  · rw [List.getElem?_eq_none (by simp; omega), List.getElem?_eq_none (by omega)]

/-- The first part of a range. -/
theorem take_bytes {sp : Space} {m : Memory} {a n k : Nat} (h : k ≤ n) : (bytes sp m a n).take k = bytes sp m a k := by
  simp [bytes, ← List.map_take, List.take_range, Nat.min_eq_left h]

/-- A range inside a range. -/
theorem take_drop_bytes {sp : Space} {m : Memory} {a n d k : Nat} (h : d + k ≤ n) :
    ((bytes sp m a n).drop d).take k = bytes sp m (a + d) k := by
  apply List.ext_getElem?
  intro j
  by_cases hj : j < k
  · rw [List.getElem?_take_of_lt hj, List.getElem?_drop, getElem?_bytes (by omega), getElem?_bytes hj, Nat.add_assoc]
  · rw [List.getElem?_eq_none (by simp; omega), List.getElem?_eq_none (by simp; omega)]

end Sys2Proof.Machine.Memory

namespace Sys2Proof.Machine

@[simp] theorem length_freeBytes {free : Nat → Byte} {d n : Nat} : (freeBytes free d n).length = n := by simp [freeBytes]

@[simp] theorem length_ringBytes {m : Memory} {d a n : Nat} : (ringBytes m d a n).length = n := by simp [ringBytes]

/-- A ring byte written since reset is the one read. -/
theorem getElem?_ringBytes {m : Memory} {d a n k : Nat} {b : Byte} (hk : k < n)
    (h : m.read? .ring (a + k) = some b) : (ringBytes m d a n)[k]? = some b := by simp [ringBytes, hk, h]

theorem Eeprom.wf_spoil : ∀ {as : List Nat} {m : Memory} {d : Nat},
    Memory.wf .eeprom m → Memory.wf .eeprom (Eeprom.spoil m as d) := by
  intro as
  induction as with
  | nil => intro m d h; exact h
  | cons a as ih => intro m d h; exact ih (Memory.wf_set h)

theorem Eeprom.mem_spoil : ∀ {as : List Nat} {m : Memory} {d : Nat} {x : Host.Cell},
    x ∈ Eeprom.spoil m as d → x.1 ∈ as ∨ x ∈ m := by
  intro as
  induction as with
  | nil => intro m d x h; exact .inr h
  | cons a as ih =>
    intro m d x h
    rcases ih h with h | h
    · exact .inl (List.mem_cons_of_mem _ h)
    · rcases Memory.mem_set h with rfl | h
      · exact .inl (by simp)
      · exact .inr h

end Sys2Proof.Machine
end

