-- ==== Sys2Proof/Laws/Run.lean ====
section
/-! SUPPORT. What a run of a sequencer (`runSeq`) does, for any sequencer: invariants, termination, cutting a run in two. -/

namespace Sys2Proof.Machine

variable {σ : Type} {seq : σ → Option σ} {stop : σ → Bool}

@[simp] theorem runSeq_zero (x : σ) : runSeq seq stop 0 x = some x := rfl

theorem runSeq_succ {n : Nat} {x y : σ} (h : seq x = some y) :
    runSeq seq stop (n + 1) x = if stop y then some y else runSeq seq stop n y := by simp [runSeq, h]

/-- A run keeps what every step keeps. -/
theorem runSeq_keeps {P : σ → Prop} (hstep : ∀ a b, P a → seq a = some b → P b) :
    ∀ {n : Nat} {x y : σ}, P x → runSeq seq stop n x = some y → P y := by
  intro n
  induction n with
  | zero => intro x y hx h; cases h; exact hx
  | succ n ih =>
    intro x y hx h
    cases hs : seq x with
    | none => simp [runSeq, hs] at h
    | some z =>
      rw [runSeq_succ hs] at h
      split at h
      · cases h; exact hstep x y hx hs
      · exact ih (hstep x z hx hs) h

/-- A run keeps a relation to its start that every step extends. -/
theorem runSeq_relates {R : σ → σ → Prop} (hrefl : ∀ a, R a a) (hstep : ∀ a b c, R a b → seq b = some c → R a c)
    {n : Nat} {x y : σ} (h : runSeq seq stop n x = some y) : R x y :=
  runSeq_keeps (P := R x) (fun b c hb hs => hstep x b c hb hs) (hrefl x) h

/-- A run that can always go on answers a state: where `P` holds there is a step, and `P` holds after it or the run stops. -/
theorem runSeq_answers {P Q : σ → Prop}
    (hstep : ∀ a, P a → ∃ b, seq a = some b ∧ Q b ∧ (stop b = false → P b)) :
    ∀ {n : Nat} {x : σ}, P x → Q x → ∃ y, runSeq seq stop n x = some y ∧ Q y := by
  intro n
  induction n with
  | zero => intro x _ hq; exact ⟨x, rfl, hq⟩
  | succ n ih =>
    intro x hx _
    obtain ⟨b, hb, hq, hp⟩ := hstep x hx
    rw [runSeq_succ hb]
    cases hsb : stop b with
    | true => exact ⟨b, by simp, hq⟩
    | false => simpa using ih (hp hsb) hq

/-- Total correctness: where `P` holds there is a step; after it the run stops with `Q`, or `P` holds with a smaller measure.
With as many steps as the measure the run stops, and `Q` holds. -/
theorem runSeq_terminates {P Q : σ → Prop} {μ : σ → Nat} (hpos : ∀ a, P a → 0 < μ a)
    (hstep : ∀ a, P a → ∃ b, seq a = some b ∧ (stop b = true → Q b) ∧ (stop b = false → P b ∧ μ b < μ a)) :
    ∀ {n : Nat} {x : σ}, P x → μ x ≤ n → ∃ y, runSeq seq stop n x = some y ∧ stop y = true ∧ Q y := by
  intro n
  induction n with
  | zero => intro x hx hn; have := hpos x hx; omega
  | succ n ih =>
    intro x hx hn
    obtain ⟨b, hb, ht, hf⟩ := hstep x hx
    rw [runSeq_succ hb]
    cases hsb : stop b with
    | true => exact ⟨b, by simp, hsb, ht hsb⟩
    | false =>
      obtain ⟨hP, hμ⟩ := hf hsb
      simpa using ih hP (by omega)

/-- A run that has not stopped is the first part of a longer run. -/
theorem runSeq_add {m : Nat} : ∀ {k : Nat} {x y : σ}, runSeq seq stop k x = some y → (k = 0 ∨ stop y = false) →
    runSeq seq stop (k + m) x = runSeq seq stop m y := by
  intro k
  induction k with
  | zero => intro x y h _; cases h; simp
  | succ k ih =>
    intro x y h hk
    have hy : stop y = false := by simpa using hk
    cases hs : seq x with
    | none => simp [runSeq, hs] at h
    | some z =>
      rw [runSeq_succ hs] at h
      rw [Nat.succ_add, runSeq_succ hs]
      cases hz : stop z with
      | true => simp [hz] at h; rw [h] at hz; rw [hz] at hy; cases hy
      | false => simp only [hz, Bool.false_eq_true, if_false] at h ⊢; exact ih h (.inr hy)

/-- Once a run has stopped, more steps change nothing. -/
theorem runSeq_mono : ∀ {n m : Nat} {x y : σ}, runSeq seq stop n x = some y → stop y = true → 0 < n → n ≤ m →
    runSeq seq stop m x = some y := by
  intro n
  induction n with
  | zero => intro m x y _ _ h; omega
  | succ n ih =>
    intro m x y h hy _ hm
    obtain ⟨m, rfl⟩ : ∃ k, m = k + 1 := ⟨m - 1, by omega⟩
    cases hs : seq x with
    | none => simp [runSeq, hs] at h
    | some z =>
      rw [runSeq_succ hs] at h ⊢
      cases hz : stop z with
      | true => simpa [hz] using h
      | false =>
        simp only [hz, Bool.false_eq_true, if_false] at h ⊢
        cases n with
        | zero => cases h; rw [hz] at hy; cases hy
        | succ n => exact ih h hy (by omega) (by omega)

@[simp] theorem State.budget_nil {full : Nat} {s : State} (h : s.host = []) : s.budget full = full := by simp [State.budget, h]

theorem State.budget_cons {full k : Nat} {m : HostMove} {rest : List (Nat × HostMove)} {s : State}
    (h : s.host = (k, m) :: rest) : s.budget full = k := by simp [State.budget, h]

@[simp] theorem State.budgetAccepted_nil {full : Nat} {s : State} (h : s.host = []) : s.budgetAccepted full = full := by
  simp [State.budgetAccepted, h]

theorem State.budgetAccepted_cons {full k : Nat} {m : HostMove} {rest : List (Nat × HostMove)} {s : State}
    (h : s.host = (k, m) :: rest) : s.budgetAccepted full = k - 1 := by simp [State.budgetAccepted, h]

/-- A change that no step of a sequencer sees passes through a run. -/
theorem runSeq_map {g : σ → σ} (hseq : ∀ a, seq (g a) = (seq a).map g) (hstop : ∀ a, stop (g a) = stop a) :
    ∀ {n : Nat} {x : σ}, runSeq seq stop n (g x) = (runSeq seq stop n x).map g := by
  intro n
  induction n with
  | zero => intro x; rfl
  | succ n ih =>
    intro x
    cases hs : seq x with
    | none => simp [runSeq, hseq, hs]
    | some y =>
      have hg : seq (g x) = some (g y) := by simp [hseq, hs]
      rw [runSeq_succ hg, runSeq_succ hs, hstop]
      split
      · rfl
      · exact ih

end Sys2Proof.Machine
end

