-- ==== Sys2Proof/Laws/State.lean ====
section
/-! SUPPORT. One lemma per field per named update of the state: what the update makes of the field, so that no later proof
unfolds a record update. -/

namespace Sys2Proof.Machine

/-! ## The NVM device -/

/-! ### `Nvm.takeDone` -/

@[simp] theorem Nvm.takeDone_flash (d : Nvm) : (Nvm.takeDone d).flash = d.flash := rfl
@[simp] theorem Nvm.takeDone_busy (d : Nvm) : (Nvm.takeDone d).busy = false := rfl
@[simp] theorem Nvm.takeDone_eraseCount (d : Nvm) : (Nvm.takeDone d).eraseCount = d.eraseCount := rfl
@[simp] theorem Nvm.takeDone_rowWriteCount (d : Nvm) : (Nvm.takeDone d).rowWriteCount = d.rowWriteCount := rfl
@[simp] theorem Nvm.takeDone_regionAddr (d : Nvm) : (Nvm.takeDone d).regionAddr = d.regionAddr := rfl
@[simp] theorem Nvm.takeDone_regionLen (d : Nvm) : (Nvm.takeDone d).regionLen = d.regionLen := rfl
@[simp] theorem Nvm.takeDone_sched (d : Nvm) : (Nvm.takeDone d).sched = d.sched := rfl
@[simp] theorem Nvm.takeDone_stalled (d : Nvm) : (Nvm.takeDone d).stalled = d.stalled := rfl
@[simp] theorem Nvm.takeDone_draws (d : Nvm) : (Nvm.takeDone d).draws = d.draws := rfl

/-! ### `Nvm.pageErase` -/

@[simp] theorem Nvm.pageErase_flash (c : Config) (a : Nat) (d : Nvm) : (Nvm.pageErase c a d).flash = d.flash.setBytes .flash a (if d.busy then freeBytes Config.freeNvm d.draws c.pageBytes else List.replicate c.pageBytes 0xFF#8) := rfl
@[simp] theorem Nvm.pageErase_busy (c : Config) (a : Nat) (d : Nvm) : (Nvm.pageErase c a d).busy = true := rfl
@[simp] theorem Nvm.pageErase_eraseCount (c : Config) (a : Nat) (d : Nvm) : (Nvm.pageErase c a d).eraseCount = d.eraseCount + 1 := rfl
@[simp] theorem Nvm.pageErase_rowWriteCount (c : Config) (a : Nat) (d : Nvm) : (Nvm.pageErase c a d).rowWriteCount = d.rowWriteCount := rfl
@[simp] theorem Nvm.pageErase_regionAddr (c : Config) (a : Nat) (d : Nvm) : (Nvm.pageErase c a d).regionAddr = a := rfl
@[simp] theorem Nvm.pageErase_regionLen (c : Config) (a : Nat) (d : Nvm) : (Nvm.pageErase c a d).regionLen = c.pageBytes := rfl
@[simp] theorem Nvm.pageErase_sched (c : Config) (a : Nat) (d : Nvm) : (Nvm.pageErase c a d).sched = d.sched := rfl
@[simp] theorem Nvm.pageErase_stalled (c : Config) (a : Nat) (d : Nvm) : (Nvm.pageErase c a d).stalled = d.stalled := rfl
@[simp] theorem Nvm.pageErase_draws (c : Config) (a : Nat) (d : Nvm) : (Nvm.pageErase c a d).draws = if d.busy then d.draws + c.pageBytes else d.draws := rfl

/-! ### `Nvm.rowWrite` -/

@[simp] theorem Nvm.rowWrite_flash (c : Config) (buf : List Byte) (a : Nat) (d : Nvm) : (Nvm.rowWrite c buf a d).flash = d.flash.setBytes .flash a (if d.rowReady c a then buf else freeBytes Config.freeNvm d.draws c.rowBytes) := rfl
@[simp] theorem Nvm.rowWrite_busy (c : Config) (buf : List Byte) (a : Nat) (d : Nvm) : (Nvm.rowWrite c buf a d).busy = true := rfl
@[simp] theorem Nvm.rowWrite_eraseCount (c : Config) (buf : List Byte) (a : Nat) (d : Nvm) : (Nvm.rowWrite c buf a d).eraseCount = d.eraseCount := rfl
@[simp] theorem Nvm.rowWrite_rowWriteCount (c : Config) (buf : List Byte) (a : Nat) (d : Nvm) : (Nvm.rowWrite c buf a d).rowWriteCount = d.rowWriteCount + 1 := rfl
@[simp] theorem Nvm.rowWrite_regionAddr (c : Config) (buf : List Byte) (a : Nat) (d : Nvm) : (Nvm.rowWrite c buf a d).regionAddr = a := rfl
@[simp] theorem Nvm.rowWrite_regionLen (c : Config) (buf : List Byte) (a : Nat) (d : Nvm) : (Nvm.rowWrite c buf a d).regionLen = c.rowBytes := rfl
@[simp] theorem Nvm.rowWrite_sched (c : Config) (buf : List Byte) (a : Nat) (d : Nvm) : (Nvm.rowWrite c buf a d).sched = d.sched := rfl
@[simp] theorem Nvm.rowWrite_stalled (c : Config) (buf : List Byte) (a : Nat) (d : Nvm) : (Nvm.rowWrite c buf a d).stalled = d.stalled := rfl
@[simp] theorem Nvm.rowWrite_draws (c : Config) (buf : List Byte) (a : Nat) (d : Nvm) : (Nvm.rowWrite c buf a d).draws = if d.rowReady c a then d.draws else d.draws + c.rowBytes := rfl

/-! ### `Nvm.afterRead` -/

@[simp] theorem Nvm.afterRead_flash (n : Nat) (d : Nvm) : (Nvm.afterRead n d).flash = d.flash := by simp only [Nvm.afterRead]; split <;> rfl
@[simp] theorem Nvm.afterRead_busy (n : Nat) (d : Nvm) : (Nvm.afterRead n d).busy = d.busy := by simp only [Nvm.afterRead]; split <;> rfl
@[simp] theorem Nvm.afterRead_eraseCount (n : Nat) (d : Nvm) : (Nvm.afterRead n d).eraseCount = d.eraseCount := by simp only [Nvm.afterRead]; split <;> rfl
@[simp] theorem Nvm.afterRead_rowWriteCount (n : Nat) (d : Nvm) : (Nvm.afterRead n d).rowWriteCount = d.rowWriteCount := by simp only [Nvm.afterRead]; split <;> rfl
@[simp] theorem Nvm.afterRead_regionAddr (n : Nat) (d : Nvm) : (Nvm.afterRead n d).regionAddr = d.regionAddr := by simp only [Nvm.afterRead]; split <;> rfl
@[simp] theorem Nvm.afterRead_regionLen (n : Nat) (d : Nvm) : (Nvm.afterRead n d).regionLen = d.regionLen := by simp only [Nvm.afterRead]; split <;> rfl
@[simp] theorem Nvm.afterRead_sched (n : Nat) (d : Nvm) : (Nvm.afterRead n d).sched = d.sched := by simp only [Nvm.afterRead]; split <;> rfl
@[simp] theorem Nvm.afterRead_stalled (n : Nat) (d : Nvm) : (Nvm.afterRead n d).stalled = d.stalled := by simp only [Nvm.afterRead]; split <;> rfl
@[simp] theorem Nvm.afterRead_draws (n : Nat) (d : Nvm) : (Nvm.afterRead n d).draws = if d.busy then d.draws + n else d.draws := by simp only [Nvm.afterRead]; split <;> rfl

/-! ### `Nvm.cut` -/

@[simp] theorem Nvm.cut_flash (d : Nvm) : (Nvm.cut d).flash = if d.busy then d.flash.setBytes .flash d.regionAddr (freeBytes Config.freeNvm d.draws d.regionLen) else d.flash := by simp only [Nvm.cut]; split <;> rfl
@[simp] theorem Nvm.cut_busy (d : Nvm) : (Nvm.cut d).busy = d.busy := by simp only [Nvm.cut]; split <;> rfl
@[simp] theorem Nvm.cut_eraseCount (d : Nvm) : (Nvm.cut d).eraseCount = d.eraseCount := by simp only [Nvm.cut]; split <;> rfl
@[simp] theorem Nvm.cut_rowWriteCount (d : Nvm) : (Nvm.cut d).rowWriteCount = d.rowWriteCount := by simp only [Nvm.cut]; split <;> rfl
@[simp] theorem Nvm.cut_regionAddr (d : Nvm) : (Nvm.cut d).regionAddr = d.regionAddr := by simp only [Nvm.cut]; split <;> rfl
@[simp] theorem Nvm.cut_regionLen (d : Nvm) : (Nvm.cut d).regionLen = d.regionLen := by simp only [Nvm.cut]; split <;> rfl
@[simp] theorem Nvm.cut_sched (d : Nvm) : (Nvm.cut d).sched = d.sched := by simp only [Nvm.cut]; split <;> rfl
@[simp] theorem Nvm.cut_stalled (d : Nvm) : (Nvm.cut d).stalled = d.stalled := by simp only [Nvm.cut]; split <;> rfl
@[simp] theorem Nvm.cut_draws (d : Nvm) : (Nvm.cut d).draws = if d.busy then d.draws + d.regionLen else d.draws := by simp only [Nvm.cut]; split <;> rfl

/-! ### `Nvm.moves` -/

@[simp] theorem Nvm.moves_flash (d : Nvm) : (Nvm.moves d).flash = d.flash := by unfold Nvm.moves; split <;> (try split) <;> rfl
@[simp] theorem Nvm.moves_eraseCount (d : Nvm) : (Nvm.moves d).eraseCount = d.eraseCount := by unfold Nvm.moves; split <;> (try split) <;> rfl
@[simp] theorem Nvm.moves_rowWriteCount (d : Nvm) : (Nvm.moves d).rowWriteCount = d.rowWriteCount := by unfold Nvm.moves; split <;> (try split) <;> rfl
@[simp] theorem Nvm.moves_regionAddr (d : Nvm) : (Nvm.moves d).regionAddr = d.regionAddr := by unfold Nvm.moves; split <;> (try split) <;> rfl
@[simp] theorem Nvm.moves_regionLen (d : Nvm) : (Nvm.moves d).regionLen = d.regionLen := by unfold Nvm.moves; split <;> (try split) <;> rfl
@[simp] theorem Nvm.moves_sched (d : Nvm) : (Nvm.moves d).sched = d.sched.tail := by unfold Nvm.moves; split <;> (try split) <;> simp_all
@[simp] theorem Nvm.moves_stalled (d : Nvm) : (Nvm.moves d).stalled = d.stalled := by unfold Nvm.moves; split <;> (try split) <;> rfl
@[simp] theorem Nvm.moves_draws (d : Nvm) : (Nvm.moves d).draws = d.draws := by unfold Nvm.moves; split <;> (try split) <;> rfl

/-! ## FPC -/

/-! ### `Fpc.moves` -/

@[simp] theorem Fpc.moves_scratch (f : Fpc) : (Fpc.moves f).scratch = f.scratch := rfl
@[simp] theorem Fpc.moves_phase (f : Fpc) : (Fpc.moves f).phase = f.phase := rfl
@[simp] theorem Fpc.moves_pos (f : Fpc) : (Fpc.moves f).pos = f.pos := rfl
@[simp] theorem Fpc.moves_row (f : Fpc) : (Fpc.moves f).row = f.row := rfl
@[simp] theorem Fpc.moves_inrun (f : Fpc) : (Fpc.moves f).inrun = f.inrun := rfl
@[simp] theorem Fpc.moves_op (f : Fpc) : (Fpc.moves f).op = f.op := rfl
@[simp] theorem Fpc.moves_n (f : Fpc) : (Fpc.moves f).n = f.n := rfl
@[simp] theorem Fpc.moves_data (f : Fpc) : (Fpc.moves f).data = f.data := rfl
@[simp] theorem Fpc.moves_busy (f : Fpc) : (Fpc.moves f).busy = f.busy := rfl
@[simp] theorem Fpc.moves_opc (f : Fpc) : (Fpc.moves f).opc = f.opc := rfl
@[simp] theorem Fpc.moves_rsp (f : Fpc) : (Fpc.moves f).rsp = f.rsp := rfl
@[simp] theorem Fpc.moves_dout (f : Fpc) : (Fpc.moves f).dout = f.dout := rfl
@[simp] theorem Fpc.moves_diag (f : Fpc) : (Fpc.moves f).diag = f.diag := rfl
@[simp] theorem Fpc.moves_port (f : Fpc) : (Fpc.moves f).port = f.port := rfl
@[simp] theorem Fpc.moves_trace (f : Fpc) : (Fpc.moves f).trace = f.trace := rfl
@[simp] theorem Fpc.moves_nvm (f : Fpc) : (Fpc.moves f).nvm = f.nvm.moves := rfl

/-! ### `Fpc.callPageErase` -/

@[simp] theorem Fpc.callPageErase_scratch (c : Config) (a : Nat) (f : Fpc) : (Fpc.callPageErase c a f).scratch = f.scratch := rfl
@[simp] theorem Fpc.callPageErase_phase (c : Config) (a : Nat) (f : Fpc) : (Fpc.callPageErase c a f).phase = f.phase := rfl
@[simp] theorem Fpc.callPageErase_pos (c : Config) (a : Nat) (f : Fpc) : (Fpc.callPageErase c a f).pos = f.pos := rfl
@[simp] theorem Fpc.callPageErase_row (c : Config) (a : Nat) (f : Fpc) : (Fpc.callPageErase c a f).row = f.row := rfl
@[simp] theorem Fpc.callPageErase_inrun (c : Config) (a : Nat) (f : Fpc) : (Fpc.callPageErase c a f).inrun = f.inrun := rfl
@[simp] theorem Fpc.callPageErase_op (c : Config) (a : Nat) (f : Fpc) : (Fpc.callPageErase c a f).op = f.op := rfl
@[simp] theorem Fpc.callPageErase_n (c : Config) (a : Nat) (f : Fpc) : (Fpc.callPageErase c a f).n = f.n := rfl
@[simp] theorem Fpc.callPageErase_data (c : Config) (a : Nat) (f : Fpc) : (Fpc.callPageErase c a f).data = f.data := rfl
@[simp] theorem Fpc.callPageErase_busy (c : Config) (a : Nat) (f : Fpc) : (Fpc.callPageErase c a f).busy = f.busy := rfl
@[simp] theorem Fpc.callPageErase_opc (c : Config) (a : Nat) (f : Fpc) : (Fpc.callPageErase c a f).opc = f.opc := rfl
@[simp] theorem Fpc.callPageErase_rsp (c : Config) (a : Nat) (f : Fpc) : (Fpc.callPageErase c a f).rsp = f.rsp := rfl
@[simp] theorem Fpc.callPageErase_dout (c : Config) (a : Nat) (f : Fpc) : (Fpc.callPageErase c a f).dout = f.dout := rfl
@[simp] theorem Fpc.callPageErase_diag (c : Config) (a : Nat) (f : Fpc) : (Fpc.callPageErase c a f).diag = f.diag := rfl
@[simp] theorem Fpc.callPageErase_port (c : Config) (a : Nat) (f : Fpc) : (Fpc.callPageErase c a f).port = f.port := rfl
@[simp] theorem Fpc.callPageErase_trace (c : Config) (a : Nat) (f : Fpc) : (Fpc.callPageErase c a f).trace = .pageErase a :: f.trace := rfl
@[simp] theorem Fpc.callPageErase_nvm (c : Config) (a : Nat) (f : Fpc) : (Fpc.callPageErase c a f).nvm = f.nvm.pageErase c a := rfl

/-! ### `Fpc.callRowWrite` -/

@[simp] theorem Fpc.callRowWrite_scratch (c : Config) (buf : List Byte) (a : Nat) (f : Fpc) : (Fpc.callRowWrite c buf a f).scratch = f.scratch := rfl
@[simp] theorem Fpc.callRowWrite_phase (c : Config) (buf : List Byte) (a : Nat) (f : Fpc) : (Fpc.callRowWrite c buf a f).phase = f.phase := rfl
@[simp] theorem Fpc.callRowWrite_pos (c : Config) (buf : List Byte) (a : Nat) (f : Fpc) : (Fpc.callRowWrite c buf a f).pos = f.pos := rfl
@[simp] theorem Fpc.callRowWrite_row (c : Config) (buf : List Byte) (a : Nat) (f : Fpc) : (Fpc.callRowWrite c buf a f).row = f.row := rfl
@[simp] theorem Fpc.callRowWrite_inrun (c : Config) (buf : List Byte) (a : Nat) (f : Fpc) : (Fpc.callRowWrite c buf a f).inrun = f.inrun := rfl
@[simp] theorem Fpc.callRowWrite_op (c : Config) (buf : List Byte) (a : Nat) (f : Fpc) : (Fpc.callRowWrite c buf a f).op = f.op := rfl
@[simp] theorem Fpc.callRowWrite_n (c : Config) (buf : List Byte) (a : Nat) (f : Fpc) : (Fpc.callRowWrite c buf a f).n = f.n := rfl
@[simp] theorem Fpc.callRowWrite_data (c : Config) (buf : List Byte) (a : Nat) (f : Fpc) : (Fpc.callRowWrite c buf a f).data = f.data := rfl
@[simp] theorem Fpc.callRowWrite_busy (c : Config) (buf : List Byte) (a : Nat) (f : Fpc) : (Fpc.callRowWrite c buf a f).busy = f.busy := rfl
@[simp] theorem Fpc.callRowWrite_opc (c : Config) (buf : List Byte) (a : Nat) (f : Fpc) : (Fpc.callRowWrite c buf a f).opc = f.opc := rfl
@[simp] theorem Fpc.callRowWrite_rsp (c : Config) (buf : List Byte) (a : Nat) (f : Fpc) : (Fpc.callRowWrite c buf a f).rsp = f.rsp := rfl
@[simp] theorem Fpc.callRowWrite_dout (c : Config) (buf : List Byte) (a : Nat) (f : Fpc) : (Fpc.callRowWrite c buf a f).dout = f.dout := rfl
@[simp] theorem Fpc.callRowWrite_diag (c : Config) (buf : List Byte) (a : Nat) (f : Fpc) : (Fpc.callRowWrite c buf a f).diag = f.diag := rfl
@[simp] theorem Fpc.callRowWrite_port (c : Config) (buf : List Byte) (a : Nat) (f : Fpc) : (Fpc.callRowWrite c buf a f).port = f.port := rfl
@[simp] theorem Fpc.callRowWrite_trace (c : Config) (buf : List Byte) (a : Nat) (f : Fpc) : (Fpc.callRowWrite c buf a f).trace = .rowWrite buf a :: f.trace := rfl
@[simp] theorem Fpc.callRowWrite_nvm (c : Config) (buf : List Byte) (a : Nat) (f : Fpc) : (Fpc.callRowWrite c buf a f).nvm = f.nvm.rowWrite c buf a := rfl

/-! ### `Fpc.callIsBusy` -/

@[simp] theorem Fpc.callIsBusy_scratch (f : Fpc) : (Fpc.callIsBusy f).scratch = f.scratch := rfl
@[simp] theorem Fpc.callIsBusy_phase (f : Fpc) : (Fpc.callIsBusy f).phase = f.phase := rfl
@[simp] theorem Fpc.callIsBusy_pos (f : Fpc) : (Fpc.callIsBusy f).pos = f.pos := rfl
@[simp] theorem Fpc.callIsBusy_row (f : Fpc) : (Fpc.callIsBusy f).row = f.row := rfl
@[simp] theorem Fpc.callIsBusy_inrun (f : Fpc) : (Fpc.callIsBusy f).inrun = f.inrun := rfl
@[simp] theorem Fpc.callIsBusy_op (f : Fpc) : (Fpc.callIsBusy f).op = f.op := rfl
@[simp] theorem Fpc.callIsBusy_n (f : Fpc) : (Fpc.callIsBusy f).n = f.n := rfl
@[simp] theorem Fpc.callIsBusy_data (f : Fpc) : (Fpc.callIsBusy f).data = f.data := rfl
@[simp] theorem Fpc.callIsBusy_busy (f : Fpc) : (Fpc.callIsBusy f).busy = f.busy := rfl
@[simp] theorem Fpc.callIsBusy_opc (f : Fpc) : (Fpc.callIsBusy f).opc = f.opc := rfl
@[simp] theorem Fpc.callIsBusy_rsp (f : Fpc) : (Fpc.callIsBusy f).rsp = f.rsp := rfl
@[simp] theorem Fpc.callIsBusy_dout (f : Fpc) : (Fpc.callIsBusy f).dout = f.dout := rfl
@[simp] theorem Fpc.callIsBusy_diag (f : Fpc) : (Fpc.callIsBusy f).diag = f.diag := rfl
@[simp] theorem Fpc.callIsBusy_port (f : Fpc) : (Fpc.callIsBusy f).port = f.port := rfl
@[simp] theorem Fpc.callIsBusy_trace (f : Fpc) : (Fpc.callIsBusy f).trace = .isBusy f.nvm.busy :: f.trace := rfl
@[simp] theorem Fpc.callIsBusy_nvm (f : Fpc) : (Fpc.callIsBusy f).nvm = f.nvm := rfl

/-! ### `Fpc.callRead` -/

@[simp] theorem Fpc.callRead_scratch (n a : Nat) (f : Fpc) : (Fpc.callRead n a f).scratch = f.scratch := rfl
@[simp] theorem Fpc.callRead_phase (n a : Nat) (f : Fpc) : (Fpc.callRead n a f).phase = f.phase := rfl
@[simp] theorem Fpc.callRead_pos (n a : Nat) (f : Fpc) : (Fpc.callRead n a f).pos = f.pos := rfl
@[simp] theorem Fpc.callRead_row (n a : Nat) (f : Fpc) : (Fpc.callRead n a f).row = f.row := rfl
@[simp] theorem Fpc.callRead_inrun (n a : Nat) (f : Fpc) : (Fpc.callRead n a f).inrun = f.inrun := rfl
@[simp] theorem Fpc.callRead_op (n a : Nat) (f : Fpc) : (Fpc.callRead n a f).op = f.op := rfl
@[simp] theorem Fpc.callRead_n (n a : Nat) (f : Fpc) : (Fpc.callRead n a f).n = f.n := rfl
@[simp] theorem Fpc.callRead_data (n a : Nat) (f : Fpc) : (Fpc.callRead n a f).data = f.data := rfl
@[simp] theorem Fpc.callRead_busy (n a : Nat) (f : Fpc) : (Fpc.callRead n a f).busy = f.busy := rfl
@[simp] theorem Fpc.callRead_opc (n a : Nat) (f : Fpc) : (Fpc.callRead n a f).opc = f.opc := rfl
@[simp] theorem Fpc.callRead_rsp (n a : Nat) (f : Fpc) : (Fpc.callRead n a f).rsp = f.rsp := rfl
@[simp] theorem Fpc.callRead_dout (n a : Nat) (f : Fpc) : (Fpc.callRead n a f).dout = f.dout := rfl
@[simp] theorem Fpc.callRead_diag (n a : Nat) (f : Fpc) : (Fpc.callRead n a f).diag = f.diag := rfl
@[simp] theorem Fpc.callRead_port (n a : Nat) (f : Fpc) : (Fpc.callRead n a f).port = f.port := rfl
@[simp] theorem Fpc.callRead_trace (n a : Nat) (f : Fpc) : (Fpc.callRead n a f).trace = .read n a (f.nvm.readResult n a) :: f.trace := rfl
@[simp] theorem Fpc.callRead_nvm (n a : Nat) (f : Fpc) : (Fpc.callRead n a f).nvm = f.nvm.afterRead n := rfl

/-! ### `Fpc.complete` -/

@[simp] theorem Fpc.complete_scratch (f : Fpc) : (Fpc.complete f).scratch = f.scratch := rfl
@[simp] theorem Fpc.complete_phase (f : Fpc) : (Fpc.complete f).phase = f.phase := rfl
@[simp] theorem Fpc.complete_pos (f : Fpc) : (Fpc.complete f).pos = .ready := rfl
@[simp] theorem Fpc.complete_row (f : Fpc) : (Fpc.complete f).row = f.row := rfl
@[simp] theorem Fpc.complete_inrun (f : Fpc) : (Fpc.complete f).inrun = f.inrun := rfl
@[simp] theorem Fpc.complete_op (f : Fpc) : (Fpc.complete f).op = .none := rfl
@[simp] theorem Fpc.complete_n (f : Fpc) : (Fpc.complete f).n = f.n := rfl
@[simp] theorem Fpc.complete_data (f : Fpc) : (Fpc.complete f).data = f.data := rfl
@[simp] theorem Fpc.complete_busy (f : Fpc) : (Fpc.complete f).busy = false := rfl
@[simp] theorem Fpc.complete_opc (f : Fpc) : (Fpc.complete f).opc = f.opc := rfl
@[simp] theorem Fpc.complete_rsp (f : Fpc) : (Fpc.complete f).rsp = f.rsp ++ [response f.opc .ok 0#16] := rfl
@[simp] theorem Fpc.complete_dout (f : Fpc) : (Fpc.complete f).dout = f.dout := rfl
@[simp] theorem Fpc.complete_diag (f : Fpc) : (Fpc.complete f).diag = f.diag := rfl
@[simp] theorem Fpc.complete_port (f : Fpc) : (Fpc.complete f).port = f.port := rfl
@[simp] theorem Fpc.complete_trace (f : Fpc) : (Fpc.complete f).trace = f.trace := rfl
@[simp] theorem Fpc.complete_nvm (f : Fpc) : (Fpc.complete f).nvm = f.nvm := rfl

/-! ### `Fpc.refuse` -/

@[simp] theorem Fpc.refuse_scratch (opc : Byte) (r : ResultCode) (f : Fpc) : (Fpc.refuse opc r f).scratch = f.scratch := rfl
@[simp] theorem Fpc.refuse_phase (opc : Byte) (r : ResultCode) (f : Fpc) : (Fpc.refuse opc r f).phase = f.phase := rfl
@[simp] theorem Fpc.refuse_pos (opc : Byte) (r : ResultCode) (f : Fpc) : (Fpc.refuse opc r f).pos = f.pos := rfl
@[simp] theorem Fpc.refuse_row (opc : Byte) (r : ResultCode) (f : Fpc) : (Fpc.refuse opc r f).row = f.row := rfl
@[simp] theorem Fpc.refuse_inrun (opc : Byte) (r : ResultCode) (f : Fpc) : (Fpc.refuse opc r f).inrun = f.inrun := rfl
@[simp] theorem Fpc.refuse_op (opc : Byte) (r : ResultCode) (f : Fpc) : (Fpc.refuse opc r f).op = f.op := rfl
@[simp] theorem Fpc.refuse_n (opc : Byte) (r : ResultCode) (f : Fpc) : (Fpc.refuse opc r f).n = f.n := rfl
@[simp] theorem Fpc.refuse_data (opc : Byte) (r : ResultCode) (f : Fpc) : (Fpc.refuse opc r f).data = f.data := rfl
@[simp] theorem Fpc.refuse_busy (opc : Byte) (r : ResultCode) (f : Fpc) : (Fpc.refuse opc r f).busy = f.busy := rfl
@[simp] theorem Fpc.refuse_opc (opc : Byte) (r : ResultCode) (f : Fpc) : (Fpc.refuse opc r f).opc = f.opc := rfl
@[simp] theorem Fpc.refuse_rsp (opc : Byte) (r : ResultCode) (f : Fpc) : (Fpc.refuse opc r f).rsp = f.rsp ++ [response opc r 0#16] := rfl
@[simp] theorem Fpc.refuse_dout (opc : Byte) (r : ResultCode) (f : Fpc) : (Fpc.refuse opc r f).dout = f.dout := rfl
@[simp] theorem Fpc.refuse_diag (opc : Byte) (r : ResultCode) (f : Fpc) : (Fpc.refuse opc r f).diag = f.diag := rfl
@[simp] theorem Fpc.refuse_port (opc : Byte) (r : ResultCode) (f : Fpc) : (Fpc.refuse opc r f).port = f.port := rfl
@[simp] theorem Fpc.refuse_trace (opc : Byte) (r : ResultCode) (f : Fpc) : (Fpc.refuse opc r f).trace = f.trace := rfl
@[simp] theorem Fpc.refuse_nvm (opc : Byte) (r : ResultCode) (f : Fpc) : (Fpc.refuse opc r f).nvm = f.nvm := rfl

/-! ### `Fpc.accept` -/

@[simp] theorem Fpc.accept_scratch (op : FpcOp) (start : FpcPos) (opc : Opcode) (n : Half) (data : List Byte) (f : Fpc) : (Fpc.accept op start opc n data f).scratch = f.scratch := rfl
@[simp] theorem Fpc.accept_phase (op : FpcOp) (start : FpcPos) (opc : Opcode) (n : Half) (data : List Byte) (f : Fpc) : (Fpc.accept op start opc n data f).phase = f.phase := rfl
@[simp] theorem Fpc.accept_pos (op : FpcOp) (start : FpcPos) (opc : Opcode) (n : Half) (data : List Byte) (f : Fpc) : (Fpc.accept op start opc n data f).pos = start := rfl
@[simp] theorem Fpc.accept_row (op : FpcOp) (start : FpcPos) (opc : Opcode) (n : Half) (data : List Byte) (f : Fpc) : (Fpc.accept op start opc n data f).row = f.row := rfl
@[simp] theorem Fpc.accept_inrun (op : FpcOp) (start : FpcPos) (opc : Opcode) (n : Half) (data : List Byte) (f : Fpc) : (Fpc.accept op start opc n data f).inrun = f.inrun := rfl
@[simp] theorem Fpc.accept_op (op : FpcOp) (start : FpcPos) (opc : Opcode) (n : Half) (data : List Byte) (f : Fpc) : (Fpc.accept op start opc n data f).op = op := rfl
@[simp] theorem Fpc.accept_n (op : FpcOp) (start : FpcPos) (opc : Opcode) (n : Half) (data : List Byte) (f : Fpc) : (Fpc.accept op start opc n data f).n = n := rfl
@[simp] theorem Fpc.accept_data (op : FpcOp) (start : FpcPos) (opc : Opcode) (n : Half) (data : List Byte) (f : Fpc) : (Fpc.accept op start opc n data f).data = data := rfl
@[simp] theorem Fpc.accept_busy (op : FpcOp) (start : FpcPos) (opc : Opcode) (n : Half) (data : List Byte) (f : Fpc) : (Fpc.accept op start opc n data f).busy = true := rfl
@[simp] theorem Fpc.accept_opc (op : FpcOp) (start : FpcPos) (opc : Opcode) (n : Half) (data : List Byte) (f : Fpc) : (Fpc.accept op start opc n data f).opc = opc.toByte := rfl
@[simp] theorem Fpc.accept_rsp (op : FpcOp) (start : FpcPos) (opc : Opcode) (n : Half) (data : List Byte) (f : Fpc) : (Fpc.accept op start opc n data f).rsp = f.rsp := rfl
@[simp] theorem Fpc.accept_dout (op : FpcOp) (start : FpcPos) (opc : Opcode) (n : Half) (data : List Byte) (f : Fpc) : (Fpc.accept op start opc n data f).dout = f.dout := rfl
@[simp] theorem Fpc.accept_diag (op : FpcOp) (start : FpcPos) (opc : Opcode) (n : Half) (data : List Byte) (f : Fpc) : (Fpc.accept op start opc n data f).diag = f.diag := rfl
@[simp] theorem Fpc.accept_port (op : FpcOp) (start : FpcPos) (opc : Opcode) (n : Half) (data : List Byte) (f : Fpc) : (Fpc.accept op start opc n data f).port = f.port := rfl
@[simp] theorem Fpc.accept_trace (op : FpcOp) (start : FpcPos) (opc : Opcode) (n : Half) (data : List Byte) (f : Fpc) : (Fpc.accept op start opc n data f).trace = f.trace := rfl
@[simp] theorem Fpc.accept_nvm (op : FpcOp) (start : FpcPos) (opc : Opcode) (n : Half) (data : List Byte) (f : Fpc) : (Fpc.accept op start opc n data f).nvm = f.nvm := rfl

/-! ### `Fpc.emitRow` -/

@[simp] theorem Fpc.emitRow_scratch (c : Config) (row : List Byte) (f : Fpc) : (Fpc.emitRow c row f).scratch = f.scratch := rfl
@[simp] theorem Fpc.emitRow_phase (c : Config) (row : List Byte) (f : Fpc) : (Fpc.emitRow c row f).phase = f.phase := rfl
@[simp] theorem Fpc.emitRow_pos (c : Config) (row : List Byte) (f : Fpc) : (Fpc.emitRow c row f).pos = f.pos := rfl
@[simp] theorem Fpc.emitRow_row (c : Config) (row : List Byte) (f : Fpc) : (Fpc.emitRow c row f).row = f.row := rfl
@[simp] theorem Fpc.emitRow_inrun (c : Config) (row : List Byte) (f : Fpc) : (Fpc.emitRow c row f).inrun = printInrun c f.row row := rfl
@[simp] theorem Fpc.emitRow_op (c : Config) (row : List Byte) (f : Fpc) : (Fpc.emitRow c row f).op = f.op := rfl
@[simp] theorem Fpc.emitRow_n (c : Config) (row : List Byte) (f : Fpc) : (Fpc.emitRow c row f).n = f.n := rfl
@[simp] theorem Fpc.emitRow_data (c : Config) (row : List Byte) (f : Fpc) : (Fpc.emitRow c row f).data = f.data := rfl
@[simp] theorem Fpc.emitRow_busy (c : Config) (row : List Byte) (f : Fpc) : (Fpc.emitRow c row f).busy = f.busy := rfl
@[simp] theorem Fpc.emitRow_opc (c : Config) (row : List Byte) (f : Fpc) : (Fpc.emitRow c row f).opc = f.opc := rfl
@[simp] theorem Fpc.emitRow_rsp (c : Config) (row : List Byte) (f : Fpc) : (Fpc.emitRow c row f).rsp = f.rsp := rfl
@[simp] theorem Fpc.emitRow_dout (c : Config) (row : List Byte) (f : Fpc) : (Fpc.emitRow c row f).dout = f.dout := rfl
@[simp] theorem Fpc.emitRow_diag (c : Config) (row : List Byte) (f : Fpc) : (Fpc.emitRow c row f).diag = f.diag ++ printRow c f.row f.inrun row := rfl
@[simp] theorem Fpc.emitRow_port (c : Config) (row : List Byte) (f : Fpc) : (Fpc.emitRow c row f).port = f.port := rfl
@[simp] theorem Fpc.emitRow_trace (c : Config) (row : List Byte) (f : Fpc) : (Fpc.emitRow c row f).trace = f.trace := rfl
@[simp] theorem Fpc.emitRow_nvm (c : Config) (row : List Byte) (f : Fpc) : (Fpc.emitRow c row f).nvm = f.nvm := rfl

/-! ## The EEPROM device -/

/-! ### `Eeprom.takeDone` -/

@[simp] theorem Eeprom.takeDone_ee (e : Eeprom) : (Eeprom.takeDone e).ee = e.ee := rfl
@[simp] theorem Eeprom.takeDone_ptr (e : Eeprom) : (Eeprom.takeDone e).ptr = e.ptr := rfl
@[simp] theorem Eeprom.takeDone_hi (e : Eeprom) : (Eeprom.takeDone e).hi = e.hi := rfl
@[simp] theorem Eeprom.takeDone_mode (e : Eeprom) : (Eeprom.takeDone e).mode = e.mode := rfl
@[simp] theorem Eeprom.takeDone_got (e : Eeprom) : (Eeprom.takeDone e).got = e.got := rfl
@[simp] theorem Eeprom.takeDone_commit (e : Eeprom) : (Eeprom.takeDone e).commit = false := rfl
@[simp] theorem Eeprom.takeDone_stalled (e : Eeprom) : (Eeprom.takeDone e).stalled = e.stalled := rfl
@[simp] theorem Eeprom.takeDone_draws (e : Eeprom) : (Eeprom.takeDone e).draws = e.draws := rfl

/-! ### `Eeprom.start` -/

@[simp] theorem Eeprom.start_ee (e : Eeprom) : (Eeprom.start e).ee = e.ee := rfl
@[simp] theorem Eeprom.start_ptr (e : Eeprom) : (Eeprom.start e).ptr = e.ptr := rfl
@[simp] theorem Eeprom.start_hi (e : Eeprom) : (Eeprom.start e).hi = e.hi := rfl
@[simp] theorem Eeprom.start_mode (e : Eeprom) : (Eeprom.start e).mode = .ctrl := rfl
@[simp] theorem Eeprom.start_got (e : Eeprom) : (Eeprom.start e).got = 0 := rfl
@[simp] theorem Eeprom.start_commit (e : Eeprom) : (Eeprom.start e).commit = e.commit := rfl
@[simp] theorem Eeprom.start_stalled (e : Eeprom) : (Eeprom.start e).stalled = e.stalled := rfl
@[simp] theorem Eeprom.start_draws (e : Eeprom) : (Eeprom.start e).draws = e.draws := rfl

/-! ### `Eeprom.stop` -/

@[simp] theorem Eeprom.stop_ee (e : Eeprom) : (Eeprom.stop e).ee = e.ee := rfl
@[simp] theorem Eeprom.stop_ptr (e : Eeprom) : (Eeprom.stop e).ptr = e.ptr := rfl
@[simp] theorem Eeprom.stop_hi (e : Eeprom) : (Eeprom.stop e).hi = e.hi := rfl
@[simp] theorem Eeprom.stop_mode (e : Eeprom) : (Eeprom.stop e).mode = .idle := rfl
@[simp] theorem Eeprom.stop_got (e : Eeprom) : (Eeprom.stop e).got = e.got := rfl
@[simp] theorem Eeprom.stop_commit (e : Eeprom) : (Eeprom.stop e).commit = if e.mode = .wData ∧ 1 ≤ e.got then true else e.commit := rfl
@[simp] theorem Eeprom.stop_stalled (e : Eeprom) : (Eeprom.stop e).stalled = e.stalled := rfl
@[simp] theorem Eeprom.stop_draws (e : Eeprom) : (Eeprom.stop e).draws = e.draws := rfl

/-! ### `Eeprom.afterSend` -/

@[simp] theorem Eeprom.afterSend_commit (c : Config) (b : Byte) (e : Eeprom) : (Eeprom.afterSend c b e).commit = e.commit := by cases hm : e.mode <;> simp only [Eeprom.afterSend, hm] <;> (try split) <;> (try split) <;> (try split) <;> rfl
@[simp] theorem Eeprom.afterSend_stalled (c : Config) (b : Byte) (e : Eeprom) : (Eeprom.afterSend c b e).stalled = e.stalled := by cases hm : e.mode <;> simp only [Eeprom.afterSend, hm] <;> (try split) <;> (try split) <;> (try split) <;> rfl
@[simp] theorem Eeprom.afterSend_draws (c : Config) (b : Byte) (e : Eeprom) : (Eeprom.afterSend c b e).draws = e.draws := by cases hm : e.mode <;> simp only [Eeprom.afterSend, hm] <;> (try split) <;> (try split) <;> (try split) <;> rfl

/-! ### `Eeprom.afterReceive` -/

@[simp] theorem Eeprom.afterReceive_ee (c : Config) (ack : Bool) (e : Eeprom) : (Eeprom.afterReceive c ack e).ee = e.ee := by cases hm : e.mode <;> simp only [Eeprom.afterReceive, hm]
@[simp] theorem Eeprom.afterReceive_hi (c : Config) (ack : Bool) (e : Eeprom) : (Eeprom.afterReceive c ack e).hi = e.hi := by cases hm : e.mode <;> simp only [Eeprom.afterReceive, hm]
@[simp] theorem Eeprom.afterReceive_got (c : Config) (ack : Bool) (e : Eeprom) : (Eeprom.afterReceive c ack e).got = e.got := by cases hm : e.mode <;> simp only [Eeprom.afterReceive, hm]
@[simp] theorem Eeprom.afterReceive_commit (c : Config) (ack : Bool) (e : Eeprom) : (Eeprom.afterReceive c ack e).commit = e.commit := by cases hm : e.mode <;> simp only [Eeprom.afterReceive, hm]
@[simp] theorem Eeprom.afterReceive_stalled (c : Config) (ack : Bool) (e : Eeprom) : (Eeprom.afterReceive c ack e).stalled = e.stalled := by cases hm : e.mode <;> simp only [Eeprom.afterReceive, hm]

/-! ### `Eeprom.cut` -/

@[simp] theorem Eeprom.cut_ptr (c : Config) (e : Eeprom) : (Eeprom.cut c e).ptr = e.ptr := by unfold Eeprom.cut; split <;> rfl
@[simp] theorem Eeprom.cut_hi (c : Config) (e : Eeprom) : (Eeprom.cut c e).hi = e.hi := by unfold Eeprom.cut; split <;> rfl
@[simp] theorem Eeprom.cut_mode (c : Config) (e : Eeprom) : (Eeprom.cut c e).mode = e.mode := by unfold Eeprom.cut; split <;> rfl
@[simp] theorem Eeprom.cut_got (c : Config) (e : Eeprom) : (Eeprom.cut c e).got = e.got := by unfold Eeprom.cut; split <;> rfl
@[simp] theorem Eeprom.cut_commit (c : Config) (e : Eeprom) : (Eeprom.cut c e).commit = e.commit := by unfold Eeprom.cut; split <;> rfl
@[simp] theorem Eeprom.cut_stalled (c : Config) (e : Eeprom) : (Eeprom.cut c e).stalled = e.stalled := by unfold Eeprom.cut; split <;> rfl

/-! ## EWS -/

/-! ### `Ews.moves` -/

@[simp] theorem Ews.moves_addr (c : Config) (e : Ews) : (Ews.moves c e).addr = e.addr := by unfold Ews.moves; split <;> (try split) <;> rfl
@[simp] theorem Ews.moves_op (c : Config) (e : Ews) : (Ews.moves c e).op = e.op := by unfold Ews.moves; split <;> (try split) <;> rfl
@[simp] theorem Ews.moves_n (c : Config) (e : Ews) : (Ews.moves c e).n = e.n := by unfold Ews.moves; split <;> (try split) <;> rfl
@[simp] theorem Ews.moves_data (c : Config) (e : Ews) : (Ews.moves c e).data = e.data := by unfold Ews.moves; split <;> (try split) <;> rfl
@[simp] theorem Ews.moves_i (c : Config) (e : Ews) : (Ews.moves c e).i = e.i := by unfold Ews.moves; split <;> (try split) <;> rfl
@[simp] theorem Ews.moves_page (c : Config) (e : Ews) : (Ews.moves c e).page = e.page := by unfold Ews.moves; split <;> (try split) <;> rfl
@[simp] theorem Ews.moves_pbuf (c : Config) (e : Ews) : (Ews.moves c e).pbuf = e.pbuf := by unfold Ews.moves; split <;> (try split) <;> rfl
@[simp] theorem Ews.moves_txnOpen (c : Config) (e : Ews) : (Ews.moves c e).txnOpen = e.txnOpen := by unfold Ews.moves; split <;> (try split) <;> rfl
@[simp] theorem Ews.moves_t0 (c : Config) (e : Ews) : (Ews.moves c e).t0 = e.t0 := by unfold Ews.moves; split <;> (try split) <;> rfl
@[simp] theorem Ews.moves_timedOut (c : Config) (e : Ews) : (Ews.moves c e).timedOut = e.timedOut := by unfold Ews.moves; split <;> (try split) <;> rfl
@[simp] theorem Ews.moves_pos (c : Config) (e : Ews) : (Ews.moves c e).pos = e.pos := by unfold Ews.moves; split <;> (try split) <;> rfl
@[simp] theorem Ews.moves_busy (c : Config) (e : Ews) : (Ews.moves c e).busy = e.busy := by unfold Ews.moves; split <;> (try split) <;> rfl
@[simp] theorem Ews.moves_opAddr (c : Config) (e : Ews) : (Ews.moves c e).opAddr = e.opAddr := by unfold Ews.moves; split <;> (try split) <;> rfl
@[simp] theorem Ews.moves_ri (c : Config) (e : Ews) : (Ews.moves c e).ri = e.ri := by unfold Ews.moves; split <;> (try split) <;> rfl
@[simp] theorem Ews.moves_rx (c : Config) (e : Ews) : (Ews.moves c e).rx = e.rx := by unfold Ews.moves; split <;> (try split) <;> rfl
@[simp] theorem Ews.moves_opc (c : Config) (e : Ews) : (Ews.moves c e).opc = e.opc := by unfold Ews.moves; split <;> (try split) <;> rfl
@[simp] theorem Ews.moves_rsp (c : Config) (e : Ews) : (Ews.moves c e).rsp = e.rsp := by unfold Ews.moves; split <;> (try split) <;> rfl
@[simp] theorem Ews.moves_dout (c : Config) (e : Ews) : (Ews.moves c e).dout = e.dout := by unfold Ews.moves; split <;> (try split) <;> rfl
@[simp] theorem Ews.moves_diag (c : Config) (e : Ews) : (Ews.moves c e).diag = e.diag := by unfold Ews.moves; split <;> (try split) <;> rfl
@[simp] theorem Ews.moves_port (c : Config) (e : Ews) : (Ews.moves c e).port = e.port := by unfold Ews.moves; split <;> (try split) <;> rfl
@[simp] theorem Ews.moves_trace (c : Config) (e : Ews) : (Ews.moves c e).trace = e.trace := by unfold Ews.moves; split <;> (try split) <;> rfl
@[simp] theorem Ews.moves_sched (c : Config) (e : Ews) : (Ews.moves c e).sched = e.sched.tail := by unfold Ews.moves; split <;> (try split) <;> simp_all

/-! ### `Ews.callNow` -/

@[simp] theorem Ews.callNow_addr (e : Ews) : (Ews.callNow e).addr = e.addr := rfl
@[simp] theorem Ews.callNow_op (e : Ews) : (Ews.callNow e).op = e.op := rfl
@[simp] theorem Ews.callNow_n (e : Ews) : (Ews.callNow e).n = e.n := rfl
@[simp] theorem Ews.callNow_data (e : Ews) : (Ews.callNow e).data = e.data := rfl
@[simp] theorem Ews.callNow_i (e : Ews) : (Ews.callNow e).i = e.i := rfl
@[simp] theorem Ews.callNow_page (e : Ews) : (Ews.callNow e).page = e.page := rfl
@[simp] theorem Ews.callNow_pbuf (e : Ews) : (Ews.callNow e).pbuf = e.pbuf := rfl
@[simp] theorem Ews.callNow_txnOpen (e : Ews) : (Ews.callNow e).txnOpen = e.txnOpen := rfl
@[simp] theorem Ews.callNow_t0 (e : Ews) : (Ews.callNow e).t0 = e.t0 := rfl
@[simp] theorem Ews.callNow_timedOut (e : Ews) : (Ews.callNow e).timedOut = e.timedOut := rfl
@[simp] theorem Ews.callNow_pos (e : Ews) : (Ews.callNow e).pos = e.pos := rfl
@[simp] theorem Ews.callNow_busy (e : Ews) : (Ews.callNow e).busy = e.busy := rfl
@[simp] theorem Ews.callNow_opAddr (e : Ews) : (Ews.callNow e).opAddr = e.opAddr := rfl
@[simp] theorem Ews.callNow_ri (e : Ews) : (Ews.callNow e).ri = e.ri := rfl
@[simp] theorem Ews.callNow_rx (e : Ews) : (Ews.callNow e).rx = e.rx := rfl
@[simp] theorem Ews.callNow_opc (e : Ews) : (Ews.callNow e).opc = e.opc := rfl
@[simp] theorem Ews.callNow_rsp (e : Ews) : (Ews.callNow e).rsp = e.rsp := rfl
@[simp] theorem Ews.callNow_dout (e : Ews) : (Ews.callNow e).dout = e.dout := rfl
@[simp] theorem Ews.callNow_diag (e : Ews) : (Ews.callNow e).diag = e.diag := rfl
@[simp] theorem Ews.callNow_port (e : Ews) : (Ews.callNow e).port = e.port := rfl
@[simp] theorem Ews.callNow_trace (e : Ews) : (Ews.callNow e).trace = .now e.clock.tick :: e.trace := rfl
@[simp] theorem Ews.callNow_eeprom (e : Ews) : (Ews.callNow e).eeprom = e.eeprom := rfl
@[simp] theorem Ews.callNow_clock (e : Ews) : (Ews.callNow e).clock = e.clock := rfl
@[simp] theorem Ews.callNow_sched (e : Ews) : (Ews.callNow e).sched = e.sched := rfl

/-! ### `Ews.callStart` -/

@[simp] theorem Ews.callStart_addr (e : Ews) : (Ews.callStart e).addr = e.addr := rfl
@[simp] theorem Ews.callStart_op (e : Ews) : (Ews.callStart e).op = e.op := rfl
@[simp] theorem Ews.callStart_n (e : Ews) : (Ews.callStart e).n = e.n := rfl
@[simp] theorem Ews.callStart_data (e : Ews) : (Ews.callStart e).data = e.data := rfl
@[simp] theorem Ews.callStart_i (e : Ews) : (Ews.callStart e).i = e.i := rfl
@[simp] theorem Ews.callStart_page (e : Ews) : (Ews.callStart e).page = e.page := rfl
@[simp] theorem Ews.callStart_pbuf (e : Ews) : (Ews.callStart e).pbuf = e.pbuf := rfl
@[simp] theorem Ews.callStart_txnOpen (e : Ews) : (Ews.callStart e).txnOpen = true := rfl
@[simp] theorem Ews.callStart_t0 (e : Ews) : (Ews.callStart e).t0 = e.t0 := rfl
@[simp] theorem Ews.callStart_timedOut (e : Ews) : (Ews.callStart e).timedOut = e.timedOut := rfl
@[simp] theorem Ews.callStart_pos (e : Ews) : (Ews.callStart e).pos = e.pos := rfl
@[simp] theorem Ews.callStart_busy (e : Ews) : (Ews.callStart e).busy = e.busy := rfl
@[simp] theorem Ews.callStart_opAddr (e : Ews) : (Ews.callStart e).opAddr = e.opAddr := rfl
@[simp] theorem Ews.callStart_ri (e : Ews) : (Ews.callStart e).ri = e.ri := rfl
@[simp] theorem Ews.callStart_rx (e : Ews) : (Ews.callStart e).rx = e.rx := rfl
@[simp] theorem Ews.callStart_opc (e : Ews) : (Ews.callStart e).opc = e.opc := rfl
@[simp] theorem Ews.callStart_rsp (e : Ews) : (Ews.callStart e).rsp = e.rsp := rfl
@[simp] theorem Ews.callStart_dout (e : Ews) : (Ews.callStart e).dout = e.dout := rfl
@[simp] theorem Ews.callStart_diag (e : Ews) : (Ews.callStart e).diag = e.diag := rfl
@[simp] theorem Ews.callStart_port (e : Ews) : (Ews.callStart e).port = e.port := rfl
@[simp] theorem Ews.callStart_trace (e : Ews) : (Ews.callStart e).trace = .start :: e.trace := rfl
@[simp] theorem Ews.callStart_eeprom (e : Ews) : (Ews.callStart e).eeprom = e.eeprom.start := rfl
@[simp] theorem Ews.callStart_clock (e : Ews) : (Ews.callStart e).clock = e.clock := rfl
@[simp] theorem Ews.callStart_sched (e : Ews) : (Ews.callStart e).sched = e.sched := rfl

/-! ### `Ews.callStop` -/

@[simp] theorem Ews.callStop_addr (e : Ews) : (Ews.callStop e).addr = e.addr := rfl
@[simp] theorem Ews.callStop_op (e : Ews) : (Ews.callStop e).op = e.op := rfl
@[simp] theorem Ews.callStop_n (e : Ews) : (Ews.callStop e).n = e.n := rfl
@[simp] theorem Ews.callStop_data (e : Ews) : (Ews.callStop e).data = e.data := rfl
@[simp] theorem Ews.callStop_i (e : Ews) : (Ews.callStop e).i = e.i := rfl
@[simp] theorem Ews.callStop_page (e : Ews) : (Ews.callStop e).page = e.page := rfl
@[simp] theorem Ews.callStop_pbuf (e : Ews) : (Ews.callStop e).pbuf = e.pbuf := rfl
@[simp] theorem Ews.callStop_txnOpen (e : Ews) : (Ews.callStop e).txnOpen = false := rfl
@[simp] theorem Ews.callStop_t0 (e : Ews) : (Ews.callStop e).t0 = e.t0 := rfl
@[simp] theorem Ews.callStop_timedOut (e : Ews) : (Ews.callStop e).timedOut = e.timedOut := rfl
@[simp] theorem Ews.callStop_pos (e : Ews) : (Ews.callStop e).pos = e.pos := rfl
@[simp] theorem Ews.callStop_busy (e : Ews) : (Ews.callStop e).busy = e.busy := rfl
@[simp] theorem Ews.callStop_opAddr (e : Ews) : (Ews.callStop e).opAddr = e.opAddr := rfl
@[simp] theorem Ews.callStop_ri (e : Ews) : (Ews.callStop e).ri = e.ri := rfl
@[simp] theorem Ews.callStop_rx (e : Ews) : (Ews.callStop e).rx = e.rx := rfl
@[simp] theorem Ews.callStop_opc (e : Ews) : (Ews.callStop e).opc = e.opc := rfl
@[simp] theorem Ews.callStop_rsp (e : Ews) : (Ews.callStop e).rsp = e.rsp := rfl
@[simp] theorem Ews.callStop_dout (e : Ews) : (Ews.callStop e).dout = e.dout := rfl
@[simp] theorem Ews.callStop_diag (e : Ews) : (Ews.callStop e).diag = e.diag := rfl
@[simp] theorem Ews.callStop_port (e : Ews) : (Ews.callStop e).port = e.port := rfl
@[simp] theorem Ews.callStop_trace (e : Ews) : (Ews.callStop e).trace = .stop :: e.trace := rfl
@[simp] theorem Ews.callStop_eeprom (e : Ews) : (Ews.callStop e).eeprom = e.eeprom.stop := rfl
@[simp] theorem Ews.callStop_clock (e : Ews) : (Ews.callStop e).clock = e.clock := rfl
@[simp] theorem Ews.callStop_sched (e : Ews) : (Ews.callStop e).sched = e.sched := rfl

/-! ### `Ews.callSend` -/

@[simp] theorem Ews.callSend_addr (c : Config) (b : Byte) (e : Ews) : (Ews.callSend c b e).addr = e.addr := rfl
@[simp] theorem Ews.callSend_op (c : Config) (b : Byte) (e : Ews) : (Ews.callSend c b e).op = e.op := rfl
@[simp] theorem Ews.callSend_n (c : Config) (b : Byte) (e : Ews) : (Ews.callSend c b e).n = e.n := rfl
@[simp] theorem Ews.callSend_data (c : Config) (b : Byte) (e : Ews) : (Ews.callSend c b e).data = e.data := rfl
@[simp] theorem Ews.callSend_i (c : Config) (b : Byte) (e : Ews) : (Ews.callSend c b e).i = e.i := rfl
@[simp] theorem Ews.callSend_page (c : Config) (b : Byte) (e : Ews) : (Ews.callSend c b e).page = e.page := rfl
@[simp] theorem Ews.callSend_pbuf (c : Config) (b : Byte) (e : Ews) : (Ews.callSend c b e).pbuf = e.pbuf := rfl
@[simp] theorem Ews.callSend_txnOpen (c : Config) (b : Byte) (e : Ews) : (Ews.callSend c b e).txnOpen = e.txnOpen := rfl
@[simp] theorem Ews.callSend_t0 (c : Config) (b : Byte) (e : Ews) : (Ews.callSend c b e).t0 = e.t0 := rfl
@[simp] theorem Ews.callSend_timedOut (c : Config) (b : Byte) (e : Ews) : (Ews.callSend c b e).timedOut = e.timedOut := rfl
@[simp] theorem Ews.callSend_pos (c : Config) (b : Byte) (e : Ews) : (Ews.callSend c b e).pos = e.pos := rfl
@[simp] theorem Ews.callSend_busy (c : Config) (b : Byte) (e : Ews) : (Ews.callSend c b e).busy = e.busy := rfl
@[simp] theorem Ews.callSend_opAddr (c : Config) (b : Byte) (e : Ews) : (Ews.callSend c b e).opAddr = e.opAddr := rfl
@[simp] theorem Ews.callSend_ri (c : Config) (b : Byte) (e : Ews) : (Ews.callSend c b e).ri = e.ri := rfl
@[simp] theorem Ews.callSend_rx (c : Config) (b : Byte) (e : Ews) : (Ews.callSend c b e).rx = e.rx := rfl
@[simp] theorem Ews.callSend_opc (c : Config) (b : Byte) (e : Ews) : (Ews.callSend c b e).opc = e.opc := rfl
@[simp] theorem Ews.callSend_rsp (c : Config) (b : Byte) (e : Ews) : (Ews.callSend c b e).rsp = e.rsp := rfl
@[simp] theorem Ews.callSend_dout (c : Config) (b : Byte) (e : Ews) : (Ews.callSend c b e).dout = e.dout := rfl
@[simp] theorem Ews.callSend_diag (c : Config) (b : Byte) (e : Ews) : (Ews.callSend c b e).diag = e.diag := rfl
@[simp] theorem Ews.callSend_port (c : Config) (b : Byte) (e : Ews) : (Ews.callSend c b e).port = e.port := rfl
@[simp] theorem Ews.callSend_trace (c : Config) (b : Byte) (e : Ews) : (Ews.callSend c b e).trace = .send b (e.eeprom.sendAck c b) :: e.trace := rfl
@[simp] theorem Ews.callSend_eeprom (c : Config) (b : Byte) (e : Ews) : (Ews.callSend c b e).eeprom = e.eeprom.afterSend c b := rfl
@[simp] theorem Ews.callSend_clock (c : Config) (b : Byte) (e : Ews) : (Ews.callSend c b e).clock = e.clock := rfl
@[simp] theorem Ews.callSend_sched (c : Config) (b : Byte) (e : Ews) : (Ews.callSend c b e).sched = e.sched := rfl

/-! ### `Ews.callReceive` -/

@[simp] theorem Ews.callReceive_addr (c : Config) (ack : Bool) (e : Ews) : (Ews.callReceive c ack e).addr = e.addr := rfl
@[simp] theorem Ews.callReceive_op (c : Config) (ack : Bool) (e : Ews) : (Ews.callReceive c ack e).op = e.op := rfl
@[simp] theorem Ews.callReceive_n (c : Config) (ack : Bool) (e : Ews) : (Ews.callReceive c ack e).n = e.n := rfl
@[simp] theorem Ews.callReceive_data (c : Config) (ack : Bool) (e : Ews) : (Ews.callReceive c ack e).data = e.data := rfl
@[simp] theorem Ews.callReceive_i (c : Config) (ack : Bool) (e : Ews) : (Ews.callReceive c ack e).i = e.i := rfl
@[simp] theorem Ews.callReceive_page (c : Config) (ack : Bool) (e : Ews) : (Ews.callReceive c ack e).page = e.page := rfl
@[simp] theorem Ews.callReceive_pbuf (c : Config) (ack : Bool) (e : Ews) : (Ews.callReceive c ack e).pbuf = e.pbuf := rfl
@[simp] theorem Ews.callReceive_txnOpen (c : Config) (ack : Bool) (e : Ews) : (Ews.callReceive c ack e).txnOpen = e.txnOpen := rfl
@[simp] theorem Ews.callReceive_t0 (c : Config) (ack : Bool) (e : Ews) : (Ews.callReceive c ack e).t0 = e.t0 := rfl
@[simp] theorem Ews.callReceive_timedOut (c : Config) (ack : Bool) (e : Ews) : (Ews.callReceive c ack e).timedOut = e.timedOut := rfl
@[simp] theorem Ews.callReceive_pos (c : Config) (ack : Bool) (e : Ews) : (Ews.callReceive c ack e).pos = e.pos := rfl
@[simp] theorem Ews.callReceive_busy (c : Config) (ack : Bool) (e : Ews) : (Ews.callReceive c ack e).busy = e.busy := rfl
@[simp] theorem Ews.callReceive_opAddr (c : Config) (ack : Bool) (e : Ews) : (Ews.callReceive c ack e).opAddr = e.opAddr := rfl
@[simp] theorem Ews.callReceive_ri (c : Config) (ack : Bool) (e : Ews) : (Ews.callReceive c ack e).ri = e.ri := rfl
@[simp] theorem Ews.callReceive_rx (c : Config) (ack : Bool) (e : Ews) : (Ews.callReceive c ack e).rx = e.rx ++ [e.eeprom.receiveResult] := rfl
@[simp] theorem Ews.callReceive_opc (c : Config) (ack : Bool) (e : Ews) : (Ews.callReceive c ack e).opc = e.opc := rfl
@[simp] theorem Ews.callReceive_rsp (c : Config) (ack : Bool) (e : Ews) : (Ews.callReceive c ack e).rsp = e.rsp := rfl
@[simp] theorem Ews.callReceive_dout (c : Config) (ack : Bool) (e : Ews) : (Ews.callReceive c ack e).dout = e.dout := rfl
@[simp] theorem Ews.callReceive_diag (c : Config) (ack : Bool) (e : Ews) : (Ews.callReceive c ack e).diag = e.diag := rfl
@[simp] theorem Ews.callReceive_port (c : Config) (ack : Bool) (e : Ews) : (Ews.callReceive c ack e).port = e.port := rfl
@[simp] theorem Ews.callReceive_trace (c : Config) (ack : Bool) (e : Ews) : (Ews.callReceive c ack e).trace = .receive ack e.eeprom.receiveResult :: e.trace := rfl
@[simp] theorem Ews.callReceive_eeprom (c : Config) (ack : Bool) (e : Ews) : (Ews.callReceive c ack e).eeprom = e.eeprom.afterReceive c ack := rfl
@[simp] theorem Ews.callReceive_clock (c : Config) (ack : Bool) (e : Ews) : (Ews.callReceive c ack e).clock = e.clock := rfl
@[simp] theorem Ews.callReceive_sched (c : Config) (ack : Bool) (e : Ews) : (Ews.callReceive c ack e).sched = e.sched := rfl

/-! ### `Ews.complete` -/

@[simp] theorem Ews.complete_addr (e : Ews) : (Ews.complete e).addr = e.addr := rfl
@[simp] theorem Ews.complete_op (e : Ews) : (Ews.complete e).op = .none := rfl
@[simp] theorem Ews.complete_n (e : Ews) : (Ews.complete e).n = e.n := rfl
@[simp] theorem Ews.complete_data (e : Ews) : (Ews.complete e).data = e.data := rfl
@[simp] theorem Ews.complete_i (e : Ews) : (Ews.complete e).i = e.i := rfl
@[simp] theorem Ews.complete_page (e : Ews) : (Ews.complete e).page = e.page := rfl
@[simp] theorem Ews.complete_pbuf (e : Ews) : (Ews.complete e).pbuf = e.pbuf := rfl
@[simp] theorem Ews.complete_txnOpen (e : Ews) : (Ews.complete e).txnOpen = e.txnOpen := rfl
@[simp] theorem Ews.complete_t0 (e : Ews) : (Ews.complete e).t0 = e.t0 := rfl
@[simp] theorem Ews.complete_timedOut (e : Ews) : (Ews.complete e).timedOut = e.timedOut := rfl
@[simp] theorem Ews.complete_pos (e : Ews) : (Ews.complete e).pos = .ready := rfl
@[simp] theorem Ews.complete_busy (e : Ews) : (Ews.complete e).busy = false := rfl
@[simp] theorem Ews.complete_opAddr (e : Ews) : (Ews.complete e).opAddr = e.opAddr := rfl
@[simp] theorem Ews.complete_ri (e : Ews) : (Ews.complete e).ri = e.ri := rfl
@[simp] theorem Ews.complete_rx (e : Ews) : (Ews.complete e).rx = e.rx := rfl
@[simp] theorem Ews.complete_opc (e : Ews) : (Ews.complete e).opc = e.opc := rfl
@[simp] theorem Ews.complete_rsp (e : Ews) : (Ews.complete e).rsp = e.rsp ++ [response e.opc e.result 0#16] := rfl
@[simp] theorem Ews.complete_dout (e : Ews) : (Ews.complete e).dout = e.dout := rfl
@[simp] theorem Ews.complete_diag (e : Ews) : (Ews.complete e).diag = e.diag := rfl
@[simp] theorem Ews.complete_port (e : Ews) : (Ews.complete e).port = e.port := rfl
@[simp] theorem Ews.complete_trace (e : Ews) : (Ews.complete e).trace = e.trace := rfl
@[simp] theorem Ews.complete_eeprom (e : Ews) : (Ews.complete e).eeprom = e.eeprom := rfl
@[simp] theorem Ews.complete_clock (e : Ews) : (Ews.complete e).clock = e.clock := rfl
@[simp] theorem Ews.complete_sched (e : Ews) : (Ews.complete e).sched = e.sched := rfl

/-! ### `Ews.refuse` -/

@[simp] theorem Ews.refuse_addr (opc : Byte) (r : ResultCode) (e : Ews) : (Ews.refuse opc r e).addr = e.addr := rfl
@[simp] theorem Ews.refuse_op (opc : Byte) (r : ResultCode) (e : Ews) : (Ews.refuse opc r e).op = e.op := rfl
@[simp] theorem Ews.refuse_n (opc : Byte) (r : ResultCode) (e : Ews) : (Ews.refuse opc r e).n = e.n := rfl
@[simp] theorem Ews.refuse_data (opc : Byte) (r : ResultCode) (e : Ews) : (Ews.refuse opc r e).data = e.data := rfl
@[simp] theorem Ews.refuse_i (opc : Byte) (r : ResultCode) (e : Ews) : (Ews.refuse opc r e).i = e.i := rfl
@[simp] theorem Ews.refuse_page (opc : Byte) (r : ResultCode) (e : Ews) : (Ews.refuse opc r e).page = e.page := rfl
@[simp] theorem Ews.refuse_pbuf (opc : Byte) (r : ResultCode) (e : Ews) : (Ews.refuse opc r e).pbuf = e.pbuf := rfl
@[simp] theorem Ews.refuse_txnOpen (opc : Byte) (r : ResultCode) (e : Ews) : (Ews.refuse opc r e).txnOpen = e.txnOpen := rfl
@[simp] theorem Ews.refuse_t0 (opc : Byte) (r : ResultCode) (e : Ews) : (Ews.refuse opc r e).t0 = e.t0 := rfl
@[simp] theorem Ews.refuse_timedOut (opc : Byte) (r : ResultCode) (e : Ews) : (Ews.refuse opc r e).timedOut = e.timedOut := rfl
@[simp] theorem Ews.refuse_pos (opc : Byte) (r : ResultCode) (e : Ews) : (Ews.refuse opc r e).pos = e.pos := rfl
@[simp] theorem Ews.refuse_busy (opc : Byte) (r : ResultCode) (e : Ews) : (Ews.refuse opc r e).busy = e.busy := rfl
@[simp] theorem Ews.refuse_opAddr (opc : Byte) (r : ResultCode) (e : Ews) : (Ews.refuse opc r e).opAddr = e.opAddr := rfl
@[simp] theorem Ews.refuse_ri (opc : Byte) (r : ResultCode) (e : Ews) : (Ews.refuse opc r e).ri = e.ri := rfl
@[simp] theorem Ews.refuse_rx (opc : Byte) (r : ResultCode) (e : Ews) : (Ews.refuse opc r e).rx = e.rx := rfl
@[simp] theorem Ews.refuse_opc (opc : Byte) (r : ResultCode) (e : Ews) : (Ews.refuse opc r e).opc = e.opc := rfl
@[simp] theorem Ews.refuse_rsp (opc : Byte) (r : ResultCode) (e : Ews) : (Ews.refuse opc r e).rsp = e.rsp ++ [response opc r 0#16] := rfl
@[simp] theorem Ews.refuse_dout (opc : Byte) (r : ResultCode) (e : Ews) : (Ews.refuse opc r e).dout = e.dout := rfl
@[simp] theorem Ews.refuse_diag (opc : Byte) (r : ResultCode) (e : Ews) : (Ews.refuse opc r e).diag = e.diag := rfl
@[simp] theorem Ews.refuse_port (opc : Byte) (r : ResultCode) (e : Ews) : (Ews.refuse opc r e).port = e.port := rfl
@[simp] theorem Ews.refuse_trace (opc : Byte) (r : ResultCode) (e : Ews) : (Ews.refuse opc r e).trace = e.trace := rfl
@[simp] theorem Ews.refuse_eeprom (opc : Byte) (r : ResultCode) (e : Ews) : (Ews.refuse opc r e).eeprom = e.eeprom := rfl
@[simp] theorem Ews.refuse_clock (opc : Byte) (r : ResultCode) (e : Ews) : (Ews.refuse opc r e).clock = e.clock := rfl
@[simp] theorem Ews.refuse_sched (opc : Byte) (r : ResultCode) (e : Ews) : (Ews.refuse opc r e).sched = e.sched := rfl

/-! ### `Ews.accept` -/

@[simp] theorem Ews.accept_addr (op : EwsOp) (start : EwsPos) (opc : Opcode) (address n : Half) (data : List Byte) (e : Ews) : (Ews.accept op start opc address n data e).addr = e.addr := rfl
@[simp] theorem Ews.accept_op (op : EwsOp) (start : EwsPos) (opc : Opcode) (address n : Half) (data : List Byte) (e : Ews) : (Ews.accept op start opc address n data e).op = op := rfl
@[simp] theorem Ews.accept_n (op : EwsOp) (start : EwsPos) (opc : Opcode) (address n : Half) (data : List Byte) (e : Ews) : (Ews.accept op start opc address n data e).n = n := rfl
@[simp] theorem Ews.accept_data (op : EwsOp) (start : EwsPos) (opc : Opcode) (address n : Half) (data : List Byte) (e : Ews) : (Ews.accept op start opc address n data e).data = data := rfl
@[simp] theorem Ews.accept_i (op : EwsOp) (start : EwsPos) (opc : Opcode) (address n : Half) (data : List Byte) (e : Ews) : (Ews.accept op start opc address n data e).i = e.i := rfl
@[simp] theorem Ews.accept_page (op : EwsOp) (start : EwsPos) (opc : Opcode) (address n : Half) (data : List Byte) (e : Ews) : (Ews.accept op start opc address n data e).page = e.page := rfl
@[simp] theorem Ews.accept_pbuf (op : EwsOp) (start : EwsPos) (opc : Opcode) (address n : Half) (data : List Byte) (e : Ews) : (Ews.accept op start opc address n data e).pbuf = e.pbuf := rfl
@[simp] theorem Ews.accept_txnOpen (op : EwsOp) (start : EwsPos) (opc : Opcode) (address n : Half) (data : List Byte) (e : Ews) : (Ews.accept op start opc address n data e).txnOpen = e.txnOpen := rfl
@[simp] theorem Ews.accept_t0 (op : EwsOp) (start : EwsPos) (opc : Opcode) (address n : Half) (data : List Byte) (e : Ews) : (Ews.accept op start opc address n data e).t0 = e.t0 := rfl
@[simp] theorem Ews.accept_timedOut (op : EwsOp) (start : EwsPos) (opc : Opcode) (address n : Half) (data : List Byte) (e : Ews) : (Ews.accept op start opc address n data e).timedOut = false := rfl
@[simp] theorem Ews.accept_pos (op : EwsOp) (start : EwsPos) (opc : Opcode) (address n : Half) (data : List Byte) (e : Ews) : (Ews.accept op start opc address n data e).pos = start := rfl
@[simp] theorem Ews.accept_busy (op : EwsOp) (start : EwsPos) (opc : Opcode) (address n : Half) (data : List Byte) (e : Ews) : (Ews.accept op start opc address n data e).busy = true := rfl
@[simp] theorem Ews.accept_opAddr (op : EwsOp) (start : EwsPos) (opc : Opcode) (address n : Half) (data : List Byte) (e : Ews) : (Ews.accept op start opc address n data e).opAddr = address := rfl
@[simp] theorem Ews.accept_ri (op : EwsOp) (start : EwsPos) (opc : Opcode) (address n : Half) (data : List Byte) (e : Ews) : (Ews.accept op start opc address n data e).ri = e.ri := rfl
@[simp] theorem Ews.accept_rx (op : EwsOp) (start : EwsPos) (opc : Opcode) (address n : Half) (data : List Byte) (e : Ews) : (Ews.accept op start opc address n data e).rx = e.rx := rfl
@[simp] theorem Ews.accept_opc (op : EwsOp) (start : EwsPos) (opc : Opcode) (address n : Half) (data : List Byte) (e : Ews) : (Ews.accept op start opc address n data e).opc = opc.toByte := rfl
@[simp] theorem Ews.accept_rsp (op : EwsOp) (start : EwsPos) (opc : Opcode) (address n : Half) (data : List Byte) (e : Ews) : (Ews.accept op start opc address n data e).rsp = e.rsp := rfl
@[simp] theorem Ews.accept_dout (op : EwsOp) (start : EwsPos) (opc : Opcode) (address n : Half) (data : List Byte) (e : Ews) : (Ews.accept op start opc address n data e).dout = e.dout := rfl
@[simp] theorem Ews.accept_diag (op : EwsOp) (start : EwsPos) (opc : Opcode) (address n : Half) (data : List Byte) (e : Ews) : (Ews.accept op start opc address n data e).diag = e.diag := rfl
@[simp] theorem Ews.accept_port (op : EwsOp) (start : EwsPos) (opc : Opcode) (address n : Half) (data : List Byte) (e : Ews) : (Ews.accept op start opc address n data e).port = e.port := rfl
@[simp] theorem Ews.accept_trace (op : EwsOp) (start : EwsPos) (opc : Opcode) (address n : Half) (data : List Byte) (e : Ews) : (Ews.accept op start opc address n data e).trace = e.trace := rfl
@[simp] theorem Ews.accept_eeprom (op : EwsOp) (start : EwsPos) (opc : Opcode) (address n : Half) (data : List Byte) (e : Ews) : (Ews.accept op start opc address n data e).eeprom = e.eeprom := rfl
@[simp] theorem Ews.accept_clock (op : EwsOp) (start : EwsPos) (opc : Opcode) (address n : Half) (data : List Byte) (e : Ews) : (Ews.accept op start opc address n data e).clock = e.clock := rfl
@[simp] theorem Ews.accept_sched (op : EwsOp) (start : EwsPos) (opc : Opcode) (address n : Half) (data : List Byte) (e : Ews) : (Ews.accept op start opc address n data e).sched = e.sched := rfl

/-! ## RPA -/

/-! ### `Rpa.complete` -/

@[simp] theorem Rpa.complete_mem (value : Half) (r : Rpa) : (Rpa.complete value r).mem = r.mem := rfl
@[simp] theorem Rpa.complete_cap (value : Half) (r : Rpa) : (Rpa.complete value r).cap = r.cap := rfl
@[simp] theorem Rpa.complete_rd (value : Half) (r : Rpa) : (Rpa.complete value r).rd = r.rd := rfl
@[simp] theorem Rpa.complete_wr (value : Half) (r : Rpa) : (Rpa.complete value r).wr = r.wr := rfl
@[simp] theorem Rpa.complete_op (value : Half) (r : Rpa) : (Rpa.complete value r).op = .none := rfl
@[simp] theorem Rpa.complete_n (value : Half) (r : Rpa) : (Rpa.complete value r).n = r.n := rfl
@[simp] theorem Rpa.complete_data (value : Half) (r : Rpa) : (Rpa.complete value r).data = r.data := rfl
@[simp] theorem Rpa.complete_busy (value : Half) (r : Rpa) : (Rpa.complete value r).busy = false := rfl
@[simp] theorem Rpa.complete_opCap (value : Half) (r : Rpa) : (Rpa.complete value r).opCap = r.opCap := rfl
@[simp] theorem Rpa.complete_opRd (value : Half) (r : Rpa) : (Rpa.complete value r).opRd = r.opRd := rfl
@[simp] theorem Rpa.complete_opWr (value : Half) (r : Rpa) : (Rpa.complete value r).opWr = r.opWr := rfl
@[simp] theorem Rpa.complete_opc (value : Half) (r : Rpa) : (Rpa.complete value r).opc = r.opc := rfl
@[simp] theorem Rpa.complete_rsp (value : Half) (r : Rpa) : (Rpa.complete value r).rsp = r.rsp ++ [response r.opc .ok value] := rfl
@[simp] theorem Rpa.complete_dout (value : Half) (r : Rpa) : (Rpa.complete value r).dout = r.dout := rfl
@[simp] theorem Rpa.complete_diag (value : Half) (r : Rpa) : (Rpa.complete value r).diag = r.diag := rfl
@[simp] theorem Rpa.complete_port (value : Half) (r : Rpa) : (Rpa.complete value r).port = r.port := rfl
@[simp] theorem Rpa.complete_draws (value : Half) (r : Rpa) : (Rpa.complete value r).draws = r.draws := rfl

/-! ### `Rpa.refuse` -/

@[simp] theorem Rpa.refuse_mem (opc : Byte) (code : ResultCode) (r : Rpa) : (Rpa.refuse opc code r).mem = r.mem := rfl
@[simp] theorem Rpa.refuse_cap (opc : Byte) (code : ResultCode) (r : Rpa) : (Rpa.refuse opc code r).cap = r.cap := rfl
@[simp] theorem Rpa.refuse_rd (opc : Byte) (code : ResultCode) (r : Rpa) : (Rpa.refuse opc code r).rd = r.rd := rfl
@[simp] theorem Rpa.refuse_wr (opc : Byte) (code : ResultCode) (r : Rpa) : (Rpa.refuse opc code r).wr = r.wr := rfl
@[simp] theorem Rpa.refuse_op (opc : Byte) (code : ResultCode) (r : Rpa) : (Rpa.refuse opc code r).op = r.op := rfl
@[simp] theorem Rpa.refuse_n (opc : Byte) (code : ResultCode) (r : Rpa) : (Rpa.refuse opc code r).n = r.n := rfl
@[simp] theorem Rpa.refuse_data (opc : Byte) (code : ResultCode) (r : Rpa) : (Rpa.refuse opc code r).data = r.data := rfl
@[simp] theorem Rpa.refuse_busy (opc : Byte) (code : ResultCode) (r : Rpa) : (Rpa.refuse opc code r).busy = r.busy := rfl
@[simp] theorem Rpa.refuse_opCap (opc : Byte) (code : ResultCode) (r : Rpa) : (Rpa.refuse opc code r).opCap = r.opCap := rfl
@[simp] theorem Rpa.refuse_opRd (opc : Byte) (code : ResultCode) (r : Rpa) : (Rpa.refuse opc code r).opRd = r.opRd := rfl
@[simp] theorem Rpa.refuse_opWr (opc : Byte) (code : ResultCode) (r : Rpa) : (Rpa.refuse opc code r).opWr = r.opWr := rfl
@[simp] theorem Rpa.refuse_opc (opc : Byte) (code : ResultCode) (r : Rpa) : (Rpa.refuse opc code r).opc = r.opc := rfl
@[simp] theorem Rpa.refuse_rsp (opc : Byte) (code : ResultCode) (r : Rpa) : (Rpa.refuse opc code r).rsp = r.rsp ++ [response opc code 0#16] := rfl
@[simp] theorem Rpa.refuse_dout (opc : Byte) (code : ResultCode) (r : Rpa) : (Rpa.refuse opc code r).dout = r.dout := rfl
@[simp] theorem Rpa.refuse_diag (opc : Byte) (code : ResultCode) (r : Rpa) : (Rpa.refuse opc code r).diag = r.diag := rfl
@[simp] theorem Rpa.refuse_port (opc : Byte) (code : ResultCode) (r : Rpa) : (Rpa.refuse opc code r).port = r.port := rfl
@[simp] theorem Rpa.refuse_draws (opc : Byte) (code : ResultCode) (r : Rpa) : (Rpa.refuse opc code r).draws = r.draws := rfl

/-! ### `Rpa.accept` -/

@[simp] theorem Rpa.accept_mem (op : RpaOp) (opc : Opcode) (n : Half) (data : List Byte) (r : Rpa) : (Rpa.accept op opc n data r).mem = r.mem := rfl
@[simp] theorem Rpa.accept_cap (op : RpaOp) (opc : Opcode) (n : Half) (data : List Byte) (r : Rpa) : (Rpa.accept op opc n data r).cap = r.cap := rfl
@[simp] theorem Rpa.accept_rd (op : RpaOp) (opc : Opcode) (n : Half) (data : List Byte) (r : Rpa) : (Rpa.accept op opc n data r).rd = r.rd := rfl
@[simp] theorem Rpa.accept_wr (op : RpaOp) (opc : Opcode) (n : Half) (data : List Byte) (r : Rpa) : (Rpa.accept op opc n data r).wr = r.wr := rfl
@[simp] theorem Rpa.accept_op (op : RpaOp) (opc : Opcode) (n : Half) (data : List Byte) (r : Rpa) : (Rpa.accept op opc n data r).op = op := rfl
@[simp] theorem Rpa.accept_n (op : RpaOp) (opc : Opcode) (n : Half) (data : List Byte) (r : Rpa) : (Rpa.accept op opc n data r).n = n := rfl
@[simp] theorem Rpa.accept_data (op : RpaOp) (opc : Opcode) (n : Half) (data : List Byte) (r : Rpa) : (Rpa.accept op opc n data r).data = data := rfl
@[simp] theorem Rpa.accept_busy (op : RpaOp) (opc : Opcode) (n : Half) (data : List Byte) (r : Rpa) : (Rpa.accept op opc n data r).busy = true := rfl
@[simp] theorem Rpa.accept_opCap (op : RpaOp) (opc : Opcode) (n : Half) (data : List Byte) (r : Rpa) : (Rpa.accept op opc n data r).opCap = r.opCap := rfl
@[simp] theorem Rpa.accept_opRd (op : RpaOp) (opc : Opcode) (n : Half) (data : List Byte) (r : Rpa) : (Rpa.accept op opc n data r).opRd = r.opRd := rfl
@[simp] theorem Rpa.accept_opWr (op : RpaOp) (opc : Opcode) (n : Half) (data : List Byte) (r : Rpa) : (Rpa.accept op opc n data r).opWr = r.opWr := rfl
@[simp] theorem Rpa.accept_opc (op : RpaOp) (opc : Opcode) (n : Half) (data : List Byte) (r : Rpa) : (Rpa.accept op opc n data r).opc = opc.toByte := rfl
@[simp] theorem Rpa.accept_rsp (op : RpaOp) (opc : Opcode) (n : Half) (data : List Byte) (r : Rpa) : (Rpa.accept op opc n data r).rsp = r.rsp := rfl
@[simp] theorem Rpa.accept_dout (op : RpaOp) (opc : Opcode) (n : Half) (data : List Byte) (r : Rpa) : (Rpa.accept op opc n data r).dout = r.dout := rfl
@[simp] theorem Rpa.accept_diag (op : RpaOp) (opc : Opcode) (n : Half) (data : List Byte) (r : Rpa) : (Rpa.accept op opc n data r).diag = r.diag := rfl
@[simp] theorem Rpa.accept_port (op : RpaOp) (opc : Opcode) (n : Half) (data : List Byte) (r : Rpa) : (Rpa.accept op opc n data r).port = r.port := rfl
@[simp] theorem Rpa.accept_draws (op : RpaOp) (opc : Opcode) (n : Half) (data : List Byte) (r : Rpa) : (Rpa.accept op opc n data r).draws = r.draws := rfl

/-! ## The whole machine -/

/-- A unit's ports after they were set. -/
@[simp] theorem State.port_setPort (u : UnitId) (p : Port) (s : State) : (s.setPort u p).port u = p := by cases u <;> rfl
theorem State.port_setPort_ne {u v : UnitId} (p : Port) (s : State) (h : v ≠ u) : (s.setPort u p).port v = s.port v := by
  cases u <;> cases v <;> first | rfl | exact absurd rfl h
@[simp] theorem State.setPort_setPort (u : UnitId) (p q : Port) (s : State) : (s.setPort u p).setPort u q = s.setPort u q := by
  cases u <;> rfl

/-! ### `State.setPort` -/

@[simp] theorem State.setPort_cfg (u : UnitId) (p : Port) (s : State) : (State.setPort u p s).cfg = s.cfg := by cases u <;> rfl
@[simp] theorem State.setPort_host (u : UnitId) (p : Port) (s : State) : (State.setPort u p s).host = s.host := by cases u <;> rfl
@[simp] theorem State.setPort_turn (u : UnitId) (p : Port) (s : State) : (State.setPort u p s).turn = s.turn := by cases u <;> rfl
@[simp] theorem State.setPort_fpc_fpc (p : Port) (s : State) : (State.setPort .fpc p s).fpc = { s.fpc with port := p } := rfl
@[simp] theorem State.setPort_fpc_ews (p : Port) (s : State) : (State.setPort .fpc p s).ews = s.ews := rfl
@[simp] theorem State.setPort_fpc_rpa (p : Port) (s : State) : (State.setPort .fpc p s).rpa = s.rpa := rfl
@[simp] theorem State.setPort_ews_fpc (p : Port) (s : State) : (State.setPort .ews p s).fpc = s.fpc := rfl
@[simp] theorem State.setPort_ews_ews (p : Port) (s : State) : (State.setPort .ews p s).ews = { s.ews with port := p } := rfl
@[simp] theorem State.setPort_ews_rpa (p : Port) (s : State) : (State.setPort .ews p s).rpa = s.rpa := rfl
@[simp] theorem State.setPort_rpa_fpc (p : Port) (s : State) : (State.setPort .rpa p s).fpc = s.fpc := rfl
@[simp] theorem State.setPort_rpa_ews (p : Port) (s : State) : (State.setPort .rpa p s).ews = s.ews := rfl
@[simp] theorem State.setPort_rpa_rpa (p : Port) (s : State) : (State.setPort .rpa p s).rpa = { s.rpa with port := p } := rfl
@[simp] theorem State.occupied_setPort (u : UnitId) (p : Port) (v : UnitId) (s : State) : (State.setPort u p s).occupied v = s.occupied v := by
  cases u <;> cases v <;> rfl

/-! ### `State.refuse` -/

@[simp] theorem State.refuse_cfg (u : UnitId) (opc : Byte) (r : ResultCode) (s : State) : (State.refuse u opc r s).cfg = s.cfg := by cases u <;> rfl
@[simp] theorem State.refuse_host (u : UnitId) (opc : Byte) (r : ResultCode) (s : State) : (State.refuse u opc r s).host = s.host := by cases u <;> rfl
@[simp] theorem State.refuse_turn (u : UnitId) (opc : Byte) (r : ResultCode) (s : State) : (State.refuse u opc r s).turn = s.turn := by cases u <;> rfl
@[simp] theorem State.refuse_fpc_fpc (opc : Byte) (r : ResultCode) (s : State) : (State.refuse .fpc opc r s).fpc = s.fpc.refuse opc r := rfl
@[simp] theorem State.refuse_fpc_ews (opc : Byte) (r : ResultCode) (s : State) : (State.refuse .fpc opc r s).ews = s.ews := rfl
@[simp] theorem State.refuse_fpc_rpa (opc : Byte) (r : ResultCode) (s : State) : (State.refuse .fpc opc r s).rpa = s.rpa := rfl
@[simp] theorem State.refuse_ews_fpc (opc : Byte) (r : ResultCode) (s : State) : (State.refuse .ews opc r s).fpc = s.fpc := rfl
@[simp] theorem State.refuse_ews_ews (opc : Byte) (r : ResultCode) (s : State) : (State.refuse .ews opc r s).ews = s.ews.refuse opc r := rfl
@[simp] theorem State.refuse_ews_rpa (opc : Byte) (r : ResultCode) (s : State) : (State.refuse .ews opc r s).rpa = s.rpa := rfl
@[simp] theorem State.refuse_rpa_fpc (opc : Byte) (r : ResultCode) (s : State) : (State.refuse .rpa opc r s).fpc = s.fpc := rfl
@[simp] theorem State.refuse_rpa_ews (opc : Byte) (r : ResultCode) (s : State) : (State.refuse .rpa opc r s).ews = s.ews := rfl
@[simp] theorem State.refuse_rpa_rpa (opc : Byte) (r : ResultCode) (s : State) : (State.refuse .rpa opc r s).rpa = s.rpa.refuse opc r := rfl
@[simp] theorem State.occupied_refuse (u : UnitId) (opc : Byte) (r : ResultCode) (v : UnitId) (s : State) : (State.refuse u opc r s).occupied v = s.occupied v := by
  cases u <;> cases v <;> rfl

/-! ### `State.free` -/

@[simp] theorem State.free_cfg (u : UnitId) (s : State) : (State.free u s).cfg = s.cfg := by cases u <;> rfl
@[simp] theorem State.free_host (u : UnitId) (s : State) : (State.free u s).host = s.host := by cases u <;> rfl
@[simp] theorem State.free_turn (u : UnitId) (s : State) : (State.free u s).turn = s.turn := by cases u <;> rfl
@[simp] theorem State.free_fpc_fpc (s : State) : (State.free .fpc s).fpc = { s.fpc with busy := false, op := .none, pos := .ready, phase := .idle } := rfl
@[simp] theorem State.free_fpc_ews (s : State) : (State.free .fpc s).ews = s.ews := rfl
@[simp] theorem State.free_fpc_rpa (s : State) : (State.free .fpc s).rpa = s.rpa := rfl
@[simp] theorem State.free_ews_fpc (s : State) : (State.free .ews s).fpc = s.fpc := rfl
@[simp] theorem State.free_ews_ews (s : State) : (State.free .ews s).ews = { s.ews with busy := false, op := .none, pos := .ready } := rfl
@[simp] theorem State.free_ews_rpa (s : State) : (State.free .ews s).rpa = s.rpa := rfl
@[simp] theorem State.free_rpa_fpc (s : State) : (State.free .rpa s).fpc = s.fpc := rfl
@[simp] theorem State.free_rpa_ews (s : State) : (State.free .rpa s).ews = s.ews := rfl
@[simp] theorem State.free_rpa_rpa (s : State) : (State.free .rpa s).rpa = { s.rpa with busy := false, op := .none } := rfl
@[simp] theorem State.occupied_free (u : UnitId) (s : State) : (State.free u s).occupied u = false := by cases u <;> rfl

/-! ### `State.endTurn` -/

@[simp] theorem State.endTurn_cfg (s : State) : s.endTurn.cfg = s.cfg := rfl
@[simp] theorem State.endTurn_fpc (s : State) : s.endTurn.fpc = s.fpc := rfl
@[simp] theorem State.endTurn_ews (s : State) : s.endTurn.ews = s.ews := rfl
@[simp] theorem State.endTurn_rpa (s : State) : s.endTurn.rpa = s.rpa := rfl
@[simp] theorem State.endTurn_turn (s : State) : s.endTurn.turn = nextUnit s.turn := rfl
@[simp] theorem State.endTurn_port (u : UnitId) (s : State) : s.endTurn.port u = s.port u := by cases u <;> rfl

/-! ### `State.present`, `State.blockReset` -/

@[simp] theorem State.present_cfg (u : UnitId) (cw : Word64) (pay : List Byte) (s : State) : (s.present u cw pay).cfg = s.cfg := by
  cases u <;> rfl
@[simp] theorem State.blockReset_cfg (s : State) : s.blockReset.cfg = s.cfg := rfl
@[simp] theorem State.present_host (u : UnitId) (cw : Word64) (pay : List Byte) (s : State) : (s.present u cw pay).host = s.host := by
  cases u <;> rfl
@[simp] theorem State.blockReset_host (s : State) : s.blockReset.host = s.host := rfl
@[simp] theorem State.present_turn (u : UnitId) (cw : Word64) (pay : List Byte) (s : State) : (s.present u cw pay).turn = s.turn := by
  cases u <;> rfl
@[simp] theorem State.blockReset_turn (s : State) : s.blockReset.turn = s.turn := rfl
@[simp] theorem State.hostMove_cfg (m : HostMove) (s : State) : (s.hostMove m).cfg = s.cfg := by cases m <;> simp [State.hostMove]

end Sys2Proof.Machine
end

