-- ==== Sys2Proof/Laws/Ews.lean ====
section
/-! SUPPORT. What one step of EWS's sequencer can do (R151 to R160): its lines, the invariants it keeps, that it always has a
line, the measure that it lowers, and how the EEPROM keeps in step with it. -/

namespace Sys2Proof.Machine

/-! ## Parameters -/

namespace Config

theorem eePages_mul {c : Config} (h : c.Valid) : c.eePages * c.eePage = c.eeSize :=
  Nat.div_mul_cancel (Nat.dvd_of_mod_eq_zero h.2.2.2.1.2.1)

theorem eePage_pos {c : Config} (h : c.Valid) : 1 ≤ c.eePage := h.2.2.2.2.1

theorem eeSize_pos {c : Config} (h : c.Valid) : 1 ≤ c.eeSize := h.2.2.2.1.1

theorem eeSize_le {c : Config} (h : c.Valid) : c.eeSize ≤ 65536 := h.2.2.2.1.2.2

theorem eePages_pos {c : Config} (h : c.Valid) : 1 ≤ c.eePages := by
  have h1 := eePages_mul h
  have h2 := eeSize_pos h
  rcases Nat.eq_zero_or_pos c.eePages with h0 | h0
  · rw [h0] at h1; omega
  · exact h0

/-- A page lies inside the EEPROM (R52). -/
theorem page_in_eeprom {c : Config} (h : c.Valid) {p : Nat} (hp : p < c.eePages) :
    p * c.eePage + c.eePage ≤ c.eeSize := by
  rw [← eePages_mul h, ← Nat.succ_mul]; exact Nat.mul_le_mul_right _ hp

end Config

/-! ## The EEPROM device -/

/-- The write pointer stays inside its page (R75). -/
theorem Eeprom.nextWritePtr_lt {c : Config} (h : c.Valid) {p : Nat} (hp : p < c.eeSize) :
    Eeprom.nextWritePtr c p < c.eeSize := by
  have hd : p / c.eePage < c.eePages := by
    rw [Nat.div_lt_iff_lt_mul (Config.eePage_pos h), Config.eePages_mul h]; exact hp
  have := Config.page_in_eeprom h hd
  have hm : (p + 1) % c.eePage < c.eePage := Nat.mod_lt _ (Config.eePage_pos h)
  unfold nextWritePtr; omega

/-- Inside a page the write pointer advances by one (R75, R158). -/
theorem Eeprom.nextWritePtr_succ {c : Config} (h : c.Valid) {p : Nat} (hp : (p + 1) % c.eePage ≠ 0) :
    Eeprom.nextWritePtr c p = p + 1 := by
  have hpos := Config.eePage_pos h
  have h1 := Nat.div_add_mod p c.eePage
  have h2 := Nat.mod_lt p hpos
  have h3 : (p + 1) % c.eePage = p % c.eePage + 1 := by
    rw [Nat.add_mod]
    rcases Nat.lt_or_ge (p % c.eePage + 1) c.eePage with hl | hl
    · have : c.eePage ≠ 1 := by rintro h1; rw [h1] at hl h2; omega
      rw [Nat.mod_eq_of_lt (a := 1) (by omega), Nat.mod_eq_of_lt hl]
    · exfalso; apply hp
      rw [Nat.add_mod]
      have he : p % c.eePage + 1 = c.eePage := by omega
      rcases Nat.lt_or_ge 1 c.eePage with h4 | h4
      · rw [Nat.mod_eq_of_lt h4, he, Nat.mod_self]
      · have : c.eePage = 1 := by omega
        rw [this]; simp [Nat.mod_one]
  unfold nextWritePtr; rw [h3, Nat.mul_comm]; omega

/-- The last byte of a page (R75): the write pointer wraps to its start. -/
theorem Eeprom.nextWritePtr_wrap {c : Config} {p : Nat} (hp : (p + 1) % c.eePage = 0) :
    Eeprom.nextWritePtr c p = p / c.eePage * c.eePage := by unfold nextWritePtr; rw [hp]; rfl

/-- What the EEPROM keeps whatever the bus does. -/
abbrev Eeprom.Ok (c : Config) (d : Eeprom) : Prop :=
  Memory.wf .eeprom d.ee ∧ (∀ x ∈ d.ee, x.1 < c.eeSize) ∧ d.ptr < c.eeSize

theorem Eeprom.ok_afterSend {c : Config} (hc : c.Valid) {d : Eeprom} {b : Byte} (h : Eeprom.Ok c d) :
    Eeprom.Ok c (d.afterSend c b) := by
  obtain ⟨h1, h2, h3⟩ := h
  unfold afterSend
  split
  · repeat' split
    all_goals exact ⟨h1, h2, h3⟩
  · exact ⟨h1, h2, h3⟩
  · exact ⟨h1, h2, Nat.mod_lt _ (Config.eeSize_pos hc)⟩
  · refine ⟨Memory.wf_set h1, fun x hx => ?_, Eeprom.nextWritePtr_lt hc h3⟩
    rcases Memory.mem_set hx with rfl | hx
    · exact h3
    · exact h2 x hx
  all_goals exact ⟨h1, h2, h3⟩

theorem Eeprom.ok_afterReceive {c : Config} (hc : c.Valid) {d : Eeprom} {a : Bool} (h : Eeprom.Ok c d) :
    Eeprom.Ok c (d.afterReceive c a) := by
  obtain ⟨h1, h2, h3⟩ := h
  unfold afterReceive
  split
  · exact ⟨h1, h2, Nat.mod_lt _ (Config.eeSize_pos hc)⟩
  all_goals exact ⟨h1, h2, h3⟩

/-- A receive changes no byte of the EEPROM (R76). -/
@[simp] theorem Eeprom.ee_afterReceive (c : Config) (a : Bool) (d : Eeprom) : (d.afterReceive c a).ee = d.ee := by
  unfold afterReceive; split <;> rfl

/-- A send outside a write transaction's data changes no byte of the EEPROM (R75). -/
theorem Eeprom.ee_afterSend {c : Config} {b : Byte} {d : Eeprom} (h : d.mode ≠ .wData) : (d.afterSend c b).ee = d.ee := by
  unfold afterSend; split <;> first | rfl | contradiction | skip
  repeat' split
  all_goals rfl

/-- A data byte (R75): written at the pointer, which then moves inside its page. -/
theorem Eeprom.afterSend_wData {c : Config} {b : Byte} {d : Eeprom} (h : d.mode = .wData) :
    d.afterSend c b
      = { d with ee := d.ee.set .eeprom d.ptr b, got := d.got + 1, ptr := Eeprom.nextWritePtr c d.ptr } := by
  unfold afterSend; simp only [h]

/-- An EEPROM that has given up on a transaction ignores every byte (R75). -/
theorem Eeprom.afterSend_ignore {c : Config} {b : Byte} {d : Eeprom} (h : d.mode = .ignore) : d.afterSend c b = d := by
  unfold afterSend; simp only [h]

/-- The control byte `CTRL_W` at an EEPROM that is not committing (R75). -/
theorem Eeprom.afterSend_ctrlW {c : Config} {d : Eeprom} (h : d.mode = .ctrl) (hc : d.commit = false) :
    d.afterSend c c.ctrlW = { d with mode := .aHi } ∧ d.sendAck c c.ctrlW = true := by
  unfold afterSend sendAck; simp [h, hc]

/-- The control byte at an EEPROM that is committing is refused (R75, R77). -/
theorem Eeprom.afterSend_committing {c : Config} {b : Byte} {d : Eeprom} (h : d.mode = .ctrl) (hc : d.commit = true) :
    d.afterSend c b = { d with mode := .ignore } ∧ d.sendAck c b = false := by
  unfold afterSend sendAck; simp [h, hc]

/-! ## The collaborators' own moves -/

theorem Ews.moves_eeprom (c : Config) (e : Ews) : (e.moves c).eeprom = e.eeprom ∨ (e.moves c).eeprom = e.eeprom.takeDone := by
  unfold Ews.moves; split <;> split <;> simp

theorem Ews.ok_moves {c : Config} {e : Ews} (h : Eeprom.Ok c e.eeprom) : Eeprom.Ok c (e.moves c).eeprom := by
  rcases e.moves_eeprom c with h' | h' <;> rw [h'] <;> exact h

@[simp] theorem Ews.moves_ee (c : Config) (e : Ews) : (e.moves c).eeprom.ee = e.eeprom.ee := by
  rcases e.moves_eeprom c with h' | h' <;> simp [h']

@[simp] theorem Ews.moves_mode (c : Config) (e : Ews) : (e.moves c).eeprom.mode = e.eeprom.mode := by
  rcases e.moves_eeprom c with h' | h' <;> simp [h']

@[simp] theorem Ews.moves_ptr (c : Config) (e : Ews) : (e.moves c).eeprom.ptr = e.eeprom.ptr := by
  rcases e.moves_eeprom c with h' | h' <;> simp [h']

@[simp] theorem Ews.moves_hi (c : Config) (e : Ews) : (e.moves c).eeprom.hi = e.eeprom.hi := by
  rcases e.moves_eeprom c with h' | h' <;> simp [h']

@[simp] theorem Ews.moves_got (c : Config) (e : Ews) : (e.moves c).eeprom.got = e.eeprom.got := by
  rcases e.moves_eeprom c with h' | h' <;> simp [h']

@[simp] theorem Ews.moves_stalled (c : Config) (e : Ews) : (e.moves c).eeprom.stalled = e.eeprom.stalled := by
  rcases e.moves_eeprom c with h' | h' <;> simp [h']

/-- The collaborators' own moves start no commit (R262). -/
theorem Ews.moves_commit {c : Config} {e : Ews} (h : e.eeprom.commit = false) : (e.moves c).eeprom.commit = false := by
  rcases e.moves_eeprom c with h' | h' <;> rw [h']
  · exact h
  · rfl

/-- An EEPROM that is not stalled, its schedule used up, has taken `DONE` (R79, log 8). -/
theorem Ews.moves_ideal {c : Config} {e : Ews} (h : e.sched = []) (hs : e.eeprom.stalled = false) :
    (e.moves c).eeprom.commit = false := by simp [Ews.moves, h, hs]

/-- Elapsed time grows by what the tick advances, modulo its wrap (R152, R78). -/
theorem elapsed_advance {c : Config} {t0 tick : Nat} (k : Nat) (h : t0 < 2 ^ c.tickBits) :
    elapsed c ((tick + k) % 2 ^ c.tickBits) t0 = (elapsed c tick t0 + k) % 2 ^ c.tickBits := by
  have hp : 0 < 2 ^ c.tickBits := Nat.two_pow_pos _
  simp only [elapsed, Nat.mod_eq_of_lt h]
  rw [Nat.add_sub_assoc (by omega), Nat.add_sub_assoc (by omega), Nat.mod_add_mod, Nat.mod_add_mod]
  congr 1; omega

theorem elapsed_lt {c : Config} {t0 tick : Nat} : elapsed c tick t0 < 2 ^ c.tickBits := Nat.mod_lt _ (Nat.two_pow_pos _)

/-- While StartSequence measures, no advance takes elapsed time to its wrap (R78). -/
theorem Ews.elapsed_add_tickAdvance_lt {c : Config} {e : Ews} (h : e.pos.timing = true) (k : Nat) :
    elapsed c e.clock.tick e.t0 + e.tickAdvance c k < 2 ^ c.tickBits := by
  have := elapsed_lt (c := c) (t0 := e.t0) (tick := e.clock.tick)
  simp only [tickAdvance, h, if_true]; omega

theorem Ews.moves_tick {c : Config} {e : Ews} (h : e.clock.tick < 2 ^ c.tickBits) : (e.moves c).clock.tick < 2 ^ c.tickBits := by
  unfold Ews.moves; split
  · split <;> exact h
  · exact Nat.mod_lt _ (Nat.two_pow_pos _)

/-! ## The lines of R160 -/

section lines
variable {c : Config} {e : Ews}

theorem ewsLine_ready (h : e.pos = .ready) : ewsLine c e = none := by simp only [ewsLine, h]
theorem ewsLine_r1 (h : e.pos = .r1) :
    ewsLine c e = some (if c.ewsReadAckpoll then { e with pos := .ssT0 } else { e.callStart with pos := .r1Ctl }) := by
  simp only [ewsLine, h]; split <;> rfl
theorem ewsLine_r1Ctl (h : e.pos = .r1Ctl) : ewsLine c e = some { e.callSend c c.ctrlW with pos := .r1Hi } := by
  simp only [ewsLine, h]
theorem ewsLine_r1Hi (h : e.pos = .r1Hi) :
    ewsLine c e = some { e.callSend c (addressHi (e.bodyAddress c)) with pos := .r1Lo } := by simp only [ewsLine, h]
theorem ewsLine_r1Lo (h : e.pos = .r1Lo) :
    ewsLine c e = some { e.callSend c (addressLo (e.bodyAddress c)) with pos := .r1Stop } := by simp only [ewsLine, h]
theorem ewsLine_r1Stop (h : e.pos = .r1Stop) : ewsLine c e = some { e.callStop with pos := .r2 } := by simp only [ewsLine, h]
theorem ewsLine_r2 (h : e.pos = .r2) : ewsLine c e = some { e.callStart with pos := .r2Ctl } := by simp only [ewsLine, h]
theorem ewsLine_r2Ctl (h : e.pos = .r2Ctl) :
    ewsLine c e = some { e.callSend c c.ctrlR with ri := 0, rx := [], pos := .r2Rx } := by simp only [ewsLine, h]
theorem ewsLine_r2Rx (h : e.pos = .r2Rx) :
    ewsLine c e = some { e.callReceive c (decide (e.ri + 1 ≠ e.bodyLength c)) with
      ri := e.ri + 1, pos := if e.ri + 1 < e.bodyLength c then .r2Rx else .r2Stop } := by simp only [ewsLine, h]
theorem ewsLine_r2Stop (h : e.pos = .r2Stop) : ewsLine c e = Ews.readDone c e.callStop := by simp only [ewsLine, h]
theorem ewsLine_w0 (h : e.pos = .w0) :
    ewsLine c e = some { e with addr := BitVec.ofNat 17 (e.bodyAddress c), i := 0, pos := .ssT0 } := by
  simp only [ewsLine, h]
theorem ewsLine_wb (h : e.pos = .wb) :
    ewsLine c e = some { e.callSend c (e.bodyByte e.i) with
      addr := e.addr + 1, i := e.i + 1, pos := afterByte c (e.bodyLength c) (e.addr + 1) (e.i + 1) } := by
  simp only [ewsLine, h]
theorem ewsLine_wx (h : e.pos = .wx) : ewsLine c e = some { e.callStop with pos := .ssT0 } := by simp only [ewsLine, h]
theorem ewsLine_ws (h : e.pos = .ws) : ewsLine c e = Ews.writeDone c e.callStop := by simp only [ewsLine, h]
theorem ewsLine_ea (h : e.pos = .ea) : ewsLine c e = some { e with pos := .w0 } := by simp only [ewsLine, h]
theorem ewsLine_pr (h : e.pos = .pr) : ewsLine c e = some { e with pos := .r1 } := by simp only [ewsLine, h]
theorem ewsLine_ssT0 (h : e.pos = .ssT0) :
    ewsLine c e = some { e.callNow with t0 := e.clock.tick, pos := .ssST } := by simp only [ewsLine, h]
theorem ewsLine_ssST (h : e.pos = .ssST) : ewsLine c e = some { e.callStart with pos := .ssCT } := by simp only [ewsLine, h]
theorem ewsLine_ssCT (h : e.pos = .ssCT) :
    ewsLine c e = some { e.callSend c c.ctrlW with pos := if e.eeprom.sendAck c c.ctrlW then .ssHI else .ssCK } := by
  simp only [ewsLine, h]
theorem ewsLine_ssCK (h : e.pos = .ssCK) :
    ewsLine c e = some (if pollTimedOut c e.clock.tick e.t0 then { e.callNow with timedOut := true, pos := .ssHI }
      else { e.callNow with pos := .ssST }) := by
  simp only [ewsLine, h]; split <;> rfl
theorem ewsLine_ssHI (h : e.pos = .ssHI) :
    ewsLine c e = some { e.callSend c (addressHi (e.startAddress c)) with pos := .ssLO } := by simp only [ewsLine, h]
theorem ewsLine_ssLO (h : e.pos = .ssLO) :
    ewsLine c e = e.startReturn.map (fun p => { e.callSend c (addressLo (e.startAddress c)) with pos := p }) := by
  simp only [ewsLine, h]

end lines

/-- Where StartSequence returns to, for the commands that call it. -/
theorem Ews.startReturn_some {e : Ews} {p : EwsPos} (h : e.startReturn = some p) :
    ((e.op = .write ∨ e.op = .eraseAll) ∧ p = .wb) ∨ ((e.op = .read ∨ e.op = .print) ∧ p = .r1Stop) := by
  unfold startReturn at h; split at h <;> simp_all

/-- What the end of a read's body does (R153, R205). -/
theorem Ews.readDone_some {c : Config} {e g : Ews} (h : Ews.readDone c e = some g) :
    (e.op = .read ∧ g = { e with dout := e.dout ++ e.rx }.complete)
    ∨ (e.op = .print ∧ e.page + 1 < c.eePages
        ∧ g = { e with pbuf := e.rx, diag := e.diag ++ pageLines c e.page e.rx, page := e.page + 1, pos := .pr })
    ∨ (e.op = .print ∧ e.page + 1 = c.eePages
        ∧ g = { e with pbuf := e.rx, diag := e.diag ++ pageLines c e.page e.rx }.complete) := by
  unfold readDone at h
  split at h
  · cases h; exact .inl ⟨by assumption, rfl⟩
  · split_ifs at h with h1 h2
    · cases h; exact .inr (.inl ⟨by assumption, h1, rfl⟩)
    · cases h; exact .inr (.inr ⟨by assumption, h2, rfl⟩)
  all_goals cases h

/-- What the end of a write's body does (R154, R155). -/
theorem Ews.writeDone_some {c : Config} {e g : Ews} (h : Ews.writeDone c e = some g) :
    (e.op = .write ∧ g = e.complete)
    ∨ (e.op = .eraseAll ∧ e.page + 1 < c.eePages ∧ g = { e with page := e.page + 1, pos := .ea })
    ∨ (e.op = .eraseAll ∧ e.page + 1 = c.eePages ∧ g = e.complete) := by
  unfold writeDone at h
  split at h
  · cases h; exact .inl ⟨by assumption, rfl⟩
  · split_ifs at h with h1 h2
    · cases h; exact .inr (.inl ⟨by assumption, h1, rfl⟩)
    · cases h; exact .inr (.inr ⟨by assumption, h2, rfl⟩)
  all_goals cases h

/-! ## The body's range -/

/-- The bytes an EWS command's body works on lie inside the EEPROM. -/
theorem Ews.body_range {c : Config} (hc : c.Valid) {e : Ews} (h : e.BlockInv c) (ho : e.op ≠ .none) :
    1 ≤ e.bodyLength c ∧ e.bodyAddress c + e.bodyLength c ≤ c.eeSize := by
  obtain ⟨-, -, -, h4, -, h6, -⟩ := h
  have hp := Config.eePage_pos hc
  cases hop : e.op with
  | none => exact absurd hop ho
  | read => simpa [bodyLength, bodyAddress, hop] using h4 (.inl hop)
  | write => simpa [bodyLength, bodyAddress, hop] using h4 (.inr hop)
  | eraseAll =>
    have := Config.page_in_eeprom hc (h6 (.inl hop))
    simp only [bodyLength, bodyAddress, hop]; omega
  | print =>
    have := Config.page_in_eeprom hc (h6 (.inr hop))
    simp only [bodyLength, bodyAddress, hop]; omega

/-! ## The invariants -/

theorem Ews.blockInv_moves {c : Config} {e : Ews} (h : e.BlockInv c) : (e.moves c).BlockInv c := by
  have h1 : (e.moves c).bodyLength c = e.bodyLength c := by simp [bodyLength]
  have h2 : (e.moves c).bodyAddress c = e.bodyAddress c := by simp [bodyAddress]
  simpa only [Ews.BlockInv, Ews.writes, Ews.visits, h1, h2, moves_pos, moves_op, moves_busy, moves_txnOpen, moves_n, moves_opAddr,
    moves_data, moves_page, moves_addr, moves_i, moves_ri, moves_rx, moves_pbuf, moves_t0] using h

theorem Ews.deviceInv_moves {c : Config} {e : Ews} (h : e.DeviceInv c) : (e.moves c).DeviceInv c := by
  obtain ⟨h1, h2, h3, h4⟩ := h
  obtain ⟨k1, k2, k3⟩ := Ews.ok_moves ⟨h1, h2, h3⟩
  exact ⟨k1, k2, k3, Ews.moves_tick h4⟩

/-- A line keeps what the collaborators keep. -/
theorem ewsLine_deviceInv {c : Config} (hc : c.Valid) {e g : Ews} (h : e.DeviceInv c) (hs : ewsLine c e = some g) :
    g.DeviceInv c := by
  obtain ⟨h1, h2, h3, h4⟩ := h
  have hok : Eeprom.Ok c e.eeprom := ⟨h1, h2, h3⟩
  have key : ∀ g : Ews, Eeprom.Ok c g.eeprom → g.clock = e.clock → g.DeviceInv c :=
    fun g k1 k2 => ⟨k1.1, k1.2.1, k1.2.2, by rw [k2]; exact h4⟩
  have hstart : Eeprom.Ok c e.eeprom.start := hok
  have hstop : Eeprom.Ok c e.eeprom.stop := hok
  have hsend : ∀ b, Eeprom.Ok c (e.eeprom.afterSend c b) := fun b => Eeprom.ok_afterSend hc hok
  cases hp : e.pos with
  | ready => rw [ewsLine_ready hp] at hs; cases hs
  | r1 => rw [ewsLine_r1 hp] at hs; cases hs; split <;> exact key _ hok rfl
  | r1Ctl => rw [ewsLine_r1Ctl hp] at hs; cases hs; exact key _ (hsend _) rfl
  | r1Hi => rw [ewsLine_r1Hi hp] at hs; cases hs; exact key _ (hsend _) rfl
  | r1Lo => rw [ewsLine_r1Lo hp] at hs; cases hs; exact key _ (hsend _) rfl
  | r1Stop => rw [ewsLine_r1Stop hp] at hs; cases hs; exact key _ hstop rfl
  | r2 => rw [ewsLine_r2 hp] at hs; cases hs; exact key _ hstart rfl
  | r2Ctl => rw [ewsLine_r2Ctl hp] at hs; cases hs; exact key _ (hsend _) rfl
  | r2Rx => rw [ewsLine_r2Rx hp] at hs; cases hs; exact key _ (Eeprom.ok_afterReceive hc hok) rfl
  | r2Stop =>
    rw [ewsLine_r2Stop hp] at hs
    rcases Ews.readDone_some hs with ⟨-, rfl⟩ | ⟨-, -, rfl⟩ | ⟨-, -, rfl⟩ <;> exact key _ hstop rfl
  | w0 => rw [ewsLine_w0 hp] at hs; cases hs; exact key _ hok rfl
  | wb => rw [ewsLine_wb hp] at hs; cases hs; exact key _ (hsend _) rfl
  | wx => rw [ewsLine_wx hp] at hs; cases hs; exact key _ hstop rfl
  | ws =>
    rw [ewsLine_ws hp] at hs
    rcases Ews.writeDone_some hs with ⟨-, rfl⟩ | ⟨-, -, rfl⟩ | ⟨-, -, rfl⟩ <;> exact key _ hstop rfl
  | ea => rw [ewsLine_ea hp] at hs; cases hs; exact key _ hok rfl
  | pr => rw [ewsLine_pr hp] at hs; cases hs; exact key _ hok rfl
  | ssT0 => rw [ewsLine_ssT0 hp] at hs; cases hs; exact key _ hok rfl
  | ssST => rw [ewsLine_ssST hp] at hs; cases hs; exact key _ hstart rfl
  | ssCT => rw [ewsLine_ssCT hp] at hs; cases hs; exact key _ (hsend _) rfl
  | ssCK => rw [ewsLine_ssCK hp] at hs; cases hs; split <;> exact key _ hok rfl
  | ssHI => rw [ewsLine_ssHI hp] at hs; cases hs; exact key _ (hsend _) rfl
  | ssLO =>
    rw [ewsLine_ssLO hp] at hs
    cases hr : e.startReturn with
    | none => rw [hr] at hs; cases hs
    | some p => rw [hr] at hs; cases hs; exact key _ (hsend _) rfl

/-- The end of a command keeps EWS's own invariant. -/
theorem Ews.blockInv_done {c : Config} {e g : Ews} (h : e.BlockInv c) (k1 : g.op = .none) (k2 : g.pos = .ready)
    (k3 : g.busy = false) (k4 : g.txnOpen = false) (k5 : g.addr = e.addr) (k6 : g.pbuf.length = c.eePage)
    (k7 : g.t0 = e.t0) : g.BlockInv c := by
  obtain ⟨-, -, -, -, -, -, -, h8, -, -, -, -, -, h14⟩ := h
  exact ⟨by simp [k1, k2, EwsPos.serves], by simp [k2, k3], by simp [k2, k4, EwsPos.inTxn], by simp [k1], by simp [k1],
    by simp [Ews.visits, k1], by simp [k1], by rw [k5]; exact h8, by simp [Ews.writes, k1], by simp [k2], by simp [k2],
    by simp [k2], k6, by rw [k7]; exact h14⟩

/-- A line that leaves EWS's latches, address and indices as they are keeps EWS's own invariant if its new position fits. -/
theorem Ews.blockInv_plain {c : Config} {e g : Ews} (h : e.BlockInv c)
    (k : g.op = e.op ∧ g.busy = e.busy ∧ g.n = e.n ∧ g.opAddr = e.opAddr ∧ g.data = e.data ∧ g.page = e.page
      ∧ g.addr = e.addr ∧ g.i = e.i ∧ g.pbuf = e.pbuf)
    (k10 : g.t0 < 2 ^ c.tickBits) (k11 : e.pos ≠ .ready) (k12 : g.pos ≠ .ready) (k13 : g.pos.serves e.op = true)
    (k14 : g.pos ≠ .ssST → g.txnOpen = g.pos.inTxn)
    (k15 : e.writes → g.pos.sending = true → e.pos.sending = true) (k16 : g.pos ≠ .wx)
    (k17 : g.pos = .r2Rx → g.ri < e.bodyLength c ∧ g.rx.length = g.ri)
    (k18 : g.pos = .r2Stop → g.rx.length = e.bodyLength c) : g.BlockInv c := by
  obtain ⟨h1, h2, h3, h4, h5, h6, h7, h8, h9, h10, h11, h12, h13, h14⟩ := h
  obtain ⟨k1, k2, k3, k4, k5, k6, k7, k8, k9⟩ := k
  have kl : g.bodyLength c = e.bodyLength c := by simp [Ews.bodyLength, k1, k3]
  have ka : g.bodyAddress c = e.bodyAddress c := by simp [Ews.bodyAddress, k1, k4, k6]
  have kb : e.busy = true := by cases hb : e.busy <;> simp_all
  refine ⟨by rw [k1]; exact k13, by simp [k2, kb, k12], k14, ?_, ?_, ?_, ?_, ?_, ?_, fun hx => absurd hx k16, ?_, ?_, ?_, k10⟩
  · rw [k1, k3, k4]; exact h4
  · rw [k1, k3, k5]; exact h5
  · rw [Ews.visits, k1, k6]; exact h6
  · rw [k1]; exact h7
  · rw [k7]; exact h8
  · rw [Ews.writes, k1, k7, k8, kl, ka]; exact fun hw hs => h9 hw (k15 hw hs)
  · rw [kl]; exact k17
  · rw [kl]; exact k18
  · rw [k9]; exact h13

/-- A running command is at a position other than `E_READY` (R160). -/
theorem Ews.op_of_pos {c : Config} {e : Ews} (h : e.BlockInv c) (hp : e.pos ≠ .ready) : e.op ≠ .none ∧ e.busy = true := by
  obtain ⟨h1, h2, -⟩ := h
  refine ⟨fun hno => ?_, ?_⟩
  · rw [hno] at h1; cases hq : e.pos <;> simp_all [EwsPos.serves]
  · cases hb : e.busy
    · exact absurd (h2.1 hb) hp
    · rfl

/-! Each line keeps EWS's own invariant. -/

theorem ewsLine_blockInv_r1 {c : Config} (hc : c.Valid) {e g : Ews} (hI : e.BlockInv c) (hp : e.pos = .r1)
    (hs : ewsLine c e = some g) : g.BlockInv c := by
  obtain ⟨hop, hb⟩ := Ews.op_of_pos hI (by simp [hp])
  have hr := Ews.body_range hc hI hop
  have hsize := Config.eeSize_le hc
  have hI' := hI
  obtain ⟨h1, h2, h3, h4, h5, h6, h7, h8, h9, h10, h11, h12, h13, h14⟩ := hI'
  rw [ewsLine_r1 hp] at hs; cases hs
  simp only [EwsPos.serves, hp, Bool.or_eq_true, beq_iff_eq] at h1
  split
  · refine Ews.blockInv_plain hI ⟨rfl, rfl, rfl, rfl, rfl, rfl, rfl, rfl, rfl⟩ h14 (by simp [hp]) (by simp) ?_ ?_ ?_ (by simp) (by simp) (by simp)
    · rcases h1 with h1 | h1 <;> simp [EwsPos.serves, h1]
    · simpa [EwsPos.inTxn, hp] using h3
    · rcases h1 with h1 | h1 <;> simp [Ews.writes, h1]
  · refine Ews.blockInv_plain hI ⟨rfl, rfl, rfl, rfl, rfl, rfl, rfl, rfl, rfl⟩ h14 (by simp [hp]) (by simp) ?_ ?_ ?_ (by simp) (by simp) (by simp)
    · rcases h1 with h1 | h1 <;> simp [EwsPos.serves, h1]
    · simp [EwsPos.inTxn]
    · simp [EwsPos.sending]

theorem ewsLine_blockInv_r1Ctl {c : Config} (hc : c.Valid) {e g : Ews} (hI : e.BlockInv c) (hp : e.pos = .r1Ctl)
    (hs : ewsLine c e = some g) : g.BlockInv c := by
  obtain ⟨hop, hb⟩ := Ews.op_of_pos hI (by simp [hp])
  have hr := Ews.body_range hc hI hop
  have hsize := Config.eeSize_le hc
  have hI' := hI
  obtain ⟨h1, h2, h3, h4, h5, h6, h7, h8, h9, h10, h11, h12, h13, h14⟩ := hI'
  rw [ewsLine_r1Ctl hp] at hs; cases hs
  exact Ews.blockInv_plain hI ⟨rfl, rfl, rfl, rfl, rfl, rfl, rfl, rfl, rfl⟩ h14 (by simp [hp]) (by simp) (by simpa [EwsPos.serves, hp] using h1)
    (by simpa [EwsPos.inTxn, hp] using h3) (by simp [EwsPos.sending]) (by simp) (by simp) (by simp)

theorem ewsLine_blockInv_r1Hi {c : Config} (hc : c.Valid) {e g : Ews} (hI : e.BlockInv c) (hp : e.pos = .r1Hi)
    (hs : ewsLine c e = some g) : g.BlockInv c := by
  obtain ⟨hop, hb⟩ := Ews.op_of_pos hI (by simp [hp])
  have hr := Ews.body_range hc hI hop
  have hsize := Config.eeSize_le hc
  have hI' := hI
  obtain ⟨h1, h2, h3, h4, h5, h6, h7, h8, h9, h10, h11, h12, h13, h14⟩ := hI'
  rw [ewsLine_r1Hi hp] at hs; cases hs
  exact Ews.blockInv_plain hI ⟨rfl, rfl, rfl, rfl, rfl, rfl, rfl, rfl, rfl⟩ h14 (by simp [hp]) (by simp) (by simpa [EwsPos.serves, hp] using h1)
    (by simpa [EwsPos.inTxn, hp] using h3) (by simp [EwsPos.sending]) (by simp) (by simp) (by simp)

theorem ewsLine_blockInv_r1Lo {c : Config} (hc : c.Valid) {e g : Ews} (hI : e.BlockInv c) (hp : e.pos = .r1Lo)
    (hs : ewsLine c e = some g) : g.BlockInv c := by
  obtain ⟨hop, hb⟩ := Ews.op_of_pos hI (by simp [hp])
  have hr := Ews.body_range hc hI hop
  have hsize := Config.eeSize_le hc
  have hI' := hI
  obtain ⟨h1, h2, h3, h4, h5, h6, h7, h8, h9, h10, h11, h12, h13, h14⟩ := hI'
  rw [ewsLine_r1Lo hp] at hs; cases hs
  exact Ews.blockInv_plain hI ⟨rfl, rfl, rfl, rfl, rfl, rfl, rfl, rfl, rfl⟩ h14 (by simp [hp]) (by simp) (by simpa [EwsPos.serves, hp] using h1)
    (by simpa [EwsPos.inTxn, hp] using h3) (by simp [EwsPos.sending]) (by simp) (by simp) (by simp)

theorem ewsLine_blockInv_r1Stop {c : Config} (hc : c.Valid) {e g : Ews} (hI : e.BlockInv c) (hp : e.pos = .r1Stop)
    (hs : ewsLine c e = some g) : g.BlockInv c := by
  obtain ⟨hop, hb⟩ := Ews.op_of_pos hI (by simp [hp])
  have hr := Ews.body_range hc hI hop
  have hsize := Config.eeSize_le hc
  have hI' := hI
  obtain ⟨h1, h2, h3, h4, h5, h6, h7, h8, h9, h10, h11, h12, h13, h14⟩ := hI'
  rw [ewsLine_r1Stop hp] at hs; cases hs
  exact Ews.blockInv_plain hI ⟨rfl, rfl, rfl, rfl, rfl, rfl, rfl, rfl, rfl⟩ h14 (by simp [hp]) (by simp) (by simpa [EwsPos.serves, hp] using h1)
    (by simp [EwsPos.inTxn]) (by simp [EwsPos.sending]) (by simp) (by simp) (by simp)

theorem ewsLine_blockInv_r2 {c : Config} (hc : c.Valid) {e g : Ews} (hI : e.BlockInv c) (hp : e.pos = .r2)
    (hs : ewsLine c e = some g) : g.BlockInv c := by
  obtain ⟨hop, hb⟩ := Ews.op_of_pos hI (by simp [hp])
  have hr := Ews.body_range hc hI hop
  have hsize := Config.eeSize_le hc
  have hI' := hI
  obtain ⟨h1, h2, h3, h4, h5, h6, h7, h8, h9, h10, h11, h12, h13, h14⟩ := hI'
  rw [ewsLine_r2 hp] at hs; cases hs
  exact Ews.blockInv_plain hI ⟨rfl, rfl, rfl, rfl, rfl, rfl, rfl, rfl, rfl⟩ h14 (by simp [hp]) (by simp) (by simpa [EwsPos.serves, hp] using h1)
    (by simp [EwsPos.inTxn]) (by simp [EwsPos.sending]) (by simp) (by simp) (by simp)

theorem ewsLine_blockInv_r2Ctl {c : Config} (hc : c.Valid) {e g : Ews} (hI : e.BlockInv c) (hp : e.pos = .r2Ctl)
    (hs : ewsLine c e = some g) : g.BlockInv c := by
  obtain ⟨hop, hb⟩ := Ews.op_of_pos hI (by simp [hp])
  have hr := Ews.body_range hc hI hop
  have hsize := Config.eeSize_le hc
  have hI' := hI
  obtain ⟨h1, h2, h3, h4, h5, h6, h7, h8, h9, h10, h11, h12, h13, h14⟩ := hI'
  rw [ewsLine_r2Ctl hp] at hs; cases hs
  exact Ews.blockInv_plain hI ⟨rfl, rfl, rfl, rfl, rfl, rfl, rfl, rfl, rfl⟩ h14 (by simp [hp]) (by simp) (by simpa [EwsPos.serves, hp] using h1)
    (by simpa [EwsPos.inTxn, hp] using h3) (by simp [EwsPos.sending]) (by simp) (fun _ => ⟨hr.1, rfl⟩) (by simp)

theorem ewsLine_blockInv_r2Rx {c : Config} (hc : c.Valid) {e g : Ews} (hI : e.BlockInv c) (hp : e.pos = .r2Rx)
    (hs : ewsLine c e = some g) : g.BlockInv c := by
  obtain ⟨hop, hb⟩ := Ews.op_of_pos hI (by simp [hp])
  have hr := Ews.body_range hc hI hop
  have hsize := Config.eeSize_le hc
  have hI' := hI
  obtain ⟨h1, h2, h3, h4, h5, h6, h7, h8, h9, h10, h11, h12, h13, h14⟩ := hI'
  rw [ewsLine_r2Rx hp] at hs; cases hs
  obtain ⟨k1, k2⟩ := h11 hp
  refine Ews.blockInv_plain hI ⟨rfl, rfl, rfl, rfl, rfl, rfl, rfl, rfl, rfl⟩ h14 (by simp [hp]) ?_ ?_ ?_ ?_ ?_ ?_ ?_
  · dsimp only; split <;> simp
  · dsimp only; split <;> simpa [EwsPos.serves, hp] using h1
  · have := h3 (by simp [hp]); dsimp only; split <;> simpa [EwsPos.inTxn, hp] using this
  · dsimp only; split <;> simp [EwsPos.sending]
  · dsimp only; split <;> simp
  · dsimp only; split <;> simp [k2]; assumption
  · dsimp only; split <;> simp [k2]; omega

theorem ewsLine_blockInv_r2Stop {c : Config} (hc : c.Valid) {e g : Ews} (hI : e.BlockInv c) (hp : e.pos = .r2Stop)
    (hs : ewsLine c e = some g) : g.BlockInv c := by
  obtain ⟨hop, hb⟩ := Ews.op_of_pos hI (by simp [hp])
  have hr := Ews.body_range hc hI hop
  have hsize := Config.eeSize_le hc
  have hI' := hI
  obtain ⟨h1, h2, h3, h4, h5, h6, h7, h8, h9, h10, h11, h12, h13, h14⟩ := hI'
  rw [ewsLine_r2Stop hp] at hs
  have hl := h12 hp
  rcases Ews.readDone_some hs with ⟨k1, rfl⟩ | ⟨k1, k2, rfl⟩ | ⟨k1, k2, rfl⟩
  · exact Ews.blockInv_done hI rfl rfl rfl rfl rfl h13 rfl
  · simp only [Ews.callStop_op] at k1
    refine ⟨by simp [EwsPos.serves, k1], by simp [hb], by simp [EwsPos.inTxn], by simp [k1], by simp [k1], fun _ => k2,
      by simpa using h7, h8, by simp [EwsPos.sending], by simp, by simp, by simp, ?_, h14⟩
    simpa [Ews.bodyLength, k1] using hl
  · simp only [Ews.callStop_op] at k1
    refine Ews.blockInv_done hI rfl rfl rfl rfl rfl ?_ rfl
    simpa [Ews.bodyLength, k1] using hl

theorem ewsLine_blockInv_w0 {c : Config} (hc : c.Valid) {e g : Ews} (hI : e.BlockInv c) (hp : e.pos = .w0)
    (hs : ewsLine c e = some g) : g.BlockInv c := by
  obtain ⟨hop, hb⟩ := Ews.op_of_pos hI (by simp [hp])
  have hr := Ews.body_range hc hI hop
  have hsize := Config.eeSize_le hc
  have hI' := hI
  obtain ⟨h1, h2, h3, h4, h5, h6, h7, h8, h9, h10, h11, h12, h13, h14⟩ := hI'
  rw [ewsLine_w0 hp] at hs; cases hs
  have ha : (BitVec.ofNat 17 (e.bodyAddress c)).toNat = e.bodyAddress c := by
    rw [BitVec.toNat_ofNat]; exact Nat.mod_eq_of_lt (by omega)
  simp only [EwsPos.serves, hp, Bool.or_eq_true, beq_iff_eq] at h1
  refine ⟨?_, by simp [hb], ?_, h4, h5, h6, h7, ?_, ?_, by simp, by simp, by simp, h13, h14⟩
  · rcases h1 with h1 | h1 <;> simp [EwsPos.serves, h1]
  · simpa [EwsPos.inTxn, hp] using h3
  · rw [ha]; omega
  · intro _ _; exact ⟨hr.1, by rw [ha]; rfl⟩

theorem ewsLine_blockInv_wb {c : Config} (hc : c.Valid) {e g : Ews} (hI : e.BlockInv c) (hp : e.pos = .wb)
    (hs : ewsLine c e = some g) : g.BlockInv c := by
  obtain ⟨hop, hb⟩ := Ews.op_of_pos hI (by simp [hp])
  have hr := Ews.body_range hc hI hop
  have hsize := Config.eeSize_le hc
  have hI' := hI
  obtain ⟨h1, h2, h3, h4, h5, h6, h7, h8, h9, h10, h11, h12, h13, h14⟩ := hI'
  rw [ewsLine_wb hp] at hs; cases hs
  have ho : e.op = .write ∨ e.op = .eraseAll := by simpa [EwsPos.serves, hp] using h1
  obtain ⟨k1, k2⟩ := h9 ho (by simp [EwsPos.sending, hp])
  have ha : (e.addr + 1).toNat = e.addr.toNat + 1 := by
    rw [BitVec.toNat_add]; exact Nat.mod_eq_of_lt (by simp; omega)
  have hpos : afterByte c (e.bodyLength c) (e.addr + 1) (e.i + 1) ∈ [EwsPos.wx, .wb, .ws] := by
    unfold afterByte; split <;> (try split) <;> simp
  refine ⟨?_, ?_, ?_, h4, h5, h6, h7, ?_, ?_, ?_, ?_, ?_, h13, h14⟩
  · simp only [Ews.callSend_op]
    unfold afterByte; split <;> (try split) <;> rcases ho with ho | ho <;> simp [EwsPos.serves, ho]
  · simp only [Ews.callSend_busy, hb]; unfold afterByte; split <;> (try split) <;> simp
  · have := h3 (by simp [hp])
    simp only [EwsPos.inTxn, hp] at this
    simp only [Ews.callSend_txnOpen, this]
    unfold afterByte; split <;> (try split) <;> simp [EwsPos.inTxn]
  · show (e.addr + 1).toNat ≤ _; omega
  · intro _ hsend
    show e.i + 1 < e.bodyLength c ∧ (e.addr + 1).toNat = e.bodyAddress c + (e.i + 1)
    refine ⟨?_, by omega⟩
    by_contra hcon
    simp only [afterByte, hcon, if_false, EwsPos.sending] at hsend
    cases hsend
  · intro hx
    show (e.addr + 1).toNat % c.eePage = 0
    simp only [afterByte] at hx
    split at hx
    · split at hx
      · rename_i hcr; simpa [pageCrossed] using hcr
      · cases hx
    · cases hx
  · intro hx; simp only at hx; rw [hx] at hpos; simp at hpos
  · intro hx; simp only at hx; rw [hx] at hpos; simp at hpos

theorem ewsLine_blockInv_wx {c : Config} (hc : c.Valid) {e g : Ews} (hI : e.BlockInv c) (hp : e.pos = .wx)
    (hs : ewsLine c e = some g) : g.BlockInv c := by
  obtain ⟨hop, hb⟩ := Ews.op_of_pos hI (by simp [hp])
  have hr := Ews.body_range hc hI hop
  have hsize := Config.eeSize_le hc
  have hI' := hI
  obtain ⟨h1, h2, h3, h4, h5, h6, h7, h8, h9, h10, h11, h12, h13, h14⟩ := hI'
  rw [ewsLine_wx hp] at hs; cases hs
  have ho : e.op = .write ∨ e.op = .eraseAll := by simpa [EwsPos.serves, hp] using h1
  refine Ews.blockInv_plain hI ⟨rfl, rfl, rfl, rfl, rfl, rfl, rfl, rfl, rfl⟩ h14 (by simp [hp]) (by simp) ?_ (by simp [EwsPos.inTxn])
    (by simp [EwsPos.sending, hp]) (by simp) (by simp) (by simp)
  rcases ho with ho | ho <;> simp [EwsPos.serves, ho]

theorem ewsLine_blockInv_ws {c : Config} (hc : c.Valid) {e g : Ews} (hI : e.BlockInv c) (hp : e.pos = .ws)
    (hs : ewsLine c e = some g) : g.BlockInv c := by
  obtain ⟨hop, hb⟩ := Ews.op_of_pos hI (by simp [hp])
  have hr := Ews.body_range hc hI hop
  have hsize := Config.eeSize_le hc
  have hI' := hI
  obtain ⟨h1, h2, h3, h4, h5, h6, h7, h8, h9, h10, h11, h12, h13, h14⟩ := hI'
  rw [ewsLine_ws hp] at hs
  rcases Ews.writeDone_some hs with ⟨k1, rfl⟩ | ⟨k1, k2, rfl⟩ | ⟨k1, k2, rfl⟩
  · exact Ews.blockInv_done hI rfl rfl rfl rfl rfl h13 rfl
  · simp only [Ews.callStop_op] at k1
    exact ⟨by simp [EwsPos.serves, k1], by simp [hb], by simp [EwsPos.inTxn], by simp [k1], by simp [k1], fun _ => k2,
      by simpa using h7, h8, by simp [EwsPos.sending], by simp, by simp, by simp, h13, h14⟩
  · exact Ews.blockInv_done hI rfl rfl rfl rfl rfl h13 rfl

theorem ewsLine_blockInv_ea {c : Config} (hc : c.Valid) {e g : Ews} (hI : e.BlockInv c) (hp : e.pos = .ea)
    (hs : ewsLine c e = some g) : g.BlockInv c := by
  obtain ⟨hop, hb⟩ := Ews.op_of_pos hI (by simp [hp])
  have hr := Ews.body_range hc hI hop
  have hsize := Config.eeSize_le hc
  have hI' := hI
  obtain ⟨h1, h2, h3, h4, h5, h6, h7, h8, h9, h10, h11, h12, h13, h14⟩ := hI'
  rw [ewsLine_ea hp] at hs; cases hs
  have ho : e.op = .eraseAll := by simpa [EwsPos.serves, hp] using h1
  exact Ews.blockInv_plain hI ⟨rfl, rfl, rfl, rfl, rfl, rfl, rfl, rfl, rfl⟩ h14 (by simp [hp]) (by simp) (by simp [EwsPos.serves, ho])
    (by simpa [EwsPos.inTxn, hp] using h3) (by simp [EwsPos.sending]) (by simp) (by simp) (by simp)

theorem ewsLine_blockInv_pr {c : Config} (hc : c.Valid) {e g : Ews} (hI : e.BlockInv c) (hp : e.pos = .pr)
    (hs : ewsLine c e = some g) : g.BlockInv c := by
  obtain ⟨hop, hb⟩ := Ews.op_of_pos hI (by simp [hp])
  have hr := Ews.body_range hc hI hop
  have hsize := Config.eeSize_le hc
  have hI' := hI
  obtain ⟨h1, h2, h3, h4, h5, h6, h7, h8, h9, h10, h11, h12, h13, h14⟩ := hI'
  rw [ewsLine_pr hp] at hs; cases hs
  have ho : e.op = .print := by simpa [EwsPos.serves, hp] using h1
  exact Ews.blockInv_plain hI ⟨rfl, rfl, rfl, rfl, rfl, rfl, rfl, rfl, rfl⟩ h14 (by simp [hp]) (by simp) (by simp [EwsPos.serves, ho])
    (by simpa [EwsPos.inTxn, hp] using h3) (by simp [EwsPos.sending]) (by simp) (by simp) (by simp)

theorem ewsLine_blockInv_ssT0 {c : Config} (hc : c.Valid) {e g : Ews} (hI : e.BlockInv c)
    (ht : e.clock.tick < 2 ^ c.tickBits) (hp : e.pos = .ssT0) (hs : ewsLine c e = some g) : g.BlockInv c := by
  obtain ⟨hop, hb⟩ := Ews.op_of_pos hI (by simp [hp])
  have hr := Ews.body_range hc hI hop
  have hsize := Config.eeSize_le hc
  have hI' := hI
  obtain ⟨h1, h2, h3, h4, h5, h6, h7, h8, h9, h10, h11, h12, h13, h14⟩ := hI'
  rw [ewsLine_ssT0 hp] at hs; cases hs
  exact Ews.blockInv_plain hI ⟨rfl, rfl, rfl, rfl, rfl, rfl, rfl, rfl, rfl⟩ ht (by simp [hp]) (by simp) (by simpa [EwsPos.serves, hp] using h1)
    (by simp) (by simp [EwsPos.sending, hp]) (by simp) (by simp) (by simp)

theorem ewsLine_blockInv_ssST {c : Config} (hc : c.Valid) {e g : Ews} (hI : e.BlockInv c) (hp : e.pos = .ssST)
    (hs : ewsLine c e = some g) : g.BlockInv c := by
  obtain ⟨hop, hb⟩ := Ews.op_of_pos hI (by simp [hp])
  have hr := Ews.body_range hc hI hop
  have hsize := Config.eeSize_le hc
  have hI' := hI
  obtain ⟨h1, h2, h3, h4, h5, h6, h7, h8, h9, h10, h11, h12, h13, h14⟩ := hI'
  rw [ewsLine_ssST hp] at hs; cases hs
  exact Ews.blockInv_plain hI ⟨rfl, rfl, rfl, rfl, rfl, rfl, rfl, rfl, rfl⟩ h14 (by simp [hp]) (by simp) (by simpa [EwsPos.serves, hp] using h1)
    (by simp [EwsPos.inTxn]) (by simp [EwsPos.sending, hp]) (by simp) (by simp) (by simp)

theorem ewsLine_blockInv_ssCT {c : Config} (hc : c.Valid) {e g : Ews} (hI : e.BlockInv c) (hp : e.pos = .ssCT)
    (hs : ewsLine c e = some g) : g.BlockInv c := by
  obtain ⟨hop, hb⟩ := Ews.op_of_pos hI (by simp [hp])
  have hr := Ews.body_range hc hI hop
  have hsize := Config.eeSize_le hc
  have hI' := hI
  obtain ⟨h1, h2, h3, h4, h5, h6, h7, h8, h9, h10, h11, h12, h13, h14⟩ := hI'
  rw [ewsLine_ssCT hp] at hs; cases hs
  have ho : (e.op != .none) = true := by simpa [EwsPos.serves, hp] using h1
  have hop' := h3 (by simp [hp])
  simp only [EwsPos.inTxn, hp] at hop'
  refine Ews.blockInv_plain hI ⟨rfl, rfl, rfl, rfl, rfl, rfl, rfl, rfl, rfl⟩ h14 (by simp [hp]) ?_ ?_ ?_
    (by simp [EwsPos.sending, hp]) ?_ ?_ ?_ <;> dsimp only <;> split <;>
    simp [EwsPos.serves, EwsPos.inTxn, hop'] <;> simpa using ho

theorem ewsLine_blockInv_ssCK {c : Config} (hc : c.Valid) {e g : Ews} (hI : e.BlockInv c) (hp : e.pos = .ssCK)
    (hs : ewsLine c e = some g) : g.BlockInv c := by
  obtain ⟨hop, hb⟩ := Ews.op_of_pos hI (by simp [hp])
  have hr := Ews.body_range hc hI hop
  have hsize := Config.eeSize_le hc
  have hI' := hI
  obtain ⟨h1, h2, h3, h4, h5, h6, h7, h8, h9, h10, h11, h12, h13, h14⟩ := hI'
  rw [ewsLine_ssCK hp] at hs; cases hs
  split
  · exact Ews.blockInv_plain hI ⟨rfl, rfl, rfl, rfl, rfl, rfl, rfl, rfl, rfl⟩ h14 (by simp [hp]) (by simp) (by simpa [EwsPos.serves, hp] using h1)
      (by simpa [EwsPos.inTxn, hp] using h3) (by simp [EwsPos.sending, hp]) (by simp) (by simp) (by simp)
  · exact Ews.blockInv_plain hI ⟨rfl, rfl, rfl, rfl, rfl, rfl, rfl, rfl, rfl⟩ h14 (by simp [hp]) (by simp) (by simpa [EwsPos.serves, hp] using h1)
      (by simp) (by simp [EwsPos.sending, hp]) (by simp) (by simp) (by simp)

theorem ewsLine_blockInv_ssHI {c : Config} (hc : c.Valid) {e g : Ews} (hI : e.BlockInv c) (hp : e.pos = .ssHI)
    (hs : ewsLine c e = some g) : g.BlockInv c := by
  obtain ⟨hop, hb⟩ := Ews.op_of_pos hI (by simp [hp])
  have hr := Ews.body_range hc hI hop
  have hsize := Config.eeSize_le hc
  have hI' := hI
  obtain ⟨h1, h2, h3, h4, h5, h6, h7, h8, h9, h10, h11, h12, h13, h14⟩ := hI'
  rw [ewsLine_ssHI hp] at hs; cases hs
  exact Ews.blockInv_plain hI ⟨rfl, rfl, rfl, rfl, rfl, rfl, rfl, rfl, rfl⟩ h14 (by simp [hp]) (by simp) (by simpa [EwsPos.serves, hp] using h1)
    (by simpa [EwsPos.inTxn, hp] using h3) (by simp [EwsPos.sending, hp]) (by simp) (by simp) (by simp)

theorem ewsLine_blockInv_ssLO {c : Config} (hc : c.Valid) {e g : Ews} (hI : e.BlockInv c) (hp : e.pos = .ssLO)
    (hs : ewsLine c e = some g) : g.BlockInv c := by
  obtain ⟨hop, hb⟩ := Ews.op_of_pos hI (by simp [hp])
  have hr := Ews.body_range hc hI hop
  have hsize := Config.eeSize_le hc
  have hI' := hI
  obtain ⟨h1, h2, h3, h4, h5, h6, h7, h8, h9, h10, h11, h12, h13, h14⟩ := hI'
  rw [ewsLine_ssLO hp] at hs
  have hop' := h3 (by simp [hp])
  simp only [EwsPos.inTxn, hp] at hop'
  cases hr : e.startReturn with
  | none => rw [hr] at hs; cases hs
  | some p =>
    rw [hr] at hs; cases hs
    rcases Ews.startReturn_some hr with ⟨ho, rfl⟩ | ⟨ho, rfl⟩
    · refine Ews.blockInv_plain hI ⟨rfl, rfl, rfl, rfl, rfl, rfl, rfl, rfl, rfl⟩ h14 (by simp [hp]) (by simp) ?_ (by simp [EwsPos.inTxn, hop'])
        (by simp [EwsPos.sending, hp]) (by simp) (by simp) (by simp)
      rcases ho with ho | ho <;> simp [EwsPos.serves, ho]
    · refine Ews.blockInv_plain hI ⟨rfl, rfl, rfl, rfl, rfl, rfl, rfl, rfl, rfl⟩ h14 (by simp [hp]) (by simp) ?_ (by simp [EwsPos.inTxn, hop'])
        (by simp [EwsPos.sending]) (by simp) (by simp) (by simp)
      rcases ho with ho | ho <;> simp [EwsPos.serves, ho]

/-- A line keeps EWS's own invariant. -/
theorem ewsLine_blockInv {c : Config} (hc : c.Valid) {e g : Ews} (h : e.BlockInv c) (ht : e.clock.tick < 2 ^ c.tickBits)
    (hs : ewsLine c e = some g) : g.BlockInv c := by
  cases hp : e.pos with
  | ready => rw [ewsLine_ready hp] at hs; cases hs
  | r1 => exact ewsLine_blockInv_r1 hc h hp hs
  | r1Ctl => exact ewsLine_blockInv_r1Ctl hc h hp hs
  | r1Hi => exact ewsLine_blockInv_r1Hi hc h hp hs
  | r1Lo => exact ewsLine_blockInv_r1Lo hc h hp hs
  | r1Stop => exact ewsLine_blockInv_r1Stop hc h hp hs
  | r2 => exact ewsLine_blockInv_r2 hc h hp hs
  | r2Ctl => exact ewsLine_blockInv_r2Ctl hc h hp hs
  | r2Rx => exact ewsLine_blockInv_r2Rx hc h hp hs
  | r2Stop => exact ewsLine_blockInv_r2Stop hc h hp hs
  | w0 => exact ewsLine_blockInv_w0 hc h hp hs
  | wb => exact ewsLine_blockInv_wb hc h hp hs
  | wx => exact ewsLine_blockInv_wx hc h hp hs
  | ws => exact ewsLine_blockInv_ws hc h hp hs
  | ea => exact ewsLine_blockInv_ea hc h hp hs
  | pr => exact ewsLine_blockInv_pr hc h hp hs
  | ssT0 => exact ewsLine_blockInv_ssT0 hc h ht hp hs
  | ssST => exact ewsLine_blockInv_ssST hc h hp hs
  | ssCT => exact ewsLine_blockInv_ssCT hc h hp hs
  | ssCK => exact ewsLine_blockInv_ssCK hc h hp hs
  | ssHI => exact ewsLine_blockInv_ssHI hc h hp hs
  | ssLO => exact ewsLine_blockInv_ssLO hc h hp hs

/-- A sequencer step keeps EWS's invariants. -/
theorem ewsSeq_inv {c : Config} (hc : c.Valid) {e g : Ews} (h1 : e.BlockInv c) (h2 : e.DeviceInv c)
    (hs : ewsSeq c e = some g) : g.BlockInv c ∧ g.DeviceInv c :=
  ⟨ewsLine_blockInv hc (Ews.blockInv_moves h1) (Ews.deviceInv_moves h2).2.2.2 hs,
    ewsLine_deviceInv hc (Ews.deviceInv_moves h2) hs⟩

/-! ## Progress -/

/-- A busy EWS has a line. -/
theorem ewsLine_progress {c : Config} {e : Ews} (h : e.BlockInv c) (hb : e.busy = true) : ∃ g, ewsLine c e = some g := by
  obtain ⟨h1, h2, -, -, -, h6, -⟩ := h
  cases hp : e.pos with
  | ready => rw [h2.2 hp] at hb; cases hb
  | r1 => exact ⟨_, ewsLine_r1 hp⟩
  | r1Ctl => exact ⟨_, ewsLine_r1Ctl hp⟩
  | r1Hi => exact ⟨_, ewsLine_r1Hi hp⟩
  | r1Lo => exact ⟨_, ewsLine_r1Lo hp⟩
  | r1Stop => exact ⟨_, ewsLine_r1Stop hp⟩
  | r2 => exact ⟨_, ewsLine_r2 hp⟩
  | r2Ctl => exact ⟨_, ewsLine_r2Ctl hp⟩
  | r2Rx => exact ⟨_, ewsLine_r2Rx hp⟩
  | r2Stop =>
    rw [ewsLine_r2Stop hp]
    have ho : e.op = .read ∨ e.op = .print := by simpa [EwsPos.serves, hp] using h1
    rcases ho with ho | ho
    · simp [Ews.readDone, ho]
    · have := h6 (.inr ho)
      rcases Nat.lt_or_ge (e.page + 1) c.eePages with hl | hl
      · simp [Ews.readDone, ho, hl]
      · have he : e.page + 1 = c.eePages := by omega
        simp [Ews.readDone, ho, he]
  | w0 => exact ⟨_, ewsLine_w0 hp⟩
  | wb => exact ⟨_, ewsLine_wb hp⟩
  | wx => exact ⟨_, ewsLine_wx hp⟩
  | ws =>
    rw [ewsLine_ws hp]
    have ho : e.op = .write ∨ e.op = .eraseAll := by simpa [EwsPos.serves, hp] using h1
    rcases ho with ho | ho
    · simp [Ews.writeDone, ho]
    · have := h6 (.inl ho)
      rcases Nat.lt_or_ge (e.page + 1) c.eePages with hl | hl
      · simp [Ews.writeDone, ho, hl]
      · have he : e.page + 1 = c.eePages := by omega
        simp [Ews.writeDone, ho, he]
  | ea => exact ⟨_, ewsLine_ea hp⟩
  | pr => exact ⟨_, ewsLine_pr hp⟩
  | ssT0 => exact ⟨_, ewsLine_ssT0 hp⟩
  | ssST => exact ⟨_, ewsLine_ssST hp⟩
  | ssCT => exact ⟨_, ewsLine_ssCT hp⟩
  | ssCK => exact ⟨_, ewsLine_ssCK hp⟩
  | ssHI => exact ⟨_, ewsLine_ssHI hp⟩
  | ssLO =>
    rw [ewsLine_ssLO hp]
    have ho : e.op ≠ .none := by simpa [EwsPos.serves, hp] using h1
    cases hop : e.op <;> simp_all [Ews.startReturn]

end Sys2Proof.Machine
end

