-- ==== Sys2Proof/Laws/EwsRun.lean ====
section
/-! SUPPORT. The measure that every step of EWS's sequencer lowers when its EEPROM is not stalled, and how the EEPROM keeps in
step with what EWS sends it (R158). -/

namespace Sys2Proof.Machine

/-! ## The measure -/

/-- What remains after StartSequence returns, in sequencer steps with an EEPROM that is done before every step. -/
def ewsAfterStart (c : Config) (e : Ews) : Nat :=
  match e.op with
  | .write | .eraseAll => 7 * (e.bodyLength c - e.i) + 1
  | .read | .print => e.bodyLength c + 4
  | .none => 0

/-- What remains after the page a page command is at. -/
def ewsAfterPage (c : Config) (e : Ews) : Nat :=
  match e.op with
  | .eraseAll => (c.eePages - e.page - 1) * (7 * c.eePage + 9)
  | .print => (c.eePages - e.page - 1) * (c.eePage + 12)
  | .read | .write | .none => 0

/-- What remains of the body of a command, in sequencer steps with an EEPROM that is done before every step. -/
def ewsInBody (c : Config) (e : Ews) : Nat :=
  match e.pos with
  | .ready => 0
  | .pr => e.bodyLength c + 11
  | .r1 => e.bodyLength c + 10
  | .r1Ctl => e.bodyLength c + 7
  | .r1Hi => e.bodyLength c + 6
  | .r1Lo => e.bodyLength c + 5
  | .r1Stop => e.bodyLength c + 4
  | .r2 => e.bodyLength c + 3
  | .r2Ctl => e.bodyLength c + 2
  | .r2Rx => e.bodyLength c - e.ri + 1
  | .r2Stop => 1
  | .ea => 7 * e.bodyLength c + 8
  | .w0 => 7 * e.bodyLength c + 7
  | .wb => 7 * (e.bodyLength c - e.i) + 1
  | .wx => 7 * (e.bodyLength c - e.i) + 7
  | .ws => 1
  | .ssT0 => ewsAfterStart c e + 5
  | .ssST => ewsAfterStart c e + 4
  | .ssCT => ewsAfterStart c e + 3
  | .ssCK => ewsAfterStart c e + 5
  | .ssHI => ewsAfterStart c e + 2
  | .ssLO => ewsAfterStart c e + 1

/-- What remains of a command. -/
def ewsRemaining (c : Config) (e : Ews) : Nat := ewsInBody c e + ewsAfterPage c e

/-- The most that can remain of a command. -/
def ewsBound (c : Config) : Nat := 16 * (c.eeSize + 2)

/-- The measure of a run of EWS: while the schedule lasts every step uses up an entry of it; then what remains. -/
def ewsMeasure (c : Config) (e : Ews) : Nat :=
  if e.sched = [] then ewsRemaining c e else e.sched.length + ewsBound c

theorem ewsInBody_le {c : Config} {e : Ews} : ewsInBody c e ≤ 7 * e.bodyLength c + 11 := by
  unfold ewsInBody ewsAfterStart; split <;> (try split) <;> omega

theorem ewsRemaining_le {c : Config} (hc : c.Valid) {e : Ews} (h : e.BlockInv c) : ewsRemaining c e ≤ ewsBound c := by
  have hpos := Config.eePage_pos hc
  have hmul := Config.eePages_mul hc
  have hle : c.eePages ≤ c.eeSize := by rw [← hmul]; exact Nat.le_mul_of_pos_right _ hpos
  have hb := ewsInBody_le (c := c) (e := e)
  by_cases ho : e.op = .none
  · have : ewsInBody c e ≤ 11 := by
      have hp : e.pos = .ready := by
        by_contra hne; exact (Ews.op_of_pos h hne).1 ho
      simp [ewsInBody, hp]
    simp only [ewsRemaining, ewsAfterPage, ho, ewsBound]; omega
  · have hr := Ews.body_range hc h ho
    obtain ⟨-, -, -, -, -, h6, -⟩ := h
    have pages : ∀ k : Nat, e.page < c.eePages → k ≤ 7 * c.eePage + 11 →
        ∀ w, w ≤ 7 * c.eePage + 12 → k + (c.eePages - e.page - 1) * w ≤ 7 * c.eeSize + 12 * c.eePages + 12 := by
      intro k hp hk w hw
      obtain ⟨q, hq⟩ : ∃ q, c.eePages = e.page + 1 + q := ⟨c.eePages - e.page - 1, by omega⟩
      have h1 : c.eePages - e.page - 1 = q := by omega
      have h2 : (q + 1) * c.eePage ≤ c.eeSize := by rw [← hmul]; exact Nat.mul_le_mul_right _ (by omega)
      have h3 : q * w ≤ q * (7 * c.eePage + 12) := Nat.mul_le_mul_left _ hw
      rw [h1]; nlinarith
    have sixteen : c.eePages * c.eePage = c.eeSize := hmul
    cases hop : e.op with
    | none => exact absurd hop ho
    | read => simp only [ewsRemaining, ewsAfterPage, hop, ewsBound]; omega
    | write => simp only [ewsRemaining, ewsAfterPage, hop, ewsBound]; omega
    | eraseAll =>
      have hl : e.bodyLength c = c.eePage := by simp [Ews.bodyLength, hop]
      have hp := h6 (.inl hop)
      obtain ⟨q, hq⟩ : ∃ q, c.eePages = e.page + 1 + q := ⟨c.eePages - e.page - 1, by omega⟩
      have h1 : c.eePages - e.page - 1 = q := by omega
      have h2 : (q + 1) * c.eePage ≤ c.eeSize := by rw [← hmul]; exact Nat.mul_le_mul_right _ (by omega)
      simp only [ewsRemaining, ewsAfterPage, hop, ewsBound, h1]
      rw [hl] at hb
      have h3 : q + 1 ≤ c.eeSize := by omega
      nlinarith
    | print =>
      have hl : e.bodyLength c = c.eePage := by simp [Ews.bodyLength, hop]
      have hp := h6 (.inr hop)
      obtain ⟨q, hq⟩ : ∃ q, c.eePages = e.page + 1 + q := ⟨c.eePages - e.page - 1, by omega⟩
      have h1 : c.eePages - e.page - 1 = q := by omega
      have h2 : (q + 1) * c.eePage ≤ c.eeSize := by rw [← hmul]; exact Nat.mul_le_mul_right _ (by omega)
      simp only [ewsRemaining, ewsAfterPage, hop, ewsBound, h1]
      rw [hl] at hb
      have h3 : q + 1 ≤ c.eeSize := by omega
      nlinarith

theorem ewsMeasure_le_fuel {c : Config} (hc : c.Valid) {e : Ews} (h : e.BlockInv c) : ewsMeasure c e ≤ ewsFuel c e := by
  have := ewsRemaining_le hc h
  unfold ewsMeasure ewsFuel; unfold ewsBound at *; split <;> omega

theorem ewsMeasure_pos {c : Config} (hc : c.Valid) {e : Ews} (h : e.BlockInv c) (hb : e.busy = true) : 0 < ewsMeasure c e := by
  obtain ⟨-, h2, -⟩ := h
  unfold ewsMeasure
  split
  · unfold ewsRemaining ewsInBody
    split <;> first | omega | skip
    rename_i hp; rw [h2.2 hp] at hb; cases hb
  · unfold ewsBound; omega

/-- A line with an EEPROM that is not committing lowers what remains. -/
theorem ewsLine_remaining {c : Config} (hc : c.Valid) {e g : Ews} (h : e.BlockInv c) (hcm : e.eeprom.commit = false)
    (hm : e.pos = .ssCT → e.eeprom.mode = .ctrl) (hs : ewsLine c e = some g) : ewsRemaining c g < ewsRemaining c e := by
  have hpos := Config.eePage_pos hc
  by_cases hne : e.pos = .ready
  · rw [ewsLine_ready hne] at hs; cases hs
  obtain ⟨hop, hb⟩ := Ews.op_of_pos h hne
  have hr := Ews.body_range hc h hop
  obtain ⟨h1, h2, -, -, -, h6, -, -, h9, -, h11, -⟩ := h
  -- a line that leaves the command, its page and its length as they are
  have plain : ∀ g : Ews, g.op = e.op → g.page = e.page → g.n = e.n → ewsInBody c g < ewsInBody c e →
      ewsRemaining c g < ewsRemaining c e := by
    intro g k1 k2 k3 k4
    have : ewsAfterPage c g = ewsAfterPage c e := by simp [ewsAfterPage, k1, k2]
    unfold ewsRemaining; omega
  -- the end of a command
  have done : ∀ g : Ews, g.op = .none → g.pos = .ready → 0 < ewsInBody c e → ewsRemaining c g < ewsRemaining c e := by
    intro g k1 k2 k3
    have : ewsRemaining c g = 0 := by simp [ewsRemaining, ewsInBody, ewsAfterPage, k1, k2]
    unfold ewsRemaining at *; omega
  cases hp : e.pos with
  | ready => exact absurd hp hne
  | r1 =>
    rw [ewsLine_r1 hp] at hs; cases hs
    have ho : e.op = .read ∨ e.op = .print := by simpa [EwsPos.serves, hp] using h1
    refine plain _ (by split <;> rfl) (by split <;> rfl) (by split <;> rfl) ?_
    split <;> rcases ho with ho | ho <;> simp [ewsInBody, ewsAfterStart, Ews.bodyLength, hp, ho]
  | r1Ctl =>
    rw [ewsLine_r1Ctl hp] at hs; cases hs
    exact plain _ rfl rfl rfl (by simp [ewsInBody, hp, Ews.bodyLength])
  | r1Hi =>
    rw [ewsLine_r1Hi hp] at hs; cases hs
    exact plain _ rfl rfl rfl (by simp [ewsInBody, hp, Ews.bodyLength])
  | r1Lo =>
    rw [ewsLine_r1Lo hp] at hs; cases hs
    exact plain _ rfl rfl rfl (by simp [ewsInBody, hp, Ews.bodyLength])
  | r1Stop =>
    rw [ewsLine_r1Stop hp] at hs; cases hs
    exact plain _ rfl rfl rfl (by simp [ewsInBody, hp, Ews.bodyLength])
  | r2 =>
    rw [ewsLine_r2 hp] at hs; cases hs
    exact plain _ rfl rfl rfl (by simp [ewsInBody, hp, Ews.bodyLength])
  | r2Ctl =>
    rw [ewsLine_r2Ctl hp] at hs; cases hs
    exact plain _ rfl rfl rfl (by simp [ewsInBody, hp, Ews.bodyLength])
  | r2Rx =>
    rw [ewsLine_r2Rx hp] at hs; cases hs
    obtain ⟨k1, -⟩ := h11 hp
    have ho : e.op = .read ∨ e.op = .print := by simpa [EwsPos.serves, hp] using h1
    refine plain _ rfl rfl rfl ?_
    rcases ho with ho | ho <;> simp only [Ews.bodyLength, ho] at k1 <;>
      simp only [ewsInBody, hp, Ews.bodyLength, ho, Ews.callReceive_op, Ews.callReceive_n] <;> split_ifs <;> simp only <;> omega
  | r2Stop =>
    rw [ewsLine_r2Stop hp] at hs
    have h0 : 0 < ewsInBody c e := by simp [ewsInBody, hp]
    rcases Ews.readDone_some hs with ⟨k1, rfl⟩ | ⟨k1, k2, rfl⟩ | ⟨k1, k2, rfl⟩
    · exact done _ rfl rfl h0
    · simp only [Ews.callStop_op] at k1
      simp only [Ews.callStop_page] at k2
      obtain ⟨q, hq⟩ : ∃ q, c.eePages = e.page + 2 + q := ⟨c.eePages - e.page - 2, by omega⟩
      have e1 : c.eePages - (e.page + 1) - 1 = q := by omega
      have e2 : c.eePages - e.page - 1 = q + 1 := by omega
      simp only [ewsRemaining, ewsInBody, ewsAfterPage, Ews.bodyLength, hp, k1, Ews.callStop_op, Ews.callStop_page, e1, e2]
      nlinarith
    · exact done _ rfl rfl h0
  | w0 =>
    rw [ewsLine_w0 hp] at hs; cases hs
    have ho : e.op = .write ∨ e.op = .eraseAll := by simpa [EwsPos.serves, hp] using h1
    refine plain _ rfl rfl rfl ?_
    rcases ho with ho | ho <;> simp [ewsInBody, ewsAfterStart, Ews.bodyLength, hp, ho]
  | wb =>
    rw [ewsLine_wb hp] at hs; cases hs
    have ho : e.op = .write ∨ e.op = .eraseAll := by simpa [EwsPos.serves, hp] using h1
    obtain ⟨k1, -⟩ := h9 ho (by simp [EwsPos.sending, hp])
    refine plain _ rfl rfl rfl ?_
    rcases ho with ho | ho <;> simp only [Ews.bodyLength, ho] at k1 <;>
      simp only [ewsInBody, hp, afterByte, Ews.bodyLength, ho, Ews.callSend_op, Ews.callSend_n] <;> split_ifs <;> simp only <;>
      omega
  | wx =>
    rw [ewsLine_wx hp] at hs; cases hs
    have ho : e.op = .write ∨ e.op = .eraseAll := by simpa [EwsPos.serves, hp] using h1
    refine plain _ rfl rfl rfl ?_
    rcases ho with ho | ho <;> simp [ewsInBody, ewsAfterStart, Ews.bodyLength, hp, ho]
  | ws =>
    rw [ewsLine_ws hp] at hs
    have h0 : 0 < ewsInBody c e := by simp [ewsInBody, hp]
    rcases Ews.writeDone_some hs with ⟨k1, rfl⟩ | ⟨k1, k2, rfl⟩ | ⟨k1, k2, rfl⟩
    · exact done _ rfl rfl h0
    · simp only [Ews.callStop_op] at k1
      simp only [Ews.callStop_page] at k2
      obtain ⟨q, hq⟩ : ∃ q, c.eePages = e.page + 2 + q := ⟨c.eePages - e.page - 2, by omega⟩
      have e1 : c.eePages - (e.page + 1) - 1 = q := by omega
      have e2 : c.eePages - e.page - 1 = q + 1 := by omega
      simp only [ewsRemaining, ewsInBody, ewsAfterPage, Ews.bodyLength, hp, k1, Ews.callStop_op, Ews.callStop_page, e1, e2]
      nlinarith
    · exact done _ rfl rfl h0
  | ea =>
    rw [ewsLine_ea hp] at hs; cases hs
    exact plain _ rfl rfl rfl (by simp [ewsInBody, hp, Ews.bodyLength])
  | pr =>
    rw [ewsLine_pr hp] at hs; cases hs
    exact plain _ rfl rfl rfl (by simp [ewsInBody, hp, Ews.bodyLength])
  | ssT0 =>
    rw [ewsLine_ssT0 hp] at hs; cases hs
    exact plain _ rfl rfl rfl (by simp [ewsInBody, ewsAfterStart, hp, Ews.bodyLength])
  | ssST =>
    rw [ewsLine_ssST hp] at hs; cases hs
    exact plain _ rfl rfl rfl (by simp [ewsInBody, ewsAfterStart, hp, Ews.bodyLength])
  | ssCT =>
    rw [ewsLine_ssCT hp] at hs; cases hs
    have hack := (Eeprom.afterSend_ctrlW (c := c) (hm hp) hcm).2
    exact plain _ rfl rfl rfl (by simp [ewsInBody, ewsAfterStart, hp, Ews.bodyLength, hack])
  | ssCK =>
    rw [ewsLine_ssCK hp] at hs; cases hs
    refine plain _ (by split <;> rfl) (by split <;> rfl) (by split <;> rfl) ?_
    split <;> simp [ewsInBody, ewsAfterStart, hp, Ews.bodyLength]
  | ssHI =>
    rw [ewsLine_ssHI hp] at hs; cases hs
    exact plain _ rfl rfl rfl (by simp [ewsInBody, ewsAfterStart, hp, Ews.bodyLength])
  | ssLO =>
    rw [ewsLine_ssLO hp] at hs
    cases hst : e.startReturn with
    | none => rw [hst] at hs; cases hs
    | some p =>
      rw [hst] at hs; cases hs
      refine plain _ rfl rfl rfl ?_
      rcases Ews.startReturn_some hst with ⟨ho, rfl⟩ | ⟨ho, rfl⟩ <;> rcases ho with ho | ho <;>
        simp [ewsInBody, ewsAfterStart, hp, Ews.bodyLength, ho]

/-! ## The EEPROM keeps in step -/

theorem Ews.inStep_moves {c : Config} {e : Ews} (h : e.InStep c) : (e.moves c).InStep c := by
  have h1 : (e.moves c).startAddress c = e.startAddress c := by simp [startAddress, bodyAddress]
  simpa only [Ews.InStep, Ews.moves_pos, Ews.moves_mode, Ews.moves_hi, Ews.moves_ptr, Ews.moves_addr, h1] using h

/-- At any other position EWS's line needs nothing of the EEPROM. -/
theorem Ews.inStep_of_pos {c : Config} {e : Ews} (h : e.pos ∉ [EwsPos.ssCT, .ssCK, .ssHI, .ssLO, .wb]) : e.InStep c := by
  simp only [List.mem_cons, List.not_mem_nil, or_false, not_or] at h
  exact ⟨fun hp => absurd hp h.1, fun hp => absurd hp h.2.1, fun hp => absurd hp h.2.2.1, fun hp => absurd hp h.2.2.2.1,
    fun hp => absurd hp h.2.2.2.2⟩

/-- The two address bytes spell the address (R55). -/
theorem address_bytes {a : Nat} (h : a < 65536) : (addressHi a ++ addressLo a).toNat = a := by
  rw [BitVec.toNat_append, addressHi, addressLo, BitVec.toNat_ofNat, BitVec.toNat_ofNat, Nat.shiftLeft_eq,
    ← Nat.shiftLeft_eq, ← Nat.shiftLeft_add_eq_or_of_lt (Nat.mod_lt _ (by decide)), Nat.shiftLeft_eq]
  omega

/-- The address StartSequence is run with lies inside the EEPROM (R151). -/
theorem Ews.startAddress_lt {c : Config} (hc : c.Valid) {e : Ews} (h : e.BlockInv c) (hp : e.pos.sending = true)
    (ho : e.op ≠ .none) : e.startAddress c < c.eeSize := by
  have hr := Ews.body_range hc h ho
  obtain ⟨-, -, -, -, -, -, -, -, h9, -⟩ := h
  cases hop : e.op with
  | none => exact absurd hop ho
  | read => simp only [startAddress, hop]; omega
  | print => simp only [startAddress, hop]; omega
  | write => have := h9 (.inl hop) hp; simp only [startAddress, hop]; omega
  | eraseAll => have := h9 (.inr hop) hp; simp only [startAddress, hop]; omega

/-- A line keeps the EEPROM in step with EWS. -/
theorem ewsLine_inStep {c : Config} (hc : c.Valid) {e g : Ews} (h : e.BlockInv c) (hi : e.InStep c)
    (hs : ewsLine c e = some g) : g.InStep c := by
  have h' := h
  obtain ⟨h1, -, -, -, -, -, -, -, h9, -⟩ := h'
  obtain ⟨i1, i2, i3, i4, i5⟩ := hi
  cases hp : e.pos with
  | ready => rw [ewsLine_ready hp] at hs; cases hs
  | r1 => rw [ewsLine_r1 hp] at hs; cases hs; split <;> exact Ews.inStep_of_pos (by simp)
  | r1Ctl => rw [ewsLine_r1Ctl hp] at hs; cases hs; exact Ews.inStep_of_pos (by simp)
  | r1Hi => rw [ewsLine_r1Hi hp] at hs; cases hs; exact Ews.inStep_of_pos (by simp)
  | r1Lo => rw [ewsLine_r1Lo hp] at hs; cases hs; exact Ews.inStep_of_pos (by simp)
  | r1Stop => rw [ewsLine_r1Stop hp] at hs; cases hs; exact Ews.inStep_of_pos (by simp)
  | r2 => rw [ewsLine_r2 hp] at hs; cases hs; exact Ews.inStep_of_pos (by simp)
  | r2Ctl => rw [ewsLine_r2Ctl hp] at hs; cases hs; exact Ews.inStep_of_pos (by simp)
  | r2Rx => rw [ewsLine_r2Rx hp] at hs; cases hs; exact Ews.inStep_of_pos (by dsimp only; split <;> simp)
  | r2Stop =>
    rw [ewsLine_r2Stop hp] at hs
    rcases Ews.readDone_some hs with ⟨-, rfl⟩ | ⟨-, -, rfl⟩ | ⟨-, -, rfl⟩ <;> exact Ews.inStep_of_pos (by simp)
  | w0 => rw [ewsLine_w0 hp] at hs; cases hs; exact Ews.inStep_of_pos (by simp)
  | wx => rw [ewsLine_wx hp] at hs; cases hs; exact Ews.inStep_of_pos (by simp)
  | ws =>
    rw [ewsLine_ws hp] at hs
    rcases Ews.writeDone_some hs with ⟨-, rfl⟩ | ⟨-, -, rfl⟩ | ⟨-, -, rfl⟩ <;> exact Ews.inStep_of_pos (by simp)
  | ea => rw [ewsLine_ea hp] at hs; cases hs; exact Ews.inStep_of_pos (by simp)
  | pr => rw [ewsLine_pr hp] at hs; cases hs; exact Ews.inStep_of_pos (by simp)
  | ssT0 => rw [ewsLine_ssT0 hp] at hs; cases hs; exact Ews.inStep_of_pos (by simp)
  | ssST =>
    rw [ewsLine_ssST hp] at hs; cases hs
    exact ⟨fun _ => rfl, by simp, by simp, by simp, by simp⟩
  | ssCT =>
    rw [ewsLine_ssCT hp] at hs; cases hs
    have hm := i1 hp
    cases hcm : e.eeprom.commit with
    | false =>
      obtain ⟨k1, k2⟩ := Eeprom.afterSend_ctrlW (c := c) hm hcm
      rw [k2]
      exact ⟨by simp, by simp, fun _ => .inl (by simp [k1]), by simp, by simp⟩
    | true =>
      obtain ⟨k1, k2⟩ := Eeprom.afterSend_committing (c := c) (b := c.ctrlW) hm hcm
      rw [k2]
      exact ⟨by simp, fun _ => by simp [k1], by simp, by simp, by simp⟩
  | ssCK =>
    rw [ewsLine_ssCK hp] at hs; cases hs
    split
    · exact ⟨by simp, by simp, fun _ => .inr (by simpa using i2 hp), by simp, by simp⟩
    · exact Ews.inStep_of_pos (by simp)
  | ssHI =>
    rw [ewsLine_ssHI hp] at hs; cases hs
    refine ⟨by simp, by simp, by simp, fun _ => ?_, by simp⟩
    rcases i3 hp with hm | hm
    · left
      have hk : e.eeprom.afterSend c (addressHi (e.startAddress c))
          = { e.eeprom with hi := addressHi (e.startAddress c), mode := .aLo } := by unfold Eeprom.afterSend; simp only [hm]
      refine ⟨by simp [hk], ?_⟩
      simp only [Ews.callSend_eeprom, hk]; rfl
    · right; simp only [Ews.callSend_eeprom, Eeprom.afterSend_ignore hm]; exact hm
  | ssLO =>
    rw [ewsLine_ssLO hp] at hs
    cases hst : e.startReturn with
    | none => rw [hst] at hs; cases hs
    | some p =>
      rw [hst] at hs; cases hs
      rcases Ews.startReturn_some hst with ⟨ho, rfl⟩ | ⟨-, rfl⟩
      · refine ⟨by simp, by simp, by simp, by simp, fun _ => ?_⟩
        rcases i4 hp with ⟨hm, hh⟩ | hm
        · left
          have hlt := Ews.startAddress_lt hc h (by simp [EwsPos.sending, hp]) (by rcases ho with ho | ho <;> simp [ho])
          have hsz := Config.eeSize_le hc
          have hk : e.eeprom.afterSend c (addressLo (e.startAddress c))
              = { e.eeprom with ptr := e.startAddress c, mode := .wData } := by
            unfold Eeprom.afterSend; simp only [hm, hh]
            rw [address_bytes (by omega), Nat.mod_eq_of_lt hlt]
          have ha : e.startAddress c = e.addr.toNat := by rcases ho with ho | ho <;> simp [Ews.startAddress, ho]
          rw [ha] at hk
          exact ⟨by simp [ha, hk], by simp [ha, hk]⟩
        · right; simp only [Ews.callSend_eeprom, Eeprom.afterSend_ignore hm]; exact hm
      · exact Ews.inStep_of_pos (by simp)
  | wb =>
    have ho : e.op = .write ∨ e.op = .eraseAll := by simpa [EwsPos.serves, hp] using h1
    obtain ⟨k1, k2⟩ := h9 ho (by simp [EwsPos.sending, hp])
    have hr := Ews.body_range hc h (by rcases ho with ho | ho <;> simp [ho])
    have hsize := Config.eeSize_le hc
    have ha : (e.addr + 1).toNat = e.addr.toNat + 1 := by
      rw [BitVec.toNat_add]; exact Nat.mod_eq_of_lt (by simp; omega)
    rw [ewsLine_wb hp] at hs; cases hs
    unfold afterByte
    split
    · split
      · exact Ews.inStep_of_pos (by simp)
      · rename_i hx
        refine ⟨by simp, by simp, by simp, by simp, fun _ => ?_⟩
        rcases i5 hp with ⟨hm, hh⟩ | hm
        · left
          have hx' : (e.eeprom.ptr + 1) % c.eePage ≠ 0 := by
            rw [hh, ← ha]; simpa [pageCrossed] using hx
          have hnext := Eeprom.nextWritePtr_succ hc hx'
          rw [hh] at hnext
          simp only [Ews.callSend_eeprom, Eeprom.afterSend_wData hm, ha, hh, hm, hnext, and_self]
        · right; simp only [Ews.callSend_eeprom, Eeprom.afterSend_ignore hm]; exact hm
    · exact Ews.inStep_of_pos (by simp)

/-- A sequencer step keeps the EEPROM in step with EWS. -/
theorem ewsSeq_inStep {c : Config} (hc : c.Valid) {e g : Ews} (h : e.BlockInv c) (hi : e.InStep c)
    (hs : ewsSeq c e = some g) : g.InStep c :=
  ewsLine_inStep hc (Ews.blockInv_moves h) (Ews.inStep_moves hi) hs

/-! ## Termination -/

/-- A line leaves the schedule alone. -/
theorem ewsLine_sched {c : Config} {e g : Ews} (hs : ewsLine c e = some g) : g.sched = e.sched := by
  cases hp : e.pos with
  | ready => rw [ewsLine_ready hp] at hs; cases hs
  | r1 => rw [ewsLine_r1 hp] at hs; cases hs; split <;> rfl
  | r1Ctl => rw [ewsLine_r1Ctl hp] at hs; cases hs; rfl
  | r1Hi => rw [ewsLine_r1Hi hp] at hs; cases hs; rfl
  | r1Lo => rw [ewsLine_r1Lo hp] at hs; cases hs; rfl
  | r1Stop => rw [ewsLine_r1Stop hp] at hs; cases hs; rfl
  | r2 => rw [ewsLine_r2 hp] at hs; cases hs; rfl
  | r2Ctl => rw [ewsLine_r2Ctl hp] at hs; cases hs; rfl
  | r2Rx => rw [ewsLine_r2Rx hp] at hs; cases hs; rfl
  | r2Stop =>
    rw [ewsLine_r2Stop hp] at hs
    rcases Ews.readDone_some hs with ⟨-, rfl⟩ | ⟨-, -, rfl⟩ | ⟨-, -, rfl⟩ <;> rfl
  | w0 => rw [ewsLine_w0 hp] at hs; cases hs; rfl
  | wb => rw [ewsLine_wb hp] at hs; cases hs; rfl
  | wx => rw [ewsLine_wx hp] at hs; cases hs; rfl
  | ws =>
    rw [ewsLine_ws hp] at hs
    rcases Ews.writeDone_some hs with ⟨-, rfl⟩ | ⟨-, -, rfl⟩ | ⟨-, -, rfl⟩ <;> rfl
  | ea => rw [ewsLine_ea hp] at hs; cases hs; rfl
  | pr => rw [ewsLine_pr hp] at hs; cases hs; rfl
  | ssT0 => rw [ewsLine_ssT0 hp] at hs; cases hs; rfl
  | ssST => rw [ewsLine_ssST hp] at hs; cases hs; rfl
  | ssCT => rw [ewsLine_ssCT hp] at hs; cases hs; rfl
  | ssCK => rw [ewsLine_ssCK hp] at hs; cases hs; split <;> rfl
  | ssHI => rw [ewsLine_ssHI hp] at hs; cases hs; rfl
  | ssLO =>
    rw [ewsLine_ssLO hp] at hs
    cases hr : e.startReturn with
    | none => rw [hr] at hs; cases hs
    | some p => rw [hr] at hs; cases hs; rfl

/-- With an EEPROM that is not stalled every sequencer step lowers the measure. -/
theorem ewsSeq_measure {c : Config} (hc : c.Valid) {e g : Ews} (h : e.BlockInv c) (hd : e.DeviceInv c) (hi : e.InStep c)
    (hn : e.eeprom.stalled = false) (hs : ewsSeq c e = some g) : ewsMeasure c g < ewsMeasure c e := by
  have hb := Ews.blockInv_moves (c := c) h
  have hg := (ewsSeq_inv hc h hd hs).1
  have hgs : g.sched = e.sched.tail := by
    rw [ewsLine_sched hs, Ews.moves_sched]
  cases hsch : e.sched with
  | nil =>
    have hrem : ewsRemaining c (e.moves c) = ewsRemaining c e := by
      simp [ewsRemaining, ewsInBody, ewsAfterPage, ewsAfterStart, Ews.bodyLength]
    have := ewsLine_remaining hc hb (Ews.moves_ideal hsch hn) (Ews.inStep_moves hi).1 hs
    rw [hsch] at hgs
    simp only [ewsMeasure, hgs, hsch, List.tail_nil, if_true]
    omega
  | cons m l =>
    have hle := ewsRemaining_le hc hg
    rw [hsch] at hgs
    simp only [ewsMeasure, hgs, hsch, List.tail_cons, List.length_cons, reduceCtorEq, if_false]
    split
    · rename_i h0; simp [h0] at *; omega
    · omega

end Sys2Proof.Machine
end

