-- ==== Sys2Proof/Laws/Fpc.lean ====
section
/-! SUPPORT. What one step of FPC's sequencer can do (R127, R206): its rows, the invariant it keeps, that it always has a row,
and the measure that it lowers. -/

namespace Sys2Proof.Machine

/-! ## Parameters -/

namespace Config

theorem rows_pos {c : Config} (h : c.Valid) : 0 < c.rows := by
  obtain ⟨⟨h1, h2, -, -⟩, h3, -⟩ := h
  exact Nat.div_pos (Nat.le_of_dvd h1 (Nat.dvd_of_mod_eq_zero h2)) h3

theorem rows_mul {c : Config} (h : c.Valid) : c.rows * c.rowBytes = c.pageBytes :=
  Nat.div_mul_cancel (Nat.dvd_of_mod_eq_zero h.1.2.1)

theorem printRows_mul {c : Config} (h : c.Valid) : c.printRows * 32 = c.pageBytes :=
  Nat.div_mul_cancel (Nat.dvd_of_mod_eq_zero h.1.2.2.1)

theorem printRows_pos {c : Config} (h : c.Valid) : 0 < c.printRows := by
  have h1 := (Config.printRows_mul h)
  have h2 : 1 ≤ c.pageBytes := h.1.1
  rcases Nat.eq_zero_or_pos c.printRows with h0 | h0
  · rw [h0] at h1; omega
  · exact h0

/-- A row lies inside the page (R126). -/
theorem row_in_page {c : Config} (h : c.Valid) {r : Nat} (hr : r < c.rows) :
    r * c.rowBytes + c.rowBytes ≤ c.pageBytes := by
  rw [← (Config.rows_mul h), ← Nat.succ_mul]; exact Nat.mul_le_mul_right _ hr

/-- A diagnostic row lies inside the page (R204). -/
theorem printRow_in_page {c : Config} (h : c.Valid) {r : Nat} (hr : r < c.printRows) : 32 * r + 32 ≤ c.pageBytes := by
  have := (Config.printRows_mul h); omega

end Config

/-! ## The device -/

namespace Nvm

theorem takeDone_flash' (d : Nvm) : d.takeDone.flash = d.flash := rfl

/-- The device's own move never sets the busy flag (R63). -/
theorem busy_of_busy_moves {d : Nvm} (h : d.moves.busy = true) : d.busy = true := by
  unfold moves at h; split at h <;> (try split at h) <;> simp_all

/-- A device that is not stalled and has no schedule left has taken `DONE` (R66, log 7). -/
theorem busy_moves_ideal {d : Nvm} (h1 : d.sched = []) (h2 : d.stalled = false) : d.moves.busy = false := by
  simp [moves, h1, h2]

/-- A device still busy after its move used up an entry of its schedule, or is stalled. -/
theorem sched_of_busy_moves {d : Nvm} (h : d.moves.busy = true) (hs : d.stalled = false) :
    d.sched.length = d.moves.sched.length + 1 := by
  cases hd : d.sched with
  | nil => rw [busy_moves_ideal hd hs] at h; cases h
  | cons b l => simp [hd]

theorem length_readResult (n a : Nat) (d : Nvm) : (d.readResult n a).length = n := by
  unfold readResult; split <;> simp

theorem readResult_idle {n a : Nat} {d : Nvm} (h : d.busy = false) : d.readResult n a = d.flash.bytes .flash a n := by
  simp [readResult, h]

/-- What an erase of an idle device leaves (R61). -/
theorem read_pageErase {c : Config} {a x : Nat} {d : Nvm} (hw : Memory.wf .flash d.flash) (h : d.busy = false) :
    (d.pageErase c a).flash.read? .flash x
      = if a ≤ x ∧ x < a + c.pageBytes then some 0xFF#8 else d.flash.read? .flash x := by
  simp only [pageErase_flash, h, Bool.false_eq_true, if_false, Memory.read?_setBytes hw, List.length_replicate]
  split
  · rw [List.getElem?_replicate, if_pos (by omega)]
  · rfl

/-- What a row-write of a blank row of an idle device leaves (R62). -/
theorem read_rowWrite {c : Config} {a x : Nat} {buf : List Byte} {d : Nvm} (hw : Memory.wf .flash d.flash)
    (h : d.rowReady c a = true) :
    (d.rowWrite c buf a).flash.read? .flash x
      = if a ≤ x ∧ x < a + buf.length then buf[x - a]? else d.flash.read? .flash x := by
  simp only [rowWrite_flash, h, if_true, Memory.read?_setBytes hw]

/-- When a row is ready for a row-write (R62). -/
theorem rowReady_iff {c : Config} {a : Nat} {d : Nvm} :
    d.rowReady c a = true ↔ d.busy = false ∧ ∀ x, a ≤ x → x < a + c.rowBytes → d.flash.read? .flash x = some 0xFF#8 := by
  simp only [rowReady, Bool.and_eq_true, Bool.not_eq_true', List.all_eq_true, beq_iff_eq]
  refine and_congr_right fun _ => ⟨fun h x h1 h2 => ?_, fun h b hb => ?_⟩
  · rw [Memory.read?_eq_some_byte (by simp)]
    congr 1
    apply h
    rw [List.mem_iff_getElem?]
    refine ⟨x - a, ?_⟩
    rw [Memory.getElem?_bytes (by omega)]; congr 2; omega
  · obtain ⟨k, hk⟩ := List.mem_iff_getElem?.1 hb
    have hlt : k < c.rowBytes := by
      by_contra hcon
      rw [List.getElem?_eq_none (by simp; omega)] at hk; cases hk
    rw [Memory.getElem?_bytes hlt] at hk
    have := h (a + k) (by omega) (by omega)
    rw [Memory.read?_eq_some_byte (by simp)] at this
    rw [this] at hk; cases hk; rfl

end Nvm

/-! ## The rows of R127 -/

section rows
variable {c : Config} {f : Fpc}

theorem fpcRow_ready (h : f.pos = .ready) : fpcRow c f = none := by simp only [fpcRow, h]

theorem fpcRow_rd (h : f.pos = .rd) :
    fpcRow c f = some { f.callRead f.n.toNat c.pageBase with
      dout := f.dout ++ f.nvm.readResult f.n.toNat c.pageBase }.complete := by simp only [fpcRow, h]

theorem fpcRow_ucmp (h : f.pos = .ucmp) :
    fpcRow c f = some (if differ (f.nvm.readResult c.pageBytes c.pageBase) f.n f.data
      then { f.callRead c.pageBytes c.pageBase with
              scratch := f.nvm.readResult c.pageBytes c.pageBase, op := .write, pos := .er }
      else { f.callRead c.pageBytes c.pageBase with scratch := f.nvm.readResult c.pageBytes c.pageBase }.complete) := by
  simp only [fpcRow, h]; split <;> rfl

theorem fpcRow_er (h : f.pos = .er) :
    fpcRow c f = some { f.callPageErase c c.pageBase with phase := .erasing, pos := .ep } := by simp only [fpcRow, h]

theorem fpcRow_poll (h : f.pos = .ep ∨ f.pos = .wp) (hb : f.nvm.busy = true) : fpcRow c f = some f.callIsBusy := by
  rcases h with h | h <;> simp only [fpcRow, h, hb, if_true]

theorem fpcRow_ep_erase (h : f.pos = .ep) (hb : f.nvm.busy = false) (ho : f.op = .erase) :
    fpcRow c f = some { f.callIsBusy with phase := .idle }.complete := by
  simp only [fpcRow, h, hb, ho, Bool.false_eq_true, if_false]

theorem fpcRow_ep_write (h : f.pos = .ep) (hb : f.nvm.busy = false) (ho : f.op = .write) :
    fpcRow c f = some { f.callIsBusy with phase := .writing, pos := .fill } := by
  simp only [fpcRow, h, hb, ho, Bool.false_eq_true, if_false]

theorem fpcRow_fill (h : f.pos = .fill) :
    fpcRow c f = some { f with scratch := stagedPage c f.n f.data, row := 0, pos := .rw } := by simp only [fpcRow, h]

theorem fpcRow_rw (h : f.pos = .rw) (hr : f.row < c.rows) :
    fpcRow c f = some { f.callRowWrite c (rowBuffer c f.scratch f.row) (rowAddress c f.row) with pos := .wp } := by
  simp only [fpcRow, h, hr, if_true]

theorem fpcRow_wp_next (h : f.pos = .wp) (hb : f.nvm.busy = false) (hr : f.row + 1 < c.rows) :
    fpcRow c f = some { f.callIsBusy with row := f.row + 1, pos := .rw } := by
  simp only [fpcRow, h, hb, hr, Bool.false_eq_true, if_false, if_true]

theorem fpcRow_wp_last (h : f.pos = .wp) (hb : f.nvm.busy = false) (hr : f.row + 1 = c.rows) :
    fpcRow c f = some { f.callIsBusy with phase := .idle }.complete := by
  have hn : ¬ f.row + 1 < c.rows := by omega
  simp only [fpcRow, h, hb, Bool.false_eq_true, if_false]
  rw [if_neg hn, if_pos hr]

theorem fpcRow_pr (h : f.pos = .pr) (hr : f.row < c.printRows) :
    fpcRow c f = some (
      let g := (f.callRead 32 (printAddress c f.row)).emitRow c (f.nvm.readResult 32 (printAddress c f.row))
      if f.row + 1 < c.printRows then { g with row := f.row + 1 } else g.complete) := by
  by_cases hn : f.row + 1 < c.printRows
  · simp only [fpcRow, h, hn, if_true]; rfl
  · have he : f.row + 1 = c.printRows := by omega
    simp only [fpcRow, h]
    rw [if_neg hn, if_pos he, if_neg hn]; rfl

end rows

/-! ## The invariant -/

theorem length_stagedPage {c : Config} {n : Half} {data : List Byte} (h : data.length = n.toNat)
    (hn : n.toNat ≤ c.pageBytes) : (stagedPage c n data).length = c.pageBytes := by
  simp only [stagedPage, List.length_append, List.length_replicate]; omega

theorem length_rowBuffer {c : Config} (hc : c.Valid) {scratch : List Byte} (h : scratch.length = c.pageBytes) {r : Nat}
    (hr : r < c.rows) : (rowBuffer c scratch r).length = c.rowBytes := by
  have := Config.row_in_page hc hr
  simp only [rowBuffer, List.length_take, List.length_drop, h]; omega

theorem Fpc.inv_moves {c : Config} {f : Fpc} (h : f.Inv c) : f.moves.Inv c := by
  obtain ⟨h1, h2, h3, h4, h5, h6, h7, h8, h9, h10, h11⟩ := h
  exact ⟨h1, h2, h3, h4, h5, h6, h7, h8, by simpa using h9, by simpa using h10,
    by simpa using fun hb => h11 (Nvm.busy_of_busy_moves hb)⟩

/-- FPC's invariant after a write of bytes inside the page by a device operation. -/
theorem flash_inv {c : Config} {m : Memory} {a n : Nat} {bs : List Byte} (hw : Memory.wf .flash m)
    (hm : ∀ x ∈ m, inPage c x.1) (hl : bs.length = n) (h1 : c.pageBase ≤ a) (h2 : a + n ≤ c.pageBase + c.pageBytes) :
    Memory.wf .flash (m.setBytes .flash a bs) ∧ ∀ x ∈ m.setBytes .flash a bs, inPage c x.1 := by
  refine ⟨Memory.wf_setBytes hw, fun x hx => ?_⟩
  rcases Memory.mem_setBytes hx with h | h
  · unfold inPage; omega
  · exact hm x h

/-- A row of the table keeps FPC's invariant. -/
theorem fpcRow_inv {c : Config} (hc : c.Valid) {f g : Fpc} (h : f.Inv c) (hs : fpcRow c f = some g) : g.Inv c := by
  obtain ⟨h1, h2, h3, h4, h5, h6, h7, h8, h9, h10, h11⟩ := h
  have hrows := Config.rows_pos hc
  cases hp : f.pos with
  | ready => rw [fpcRow_ready hp] at hs; cases hs
  | rd =>
    rw [fpcRow_rd hp] at hs; cases hs
    simp [Fpc.Inv, FpcPos.phase, FpcPos.serves, hp] at h1 h2 h3 ⊢
    exact ⟨h1, h4, h5, h9, fun a b hx => h10 (a, b) hx, h11⟩
  | ucmp =>
    rw [fpcRow_ucmp hp] at hs; cases hs
    simp [FpcPos.serves, hp] at h2
    simp [FpcPos.phase, hp] at h1 h3
    split <;> simp [Fpc.Inv, FpcPos.phase, FpcPos.serves, h1, h3, h5, h6, h2, Nvm.length_readResult]
    all_goals exact ⟨h9, fun a b hx => h10 (a, b) hx, h11⟩
  | er =>
    rw [fpcRow_er hp] at hs; cases hs
    have hf := flash_inv (c := c) (a := c.pageBase) (n := c.pageBytes)
      (bs := if f.nvm.busy then freeBytes Config.freeNvm f.nvm.draws c.pageBytes else List.replicate c.pageBytes 0xFF#8)
      h9 h10 (by split <;> simp) (le_refl _) (le_refl _)
    simp [FpcPos.serves, hp] at h2 h3
    refine ⟨by simp [FpcPos.phase], by simpa [FpcPos.serves] using h2, by simp [h3], by simpa using h4, by simpa using h5,
      by simpa using h6, by simp, by simp, ?_, ?_, by simp⟩
    · simpa using hf.1
    · simpa using hf.2
  | ep =>
    cases hb : f.nvm.busy with
    | true =>
      rw [fpcRow_poll (.inl hp) hb] at hs; cases hs
      exact ⟨h1, h2, h3, h4, h5, h6, h7, h8, h9, h10, h11⟩
    | false =>
      simp only [FpcPos.serves, hp, Bool.or_eq_true, beq_iff_eq] at h2
      rcases h2 with h2 | h2
      · rw [fpcRow_ep_write hp hb h2] at hs; cases hs
        refine ⟨rfl, by simp [FpcPos.serves, h2], by simp [h3, hp], h4, h5, h6, by simp, by simp, h9, h10, by simp [hb]⟩
      · rw [fpcRow_ep_erase hp hb h2] at hs; cases hs
        refine ⟨rfl, rfl, by simp, h4, h5, by simp, by simp, by simp, h9, h10, by simp [hb]⟩
  | fill =>
    rw [fpcRow_fill hp] at hs; cases hs
    simp only [FpcPos.serves, hp, beq_iff_eq] at h2
    exact ⟨by simp [h1, hp, FpcPos.phase], by simp [FpcPos.serves, h2], by simp [h3, hp],
      length_stagedPage (h6 (.inl h2)) h5, h5, h6, fun _ => hrows, by simp, h9, h10, h11⟩
  | rw =>
    have hr := h7 (.inl hp)
    rw [fpcRow_rw hp hr] at hs; cases hs
    have hin := Config.row_in_page hc hr
    have hf := flash_inv (c := c) (a := rowAddress c f.row) (n := c.rowBytes)
      (bs := if f.nvm.rowReady c (rowAddress c f.row) then rowBuffer c f.scratch f.row
        else freeBytes Config.freeNvm f.nvm.draws c.rowBytes)
      h9 h10 (by split <;> simp [length_rowBuffer hc h4 hr]) (by unfold rowAddress; omega)
      (by unfold rowAddress; omega)
    refine ⟨by simp [h1, hp, FpcPos.phase], by simpa [FpcPos.serves, hp] using h2, by simp [h3, hp], by simpa using h4,
      by simpa using h5, by simpa using h6, by simpa using hr, by simp, by simpa using hf.1, by simpa using hf.2, ?_⟩
    simp only [Fpc.callRowWrite_nvm, Nvm.rowWrite_regionAddr, Nvm.rowWrite_regionLen, rowAddress]
    intro _; omega
  | wp =>
    cases hb : f.nvm.busy with
    | true =>
      rw [fpcRow_poll (.inr hp) hb] at hs; cases hs
      exact ⟨h1, h2, h3, h4, h5, h6, h7, h8, h9, h10, h11⟩
    | false =>
      have hr := h7 (.inr hp)
      rcases Nat.lt_or_ge (f.row + 1) c.rows with hl | hl
      · rw [fpcRow_wp_next hp hb hl] at hs; cases hs
        refine ⟨by simp [h1, hp, FpcPos.phase], by simpa [FpcPos.serves, hp] using h2, by simp [h3, hp], h4, h5, h6,
          fun _ => hl, by simp, h9, h10, by simp [hb]⟩
      · rw [fpcRow_wp_last hp hb (by omega)] at hs; cases hs
        refine ⟨rfl, rfl, by simp, h4, h5, by simp, by simp, by simp, h9, h10, by simp [hb]⟩
  | pr =>
    have hr := h8 hp
    rw [fpcRow_pr hp hr] at hs; cases hs
    have h10' : ∀ a b, (a, b) ∈ f.nvm.flash → inPage c a := fun a b hx => h10 (a, b) hx
    simp only [FpcPos.serves, hp, beq_iff_eq] at h2
    split
    · rename_i hl
      refine ⟨by simp [h1, hp, FpcPos.phase], by simp [FpcPos.serves, hp, h2], by simp [h3, hp], by simpa using h4,
        by simpa using h5, by simp [h2], by simp [hp], by simpa using fun _ => hl, by simpa using h9, by simpa using h10',
        by simpa using h11⟩
    · refine ⟨by simp [h1, hp, FpcPos.phase], by simp [FpcPos.serves], by simp, by simpa using h4,
        by simpa using h5, by simp, by simp, by simp, by simpa using h9, by simpa using h10',
        by simpa using h11⟩

/-- A sequencer step keeps FPC's invariant. -/
theorem fpcSeq_inv {c : Config} (hc : c.Valid) {f g : Fpc} (h : f.Inv c) (hs : fpcSeq c f = some g) : g.Inv c :=
  fpcRow_inv hc (Fpc.inv_moves h) hs

/-! ## Progress -/

/-- A busy FPC has a row: no position is one "not listed" (R127). -/
theorem fpcRow_progress {c : Config} {f : Fpc} (h : f.Inv c) (hb : f.busy = true) : ∃ g, fpcRow c f = some g := by
  obtain ⟨-, h2, h3, -, -, -, h7, h8, -⟩ := h
  cases hp : f.pos with
  | ready => rw [h3.2 hp] at hb; cases hb
  | rd => exact ⟨_, fpcRow_rd hp⟩
  | ucmp => exact ⟨_, fpcRow_ucmp hp⟩
  | er => exact ⟨_, fpcRow_er hp⟩
  | ep =>
    cases hn : f.nvm.busy with
    | true => exact ⟨_, fpcRow_poll (.inl hp) hn⟩
    | false =>
      simp only [FpcPos.serves, hp, Bool.or_eq_true, beq_iff_eq] at h2
      rcases h2 with h2 | h2
      · exact ⟨_, fpcRow_ep_write hp hn h2⟩
      · exact ⟨_, fpcRow_ep_erase hp hn h2⟩
  | fill => exact ⟨_, fpcRow_fill hp⟩
  | rw => exact ⟨_, fpcRow_rw hp (h7 (.inl hp))⟩
  | wp =>
    cases hn : f.nvm.busy with
    | true => exact ⟨_, fpcRow_poll (.inr hp) hn⟩
    | false =>
      have hr := h7 (.inr hp)
      rcases Nat.lt_or_ge (f.row + 1) c.rows with hl | hl
      · exact ⟨_, fpcRow_wp_next hp hn hl⟩
      · exact ⟨_, fpcRow_wp_last hp hn (by omega)⟩
  | pr => exact ⟨_, fpcRow_pr hp (h8 hp)⟩

/-- How many sequencer steps FPC's command still takes with a device that is done before every poll. -/
def fpcRemaining (c : Config) (f : Fpc) : Nat :=
  match f.pos with
  | .ready => 0
  | .rd => 1
  | .ucmp => 2 * c.rows + 4
  | .er => 2 * c.rows + 3
  | .ep => 2 * c.rows + 2
  | .fill => 2 * c.rows + 1
  | .rw => 2 * (c.rows - f.row)
  | .wp => 2 * (c.rows - f.row) - 1
  | .pr => c.printRows - f.row

/-- The measure of a run of FPC: what remains, and the polls its device's schedule may still cost. -/
def fpcMeasure (c : Config) (f : Fpc) : Nat := f.nvm.sched.length + fpcRemaining c f

theorem fpcMeasure_pos {c : Config} {f : Fpc} (h : f.Inv c) (hb : f.busy = true) : 0 < fpcMeasure c f := by
  obtain ⟨-, -, h3, -, -, -, h7, h8, -⟩ := h
  unfold fpcMeasure fpcRemaining
  split <;> rename_i hp <;> first | omega | skip
  · rw [h3.2 hp] at hb; cases hb
  · have := h7 (.inl hp); omega
  · have := h7 (.inr hp); omega
  · have := h8 hp; omega

theorem fpcMeasure_le_fuel (c : Config) (f : Fpc) : fpcMeasure c f ≤ fpcFuel c f := by
  unfold fpcMeasure fpcRemaining fpcFuel; split <;> omega

/-- With a device that is not stalled every sequencer step lowers the measure. -/
theorem fpcSeq_measure {c : Config} (hc : c.Valid) {f g : Fpc} (h : f.Inv c) (hb : f.busy = true)
    (hn : f.nvm.stalled = false) (hs : fpcSeq c f = some g) : g.nvm.stalled = false ∧ fpcMeasure c g < fpcMeasure c f := by
  have hi := (Fpc.inv_moves h)
  have hrows := Config.rows_pos hc
  obtain ⟨-, h2, h3, -, -, -, h7, h8, -⟩ := hi
  have hlen : f.moves.nvm.sched.length ≤ f.nvm.sched.length := by simp
  have hst : f.moves.nvm.stalled = false := by simpa using hn
  have hpoll : f.moves.nvm.busy = true → f.nvm.sched.length = f.moves.nvm.sched.length + 1 :=
    fun hb => Nvm.sched_of_busy_moves hb hn
  have hrem : fpcRemaining c f = fpcRemaining c f.moves := rfl
  have hb' : f.moves.busy = true := hb
  unfold fpcSeq at hs
  simp only [fpcMeasure, hrem]
  generalize f.moves = m at *
  cases hp : m.pos with
  | ready => rw [h3.2 hp] at hb'; cases hb'
  | rd =>
    rw [fpcRow_rd hp] at hs; cases hs
    simp [fpcRemaining, hp, hst]; omega
  | ucmp =>
    rw [fpcRow_ucmp hp] at hs; cases hs
    split <;> simp [fpcRemaining, hp, hst] <;> omega
  | er =>
    rw [fpcRow_er hp] at hs; cases hs
    simp [fpcRemaining, hp, hst]; omega
  | ep =>
    cases hbz : m.nvm.busy with
    | true =>
      rw [fpcRow_poll (.inl hp) hbz] at hs; cases hs
      have := hpoll hbz
      simp [fpcRemaining, hp, hst]; omega
    | false =>
      simp only [FpcPos.serves, hp, Bool.or_eq_true, beq_iff_eq] at h2
      rcases h2 with h2 | h2
      · rw [fpcRow_ep_write hp hbz h2] at hs; cases hs
        simp [fpcRemaining, hp, hst]; omega
      · rw [fpcRow_ep_erase hp hbz h2] at hs; cases hs
        simp [fpcRemaining, hp, hst]; omega
  | fill =>
    rw [fpcRow_fill hp] at hs; cases hs
    simp [fpcRemaining, hp, hst]; omega
  | rw =>
    have hr := h7 (.inl hp)
    rw [fpcRow_rw hp hr] at hs; cases hs
    simp [fpcRemaining, hp, hst]; omega
  | wp =>
    have hr := h7 (.inr hp)
    cases hbz : m.nvm.busy with
    | true =>
      rw [fpcRow_poll (.inr hp) hbz] at hs; cases hs
      have := hpoll hbz
      simp [fpcRemaining, hp, hst]; omega
    | false =>
      rcases Nat.lt_or_ge (m.row + 1) c.rows with hl | hl
      · rw [fpcRow_wp_next hp hbz hl] at hs; cases hs
        simp [fpcRemaining, hp, hst]; omega
      · rw [fpcRow_wp_last hp hbz (by omega)] at hs; cases hs
        simp [fpcRemaining, hp, hst]; omega
  | pr =>
    have hr := h8 hp
    rw [fpcRow_pr hp hr] at hs; cases hs
    split <;> simp [fpcRemaining, hp, hst] <;> omega

end Sys2Proof.Machine
end

