-- ==== Sys2Proof/Laws/PerInstr.lean ====
section
/-! SUPPORT. What is proved once per command, about the command as syntax. -/

/-! ## A command's word is a word of its row, and its fields are its operands -/

namespace Sys2Proof.Laws.WordFields

open Sys2Proof

/-- The word of a command meets the mask of its row, and its operand fields and its payload's length spell the command. -/
def Statement (i : Instr) : Prop :=
  i.word &&& i.opcode.mask = i.opcode.matchWord ∧ i.opcode.build i.word i.payload = i

theorem fpcRead (n : Half) : Statement (.fpcRead n) :=
  ⟨(Opcode.and_mask_iff _ _).2 (by simp [Instr.word, Instr.opcode, Opcode.format]),
    by simp [Instr.word, Instr.opcode, Opcode.build]⟩
theorem fpcWrite (n : Half) (data : List Byte) : Statement (.fpcWrite n data) :=
  ⟨(Opcode.and_mask_iff _ _).2 (by simp [Instr.word, Instr.opcode, Opcode.format]),
    by simp [Instr.word, Instr.opcode, Opcode.build, Instr.payload]⟩
theorem fpcUpdate (n : Half) (data : List Byte) : Statement (.fpcUpdate n data) :=
  ⟨(Opcode.and_mask_iff _ _).2 (by simp [Instr.word, Instr.opcode, Opcode.format]),
    by simp [Instr.word, Instr.opcode, Opcode.build, Instr.payload]⟩
theorem fpcErase : Statement .fpcErase :=
  ⟨(Opcode.and_mask_iff _ _).2 (by simp [Instr.word, Instr.opcode, Opcode.format]), rfl⟩
theorem fpcPrint : Statement .fpcPrint :=
  ⟨(Opcode.and_mask_iff _ _).2 (by simp [Instr.word, Instr.opcode, Opcode.format]), rfl⟩
theorem ewsRead (address n : Half) : Statement (.ewsRead address n) :=
  ⟨(Opcode.and_mask_iff _ _).2 (by simp [Instr.word, Instr.opcode, Opcode.format]),
    by simp [Instr.word, Instr.opcode, Opcode.build]⟩
theorem ewsWrite (address n : Half) (data : List Byte) : Statement (.ewsWrite address n data) :=
  ⟨(Opcode.and_mask_iff _ _).2 (by simp [Instr.word, Instr.opcode, Opcode.format]),
    by simp [Instr.word, Instr.opcode, Opcode.build, Instr.payload]⟩
theorem ewsEraseAll : Statement .ewsEraseAll :=
  ⟨(Opcode.and_mask_iff _ _).2 (by simp [Instr.word, Instr.opcode, Opcode.format]), rfl⟩
theorem ewsPrint : Statement .ewsPrint :=
  ⟨(Opcode.and_mask_iff _ _).2 (by simp [Instr.word, Instr.opcode, Opcode.format]), rfl⟩
theorem rpaRead (n : Half) : Statement (.rpaRead n) :=
  ⟨(Opcode.and_mask_iff _ _).2 (by simp [Instr.word, Instr.opcode, Opcode.format]),
    by simp [Instr.word, Instr.opcode, Opcode.build]⟩
theorem rpaWrite (n : Half) (src : List Byte) : Statement (.rpaWrite n src) :=
  ⟨(Opcode.and_mask_iff _ _).2 (by simp [Instr.word, Instr.opcode, Opcode.format]),
    by simp [Instr.word, Instr.opcode, Opcode.build, Instr.payload]⟩
theorem rpaCfg (cap rd wr : Half) : Statement (.rpaCfg cap rd wr) :=
  ⟨(Opcode.and_mask_iff _ _).2 (by simp [Instr.word, Instr.opcode, Opcode.format]),
    by simp [Instr.word, Instr.opcode, Opcode.build]⟩

end Sys2Proof.Laws.WordFields
end

