-- ==== Sys2Proof/Laws/Rpa.lean ====
section
/-! SUPPORT. What RPA's step can do (R181 to R187): the invariant it keeps and where ring bytes lie. -/

namespace Sys2Proof.Machine

/-- The new cursor is a value modulo the capacity (R34). -/
theorem rpaArith_next_lt {cap cursor n : Nat} (h : 1 ≤ cap) : (rpaArith cap cursor n).next < cap := Nat.mod_lt _ h

/-- A copy that does not split ends before the capacity. -/
theorem rpaArith_no_wrap {cap cursor n : Nat} (h : cursor + n < cap) :
    rpaArith cap cursor n = ⟨false, n, 0, cursor + n⟩ := by
  have h1 : decide (cap ≤ cursor + n) = false := by simp; omega
  simp [rpaArith, h1, Nat.mod_eq_of_lt h]

/-- A copy that splits: the head up to the end of the ring, the tail from its start. -/
theorem rpaArith_wrap {cap cursor n : Nat} (hc : cursor < cap) (hn : n ≤ cap) (h : cap ≤ cursor + n) :
    rpaArith cap cursor n = ⟨true, cap - cursor, n - (cap - cursor), n - (cap - cursor)⟩ := by
  have h1 : decide (cap ≤ cursor + n) = true := by simp [h]
  have h2 : (cursor + n) % cap = n - (cap - cursor) := by
    rw [Nat.mod_eq_sub_mod h, Nat.mod_eq_of_lt (by omega)]; omega
  simp [rpaArith, h1, h2]

/-- A 16-bit register holds a cursor. -/
theorem toNat_cursor {cap : Half} {x : Nat} (h : x < cap.toNat) : (BitVec.ofNat 16 x).toNat = x := by
  rw [BitVec.toNat_ofNat]; exact Nat.mod_eq_of_lt (lt_trans h cap.isLt)

/-- Where RPA.WRITE's two copies put the payload (R183): byte `k` at `(cursor + k) mod cap`, every other byte as before. -/
theorem read_splitCopy {cap cursor : Nat} {src : List Byte} {m : Memory} (hm : Memory.wf .ring m) (hc : cursor < cap)
    (hn : src.length ≤ cap) (x : Nat) :
    let a := rpaArith cap cursor src.length
    let m1 := m.setBytes .ring cursor (src.take a.head)
    (if a.wrap then m1.setBytes .ring 0 ((src.drop a.head).take a.tail) else m1).read? .ring x
      = if x < cap ∧ (x + cap - cursor) % cap < src.length then src[(x + cap - cursor) % cap]? else m.read? .ring x := by
  intro a m1
  rcases Nat.lt_or_ge (cursor + src.length) cap with h | h
  · have ha : a = ⟨false, src.length, 0, cursor + src.length⟩ := rpaArith_no_wrap h
    simp only [m1, ha, Bool.false_eq_true, if_false, List.take_length, Memory.read?_setBytes hm]
    by_cases hx : cursor ≤ x ∧ x < cursor + src.length
    · have e : (x + cap - cursor) % cap = x - cursor := by
        rw [show x + cap - cursor = (x - cursor) + cap by omega, Nat.add_mod_right, Nat.mod_eq_of_lt (by omega)]
      rw [if_pos hx, if_pos (by rw [e]; omega), e]
    · rw [if_neg hx, if_neg]
      rintro ⟨h1, h2⟩
      rcases Nat.lt_or_ge x cursor with hl | hl
      · rw [Nat.mod_eq_of_lt (by omega)] at h2; omega
      · rw [show x + cap - cursor = (x - cursor) + cap by omega, Nat.add_mod_right, Nat.mod_eq_of_lt (by omega)] at h2
        omega
  · have ha : a = ⟨true, cap - cursor, src.length - (cap - cursor), src.length - (cap - cursor)⟩ := rpaArith_wrap hc hn h
    have hl1 : (src.take (cap - cursor)).length = cap - cursor := by simp; omega
    have hl2 : ((src.drop (cap - cursor)).take (src.length - (cap - cursor))).length = src.length - (cap - cursor) := by simp
    simp only [m1, ha, if_true, Memory.read?_setBytes (Memory.wf_setBytes hm), Memory.read?_setBytes hm, hl1, hl2]
    by_cases hx : x < src.length - (cap - cursor)
    · have e : (x + cap - cursor) % cap = x + (cap - cursor) := by
        rw [Nat.mod_eq_of_lt (by omega)]; omega
      rw [if_pos (by omega), if_pos (by rw [e]; omega), e, List.getElem?_take_of_lt (by omega), List.getElem?_drop]
      congr 1; omega
    · rw [if_neg (by omega)]
      by_cases hy : cursor ≤ x ∧ x < cursor + (cap - cursor)
      · have e : (x + cap - cursor) % cap = x - cursor := by
          rw [show x + cap - cursor = (x - cursor) + cap by omega, Nat.add_mod_right, Nat.mod_eq_of_lt (by omega)]
        rw [if_pos hy, if_pos (by rw [e]; omega), e, List.getElem?_take_of_lt (by omega)]
      · rw [if_neg hy, if_neg]
        rintro ⟨h1, h2⟩
        rw [Nat.mod_eq_of_lt (by omega)] at h2; omega

/-- Where RPA.READ's two copies come from (R182): byte `k` is the ring's at `(cursor + k) mod cap`, if written since reset. -/
theorem getElem?_splitRead {cap cursor n d : Nat} {m : Memory} (hc : cursor < cap) (hn : n ≤ cap) {k : Nat} (hk : k < n)
    {b : Byte} (hb : m.read? .ring ((cursor + k) % cap) = some b) :
    let a := rpaArith cap cursor n
    (ringBytes m d cursor a.head ++ ringBytes m (d + a.head) 0 (if a.wrap then a.tail else 0))[k]? = some b := by
  intro a
  rcases Nat.lt_or_ge (cursor + n) cap with h | h
  · have ha : a = ⟨false, n, 0, cursor + n⟩ := rpaArith_no_wrap h
    rw [ha, List.getElem?_append_left (by simpa using hk)]
    rw [Nat.mod_eq_of_lt (by omega)] at hb
    exact getElem?_ringBytes hk hb
  · have ha : a = ⟨true, cap - cursor, n - (cap - cursor), n - (cap - cursor)⟩ := rpaArith_wrap hc hn h
    rw [ha]; dsimp only
    rcases Nat.lt_or_ge k (cap - cursor) with hl | hl
    · rw [List.getElem?_append_left (by simpa using hl)]
      rw [Nat.mod_eq_of_lt (by omega)] at hb
      exact getElem?_ringBytes hl hb
    · rw [List.getElem?_append_right (by simpa using hl)]
      rw [Nat.mod_eq_sub_mod (by omega), Nat.mod_eq_of_lt (by omega)] at hb
      refine getElem?_ringBytes (by simp; omega) ?_
      rw [length_ringBytes]; convert hb using 2; omega

/-- How many bytes RPA.READ's two copies give (R180). -/
theorem length_splitRead {cap cursor n d : Nat} {m : Memory} (hc : cursor < cap) (hn : n ≤ cap) :
    let a := rpaArith cap cursor n
    (ringBytes m d cursor a.head ++ ringBytes m (d + a.head) 0 (if a.wrap then a.tail else 0)).length = n := by
  intro a
  rcases Nat.lt_or_ge (cursor + n) cap with h | h
  · rw [show a = ⟨false, n, 0, cursor + n⟩ from rpaArith_no_wrap h]; simp
  · rw [show a = ⟨true, cap - cursor, n - (cap - cursor), n - (cap - cursor)⟩ from rpaArith_wrap hc hn h]; simp; omega

/-- What a length check says (R102). -/
theorem ringLengthOk_iff {cap n : Half} : ringLengthOk cap n = true ↔ 1 ≤ cap.toNat ∧ n.toNat ≤ cap.toNat := by
  simp [ringLengthOk]

/-- What a configuration check says (R102). -/
theorem ringConfigOk_iff {c : Config} {cap rd wr : Half} :
    ringConfigOk c cap rd wr = true ↔
      1 ≤ cap.toNat ∧ cap.toNat ≤ c.rbMemBytes ∧ rd.toNat < cap.toNat ∧ wr.toNat < cap.toNat := by
  simp [ringConfigOk, and_assoc]

/-- A busy RPA has a step. -/
theorem rpaSeq_progress {c : Config} {r : Rpa} (h : r.Inv c) (hb : r.busy = true) : ∃ q, rpaSeq r = some q := by
  obtain ⟨h1, -⟩ := h
  cases ho : r.op with
  | none => rw [h1.2 ho] at hb; cases hb
  | cfg => exact ⟨_, by simp only [rpaSeq, ho]; rfl⟩
  | read => exact ⟨_, by simp only [rpaSeq, ho]; rfl⟩
  | write => exact ⟨_, by simp only [rpaSeq, ho]; rfl⟩

/-- RPA's step ends its command (R187). -/
theorem rpaSeq_done {r q : Rpa} (h : rpaSeq r = some q) : q.busy = false ∧ q.op = .none := by
  unfold rpaSeq at h; split at h <;> cases h <;> exact ⟨rfl, rfl⟩

/-- RPA's step keeps its invariant. -/
theorem rpaSeq_inv {c : Config} {r q : Rpa} (h : r.Inv c) (hs : rpaSeq r = some q) : q.Inv c := by
  obtain ⟨h1, h2, h3, h4, h5, h6, h7, h8, h9⟩ := h
  have cap_pos : ringLengthOk r.cap r.n = true → r.cap ≠ 0#16 := by
    intro hk he; rw [ringLengthOk_iff, he] at hk; simp at hk
  cases ho : r.op with
  | none => simp [rpaSeq, ho] at hs
  | cfg =>
    have hs' : q = r.doConfig := by simp only [rpaSeq, ho] at hs; cases hs; rfl
    subst hs'
    obtain ⟨k1, k2, k3, k4⟩ := ringConfigOk_iff.1 (h7 ho)
    refine ⟨by simp [Rpa.doConfig], by simpa [Rpa.doConfig] using k2, ?_, by simp [Rpa.doConfig, k3, k4],
      by simp [Rpa.doConfig], by simp [Rpa.doConfig], by simp [Rpa.doConfig], h8, h9⟩
    intro he
    simp only [Rpa.doConfig, Rpa.complete_cap] at he
    rw [he] at k1; simp at k1
  | read =>
    have hs' : q = r.doRead := by simp only [rpaSeq, ho] at hs; cases hs; rfl
    subst hs'
    have hok := h5 (.inl ho)
    have hne := cap_pos hok
    have hpos := (ringLengthOk_iff.1 hok).1
    refine ⟨by simp [Rpa.doRead], by simpa [Rpa.doRead] using h2, by simp [Rpa.doRead, hne], ?_, by simp [Rpa.doRead],
      by simp [Rpa.doRead], by simp [Rpa.doRead], h8, h9⟩
    intro _
    have hlt : r.readMove.next < r.cap.toNat := rpaArith_next_lt hpos
    exact ⟨by show (BitVec.ofNat 16 r.readMove.next).toNat < _; rw [toNat_cursor hlt]; exact hlt, (h4 hne).2⟩
  | write =>
    have hs' : q = r.doWrite := by simp only [rpaSeq, ho] at hs; cases hs; rfl
    subst hs'
    have hok := h5 (.inr ho)
    have hne := cap_pos hok
    obtain ⟨hpos, hle⟩ := ringLengthOk_iff.1 hok
    have hlt : r.writeMove.next < r.cap.toNat := rpaArith_next_lt hpos
    have hw := (h4 hne).2
    have hlen := h6 ho
    have hbound : ∀ x ∈ r.writtenRing, x.1 < c.rbMemBytes := by
      intro x hx
      have key : ∀ {m : Memory} {a : Nat} {bs : List Byte} {x : Host.Cell}, (∀ x ∈ m, x.1 < c.rbMemBytes) →
          a + bs.length ≤ c.rbMemBytes → x ∈ m.setBytes .ring a bs → x.1 < c.rbMemBytes := by
        intro m a bs x hm hab hx
        rcases Memory.mem_setBytes hx with h | h
        · omega
        · exact hm x h
      unfold Rpa.writtenRing at hx
      rcases Nat.lt_or_ge (r.wr.toNat + r.n.toNat) r.cap.toNat with h | h
      · have e : r.writeMove = ⟨false, r.n.toNat, 0, r.wr.toNat + r.n.toNat⟩ := rpaArith_no_wrap h
        rw [e] at hx
        simp only [Bool.false_eq_true, if_false] at hx
        refine key h9 ?_ hx
        simp only [List.length_take]; omega
      · have e : r.writeMove = ⟨true, r.cap.toNat - r.wr.toNat, r.n.toNat - (r.cap.toNat - r.wr.toNat),
            r.n.toNat - (r.cap.toNat - r.wr.toNat)⟩ := rpaArith_wrap hw hle h
        rw [e] at hx
        simp only [if_true] at hx
        refine key (fun y hy => key h9 ?_ hy) ?_ hx
        · simp only [List.length_take]; omega
        · simp only [List.length_take]; omega
    have hwf : Memory.wf .ring r.writtenRing := by
      unfold Rpa.writtenRing; dsimp only; split
      · exact Memory.wf_setBytes (Memory.wf_setBytes h8)
      · exact Memory.wf_setBytes h8
    refine ⟨by simp [Rpa.doWrite], by simpa [Rpa.doWrite] using h2, by simp [Rpa.doWrite, hne], ?_, by simp [Rpa.doWrite],
      by simp [Rpa.doWrite], by simp [Rpa.doWrite], hwf, hbound⟩
    intro _
    exact ⟨(h4 hne).1, by show (BitVec.ofNat 16 r.writeMove.next).toNat < _; rw [toNat_cursor hlt]; exact hlt⟩

end Sys2Proof.Machine
end

