-- ==== Sys2Proof/Laws/Step.lean ====
section
/-! SUPPORT. What a step of the machine and a command can do: a step is a host move or one unit's turn, a command is accepted,
refused or left waiting, and each touches one unit only. -/

namespace Sys2Proof.Machine

/-! ## A step (R262) -/

/-- A host move that is due is the whole step. -/
theorem step_hostMove {s : State} {m : HostMove} {rest : List (Nat × HostMove)} (h : s.host = (0, m) :: rest) :
    step s = .next ({ s with host := rest }.hostMove m) := by simp [step, machineStep, h]

/-- With no host move due a step is the turn of one unit. -/
theorem step_unitTurn {s : State} (h : s.NoMoveDue) : step s = mapNext State.endTurn (unitTurn s) := by
  unfold step machineStep
  split
  · rename_i h'; simp [State.NoMoveDue, h'] at h
  · rfl

theorem mapNext_eq_next {g : State → State} {o : Host.Outcome State Fault Refusal} {t : State} (h : mapNext g o = .next t) :
    ∃ u, o = .next u ∧ t = g u := by
  cases o with
  | next u => cases h; exact ⟨u, rfl, rfl⟩
  | fault _ => cases h
  | refused _ => cases h

/-- The turn of a unit in the middle of a command. -/
theorem unitTurn_occupied {s : State} (h : s.occupied s.turn = true) : unitTurn s = resume s.turn s := by
  simp [unitTurn, h]

/-- The turn of a unit that can take a command. -/
theorem unitTurn_free {s : State} (h : s.occupied s.turn = false) : unitTurn s = takeCommand s.turn s := by
  simp [unitTurn, h]

/-! ## Running on (log 9) -/

theorem fpcRun_next {n : Nat} {s t : State} (h : fpcRun n s = .next t) :
    ∃ f, runSeq (fpcSeq s.cfg) Fpc.stops n s.fpc = some f ∧ t = { s with fpc := f } := by
  unfold fpcRun at h
  split at h
  · cases h; exact ⟨_, by assumption, rfl⟩
  · cases h

theorem fpcRun_of_some {n : Nat} {s : State} {f : Fpc} (h : runSeq (fpcSeq s.cfg) Fpc.stops n s.fpc = some f) :
    fpcRun n s = .next { s with fpc := f } := by unfold fpcRun; rw [h]

theorem ewsRun_next {n : Nat} {s t : State} (h : ewsRun n s = .next t) :
    ∃ e, runSeq (ewsSeq s.cfg) (Ews.stops s.cfg) n s.ews = some e ∧ t = { s with ews := e } := by
  unfold ewsRun at h
  split at h
  · cases h; exact ⟨_, by assumption, rfl⟩
  · cases h

theorem ewsRun_of_some {n : Nat} {s : State} {e : Ews} (h : runSeq (ewsSeq s.cfg) (Ews.stops s.cfg) n s.ews = some e) :
    ewsRun n s = .next { s with ews := e } := by unfold ewsRun; rw [h]

theorem rpaRun_next {n : Nat} {s t : State} (h : rpaRun n s = .next t) :
    ∃ r, runSeq rpaSeq Rpa.stops n s.rpa = some r ∧ t = { s with rpa := r } := by
  unfold rpaRun at h
  split at h
  · cases h; exact ⟨_, by assumption, rfl⟩
  · cases h

theorem rpaRun_of_some {n : Nat} {s : State} {r : Rpa} (h : runSeq rpaSeq Rpa.stops n s.rpa = some r) :
    rpaRun n s = .next { s with rpa := r } := by unfold rpaRun; rw [h]

/-! ## A unit does not look at its ports while it runs (R100) -/

theorem fpcSeq_port {c : Config} (p : Port) (x : Fpc) :
    fpcSeq c { x with port := p } = (fpcSeq c x).map (fun y => { y with port := p }) := by
  show fpcRow c { x.moves with port := p } = (fpcRow c x.moves).map (fun y => { y with port := p })
  generalize x.moves = y
  obtain ⟨_, _, pos, row, _, op, n, data, _, _, _, _, _, _, _, d⟩ := y
  cases pos
  case ucmp => simp only [fpcRow]; cases differ (d.readResult c.pageBytes c.pageBase) n data <;> rfl
  case ep => simp only [fpcRow]; cases d.busy <;> cases op <;> rfl
  case rw => simp only [fpcRow]; split_ifs <;> rfl
  case wp => simp only [fpcRow]; split_ifs <;> rfl
  case pr => simp only [fpcRow]; split_ifs <;> rfl
  all_goals rfl

theorem Ews.readDone_port {c : Config} (p : Port) (e : Ews) :
    Ews.readDone c { e with port := p } = (Ews.readDone c e).map (fun y => { y with port := p }) := by
  unfold Ews.readDone
  split <;> (try split) <;> (try split) <;> simp_all [Ews.complete, Ews.result]

theorem Ews.writeDone_port {c : Config} (p : Port) (e : Ews) :
    Ews.writeDone c { e with port := p } = (Ews.writeDone c e).map (fun y => { y with port := p }) := by
  unfold Ews.writeDone
  split <;> (try split) <;> (try split) <;> simp_all [Ews.complete, Ews.result]

theorem ewsSeq_port {c : Config} (p : Port) (x : Ews) :
    ewsSeq c { x with port := p } = (ewsSeq c x).map (fun y => { y with port := p }) := by
  have hm : ({ x with port := p } : Ews).moves c = { x.moves c with port := p } := by
    obtain ⟨_, _, _, _, _, _, _, _, _, _, _, _, _, _, _, _, _, _, _, _, _, d, _, sched⟩ := x
    cases sched
    · simp only [Ews.moves]; split_ifs <;> rfl
    · rfl
  simp only [ewsSeq, hm]
  generalize x.moves c = y
  by_cases h1 : y.pos = .r2Stop
  · rw [ewsLine_r2Stop (e := { y with port := p }) h1, ewsLine_r2Stop h1]
    exact Ews.readDone_port p y.callStop
  by_cases h2 : y.pos = .ws
  · rw [ewsLine_ws (e := { y with port := p }) h2, ewsLine_ws h2]
    exact Ews.writeDone_port p y.callStop
  obtain ⟨_, op, _, _, _, _, _, _, _, _, pos, _, _, _, _, _, _, _, _, _, _, _, _, _⟩ := y
  cases pos
  case r1 => simp only [ewsLine]; cases c.ewsReadAckpoll <;> rfl
  case r2Stop => exact absurd rfl h1
  case ws => exact absurd rfl h2
  case ssCK => simp only [ewsLine]; split_ifs <;> rfl
  case ssLO => cases op <;> rfl
  all_goals rfl

theorem rpaSeq_port (p : Port) (x : Rpa) :
    rpaSeq { x with port := p } = (rpaSeq x).map (fun y => { y with port := p }) := by
  cases h : x.op <;> simp only [rpaSeq, h] <;> rfl

/-! ## A command at its unit -/

/-- The accepted FPC command: its position and latches (R127). -/
def acceptedFpc (i : Instr) (f : Fpc) : Fpc :=
  match i with
  | .fpcRead n => f.accept .read .rd .fpcRead n []
  | .fpcWrite n data => f.accept .write .er .fpcWrite n data
  | .fpcUpdate n data => f.accept .update .ucmp .fpcUpdate n data
  | .fpcErase => f.accept .erase .er .fpcErase 0#16 []
  | .fpcPrint => { f with row := 0, inrun := false }.accept .print .pr .fpcPrint 0#16 []
  | .ewsRead _ _ | .ewsWrite _ _ _ | .ewsEraseAll | .ewsPrint | .rpaRead _ | .rpaWrite _ _ | .rpaCfg _ _ _ => f

/-- The accepted EWS command (R150, R160). -/
def acceptedEws (i : Instr) (e : Ews) : Ews :=
  match i with
  | .ewsRead address n => e.accept .read .r1 .ewsRead address n []
  | .ewsWrite address n data => e.accept .write .w0 .ewsWrite address n data
  | .ewsEraseAll => { e.accept .eraseAll .ea .ewsEraseAll 0#16 0#16 [] with page := 0 }
  | .ewsPrint => { e.accept .print .pr .ewsPrint 0#16 0#16 [] with page := 0 }
  | .fpcRead _ | .fpcWrite _ _ | .fpcUpdate _ _ | .fpcErase | .fpcPrint | .rpaRead _ | .rpaWrite _ _ | .rpaCfg _ _ _ => e

/-- The accepted RPA command (R36). -/
def acceptedRpa (i : Instr) (r : Rpa) : Rpa :=
  match i with
  | .rpaRead n => r.accept .read .rpaRead n []
  | .rpaWrite n src => r.accept .write .rpaWrite n src
  | .rpaCfg cap rd wr => { r.accept .cfg .rpaCfg r.n [] with opCap := cap, opRd := rd, opWr := wr }
  | .fpcRead _ | .fpcWrite _ _ | .fpcUpdate _ _ | .fpcErase | .fpcPrint | .ewsRead _ _ | .ewsWrite _ _ _ | .ewsEraseAll
  | .ewsPrint => r

/-- A command at a unit that is in the middle of another waits (R100, log 27). -/
theorem exec_occupied {i : Instr} {s : State} (h : s.occupied i.unit = true) : exec i s = .next s := by
  cases i <;>
    simp_all [exec, State.occupied, Instr.unit, Instr.opcode, Opcode.unit, execFpcRead, execFpcWrite, execFpcUpdate,
      execFpcErase, execFpcPrint, execEwsRead, execEwsWrite, execEwsEraseAll, execEwsPrint, execRpaRead, execRpaWrite,
      execRpaCfg, fpcCommand, ewsCommand, ewsPagesCommand, rpaCommand]

/-- A command at a unit that can take one, its precondition met: it is accepted and run (R97 step 5). -/
theorem exec_accepted {i : Instr} {s : State} (h : s.occupied i.unit = false) (hp : precondition i s = true) :
    exec i s = match i.unit with
      | .fpc => fpcStart { s with fpc := acceptedFpc i s.fpc }
      | .ews => ewsStart { s with ews := acceptedEws i s.ews }
      | .rpa => rpaStart { s with rpa := acceptedRpa i s.rpa } := by
  cases i <;> simp only [State.occupied, Instr.unit, Instr.opcode, Opcode.unit, Bool.not_eq_false'] at h <;>
    simp only [precondition] at hp <;>
    simp [exec, Instr.unit, Instr.opcode, Opcode.unit, execFpcRead, execFpcWrite, execFpcUpdate,
      execFpcErase, execFpcPrint, execEwsRead, execEwsWrite, execEwsEraseAll, execEwsPrint, execRpaRead, execRpaWrite,
      execRpaCfg, fpcCommand, ewsCommand, ewsPagesCommand, rpaCommand, h, hp, acceptedFpc, acceptedEws, acceptedRpa]
  simp only [Fpc.takes] at h ⊢
  simp [h]

/-! ## Acceptance and the invariant -/

/-- FPC at rest takes commands (R120). -/
theorem Fpc.takes_iff {c : Config} {f : Fpc} (h : f.Inv c) : f.takes = !f.busy := by
  obtain ⟨h1, -, h3, -⟩ := h
  cases hb : f.busy with
  | true => simp [takes, hb]
  | false => rw [h3.1 hb] at h1; simp [takes, hb, h1, FpcPos.phase]

theorem acceptedFpc_inv {c : Config} (hc : c.Valid) {i : Instr} {s : State} (hs : s.cfg = c) (h : s.fpc.Inv c)
    (hb : s.fpc.busy = false) (hw : i.wellFormed = true) (hp : precondition i s = true) : (acceptedFpc i s.fpc).Inv c := by
  have hp' := Config.printRows_pos hc
  have h' := h
  obtain ⟨h1, h2, h3, h4, h5, h6, h7, h8, h9, h10, h11⟩ := h'
  have hpos := h3.1 hb
  rw [hpos] at h1
  subst hs
  cases i with
  | fpcRead n =>
    exact ⟨h1, rfl, by simp [acceptedFpc], h4, by simpa [precondition, fpcLengthOk, acceptedFpc] using hp, by simp [acceptedFpc],
      by simp [acceptedFpc], by simp [acceptedFpc], h9, h10, h11⟩
  | fpcWrite n data =>
    exact ⟨h1, rfl, by simp [acceptedFpc], h4, by simpa [precondition, fpcLengthOk, acceptedFpc] using hp,
      fun _ => by simpa [Instr.wellFormed, acceptedFpc] using hw,
      by simp [acceptedFpc], by simp [acceptedFpc], h9, h10, h11⟩
  | fpcUpdate n data =>
    exact ⟨h1, rfl, by simp [acceptedFpc], h4, by simpa [precondition, fpcLengthOk, acceptedFpc] using hp,
      fun _ => by simpa [Instr.wellFormed, acceptedFpc] using hw,
      by simp [acceptedFpc], by simp [acceptedFpc], h9, h10, h11⟩
  | fpcErase =>
    exact ⟨h1, rfl, by simp [acceptedFpc], h4, by simp [acceptedFpc], by simp [acceptedFpc], by simp [acceptedFpc],
      by simp [acceptedFpc], h9, h10, h11⟩
  | fpcPrint =>
    exact ⟨h1, rfl, by simp [acceptedFpc], h4, by simp [acceptedFpc], by simp [acceptedFpc], by simp [acceptedFpc],
      fun _ => hp', h9, h10, h11⟩
  | ewsRead _ _ => exact h
  | ewsWrite _ _ _ => exact h
  | ewsEraseAll => exact h
  | ewsPrint => exact h
  | rpaRead _ => exact h
  | rpaWrite _ _ => exact h
  | rpaCfg _ _ _ => exact h

theorem acceptedEws_blockInv {c : Config} (hc : c.Valid) {i : Instr} {s : State} (hs : s.cfg = c) (h : s.ews.BlockInv c)
    (hb : s.ews.busy = false) (hw : i.wellFormed = true) (hp : precondition i s = true) : (acceptedEws i s.ews).BlockInv c := by
  have hpg := Config.eePages_pos hc
  have h' := h
  obtain ⟨h1, h2, h3, h4, h5, h6, h7, h8, h9, h10, h11, h12, h13, h14⟩ := h'
  have hpos := h2.1 hb
  have htx : s.ews.txnOpen = false := by rw [h3 (by simp [hpos]), hpos]; rfl
  subst hs
  cases i with
  | ewsRead address n =>
    have hr : 1 ≤ n.toNat ∧ address.toNat + n.toNat ≤ s.cfg.eeSize := by simpa [precondition, ewsRangeOk] using hp
    exact ⟨rfl, by simp [acceptedEws], fun _ => htx, fun _ => hr, by simp [acceptedEws], by simp [acceptedEws, Ews.visits],
      by simp [acceptedEws], h8, by simp [acceptedEws, Ews.writes], by simp [acceptedEws], by simp [acceptedEws],
      by simp [acceptedEws], h13, h14⟩
  | ewsWrite address n data =>
    have hr : 1 ≤ n.toNat ∧ address.toNat + n.toNat ≤ s.cfg.eeSize := by simpa [precondition, ewsRangeOk] using hp
    exact ⟨rfl, by simp [acceptedEws], fun _ => htx, fun _ => hr, fun _ => by simpa [Instr.wellFormed, acceptedEws] using hw,
      by simp [acceptedEws, Ews.visits],
      by simp [acceptedEws], h8, by simp [acceptedEws, EwsPos.sending], by simp [acceptedEws], by simp [acceptedEws],
      by simp [acceptedEws], h13, h14⟩
  | ewsEraseAll =>
    exact ⟨rfl, by simp [acceptedEws], fun _ => htx, by simp [acceptedEws], by simp [acceptedEws], fun _ => hpg,
      by simp [acceptedEws], h8, by simp [acceptedEws, EwsPos.sending], by simp [acceptedEws], by simp [acceptedEws],
      by simp [acceptedEws], h13, h14⟩
  | ewsPrint =>
    exact ⟨rfl, by simp [acceptedEws], fun _ => htx, by simp [acceptedEws], by simp [acceptedEws], fun _ => hpg,
      fun _ => by simpa [precondition, ewsPrintOk] using hp, h8, by simp [acceptedEws, EwsPos.sending], by simp [acceptedEws],
      by simp [acceptedEws], by simp [acceptedEws], h13, h14⟩
  | fpcRead _ => exact h
  | fpcWrite _ _ => exact h
  | fpcUpdate _ _ => exact h
  | fpcErase => exact h
  | fpcPrint => exact h
  | rpaRead _ => exact h
  | rpaWrite _ _ => exact h
  | rpaCfg _ _ _ => exact h

/-- Acceptance leaves EWS's collaborators alone (R97). -/
@[simp] theorem acceptedEws_eeprom (i : Instr) (e : Ews) : (acceptedEws i e).eeprom = e.eeprom := by cases i <;> rfl
@[simp] theorem acceptedEws_clock (i : Instr) (e : Ews) : (acceptedEws i e).clock = e.clock := by cases i <;> rfl
@[simp] theorem acceptedEws_sched (i : Instr) (e : Ews) : (acceptedEws i e).sched = e.sched := by cases i <;> rfl
@[simp] theorem acceptedFpc_nvm (i : Instr) (f : Fpc) : (acceptedFpc i f).nvm = f.nvm := by cases i <;> rfl

theorem acceptedRpa_inv {c : Config} {i : Instr} {s : State} (hs : s.cfg = c) (h : s.rpa.Inv c)
    (hw : i.wellFormed = true) (hp : precondition i s = true) : (acceptedRpa i s.rpa).Inv c := by
  have h' := h
  obtain ⟨h1, h2, h3, h4, h5, h6, h7, h8, h9⟩ := h'
  subst hs
  cases i with
  | rpaRead n =>
    exact ⟨by simp [acceptedRpa], h2, h3, h4, fun _ => hp, by simp [acceptedRpa], by simp [acceptedRpa], h8, h9⟩
  | rpaWrite n src =>
    exact ⟨by simp [acceptedRpa], h2, h3, h4, fun _ => hp, fun _ => by simpa [Instr.wellFormed, acceptedRpa] using hw,
      by simp [acceptedRpa], h8, h9⟩
  | rpaCfg cap rd wr =>
    exact ⟨by simp [acceptedRpa], h2, h3, h4, by simp [acceptedRpa], by simp [acceptedRpa], fun _ => hp, h8, h9⟩
  | fpcRead _ => exact h
  | fpcWrite _ _ => exact h
  | fpcUpdate _ _ => exact h
  | fpcErase => exact h
  | fpcPrint => exact h
  | ewsRead _ _ => exact h
  | ewsWrite _ _ _ => exact h
  | ewsEraseAll => exact h
  | ewsPrint => exact h

/-! ## Reset and the invariant (R250, R252) -/

/-- A cut operation spoils only bytes of the page (log 16). -/
theorem Nvm.cut_inv {c : Config} {d : Nvm} (hw : Memory.wf .flash d.flash) (hm : ∀ x ∈ d.flash, inPage c x.1)
    (hr : d.busy = true → c.pageBase ≤ d.regionAddr ∧ d.regionAddr + d.regionLen ≤ c.pageBase + c.pageBytes) :
    Memory.wf .flash d.cut.flash ∧ ∀ x ∈ d.cut.flash, inPage c x.1 := by
  rw [Nvm.cut_flash]
  split
  · rename_i hb
    exact flash_inv hw hm (length_freeBytes) (hr hb).1 (hr hb).2
  · exact ⟨hw, hm⟩

/-- The addresses of an open write transaction lie inside the EEPROM. -/
theorem Eeprom.openBytes_lt {c : Config} (hc : c.Valid) {d : Eeprom} (hp : d.ptr < c.eeSize) :
    ∀ a ∈ d.openBytes c, a < c.eeSize := by
  intro a ha
  simp only [openBytes, List.mem_map, List.mem_range] at ha
  obtain ⟨j, -, rfl⟩ := ha
  have hd : d.ptr / c.eePage < c.eePages := by
    rw [Nat.div_lt_iff_lt_mul (Config.eePage_pos hc), Config.eePages_mul hc]; exact hp
  have := Config.page_in_eeprom hc hd
  have hm : (d.ptr % c.eePage + c.eePage - 1 - j) % c.eePage < c.eePage := Nat.mod_lt _ (Config.eePage_pos hc)
  omega

/-- A cut transaction spoils only bytes of the EEPROM (log 16). -/
theorem Eeprom.ok_cut {c : Config} (hc : c.Valid) {d : Eeprom} (h : Eeprom.Ok c d) : Eeprom.Ok c (d.cut c) := by
  obtain ⟨h1, h2, h3⟩ := h
  unfold cut
  split
  · refine ⟨Eeprom.wf_spoil h1, fun x hx => ?_, h3⟩
    rcases Eeprom.mem_spoil hx with h | h
    · exact Eeprom.openBytes_lt hc h3 _ h
    · exact h2 x h
  · exact ⟨h1, h2, h3⟩

theorem Fpc.atReset_inv {c : Config} {d : Nvm} {tr : List NvmCall} (hw : Memory.wf .flash d.flash)
    (hm : ∀ x ∈ d.flash, inPage c x.1)
    (hr : d.busy = true → c.pageBase ≤ d.regionAddr ∧ d.regionAddr + d.regionLen ≤ c.pageBase + c.pageBytes) :
    (Fpc.atReset c d tr).Inv c :=
  ⟨rfl, rfl, by simp [atReset], by simp [atReset], by simp [atReset], by simp [atReset], by simp [atReset],
    by simp [atReset], hw, hm, hr⟩

theorem Ews.atReset_blockInv {c : Config} {d : Eeprom} {k : Clock} {l : List EwsMove} {tr : List BusCall} :
    (Ews.atReset c d k l tr).BlockInv c :=
  ⟨rfl, by simp [atReset], fun _ => rfl, by simp [atReset], by simp [atReset], by simp [atReset, Ews.visits],
    by simp [atReset], by simp [atReset], by simp [atReset, Ews.writes], by simp [atReset], by simp [atReset],
    by simp [atReset], by simp [atReset], by simp [atReset]⟩

theorem Rpa.atReset_inv {c : Config} {n : Nat} : (Rpa.atReset n).Inv c :=
  ⟨by simp [atReset], by simp [atReset], by simp [atReset], by simp [atReset], by simp [atReset], by simp [atReset],
    by simp [atReset], by simp [atReset, Memory.wf], by simp [atReset]⟩

end Sys2Proof.Machine
end

