-- ==== Sys2Proof/Tests/Slice0.lean ====
section
/-! SUPPORT. The model's own tests. Every expected value is the spec's: "V n" and "S n" are the vectors of
95_test_vectors.md, "R n" a rule's worked example. The second half shows, for each statement of the obligations that has
hypotheses, a state and operands that meet them all. -/

namespace Sys2Proof.Tests

set_option Elab.async false

open Sys2Proof.Machine

/-! ## Helpers -/

/-- The next state, if that is what an outcome is. -/
def next? : Host.Outcome State Fault Refusal → Option State
  | .next s => some s
  | .fault _ => none
  | .refused _ => none

/-- One step taken on a command: its word and payload on its unit's ports, in the given state (log 13). -/
def after (s : State) (cw : Word64) (payload : List Byte) : Option State := next? (step (s.withCommand cw payload))

/-- The machine with a flash page that begins with the given bytes, and a schedule of the NVM device. -/
def flashed (bytes : List Byte) (sched : List Bool) : State :=
  { State.reset with fpc := { State.reset.fpc with nvm := { Nvm.initial with
      flash := Memory.setBytes .flash [] 0x1F80 bytes, sched := sched } } }

/-- The machine with EEPROM bytes from an address on, a commit pending or not in a device that finishes on schedule only, and a
schedule of the collaborators. -/
def eeprommed (a : Nat) (bytes : List Byte) (commit : Bool) (sched : List EwsMove) : State :=
  { State.reset with ews := { State.reset.ews with
      eeprom := { Eeprom.initial with
        ee := Memory.setBytes .eeprom [] a bytes, commit := commit, stalled := !sched.isEmpty }
      sched := sched } }

/-- The machine with a configured ring. -/
def ringed (cap rd wr : Half) (bytes : List Byte) : State :=
  { State.reset with rpa := { State.reset.rpa with
      cap := cap, rd := rd, wr := wr, mem := Memory.setBytes .ring [] 0 bytes } }

/-- A schedule in which the EEPROM finishes nothing and the tick advances by the given amounts before each step. -/
def ticking (l : List Nat) : List EwsMove := l.map (fun k => ⟨false, k⟩)

/-! ## WellFormed refuses each ill-formed term (R94) -/

theorem test_illformed_fpcWrite : (Instr.fpcWrite 2#16 [0x48#8]).wellFormed = false := by decide
theorem test_illformed_fpcUpdate : (Instr.fpcUpdate 0#16 [0x48#8]).wellFormed = false := by decide
theorem test_illformed_ewsWrite : (Instr.ewsWrite 0x3F#16 1#16 []).wellFormed = false := by decide
theorem test_illformed_rpaWrite : (Instr.rpaWrite 3#16 [1#8, 2#8, 3#8, 4#8]).wellFormed = false := by decide

/-- R95: the response word is sent `rw[31:24]` first; the response of S2's updates and V60's refusal. -/
theorem test_response_bytes : Rw.bytes 0x21810003#32 = [0x21#8, 0x81#8, 0x00#8, 0x03#8] := by decide

/-! ## Decoding: the words of V1 to V12, written out from R91 to R95 -/

theorem test_decode_V1 : decode [0x10#8, 0#8, 0#8, 0#8, 0#8, 0#8, 0#8, 4#8] = .ok (.fpcRead 4#16, []) := by rfl
theorem test_decode_V2 : decode [0x11#8, 0#8, 0#8, 0#8, 0#8, 0#8, 0#8, 2#8, 0x48#8, 0x69#8]
    = .ok (.fpcWrite 2#16 [0x48#8, 0x69#8], []) := by rfl
theorem test_decode_V3 : decode [0x12#8, 0#8, 0#8, 0#8, 0#8, 0#8, 0#8, 2#8, 0x48#8, 0x69#8]
    = .ok (.fpcUpdate 2#16 [0x48#8, 0x69#8], []) := by rfl
theorem test_decode_V4 : decode [0x13#8, 0#8, 0#8, 0#8, 0#8, 0#8, 0#8, 0#8] = .ok (.fpcErase, []) := by rfl
theorem test_decode_V5 : decode [0x14#8, 0#8, 0#8, 0#8, 0#8, 0#8, 0#8, 0#8] = .ok (.fpcPrint, []) := by rfl
theorem test_decode_V6 : decode [0x20#8, 0#8, 0#8, 0#8, 0#8, 0x3F#8, 0#8, 2#8] = .ok (.ewsRead 0x3F#16 2#16, []) := by rfl
theorem test_decode_V7 : decode [0x21#8, 0#8, 0#8, 0#8, 0#8, 0x3F#8, 0#8, 2#8, 0x11#8, 0x22#8]
    = .ok (.ewsWrite 0x3F#16 2#16 [0x11#8, 0x22#8], []) := by rfl
theorem test_decode_V8 : decode [0x22#8, 0#8, 0#8, 0#8, 0#8, 0#8, 0#8, 0#8] = .ok (.ewsEraseAll, []) := by rfl
theorem test_decode_V9 : decode [0x23#8, 0#8, 0#8, 0#8, 0#8, 0#8, 0#8, 0#8] = .ok (.ewsPrint, []) := by rfl
theorem test_decode_V10 : decode [0x30#8, 0#8, 0#8, 0#8, 0#8, 0#8, 0#8, 3#8] = .ok (.rpaRead 3#16, []) := by rfl
theorem test_decode_V11 : decode [0x31#8, 0#8, 0#8, 0#8, 0#8, 0#8, 0#8, 3#8, 0xA1#8, 0xB2#8, 0xC3#8]
    = .ok (.rpaWrite 3#16 [0xA1#8, 0xB2#8, 0xC3#8], []) := by rfl
theorem test_decode_V12 : decode [0x32#8, 0#8, 0#8, 8#8, 0#8, 7#8, 0#8, 7#8] = .ok (.rpaCfg 8#16 7#16 7#16, []) := by rfl

/-- The fields of format FC lie apart: CAP, RD and WR with three different values, each with both bytes in use (R92). -/
theorem test_decode_cfg_fields : decode [0x32#8, 0#8, 0x12#8, 0x34#8, 0x56#8, 0x78#8, 0x9A#8, 0xBC#8]
    = .ok (.rpaCfg 0x1234#16 0x5678#16 0x9ABC#16, []) := by rfl

/-- V13 to V19: words that no port takes, and words that are illegal at the port they are presented to. -/
theorem test_illegal_words :
    [fetchAt .fpc [0x1300000000000001#64] [], fetchAt .fpc [0x1001000000000004#64] [],
     fetchAt .fpc [0x1000000100000004#64] [], fetchAt .fpc [0x1000000000010004#64] [],
     fetchAt .fpc [0x1500000000000000#64] [], fetchAt .fpc [0x2000000000000001#64] [],
     fetchAt .fpc [0x0000000000000000#64] [], fetchAt .ews [0x2000000100000001#64] [],
     fetchAt .ews [0x2200000000000001#64] [], fetchAt .ews [0x2400000000000000#64] [],
     fetchAt .ews [0x1000000000000001#64] [], fetchAt .rpa [0x3201000800000000#64] [],
     fetchAt .rpa [0x3000000000010001#64] [], fetchAt .rpa [0x3300000000000000#64] []]
    = [0x13#8, 0x10#8, 0x10#8, 0x10#8, 0x15#8, 0x20#8, 0x00#8, 0x20#8, 0x22#8, 0x24#8, 0x10#8, 0x32#8, 0x30#8, 0x33#8].map
        (fun opc => Fetched.illegal opc [] []) := by decide

/-- "Priority" after V19: a payload is taken whole before the reserved field is looked at, and `ERR_ILLEGAL` wins (R228). -/
theorem test_illegal_takes_payload :
    (next? (step ({ State.reset with turn := .fpc }.present .fpc 0x1101000000000081#64 (List.replicate 130 0xAA#8)))).map
      (fun t => (t.fpc.rsp, t.fpc.port.pay)) = some ([0x11800000#32], [0xAA#8]) := by decide +kernel

/-- The opcode table's numbering: bits 63:0 are the command word, payload byte k starts at bit 64 + 8k; bits above `nbits` are
zero. -/
theorem test_tableWord :
    decodeTableWord 80 0x6948_1100000000000002 = some (.fpcWrite 2#16 [0x48#8, 0x69#8])
    ∧ decodeTableWord 64 0x6948_1100000000000002 = some (.fpcWrite 2#16 [0#8, 0#8]) := by decide

/-! ## FPC -/

/-- V20 (its FPC.READ): the bytes, the one call, the response. -/
theorem test_fpcRead :
    (after (flashed [0x48#8, 0x69#8] []) 0x1000000000000004#64 []).map (fun t => (t.fpc.dout, t.fpc.trace, t.fpc.rsp))
      = some ([0x48#8, 0x69#8, 0xFF#8, 0xFF#8], [.read 4 0x1F80 [0x48#8, 0x69#8, 0xFF#8, 0xFF#8]], [0x10000000#32]) := by
  decide +kernel

/-- V26: one byte past the page. -/
theorem test_fpcRead_refused :
    (after (flashed [0x48#8] []) 0x1000000000000081#64 []).map (fun t => (t.fpc.dout, t.fpc.trace, t.fpc.rsp))
      = some ([], [], [0x10810000#32]) := by decide +kernel

/-- V20: the six calls of FPC.WRITE with the ideal NVM, and the page it leaves. -/
theorem test_fpcWrite :
    (after (flashed [1#8, 2#8, 3#8] []) 0x1100000000000002#64 [0x48#8, 0x69#8]).map
        (fun t => (t.fpc.trace.reverse, t.page == [0x48#8, 0x69#8] ++ List.replicate 126 0xFF#8, t.fpc.row, t.fpc.rsp))
      = some ([.pageErase 0x1F80, .isBusy false, .rowWrite ([0x48#8, 0x69#8] ++ List.replicate 62 0xFF#8) 0x1F80,
          .isBusy false, .rowWrite (List.replicate 64 0xFF#8) 0x1FC0, .isBusy false], true, 1, [0x11000000#32]) := by
  decide +kernel

/-- V21: the device takes `DONE` after the second poll of the erase, after the first poll of row 0, before the first poll of row 1.
The entries are the FPC steps in order: erase, three polls, fill, row 0, two polls, row 1, one poll. -/
theorem test_fpcWrite_polls :
    (after (flashed [] [false, false, false, true, false, false, false, true, false, true]) 0x1100000000000002#64
        [0x48#8, 0x69#8]).map
      (fun t => t.fpc.trace.reverse.map (fun k => match k with
        | .isBusy b => some b | .pageErase _ => none | .rowWrite _ _ => none | .read _ _ _ => none))
      = some [none, some true, some true, some false, none, some true, some false, none, some false] := by decide +kernel

/-- V29, first command: an equal update is one read and no erase. -/
theorem test_fpcUpdate_equal :
    (after (flashed [0x10#8, 0x20#8, 0x30#8, 0x40#8] []) 0x1200000000000002#64 [0x10#8, 0x20#8]).map
        (fun t => (t.fpc.trace.length, t.fpc.nvm.eraseCount, t.page.take 4, t.fpc.rsp))
      = some (1, 0, [0x10#8, 0x20#8, 0x30#8, 0x40#8], [0x12000000#32]) := by decide +kernel

/-- V29, second command: a different update writes, and the tail is lost. -/
theorem test_fpcUpdate_different :
    (after (flashed [0x10#8, 0x20#8, 0x30#8, 0x40#8] []) 0x1200000000000002#64 [0x10#8, 0x21#8]).map
        (fun t => (t.fpc.trace.length, t.fpc.nvm.eraseCount, t.fpc.nvm.rowWriteCount, t.page.take 4, t.fpc.rsp))
      = some (7, 1, 2, [0x10#8, 0x21#8, 0xFF#8, 0xFF#8], [0x12000000#32]) := by decide +kernel

/-- V28: the device is done after the third poll. -/
theorem test_fpcErase :
    (after (flashed (List.replicate 128 0#8) [false, false, false, false, true]) 0x1300000000000000#64 []).map
        (fun t => (t.fpc.trace.reverse, t.fpc.nvm.flash, t.fpc.nvm.eraseCount, t.fpc.rsp))
      = some ([.pageErase 0x1F80, .isBusy true, .isBusy true, .isBusy true, .isBusy false], [], 1, [0x13000000#32]) := by
  decide +kernel

/-- V31: the hang, as the status word shows it. -/
theorem test_fpcErase_hang :
    (after { State.reset with fpc := { State.reset.fpc with nvm := { Nvm.initial with stalled := true } } }
        0x1300000000000000#64 []).map (fun t => (fpcStatus t, t.fpc.rsp, t.fpc.nvm.busy)) = some (5#32, [], true) := by
  decide +kernel

/-- V40: three lines, the middle one a marker line of row 1. -/
theorem test_fpcPrint :
    (after (flashed ([0x48#8, 0x69#8] ++ List.replicate 125 0xFF#8 ++ [0x21#8]) []) 0x1400000000000000#64 []).map
        (fun t => (t.fpc.diag == "00001F80 |  H  i ".toList ++ (List.replicate 30 "FF ".toList).flatten ++ ['\n']
          ++ "...      | ".toList ++ (List.replicate 32 "FF ".toList).flatten ++ ['\n']
          ++ "00001FE0 | ".toList ++ (List.replicate 31 "FF ".toList).flatten ++ " ! ".toList ++ ['\n'], t.fpc.rsp))
      = some (true, [0x14000000#32]) := by decide +kernel

/-- V44: a printable and an unprintable row, and a run of one blank row: four lines. -/
theorem test_fpcPrint_rows :
    (after (flashed (List.replicate 40 0xFF#8 ++ [0x7E#8, 0x7F#8, 0x1F#8, 0x20#8]) []) 0x1400000000000000#64 []).map
        (fun t => (t.fpc.diag.countP (fun ch => ch == '\n'), (t.fpc.diag.drop 108).take 47 ))
      = some (4, "00001FA0 | FF FF FF FF FF FF FF FF  ~ 7F 1F    ".toList) := by decide +kernel

/-! ## EWS -/

/-- R153 worked example (V51): the call trace and the bytes. -/
theorem test_ewsRead :
    (after { eeprommed 0x3F [0x11#8, 0x22#8] false [] with
        ews := { (eeprommed 0x3F [0x11#8, 0x22#8] false []).ews with clock := ⟨7⟩ } } 0x20000000003F0002#64 []).map
        (fun t => (t.ews.trace.reverse, t.ews.dout, t.ews.rsp, t.ews.eeprom.ptr))
      = some ([.now 7, .start, .send 0xA0#8 true, .send 0x00#8 true, .send 0x3F#8 true, .stop, .start, .send 0xA1#8 true,
          .receive true 0x11#8, .receive false 0x22#8, .stop], [0x11#8, 0x22#8], [0x20000000#32], 0x41) := by decide +kernel

/-- V61: a device that never answers; three bytes of any value and `OK_TIMED_OUT`. -/
theorem test_ewsRead_timed_out :
    (after (eeprommed 0 [] true (ticking [9000, 0, 0, 1, 0, 0, 1999, 0, 0, 3001])) 0x20000000003E0003#64 []).map
        (fun t => (t.ews.rsp, t.ews.dout.length, t.ews.trace.length, ewsStatus t))
      = some ([0x20010000#32], 3, 19, 4#32) := by decide +kernel

/-- V50: a write across one page boundary, tick draws 7 and 9. -/
theorem test_ewsWrite :
    (after { State.reset with ews := { State.reset.ews with sched := [⟨true, 0⟩, ⟨true, 7⟩, ⟨true, 0⟩, ⟨true, 0⟩, ⟨true, 0⟩,
        ⟨true, 0⟩, ⟨true, 0⟩, ⟨true, 0⟩, ⟨true, 2⟩] } } 0x21000000003F0002#64 [0x11#8, 0x22#8]).map
        (fun t => (t.ews.trace.reverse, t.ews.eeprom.ee, t.ews.addr, t.ews.rsp))
      = some ([.now 7, .start, .send 0xA0#8 true, .send 0x00#8 true, .send 0x3F#8 true, .send 0x11#8 true, .stop, .now 9,
          .start, .send 0xA0#8 true, .send 0x00#8 true, .send 0x40#8 true, .send 0x22#8 true, .stop],
          [(0x3F, 0x11#8), (0x40, 0x22#8)], 0x41#17, [0x21000000#32]) := by decide +kernel

/-- V54: elapsed 4999 retries, elapsed 5000 gives up; the second transaction is lost. -/
theorem test_ewsWrite_lost :
    (after (eeprommed 0 [] false (ticking [0, 0, 0, 0, 0, 0, 0, 0, 10, 0, 0, 2990, 0, 0, 2009, 0, 0, 1]))
        0x21000000003F0002#64 [0x11#8, 0x22#8]).map
        (fun t => (t.ews.trace.take 8, t.ews.eeprom.ee, ewsStatus t, t.ews.rsp))
      = some ([.stop, .send 0x22#8 false, .send 0x40#8 false, .send 0x00#8 false, .now 5010, .send 0xA0#8 false, .start,
          .now 5009], [(0x3F, 0x11#8)], 4#32, [0x21010000#32]) := by decide +kernel

/-- V59: the whole EEPROM erased, one transaction a page. -/
theorem test_ewsEraseAll :
    (after (eeprommed 0x3E [0#8, 1#8, 2#8, 3#8] false []) 0x2200000000000000#64 []).map
        (fun t => (t.ews.eeprom.ee, t.ews.addr, countCalls (fun k => k == .start) t.ews.trace, t.ews.trace.length, t.ews.rsp))
      = some ([], 256#17, 4, 4 + 4 + 4 + 268, [0x22000000#32]) := by decide +kernel

/-- V46: eight lines, the third not blank, none suppressed. -/
theorem test_ewsPrint :
    (after (eeprommed 0x40 [0x41#8] false []) 0x2300000000000000#64 []).map
        (fun t => (t.ews.diag.length, ((t.ews.diag.drop 216).take 17), t.ews.trace.length, t.ews.rsp))
      = some (864, "00000040 |  A FF ".toList, 8 + 8 + 16 + 256 + 4, [0x23000000#32]) := by decide +kernel

/-- R102: EWS.PRINT of an EEPROM whose pages are not whole rows is refused. -/
theorem test_ewsPrint_refused :
    (after { State.reset with cfg := { Config.cfgT with eePage := 16 } } 0x2300000000000000#64 []).map (fun t => t.ews.rsp)
      = some [0x23810000#32] := by decide +kernel

/-! ## RPA -/

/-- R182 worked example. -/
theorem test_rpaRead :
    (after (ringed 8#16 7#16 7#16 [0xB2#8, 0xC3#8, 0#8, 0#8, 0#8, 0#8, 0#8, 0xA1#8]) 0x3000000000000003#64 []).map
        (fun t => (t.rpa.dout, t.rpa.rd, t.rpa.wr, t.rpa.rsp))
      = some ([0xA1#8, 0xB2#8, 0xC3#8], 2#16, 7#16, [0x30000002#32]) := by decide +kernel

/-- V78 and R184: before any RPA.CFG. -/
theorem test_rpaRead_unconfigured :
    (after State.reset 0x3000000000000000#64 []).map (fun t => (t.rpa.dout, t.rpa.rsp)) = some ([], [0x30810000#32]) := by
  decide +kernel

/-- R183 worked example. -/
theorem test_rpaWrite :
    (after (ringed 8#16 7#16 7#16 []) 0x3100000000000003#64 [0xA1#8, 0xB2#8, 0xC3#8]).map
        (fun t => (t.rpa.mem, t.rpa.wr, t.rpa.rd, t.rpa.rsp))
      = some ([(0, 0xB2#8), (1, 0xC3#8), (7, 0xA1#8)], 2#16, 7#16, [0x31000002#32]) := by decide +kernel

/-- V72: exactly the remaining capacity wraps with an empty tail. -/
theorem test_rpaWrite_exact :
    (after (ringed 8#16 5#16 5#16 []) 0x3100000000000003#64 [1#8, 2#8, 3#8]).map (fun t => (t.rpa.mem, t.rpa.wr, t.rpa.rsp))
      = some ([(5, 1#8), (6, 2#8), (7, 3#8)], 0#16, [0x31000000#32]) := by decide +kernel

/-- V71: RPA.CFG and the status words it shows. -/
theorem test_rpaCfg :
    (after State.reset 0x3200000800050006#64 []).map (fun t => (rpaStatus t, rpaCursors t, t.rpa.rsp))
      = some (0x00080000#32, 0x00050006#32, [0x32000008#32]) := by decide +kernel

/-- R181: a cursor at the capacity is refused. -/
theorem test_rpaCfg_refused :
    (after State.reset 0x3200000800080000#64 []).map (fun t => (t.rpa.cap, t.rpa.rsp)) = some (0#16, [0x32810000#32]) := by
  decide +kernel

/-- V70, the row whose sum needs 17 bits, and S7's empty tail. -/
theorem test_rpaArith :
    rpaArith 65535 65534 65535 = ⟨true, 1, 65534, 65534⟩ ∧ rpaArith 8 5 3 = ⟨true, 3, 0, 0⟩ := by decide

/-- V55: the tick difference is taken modulo `2^TICK_BITS`. -/
theorem test_elapsed_wraps : elapsed Config.cfgT 16 4294967280 = 32 := by decide

/-- V47. -/
theorem test_cells : [cell 0x1F#8, cell 0x20#8, cell 0x7E#8, cell 0x7F#8, hex8 0xBD07F000]
    = ["1F ".toList, "   ".toList, " ~ ".toList, "7F ".toList, "BD07F000".toList] := by decide

/-- V52: the device of R75 under a master that does not split. -/
theorem test_eeprom_wraps :
    ((((((Eeprom.initial.start.afterSend Config.cfgT 0xA0#8).afterSend Config.cfgT 0#8).afterSend Config.cfgT 0x3F#8).afterSend
      Config.cfgT 0x11#8).afterSend Config.cfgT 0x22#8).stop).ee = [(0, 0x22#8), (0x3F, 0x11#8)] := by decide

/-! ## Every hypothesis can be met -/

theorem exists_next {o : Host.Outcome State Fault Refusal} (p : State → Bool) (h : (next? o).any p = true) :
    ∃ t, o = .next t ∧ p t = true := by
  cases o <;> simp_all [next?]

/-- The invariant as a check. -/
def checkInv (s : State) : Bool :=
  decide s.cfg.Valid && decide (s.fpc.Inv s.cfg) && decide (s.ews.BlockInv s.cfg) && decide (s.ews.DeviceInv s.cfg)
    && decide (s.rpa.Inv s.cfg)

theorem inv_of_check {s : State} (h : checkInv s = true) : s.Inv := by
  simp only [checkInv, Bool.and_eq_true, decide_eq_true_eq] at h
  exact ⟨h.1.1.1.1, h.1.1.1.2, h.1.1.2, h.1.2, h.2⟩

/-- FPC in the middle of an erase by a stalled device. -/
def hungFpc : State :=
  { State.reset with fpc := { State.reset.fpc with
      pos := .ep, op := .erase, phase := .erasing, busy := true, port := ⟨[0x1000000000000001#64], []⟩
      nvm := { Nvm.initial with busy := true, stalled := true, regionAddr := 0x1F80, regionLen := 128 } } }

/-- EWS in the acknowledge-poll loop of EWS.READ 0, 1, with a stalled EEPROM that is committing. -/
def hungEws : State :=
  { State.reset with
    ews := { State.reset.ews with
      pos := .ssST, op := .read, n := 1#16, busy := true, txnOpen := true
      eeprom := { Eeprom.initial with commit := true, stalled := true } }
    turn := .ews }

/-- EWS in EWS.WRITE's byte loop, the device in step with it. -/
def sendingEws : State :=
  { State.reset with
    ews := { State.reset.ews with
      pos := .wb, op := .write, opAddr := 0x3F#16, addr := 0x3F#17, n := 2#16, data := [0x11#8, 0x22#8], busy := true
      txnOpen := true, eeprom := { Eeprom.initial with mode := .wData, ptr := 0x3F } }
    turn := .ews }

/-- A move of the host is due. -/
def withMove (m : HostMove) (s : State) : State := { s with host := [(0, m)] }

/-- A unit's turn, with a word and payload at its port. -/
def offered (u : UnitId) (cw : Word64) (pay : List Byte) : State := { State.reset.present u cw pay with turn := u }

theorem test_meets_DecodeOfEncode : (Instr.ewsWrite 0xFFFF#16 1#16 [0xFF#8]).wellFormed = true := by decide
theorem test_meets_EncodeOfDecode :
    decode [0x31#8, 0#8, 0#8, 0#8, 0#8, 0#8, 0#8, 1#8, 0xFF#8, 0x10#8] = .ok (.rpaWrite 1#16 [0xFF#8], [0x10#8]) := by rfl
theorem test_meets_RowIsMaskAndMatch : Opcode.rpaWrite.payloadLength 0x3100000000000001#64 ≤ [0xFF#8].length := by decide

theorem test_meets_IllegalWordIsRefused_opcode :
    (offered .fpc 0x2000000000000001#64 []).NoMoveDue
    ∧ (offered .fpc 0x2000000000000001#64 []).occupied .fpc = false
    ∧ ((offered .fpc 0x2000000000000001#64 []).port .fpc).cmd = [0x2000000000000001#64]
    ∧ ∀ op : Opcode, op.unit = .fpc → Cw.opc 0x2000000000000001#64 ≠ op.toByte :=
  ⟨by decide, by decide, by decide, fun op => by cases op <;> decide⟩
theorem test_meets_IllegalWordIsRefused_field :
    (offered .rpa 0x3101000000000001#64 [5#8]).NoMoveDue
    ∧ (offered .rpa 0x3101000000000001#64 [5#8]).occupied .rpa = false
    ∧ ((offered .rpa 0x3101000000000001#64 [5#8]).port .rpa).cmd = [0x3101000000000001#64]
    ∧ Opcode.rpaWrite.unit = .rpa ∧ Cw.opc 0x3101000000000001#64 = Opcode.rpaWrite.toByte
    ∧ Opcode.rpaWrite.payloadLength 0x3101000000000001#64 ≤ ((offered .rpa 0x3101000000000001#64 [5#8]).port .rpa).pay.length
    ∧ 0x3101000000000001#64 &&& Opcode.rpaWrite.mask ≠ Opcode.rpaWrite.matchWord := by decide
theorem test_meets_PreconditionRefusal :
    State.reset.occupied .fpc = false ∧ precondition (.fpcRead 129#16) State.reset = false
    ∧ (offered .fpc 0x1000000000000081#64 []).NoMoveDue
    ∧ (offered .fpc 0x1000000000000081#64 []).occupied .fpc = false
    ∧ decodeCommand 0x1000000000000081#64 [] = .ok (.fpcRead 129#16, [])
    ∧ precondition (.fpcRead 129#16) (offered .fpc 0x1000000000000081#64 []) = false :=
  ⟨by decide, by decide, by decide, by decide, by rfl, by decide⟩
theorem test_meets_PreconditionEdges :
    ((0#16).toNat = 0 ∧ (128#16).toNat = State.reset.cfg.pageBytes ∧ (129#16).toNat = State.reset.cfg.pageBytes + 1)
    ∧ (1 ≤ (1#16).toNat ∧ (255#16).toNat + (1#16).toNat = State.reset.cfg.eeSize
      ∧ (255#16).toNat + (2#16).toNat = State.reset.cfg.eeSize + 1)
    ∧ (State.reset.rpa.cap.toNat = 0 ∧ 1 ≤ (ringed 8#16 0#16 0#16 []).rpa.cap.toNat
      ∧ (8#16).toNat = (ringed 8#16 0#16 0#16 []).rpa.cap.toNat ∧ (9#16).toNat = (ringed 8#16 0#16 0#16 []).rpa.cap.toNat + 1)
    ∧ (1 ≤ (16#16).toNat ∧ (16#16).toNat = State.reset.cfg.rbMemBytes ∧ (15#16).toNat + 1 ≤ (16#16).toNat)
    ∧ (State.reset.cfg.rbMemBytes < (17#16).toNat ∧ (8#16).toNat ≤ (8#16).toNat) := by decide
/-- PreconditionEdges itself at its edges, as R102's table has them. -/
theorem test_precondition_edges :
    [Instr.fpcRead 128#16, .fpcWrite 0#16 [], .ewsRead 255#16 1#16, .rpaCfg 16#16 15#16 15#16].all
        (precondition · State.reset) = true
    ∧ [Instr.fpcWrite 129#16 [], .ewsWrite 0#16 0#16 [], .ewsRead 255#16 2#16, .rpaRead 0#16, .rpaCfg 17#16 0#16 0#16].all
        (fun i => !precondition i State.reset) = true := by decide
theorem test_meets_BusyUnitLeavesItsPorts :
    hungFpc.NoMoveDue ∧ hungFpc.occupied hungFpc.turn = true ∧ ∃ t, step hungFpc = .next t ∧ true = true :=
  ⟨by decide, by decide, exists_next (fun _ => true) (by decide +kernel)⟩
theorem test_meets_IdleUnitWaits :
    State.reset.NoMoveDue ∧ State.reset.occupied State.reset.turn = false ∧ (State.reset.port State.reset.turn).cmd = []
    ∧ (offered .fpc 0x1100000000000002#64 [5#8]).NoMoveDue
    ∧ (offered .fpc 0x1100000000000002#64 [5#8]).occupied .fpc = false
    ∧ Opcode.fpcWrite.unit = .fpc ∧ Cw.opc 0x1100000000000002#64 = Opcode.fpcWrite.toByte
    ∧ [5#8].length < Opcode.fpcWrite.payloadLength 0x1100000000000002#64 := by decide
theorem test_meets_StepRunsDecodedCommand :
    (offered .rpa 0x3100000000000001#64 [5#8]).NoMoveDue
    ∧ (offered .rpa 0x3100000000000001#64 [5#8]).occupied .rpa = false
    ∧ ((offered .rpa 0x3100000000000001#64 [5#8]).port .rpa).cmd = [0x3100000000000001#64]
    ∧ decodeCommand 0x3100000000000001#64 [5#8] = .ok (.rpaWrite 1#16 [5#8], []) :=
  ⟨by decide, by decide, by decide, by rfl⟩
theorem test_meets_StatusWordFields : (withMove (.readStatus .ews) hungEws).host = [(0, .readStatus .ews)] := by decide
theorem test_meets_ResetLeavesTheTableOfR46 :
    (withMove .reset sendingEws).host = [(0, .reset)] ∧ (withMove .reset hungEws).ews.eeprom.mode ≠ .wData
    ∧ (withMove .reset sendingEws).fpc.nvm.busy = false := by decide
theorem test_meets_ResetKeepsCollaborators :
    (withMove .reset hungFpc).Inv ∧ (withMove .reset hungFpc).host = [(0, .reset)] ∧ hungFpc.fpc.nvm.busy = true :=
  ⟨inv_of_check (by decide +kernel), by decide, by decide⟩

theorem test_meets_ReadyForFpc :
    State.reset.ReadyForFpc ∧ State.reset.fpc.nvm.sched = [] ∧ (flashed [1#8] [false, true, false]).ReadyForFpc :=
  ⟨⟨inv_of_check (by decide +kernel), by decide, by decide, by decide, by decide⟩, by decide,
    inv_of_check (by decide +kernel), by decide, by decide, by decide, by decide⟩
/-- FpcReadResult, FpcWriteResult, FpcWriteCallTrace, FpcRoundTrip, at the ends of the length's range. -/
theorem test_meets_FpcLengths :
    (0#16).toNat ≤ State.reset.cfg.pageBytes ∧ (128#16).toNat ≤ State.reset.cfg.pageBytes
    ∧ ([] : List Byte).length = (0#16).toNat ∧ (List.replicate 128 0#8).length = (128#16).toNat := by decide +kernel
/-- A device stalled, and one that is busy by its schedule. -/
theorem test_meets_FpcReadOfBusyDevice :
    hungFpc.fpc.nvm.moves.busy = true
    ∧ ∃ s : State, s.Inv ∧ s.host = [] ∧ s.fpc.busy = false ∧ (128#16).toNat ≤ s.cfg.pageBytes
      ∧ s.fpc.nvm.moves.busy = true ∧ s.fpc.nvm.stalled = false :=
  ⟨by decide, { State.reset with fpc := { State.reset.fpc with nvm := { Nvm.initial with
      busy := true, sched := [false], regionAddr := 0x1F80, regionLen := 128 } } },
    inv_of_check (by decide +kernel), by decide, by decide, by decide, by decide, by decide⟩
theorem test_meets_FpcUpdateEqualIsNoOp :
    State.reset.page.take (1#16).toNat = [0xFF#8] ∧ State.reset.page.take (0#16).toNat = [] := by decide +kernel
/-- FpcUpdateDifferentWrites and FpcUpdateTwiceIsOneCycle. -/
theorem test_meets_FpcUpdateDifferent : State.reset.page.take (1#16).toNat ≠ [0xFE#8] := by decide +kernel
theorem test_meets_ScratchIsDeadBetweenCommands : State.reset.fpc.busy = false := by decide
/-- Both clauses of FpcPrintLineCounts: a page of two rows and one of four, blank between the first and the last. -/
theorem test_meets_FpcPrintLineCounts :
    (∃ s : State, s.ReadyForFpc ∧ s.cfg.printRows = 2)
    ∧ 3 ≤ State.reset.cfg.printRows ∧ '\n' ∉ State.reset.cfg.ellipsis
    ∧ ∀ r, 0 < r → r + 1 < State.reset.cfg.printRows → blank (printRowOf State.reset.page r) = true := by
  refine ⟨⟨{ State.reset with
      cfg := { Config.cfgT with pageBytes := 64, pageBase := 0x1FC0 }
      fpc := { State.reset.fpc with scratch := List.replicate 64 0#8 } },
    ⟨inv_of_check (by decide +kernel), by decide, by decide, by decide, by decide⟩, by decide⟩, by decide, by decide, ?_⟩
  have h : ∀ r, r < State.reset.cfg.printRows → blank (printRowOf State.reset.page r) = true := by decide +kernel
  intro r _ h2; exact h r (by omega)
theorem test_meets_LineLengths : (List.replicate 32 0x41#8).length = 32 := by decide
theorem test_meets_FpcEraseHangs :
    ∃ s : State, s.Inv ∧ s.host = [] ∧ s.fpc.busy = false ∧ s.fpc.nvm.stalled = true ∧ s.fpc.nvm.sched = [] :=
  ⟨{ State.reset with fpc := { State.reset.fpc with nvm := { Nvm.initial with stalled := true } } },
    inv_of_check (by decide +kernel), by decide, by decide, by decide, by decide⟩
theorem test_meets_FpcHangIsForEver :
    hungFpc.Inv ∧ hungFpc.fpc.hung = true ∧ (∃ t, step hungFpc = .next t ∧ true = true)
    ∧ (withMove .reset hungFpc).Inv ∧ (withMove .reset hungFpc).fpc.hung = true
    ∧ (∃ t, step (withMove .reset hungFpc) = .next t ∧ true = true) :=
  ⟨inv_of_check (by decide +kernel), by decide, exists_next (fun _ => true) (by decide +kernel),
    inv_of_check (by decide +kernel), by decide, exists_next (fun _ => true) (by decide +kernel)⟩
theorem test_meets_OneCallPerSequencerStep :
    (fpcRow Config.cfgT hungFpc.fpc).isSome = true ∧ sendingEws.ews.BlockInv Config.cfgT
    ∧ (ewsLine Config.cfgT sendingEws.ews).isSome = true :=
  ⟨by decide +kernel, (inv_of_check (s := sendingEws) (by decide +kernel)).2.2.1, by decide +kernel⟩
theorem test_meets_NvmContract :
    Memory.wf .flash Nvm.initial.flash ∧ Nvm.initial.busy = false ∧ (List.replicate 64 5#8).length = Config.cfgT.rowBytes
    ∧ Nvm.initial.readResult Config.cfgT.rowBytes 0x1F80 = List.replicate Config.cfgT.rowBytes 0xFF#8 := by decide +kernel

theorem test_meets_EwsPollTimeout :
    { State.reset.ews with pos := .ssCK }.pos = .ssCK ∧ (4294967280 : Nat) < 2 ^ Config.cfgT.tickBits
    ∧ (16 : Nat) < 2 ^ Config.cfgT.tickBits := by decide
/-- ElapsedNeverDecreases: in the loop, with an advance that is allowed and one that is cut. -/
theorem test_meets_ElapsedNeverDecreases :
    hungEws.ews.t0 < 2 ^ Config.cfgT.tickBits ∧ hungEws.ews.clock.tick < 2 ^ Config.cfgT.tickBits ∧ hungEws.ews.pos = .ssST
    ∧ (ewsSeq Config.cfgT { hungEws.ews with sched := [⟨false, 4294967295⟩] }).map (fun g => g.clock.tick) = some 4294967295
    ∧ (ewsSeq Config.cfgT { hungEws.ews with sched := [⟨false, 4294967296⟩] }).map (fun g => g.clock.tick) = some 4294967295
    ∧ elapsed Config.cfgT hungEws.ews.clock.tick hungEws.ews.t0 + 4294967295 < 2 ^ Config.cfgT.tickBits := by decide +kernel
theorem test_meets_EwsLooksAtOneAcknowledge :
    sendingEws.ews.pos ≠ .ssCT ∧ { sendingEws.ews with pos := .ssCT }.pos = .ssCT
    ∧ { Eeprom.initial with mode := .ctrl }.sendAck Config.cfgT Config.cfgT.ctrlW = true
    ∧ { Eeprom.initial with mode := .ctrl, commit := true }.sendAck Config.cfgT Config.cfgT.ctrlW = false := by decide
theorem test_meets_TimedOutFlag : (ewsLine Config.cfgT sendingEws.ews).isSome = true := by decide +kernel
theorem test_meets_ReadyForEws :
    State.reset.ReadyForEws ∧ State.reset.ews.sched = [] ∧ State.reset.cfg.ewsReadAckpoll = true
    ∧ State.reset.ews.eeprom.commit = false ∧ State.reset.cfg.eePage % 32 = 0
    ∧ { State.reset with cfg := { Config.cfgT with ewsReadAckpoll := false } }.ReadyForEws :=
  ⟨⟨inv_of_check (by decide +kernel), by decide, by decide, by decide⟩, by decide, by decide, by decide, by decide,
    inv_of_check (by decide +kernel), by decide, by decide, by decide⟩

/-- The EWS statements over a range, at its ends: the last byte of the EEPROM, the whole EEPROM. -/
theorem test_meets_EwsRanges :
    (1 ≤ (1#16).toNat ∧ (255#16).toNat + (1#16).toNat ≤ State.reset.cfg.eeSize ∧ [5#8].length = (1#16).toNat)
    ∧ (1 ≤ (256#16).toNat ∧ (0#16).toNat + (256#16).toNat ≤ State.reset.cfg.eeSize) := by decide
/-- A run that no poll gave up on, and one that a poll did. -/
theorem test_meets_EwsTimedOut :
    (∃ t, exec (.ewsRead 0#16 1#16) State.reset = .next t ∧ (!t.ews.timedOut) = true)
    ∧ (∃ t, exec (.ewsWrite 0#16 1#16 [5#8]) State.reset = .next t ∧ (!t.ews.timedOut) = true)
    ∧ (∃ t, exec (.ewsRead 0#16 1#16) (eeprommed 0 [] true (ticking [0, 0, 0, 5000])) = .next t
        ∧ t.ews.timedOut = true) :=
  ⟨exists_next (fun t => !t.ews.timedOut) (by decide +kernel), exists_next (fun t => !t.ews.timedOut) (by decide +kernel),
    exists_next (fun t => t.ews.timedOut) (by decide +kernel)⟩
theorem test_meets_EwsWritePointerFollowsAddress :
    sendingEws.Inv ∧ sendingEws.ews.InStep sendingEws.cfg ∧ (∃ t, step sendingEws = .next t ∧ true = true) :=
  ⟨inv_of_check (by decide +kernel), by decide, exists_next (fun _ => true) (by decide +kernel)⟩
/-- EwsHangs: EWS at rest before a device that is committing, each position of the loop, and the moves that land in it. -/
theorem test_meets_EwsHangs :
    { hungEws with ews := { hungEws.ews with pos := .ready, op := .none, busy := false, txnOpen := false } }.Inv
    ∧ precondition (.ewsRead 0#16 1#16) hungEws = true
    ∧ hungEws.ews.InHang hungEws.cfg
    ∧ { hungEws.ews with pos := .ssCT, eeprom := { hungEws.ews.eeprom with mode := .ctrl } }.InHang hungEws.cfg
    ∧ { hungEws.ews with pos := .ssCK }.InHang hungEws.cfg
    ∧ (∃ t, step hungEws = .next t ∧ true = true)
    ∧ (∃ t, step { hungEws with host := [(1, .readStatus .ews)] } = .next t ∧ (t.ews.pos == .ssCT) = true)
    ∧ (∃ t, step (withMove (.present .ews 0#64 []) hungEws) = .next t ∧ t.ews.busy = true)
    ∧ (∃ t, step (withMove .reset hungEws) = .next t ∧ (!t.ews.busy) = true) :=
  ⟨inv_of_check (by decide +kernel), by decide, by decide +kernel, by decide +kernel, by decide +kernel,
    exists_next (fun _ => true) (by decide +kernel), exists_next (fun t => t.ews.pos == .ssCT) (by decide +kernel),
    exists_next (fun t => t.ews.busy) (by decide +kernel), exists_next (fun t => !t.ews.busy) (by decide +kernel)⟩
theorem test_meets_EepromPointerWraps :
    Config.cfgT.Valid ∧ Memory.wf .eeprom sendingEws.ews.eeprom.ee ∧ sendingEws.ews.eeprom.mode = .wData
    ∧ sendingEws.ews.eeprom.ptr = 0 * Config.cfgT.eePage + (Config.cfgT.eePage - 1) ∧ 2 ≤ Config.cfgT.eePage := by decide

theorem test_meets_RingArithmetic : 1 ≤ 8 ∧ 7 < 8 ∧ 8 ≤ 8 ∧ 5 + 3 = 8 := by decide
theorem test_meets_ReadyForRpa :
    State.reset.ReadyForRpa ∧ (ringed 8#16 7#16 7#16 [1#8]).ReadyForRpa ∧ (ringed 8#16 7#16 7#16 [1#8]).rpa.rd = 7#16 :=
  ⟨⟨inv_of_check (by decide +kernel), by decide, by decide⟩, ⟨inv_of_check (by decide +kernel), by decide, by decide⟩,
    by decide⟩
/-- RpaCfgResult, RpaReadResult, RpaWriteResult, RpaRoundTrip, at the ends of the ranges. -/
theorem test_meets_RpaRanges :
    (1 ≤ (16#16).toNat ∧ (16#16).toNat ≤ State.reset.cfg.rbMemBytes ∧ (15#16).toNat < (16#16).toNat
      ∧ (0#16).toNat < (16#16).toNat)
    ∧ (1 ≤ (ringed 8#16 7#16 7#16 [1#8]).rpa.cap.toNat ∧ (8#16).toNat ≤ (ringed 8#16 7#16 7#16 [1#8]).rpa.cap.toNat
      ∧ (0#16).toNat ≤ (ringed 8#16 7#16 7#16 [1#8]).rpa.cap.toNat ∧ (List.replicate 8 5#8).length = (8#16).toNat)
    ∧ (ringed 8#16 7#16 7#16 [1#8]).rpa.rd = (ringed 8#16 7#16 7#16 [1#8]).rpa.wr
    ∧ (ringed 8#16 7#16 7#16 [1#8]).ringAt ((7 + 1) % 8) = some 1#8 := by decide +kernel
/-- RPA's turn, RPA.READ 1 at its port, and a status read that lands right after the acceptance. -/
def watchedRpa : State :=
  { (ringed 8#16 7#16 7#16 [1#8]).present .rpa 0x3000000000000001#64 [] with turn := .rpa, host := [(1, .readStatus .rpa)] }

/-- R187, R38: the status read that lands in the ring command sees RPA busy and the cursors where they were. -/
theorem test_meets_RpaCursorMovesLast :
    watchedRpa.rpa.busy = false ∧ watchedRpa.rpa.port.cmd = [0x3000000000000001#64]
    ∧ decodeCommand 0x3000000000000001#64 watchedRpa.rpa.port.pay = .ok (.rpaRead 1#16, [])
    ∧ (Instr.rpaRead 1#16).unit = .rpa ∧ precondition (.rpaRead 1#16) watchedRpa = true
    ∧ ∃ t, step watchedRpa = .next t
        ∧ (rpaStatus t == 0x00080001#32 && rpaCursors t == 0x00070007#32
            && t.host == [(0, .readStatus .rpa)]
            && decide ({ t with turn := .rpa, host := [] }.NoMoveDue)) = true :=
  ⟨by decide, by decide, by rfl, by decide, by decide, exists_next _ (by decide +kernel)⟩

theorem test_meets_EveryStep :
    State.reset.Inv ∧ hungFpc.Inv ∧ sendingEws.Inv ∧ (∃ t, step sendingEws = .next t ∧ (!t.ews.busy) = true) :=
  ⟨inv_of_check (by decide +kernel), inv_of_check (by decide +kernel), inv_of_check (by decide +kernel),
    exists_next (fun t => !t.ews.busy) (by decide +kernel)⟩

theorem test_meets_UnitsAreIndependent :
    (∃ t, exec .fpcErase State.reset = .next t ∧ true = true) ∧ (∃ t, exec .fpcErase hungEws = .next t ∧ true = true)
    ∧ State.reset.cfg = hungEws.cfg ∧ State.reset.host = hungEws.host ∧ State.reset.fpc = hungEws.fpc :=
  ⟨exists_next (fun _ => true) (by decide +kernel), exists_next (fun _ => true) (by decide +kernel), by decide, by decide, rfl⟩
/-- OneResponsePerCommand, in its two cases. -/
theorem test_meets_OneResponsePerCommand :
    State.reset.occupied .fpc = false ∧ (∃ t, exec .fpcErase State.reset = .next t ∧ (!t.fpc.busy) = true)
    ∧ (withMove (.readStatus .fpc) State.reset).occupied .fpc = false
    ∧ (∃ t, exec .fpcErase (withMove (.readStatus .fpc) State.reset) = .next t ∧ t.fpc.busy = true) :=
  ⟨by decide, exists_next (fun t => !t.fpc.busy) (by decide +kernel), by decide,
    exists_next (fun t => t.fpc.busy) (by decide +kernel)⟩
/-- InterruptedCommandGoesOn, for a command of each unit. -/
theorem test_meets_InterruptedCommandGoesOn :
    (State.reset.ReadyFor .fpc ∧ State.reset.ReadyFor .ews ∧ (ringed 8#16 7#16 7#16 [1#8]).ReadyFor .rpa)
    ∧ (∃ t, exec (.fpcWrite 1#16 [5#8]) { State.reset with host := [(4, .readStatus .fpc)] } = .next t
        ∧ t.occupied .fpc = true)
    ∧ (∃ t, exec (.ewsRead 0#16 1#16) { State.reset with host := [(4, .readStatus .ews)] } = .next t
        ∧ t.occupied .ews = true)
    ∧ (∃ t, exec (.rpaRead 1#16) { ringed 8#16 7#16 7#16 [1#8] with host := [(1, .present .rpa 0#64 [])] } = .next t
        ∧ t.occupied .rpa = true) :=
  ⟨⟨test_meets_ReadyForFpc.1, test_meets_ReadyForEws.1, test_meets_ReadyForRpa.2.1⟩,
    exists_next (fun t => t.occupied .fpc) (by decide +kernel), exists_next (fun t => t.occupied .ews) (by decide +kernel),
    exists_next (fun t => t.occupied .rpa) (by decide +kernel)⟩
theorem test_meets_StreamsOnlyGrow :
    (∀ rest, State.reset.host ≠ (0, .reset) :: rest) ∧ (∃ t, step State.reset = .next t ∧ true = true) :=
  ⟨fun _ h => (by cases h), exists_next (fun _ => true) (by decide +kernel)⟩

end Sys2Proof.Tests
end

section
/-! PROOFS. The statements about the state of the block (10_state.md): the status words, the values at reset, the timed-out
flag, and the independence of the units. -/

namespace Sys2Proof.Machine

/-! ## Status words (R38) -/

/-- The fields of `FPC_STATUS` (R38). -/
theorem fpcStatus_fields (s : State) :
    (fpcStatus s).extractLsb' 0 2 = s.fpc.phase.code ∧ (fpcStatus s).getLsbD 2 = s.fpc.busy
      ∧ (fpcStatus s).extractLsb' 3 29 = 0#29 := by
  unfold fpcStatus
  refine ⟨BitVec.extractLsb'_append_eq_right, ?_, ?_⟩
  · rw [BitVec.getLsbD_append, BitVec.getLsbD_append]; simp
  · rw [BitVec.extractLsb'_append_eq_of_le (by decide)]; exact BitVec.extractLsb'_append_eq_left

/-- The fields of `EWS_STATUS` (R38). -/
theorem ewsStatus_fields (s : State) :
    (ewsStatus s).getLsbD 0 = s.ews.busy ∧ (ewsStatus s).getLsbD 1 = s.ews.txnOpen
      ∧ (ewsStatus s).getLsbD 2 = s.ews.timedOut ∧ (ewsStatus s).extractLsb' 3 29 = 0#29 := by
  unfold ewsStatus
  refine ⟨?_, ?_, ?_, ?_⟩
  · rw [BitVec.getLsbD_append]; simp
  · rw [BitVec.getLsbD_append, BitVec.getLsbD_append]; simp
  · rw [BitVec.getLsbD_append, BitVec.getLsbD_append, BitVec.getLsbD_append]; simp
  · rw [BitVec.extractLsb'_append_eq_of_le (by decide), BitVec.extractLsb'_append_eq_of_le (by decide)]
    exact BitVec.extractLsb'_append_eq_left

/-- The fields of `RPA_STATUS` (R38). -/
theorem rpaStatus_fields (s : State) :
    (rpaStatus s).getLsbD 0 = s.rpa.busy ∧ (rpaStatus s).extractLsb' 1 15 = 0#15
      ∧ (rpaStatus s).extractLsb' 16 16 = s.rpa.cap := by
  unfold rpaStatus
  refine ⟨?_, ?_, ?_⟩
  · rw [BitVec.getLsbD_append]; simp
  · rw [BitVec.extractLsb'_append_eq_of_le (by decide)]; exact BitVec.extractLsb'_append_eq_right
  · rw [BitVec.extractLsb'_append_eq_of_le (by decide)]; exact BitVec.extractLsb'_append_eq_left

/-- The fields of `RPA_CURSORS` (R38). -/
theorem rpaCursors_fields (s : State) :
    (rpaCursors s).extractLsb' 0 16 = s.rpa.wr ∧ (rpaCursors s).extractLsb' 16 16 = s.rpa.rd :=
  ⟨BitVec.extractLsb'_append_eq_right, BitVec.extractLsb'_append_eq_left⟩

/-- Settles O13: each word is an append of its fields, and a status read is a host move that is the identity. -/
theorem statusWordFields : Obligations.StatusWordFields := fun s =>
  ⟨fpcStatus_fields s, ewsStatus_fields s, rpaStatus_fields s, rpaCursors_fields s, ⟨rfl, rfl, rfl⟩,
    fun _ _ h => step_hostMove h⟩

/-! ## Reset (R46, R250 to R252) -/

/-- A machine whose three units are at reset holds the values of R46, whatever its collaborators hold. -/
theorem State.atResetValues_of_atReset {t : State} {c c' : Config} {d : Nvm} {ftr : List NvmCall} {e : Eeprom} {k : Clock}
    {l : List EwsMove} {etr : List BusCall} {n : Nat} (hf : t.fpc = Fpc.atReset c d ftr)
    (he : t.ews = Ews.atReset c' e k l etr) (hr : t.rpa = Rpa.atReset n) : t.AtResetValues := by
  simp [State.AtResetValues, hf, he, hr, Fpc.atReset, Ews.atReset, Rpa.atReset]

/-- A reset of the block leaves the values of R46 from any state. -/
theorem State.blockReset_atResetValues (s : State) : s.blockReset.AtResetValues :=
  State.atResetValues_of_atReset rfl rfl rfl

/-- A reset that cuts no flash operation leaves the flash page alone (R252). -/
theorem State.blockReset_flashAt {s : State} (h : s.fpc.nvm.busy = false) (a : Nat) :
    s.blockReset.flashAt a = s.flashAt a := by
  simp [State.flashAt, State.blockReset, Fpc.atReset, h]

/-- A reset outside a write transaction does nothing to the EEPROM (R252). -/
theorem Eeprom.cut_of_ne_wData {c : Config} {e : Eeprom} (h : e.mode ≠ .wData) : e.cut c = e := if_neg h

/-- A reset that cuts no write transaction leaves the EEPROM's content alone (R252). -/
theorem State.blockReset_eeAt {s : State} (h : s.ews.eeprom.mode ≠ .wData) (a : Nat) :
    s.blockReset.eeAt a = s.eeAt a := by
  simp [State.eeAt, State.blockReset, Ews.atReset, Eeprom.cut_of_ne_wData h]

/-- Settles O14: a reset move is the whole step, and it puts the three units at reset. -/
theorem resetLeavesTheTableOfR46 : Obligations.ResetLeavesTheTableOfR46 :=
  ⟨State.atResetValues_of_atReset rfl rfl rfl, fun s rest h =>
    ⟨{ s with host := rest }.blockReset, step_hostMove h, State.blockReset_atResetValues _,
      State.blockReset_flashAt (s := { s with host := rest }), State.blockReset_eeAt (s := { s with host := rest })⟩⟩

/-! ## The timed-out flag (R31) -/

/-- `ews_timed_out` after a line: the timeout check sets it where the time has elapsed, every other line keeps it (R151). -/
theorem ewsLine_timedOut {c : Config} {e g : Ews} (hs : ewsLine c e = some g) :
    g.timedOut = true ↔ e.timedOut = true ∨ (e.pos = .ssCK ∧ pollTimedOut c e.clock.tick e.t0 = true) := by
  cases hp : e.pos
  case ready => rw [ewsLine_ready hp] at hs; cases hs
  case ssCK =>
    rw [ewsLine_ssCK hp] at hs
    cases hs
    split <;> simp_all
  case r2Stop =>
    rw [ewsLine_r2Stop hp] at hs
    rcases Ews.readDone_some hs with ⟨-, rfl⟩ | ⟨-, -, rfl⟩ | ⟨-, -, rfl⟩ <;> simp
  case ws =>
    rw [ewsLine_ws hp] at hs
    rcases Ews.writeDone_some hs with ⟨-, rfl⟩ | ⟨-, -, rfl⟩ | ⟨-, -, rfl⟩ <;> simp
  case r1 =>
    rw [ewsLine_r1 hp] at hs
    cases hs
    split <;> simp
  case ssLO =>
    rw [ewsLine_ssLO hp] at hs
    obtain ⟨p, -, rfl⟩ := Option.map_eq_some_iff.1 hs
    simp
  all_goals
    simp only [ewsLine, hp] at hs
    cases hs
    simp

/-- EWS with the timed-out flag and the responses, which carry it out, struck out. -/
def Ews.withoutReport (e : Ews) : Ews := { e with timedOut := false, rsp := [] }

/-- The end of a read's body reads neither (R153, R205). -/
theorem Ews.readDone_withoutReport (c : Config) (e : Ews) :
    (Ews.readDone c e.withoutReport).map withoutReport = (Ews.readDone c e).map withoutReport := by
  obtain ⟨_, op, _, _, _, _, _, _, _, _, _, _, _, _, _, _, _, _, _, _, _, _, _, _⟩ := e
  cases op
  case print => dsimp only [readDone, withoutReport]; split_ifs <;> rfl
  all_goals rfl

/-- The end of a write's body reads neither (R154, R155). -/
theorem Ews.writeDone_withoutReport (c : Config) (e : Ews) :
    (Ews.writeDone c e.withoutReport).map withoutReport = (Ews.writeDone c e).map withoutReport := by
  obtain ⟨_, op, _, _, _, _, _, _, _, _, _, _, _, _, _, _, _, _, _, _, _, _, _, _⟩ := e
  cases op
  case eraseAll => dsimp only [writeDone, withoutReport]; split_ifs <;> rfl
  all_goals rfl

/-- No line looks at the timed-out flag or the responses but to make the next response of them (R31). -/
theorem ewsLine_withoutReport (c : Config) (e : Ews) :
    (ewsLine c e.withoutReport).map Ews.withoutReport = (ewsLine c e).map Ews.withoutReport := by
  by_cases h1 : e.pos = .r2Stop
  · rw [ewsLine_r2Stop (e := e.withoutReport) h1, ewsLine_r2Stop h1]
    exact Ews.readDone_withoutReport c e.callStop
  by_cases h2 : e.pos = .ws
  · rw [ewsLine_ws (e := e.withoutReport) h2, ewsLine_ws h2]
    exact Ews.writeDone_withoutReport c e.callStop
  obtain ⟨_, op, _, _, _, _, _, _, _, _, pos, _, _, _, _, _, _, _, _, _, _, _, _, _⟩ := e
  cases pos
  case r2Stop => exact absurd rfl h1
  case ws => exact absurd rfl h2
  case r1 | ssCK => dsimp only [ewsLine, Ews.withoutReport]; split_ifs <;> rfl
  case ssLO => cases op <;> rfl
  all_goals rfl

/-- Settles O36: the flag changes at the timeout check alone, and no line sees it; so a line from a state with another flag
agrees with the line from the state without one. -/
theorem timedOutFlag : Obligations.TimedOutFlag :=
  ⟨fun _ _ _ => ewsLine_timedOut, Ews.accept_timedOut,
    fun c e b => (ewsLine_withoutReport c { e with timedOut := b }).symm.trans (ewsLine_withoutReport c e),
    Ews.complete_rsp, rfl⟩

/-! ## The units share nothing (R20, R81, R234) -/

/-- A command at a unit that can take one, its precondition not met: it is refused (R97 step 4, R223). -/
theorem exec_refused {i : Instr} {s : State} (h : s.occupied i.unit = false) (hp : precondition i s = false) :
    exec i s = .next (s.refuse i.unit i.opcode.toByte .errPrecond) := by
  cases i <;>
    simp_all [exec, State.occupied, Instr.unit, Instr.opcode, Opcode.unit, precondition, execFpcRead, execFpcWrite,
      execFpcUpdate, execEwsRead, execEwsWrite, execEwsPrint, execRpaRead, execRpaWrite, execRpaCfg, fpcCommand, ewsCommand,
      ewsPagesCommand, rpaCommand]

/-- The machine `s` with the unit `u`, its collaborators among it, as it is in `t`. -/
def State.withUnitOf (u : UnitId) (s t : State) : State :=
  match u with
  | .fpc => { s with fpc := t.fpc }
  | .ews => { s with ews := t.ews }
  | .rpa => { s with rpa := t.rpa }

@[simp] theorem State.withUnitOf_self (u : UnitId) (s : State) : s.withUnitOf u s = s := by cases u <;> rfl

@[simp] theorem State.occupied_withUnitOf (u : UnitId) (s t : State) : (s.withUnitOf u t).occupied u = t.occupied u := by
  cases u <;> rfl

theorem State.refuse_withUnitOf (u : UnitId) (opc : Byte) (r : ResultCode) (s t : State) :
    (s.withUnitOf u t).refuse u opc r = s.withUnitOf u (t.refuse u opc r) := by cases u <;> rfl

/-- A precondition looks at the parameters and the command's own unit only (R102). -/
theorem precondition_withUnitOf {i : Instr} {s t : State} (hc : s.cfg = t.cfg) :
    precondition i (s.withUnitOf i.unit t) = precondition i t := by
  cases i <;> simp [precondition, Instr.unit, Instr.opcode, Opcode.unit, State.withUnitOf, hc]

/-- FPC, having just accepted a command, runs on from its own state, the parameters and the host's moves (R20, log 9). -/
theorem fpcStart_withUnitOf {s t : State} (hc : s.cfg = t.cfg) (hh : s.host = t.host) :
    fpcStart (s.withUnitOf .fpc t) = mapNext (s.withUnitOf .fpc) (fpcStart t) := by
  simp only [fpcStart, fpcRun, State.withUnitOf, State.budgetAccepted, hc, hh]
  split <;> simp [mapNext, State.withUnitOf, hc, hh]

/-- EWS likewise (R20, log 9). -/
theorem ewsStart_withUnitOf {s t : State} (hc : s.cfg = t.cfg) (hh : s.host = t.host) :
    ewsStart (s.withUnitOf .ews t) = mapNext (s.withUnitOf .ews) (ewsStart t) := by
  simp only [ewsStart, ewsRun, State.withUnitOf, State.budgetAccepted, hc, hh]
  split <;> simp [mapNext, State.withUnitOf, hc, hh]

/-- RPA likewise, without a look at the parameters (R20, log 21). -/
theorem rpaStart_withUnitOf {s t : State} (hh : s.host = t.host) :
    rpaStart (s.withUnitOf .rpa t) = mapNext (s.withUnitOf .rpa) (rpaStart t) := by
  simp only [rpaStart, rpaRun, State.withUnitOf, State.budgetAccepted, hh]
  split <;> simp [mapNext, State.withUnitOf, hh]

/-- What a command does to its unit, it does to that unit inside any machine with the same parameters and host moves, and it
does nothing else there (R20). -/
theorem exec_withUnitOf {i : Instr} {s t : State} (hc : s.cfg = t.cfg) (hh : s.host = t.host) :
    exec i (s.withUnitOf i.unit t) = mapNext (s.withUnitOf i.unit) (exec i t) := by
  have hp' := precondition_withUnitOf (i := i) hc
  have ho' := State.occupied_withUnitOf i.unit s t
  cases ho : t.occupied i.unit with
  | true => rw [exec_occupied (ho'.trans ho), exec_occupied ho]; rfl
  | false =>
    cases hp : precondition i t with
    | false =>
      rw [exec_refused (ho'.trans ho) (hp'.trans hp), exec_refused ho hp, State.refuse_withUnitOf]; rfl
    | true =>
      rw [exec_accepted (ho'.trans ho) (hp'.trans hp), exec_accepted ho hp]
      cases i.unit
      case fpc => exact fpcStart_withUnitOf (t := { t with fpc := acceptedFpc i t.fpc }) hc hh
      case ews => exact ewsStart_withUnitOf (t := { t with ews := acceptedEws i t.ews }) hc hh
      case rpa => exact rpaStart_withUnitOf (t := { t with rpa := acceptedRpa i t.rpa }) hh

/-- The result of a command, from the result in a machine that agrees on the parameters, the host's moves and the command's unit:
all but that unit is as before, and that unit is as there (R20). -/
theorem exec_result_of_unit_eq {i : Instr} {s s' t t' : State} (h : exec i s = .next t) (h' : exec i s' = .next t')
    (hc : s.cfg = s'.cfg) (hh : s.host = s'.host) (hu : s'.withUnitOf i.unit s = s') : t' = s'.withUnitOf i.unit t := by
  have := exec_withUnitOf (i := i) hc.symm hh.symm
  rw [hu, h, h'] at this
  exact Host.Outcome.next.inj this

/-- A command leaves all but its own unit as it is (R20). -/
theorem exec_frame {i : Instr} {s t : State} (h : exec i s = .next t) : t = s.withUnitOf i.unit t :=
  exec_result_of_unit_eq h h rfl rfl (State.withUnitOf_self _ _)

/-- Settles O57: a command commutes with putting its unit into another machine. -/
theorem unitsAreIndependent : Obligations.UnitsAreIndependent := by
  intro i s s' t t' h h' hc hh
  have hframe := exec_frame h
  have hsame := exec_result_of_unit_eq h h' hc hh
  revert hframe hsame
  cases i.unit
  case fpc =>
    intro hframe hsame
    exact ⟨(congrArg State.ews hframe).trans rfl, (congrArg State.rpa hframe).trans rfl,
      fun hu => (congrArg State.fpc (hsame (by simp [State.withUnitOf, hu]))).symm⟩
  case ews =>
    intro hframe hsame
    exact ⟨(congrArg State.fpc hframe).trans rfl, (congrArg State.rpa hframe).trans rfl,
      fun hu => (congrArg State.ews (hsame (by simp [State.withUnitOf, hu]))).symm⟩
  case rpa =>
    intro hframe hsame
    exact ⟨(congrArg State.fpc hframe).trans rfl, (congrArg State.ews hframe).trans rfl,
      fun hu => (congrArg State.rpa (hsame (by simp [State.withUnitOf, hu]))).symm⟩

end Sys2Proof.Machine
end

section
/-! PROOFS. What FPC.WRITE makes of the page, what FPC.READ gives back, and the round trip of the two
(40_flash_page_controller.md R121, R123, R129). -/

namespace Sys2Proof.Machine

/-! ## The device under a page write (R61, R62, R123) -/

/-- The device after the erase of the page and the write of its first `k` hardware rows with `data` over a fill of 0xFF; `d` is
the device before (R123). -/
structure Nvm.HoldsRows (c : Config) (data : List Byte) (k : Nat) (d d' : Nvm) : Prop where
  inside : ∀ a, inPage c a →
    d'.flash.read? .flash a = some ((data.take (k * c.rowBytes)).getD (a - c.pageBase) 0xFF#8)
  outside : ∀ a, ¬ inPage c a → d'.flash.read? .flash a = d.flash.read? .flash a
  erases : d'.eraseCount = d.eraseCount + 1
  rowWrites : d'.rowWriteCount = d.rowWriteCount + k

/-- A device that is not busy is not busy after its own move (R63). -/
theorem Nvm.moves_idle {d : Nvm} (h : d.busy = false) : d.moves.busy = false :=
  Bool.eq_false_iff.2 fun hb => Bool.eq_false_iff.1 h (Nvm.busy_of_busy_moves hb)

/-- The device's own move changes no content and no count (R64). -/
theorem Nvm.HoldsRows.moves {c : Config} {data : List Byte} {k : Nat} {d d' : Nvm} (h : d.HoldsRows c data k d') :
    d.HoldsRows c data k d'.moves :=
  ⟨by simpa using h.inside, by simpa using h.outside, by simpa using h.erases, by simpa using h.rowWrites⟩

/-- Where the device's own move comes before the erase, it is as if it had not (R64). -/
theorem Nvm.HoldsRows.of_moves {c : Config} {data : List Byte} {k : Nat} {d d' : Nvm}
    (h : d.moves.HoldsRows c data k d') : d.HoldsRows c data k d' :=
  ⟨h.inside, by simpa using h.outside, by simpa using h.erases, by simpa using h.rowWrites⟩

/-- The page after its erase: no row written, every byte 0xFF (R61). -/
theorem Nvm.holdsRows_pageErase {c : Config} {d : Nvm} (data : List Byte) (hw : Memory.wf .flash d.flash)
    (hb : d.busy = false) : d.HoldsRows c data 0 (d.pageErase c c.pageBase) where
  inside a ha := by rw [read_pageErase hw hb, if_pos ha]; simp
  outside a ha := by rw [read_pageErase hw hb, if_neg ha]
  erases := rfl
  rowWrites := rfl

/-- A byte of the staged page is the payload's, or the fill of 0xFF behind it (R123). -/
theorem getElem?_stagedPage {c : Config} {n : Half} {data : List Byte} {j : Nat} (hd : data.length = n.toNat)
    (hj : j < c.pageBytes) : (stagedPage c n data)[j]? = some (data.getD j 0xFF#8) := by
  rw [stagedPage, List.getD_eq_getElem?_getD]
  rcases Nat.lt_or_ge j data.length with h | h
  · rw [List.getElem?_append_left h, List.getElem?_eq_getElem h, Option.getD_some]
  · rw [List.getElem?_append_right h, List.getElem?_eq_none h, List.getElem?_replicate, if_pos (by omega), Option.getD_none]

/-- Taking more of a list does not change an element both takes have, or what stands for an element neither has. -/
theorem getD_take_congr {data : List Byte} {j k k' : Nat} (h : j < k ↔ j < k') :
    (data.take k).getD j 0xFF#8 = (data.take k').getD j 0xFF#8 := by
  simp only [List.getD_eq_getElem?_getD, List.getElem?_take, h]

/-- The write of the next row of the staged page to an idle device (R62, R126). -/
theorem Nvm.HoldsRows.rowWrite {c : Config} (hc : c.Valid) {n : Half} {data : List Byte} {k : Nat} {d d' : Nvm}
    (h : d.HoldsRows c data k d') (hd : data.length = n.toNat) (hn : n.toNat ≤ c.pageBytes) (hk : k < c.rows)
    (hw : Memory.wf .flash d'.flash) (hb : d'.busy = false) :
    d.HoldsRows c data (k + 1) (d'.rowWrite c (rowBuffer c (stagedPage c n data) k) (rowAddress c k)) := by
  have hin := Config.row_in_page hc hk
  have hlen := length_rowBuffer hc (length_stagedPage hd hn) hk
  have hsucc : (k + 1) * c.rowBytes = k * c.rowBytes + c.rowBytes := Nat.succ_mul _ _
  have hready : d'.rowReady c (rowAddress c k) = true := by
    rw [Nvm.rowReady_iff]
    refine ⟨hb, fun a h1 h2 => ?_⟩
    unfold rowAddress at h1 h2
    rw [h.inside a ⟨by omega, by omega⟩, List.getD_eq_default _ _ (by rw [List.length_take]; omega)]
  have hread := fun a => Nvm.read_rowWrite (x := a) (buf := rowBuffer c (stagedPage c n data) k) hw hready
  simp only [hlen, rowAddress] at hread
  refine ⟨fun a ha => ?_, fun a ha => ?_, h.erases, by rw [Nvm.rowWrite_rowWriteCount, h.rowWrites]; omega⟩
  · obtain ⟨h1, h2⟩ := ha
    rw [rowAddress, hread]
    split
    next hr =>
      rw [rowBuffer, List.getElem?_take_of_lt (by omega), List.getElem?_drop,
        show k * c.rowBytes + (a - (c.pageBase + k * c.rowBytes)) = a - c.pageBase by omega,
        getElem?_stagedPage hd (by omega), List.getD_eq_getElem?_getD, List.getD_eq_getElem?_getD,
        List.getElem?_take_of_lt (by omega)]
    next hr => rw [h.inside a ⟨h1, h2⟩, getD_take_congr (k' := (k + 1) * c.rowBytes) (by omega)]
  · rw [rowAddress, hread, if_neg (fun hr => ha ⟨by omega, by omega⟩), h.outside a ha]

/-- With every row written the page is the payload over a fill of 0xFF (R123). -/
theorem Nvm.HoldsRows.page {c : Config} (hc : c.Valid) {data : List Byte} {d d' : Nvm} (h : d.HoldsRows c data c.rows d')
    (hd : data.length ≤ c.pageBytes) {a : Nat} (ha : inPage c a) :
    d'.flash.read? .flash a = some (data.getD (a - c.pageBase) 0xFF#8) := by
  rw [h.inside a ha, Config.rows_mul hc, List.take_of_length_le hd]

/-! ## The sequencer in FPC.WRITE's body (R123, R127) -/

/-- The number of hardware rows FPC.WRITE's body has written (R123). -/
def Fpc.rowsWritten (f : Fpc) : Nat :=
  match f.pos with
  | .rw => f.row
  | .wp => f.row + 1
  | .ready | .rd | .ucmp | .er | .ep | .fill | .pr => 0

/-- FPC as in `b`, but for what FPC.WRITE's body works with, which is as in `f` (R123). -/
def Fpc.withBodyOf (b f : Fpc) : Fpc :=
  { b with phase := f.phase, pos := f.pos, row := f.row, scratch := f.scratch, nvm := f.nvm, trace := f.trace }

/-- FPC is in FPC.WRITE's body, its erase started; `b` is FPC when it came to `F_ER` (R123, R127). -/
structure Fpc.Writing (c : Config) (b f : Fpc) : Prop where
  inv : f.Inv c
  frame : b.withBodyOf f = f
  started : f.pos ≠ .er
  stalled : f.nvm.stalled = false
  idle : f.pos = .fill ∨ f.pos = .rw → f.nvm.busy = false
  staged : f.pos = .rw ∨ f.pos = .wp → f.scratch = stagedPage c b.n b.data
  rows : b.nvm.HoldsRows c b.data f.rowsWritten f.nvm

/-- FPC has completed a command that went through FPC.WRITE's body; `b` is FPC when it came to `F_ER` (R123). -/
structure Fpc.Written (c : Config) (b f : Fpc) : Prop where
  state : f = { b.complete with
    phase := .idle, scratch := stagedPage c b.n b.data, row := c.rows - 1, nvm := f.nvm, trace := f.trace }
  idle : f.nvm.busy = false
  rows : b.nvm.HoldsRows c b.data c.rows f.nvm

section body
variable {c : Config} {b f g : Fpc}

/-- FPC's device holds its page in the canonical form. -/
theorem Fpc.Inv.flash_wf (h : f.Inv c) : Memory.wf .flash f.nvm.flash := by
  obtain ⟨-, -, -, -, -, -, -, -, hw, -⟩ := h
  exact hw

/-- FPC away from `F_READY` is busy (R26). -/
theorem Fpc.Inv.busy_of_pos (h : f.Inv c) (hp : f.pos ≠ .ready) : f.busy = true := by
  obtain ⟨-, -, hready, -⟩ := h
  exact Bool.eq_true_of_not_eq_false fun hb => hp (hready.1 hb)

/-- FPC.WRITE's operands are as they were accepted, the payload as long as `fpc_n` says and no longer than the page (R94,
R102). -/
theorem Fpc.Writing.operands (h : Fpc.Writing c b f) (hop : b.op = .write) :
    b.data.length = b.n.toNat ∧ b.n.toNat ≤ c.pageBytes := by
  obtain ⟨-, -, -, -, hn, hd, -⟩ := h.inv
  rw [← h.frame] at hn hd
  exact ⟨hd (.inl hop), hn⟩

/-- The positions of FPC.WRITE's body after its erase has started (R127). -/
theorem Fpc.Writing.pos_cases (h : Fpc.Writing c b f) (hop : b.op = .write) :
    f.pos = .ep ∨ f.pos = .fill ∨ f.pos = .rw ∨ f.pos = .wp := by
  obtain ⟨-, hserves, -⟩ := h.inv
  rw [← h.frame] at hserves
  have hpos : f.pos.serves .write = true := hop ▸ hserves
  cases hp : f.pos
  case ep | fill | rw | wp => simp
  case er => exact absurd hp h.started
  all_goals simp [hp, FpcPos.serves] at hpos

/-- In the body FPC is busy. -/
theorem Fpc.Writing.busy (h : Fpc.Writing c b f) (hop : b.op = .write) : f.busy = true :=
  h.inv.busy_of_pos (by rcases h.pos_cases hop with hp | hp | hp | hp <;> simp [hp])

/-- In the body the command is not at its end, and does not hang: the device is not stalled (R225). -/
theorem Fpc.Writing.stops_eq_false (h : Fpc.Writing c b f) (hop : b.op = .write) : f.stops = false := by
  simp [Fpc.stops, Fpc.hung, h.busy hop, h.stalled]

/-- At the end of the command FPC stops (R120). -/
theorem Fpc.Written.stops_eq_true (h : Fpc.Written c b f) : f.stops = true := by
  rw [h.state]; rfl

/-- The device's move leaves FPC in the body. -/
theorem Fpc.Writing.moves (h : Fpc.Writing c b f) : Fpc.Writing c b f.moves where
  inv := Fpc.inv_moves h.inv
  frame := congrArg Fpc.moves h.frame
  started := h.started
  stalled := by simpa using h.stalled
  idle hp := Nvm.moves_idle (h.idle hp)
  staged := h.staged
  rows := h.rows.moves

/-- `F_ER` with an idle device leads into the body (R127). -/
theorem Fpc.writing_of_er (hc : c.Valid) (hb : b.Inv c) (hp : b.pos = .er) (hn : b.nvm.busy = false)
    (hs : b.nvm.stalled = false) : ∃ f, fpcSeq c b = some f ∧ Fpc.Writing c b f := by
  have hrow := fpcRow_er (c := c) (f := b.moves) hp
  exact ⟨_, hrow, fpcSeq_inv hc hb hrow, rfl, by simp, by simpa using hs, by simp, by simp,
    (Nvm.holdsRows_pageErase b.data (Fpc.inv_moves hb).flash_wf (Nvm.moves_idle hn)).of_moves⟩

/-- A row of R127's table leaves FPC in the body, or completes the command. -/
theorem fpcRow_writing (hc : c.Valid) (hop : b.op = .write) (h : Fpc.Writing c b f) (hs : fpcRow c f = some g) :
    Fpc.Writing c b g ∨ Fpc.Written c b g := by
  have hinv := fpcRow_inv hc h.inv hs
  have hrows := h.rows
  obtain ⟨hd, hn⟩ := h.operands hop
  obtain ⟨-, -, -, -, -, -, hrow, -⟩ := h.inv
  have hopf : f.op = .write := (congrArg Fpc.op h.frame).symm.trans hop
  have poll : f.pos = .ep ∨ f.pos = .wp → f.nvm.busy = true → Fpc.Writing c b g := by
    intro hp hb
    rw [fpcRow_poll hp hb] at hs; cases hs
    exact ⟨hinv, congrArg Fpc.callIsBusy h.frame, h.started, h.stalled, h.idle, h.staged, hrows⟩
  unfold Fpc.rowsWritten at hrows
  rcases h.pos_cases hop with hp | hp | hp | hp <;> simp only [hp] at hrows
  · -- `F_EP`
    cases hb : f.nvm.busy with
    | true => exact .inl (poll (.inl hp) hb)
    | false =>
      rw [fpcRow_ep_write hp hb hopf] at hs; cases hs
      exact .inl ⟨hinv, by rw [← h.frame]; rfl, by simp, h.stalled, fun _ => hb, by simp, hrows⟩
  · -- `F_FILL`
    rw [fpcRow_fill hp] at hs; cases hs
    exact .inl ⟨hinv, by rw [← h.frame]; rfl, by simp, h.stalled, fun _ => h.idle (.inl hp),
      fun _ => by rw [← h.frame]; rfl, hrows⟩
  · -- `F_RW`
    have hk := hrow (.inl hp)
    rw [fpcRow_rw hp hk, h.staged (.inl hp)] at hs; cases hs
    exact .inl ⟨hinv, by rw [← h.frame]; rfl, by simp, h.stalled, by simp, fun _ => h.staged (.inl hp),
      hrows.rowWrite hc hd hn hk h.inv.flash_wf (h.idle (.inr hp))⟩
  · -- `F_WP`
    cases hb : f.nvm.busy with
    | true => exact .inl (poll (.inr hp) hb)
    | false =>
      rcases Nat.lt_or_ge (f.row + 1) c.rows with hl | hl
      · rw [fpcRow_wp_next hp hb hl] at hs; cases hs
        exact .inl ⟨hinv, by rw [← h.frame]; rfl, by simp, h.stalled, fun _ => hb, fun _ => h.staged (.inr hp), hrows⟩
      · have hlast : f.row + 1 = c.rows := by have := hrow (.inr hp); omega
        rw [fpcRow_wp_last hp hb hlast] at hs; cases hs
        refine .inr ⟨?_, hb, hlast ▸ hrows⟩
        rw [← h.staged (.inr hp), ← hlast, Nat.add_sub_cancel]
        conv_lhs => rw [← h.frame]
        rfl

/-- A step from inside the body: it completes the command, or stays in the body with less left to do. -/
theorem Fpc.Writing.step (hc : c.Valid) (hop : b.op = .write) (h : Fpc.Writing c b f) :
    ∃ g, fpcSeq c f = some g ∧ (g.stops = true → Fpc.Written c b g)
      ∧ (g.stops = false → Fpc.Writing c b g ∧ fpcMeasure c g < fpcMeasure c f) := by
  obtain ⟨g, hg⟩ := fpcRow_progress h.moves.inv (h.busy hop)
  refine ⟨g, hg, ?_⟩
  rcases fpcRow_writing hc hop h.moves hg with hw | hw
  · simp only [hw.stops_eq_false hop]
    exact ⟨nofun, fun _ => ⟨hw, (fpcSeq_measure hc h.inv (h.busy hop) h.stalled hg).2⟩⟩
  · simp only [hw.stops_eq_true]
    exact ⟨fun _ => hw, nofun⟩

/-- From `F_ER` with an idle device that is not stalled, FPC.WRITE's body completes, whatever the number of polls (R123, R125). -/
theorem runSeq_fpcSeq_written (hc : c.Valid) (hb : b.Inv c) (hop : b.op = .write) (hp : b.pos = .er) (hn : b.nvm.busy = false)
    (hs : b.nvm.stalled = false) : ∃ f, runSeq (fpcSeq c) Fpc.stops (fpcFuel c b) b = some f ∧ Fpc.Written c b f := by
  obtain ⟨f, hf, hwriting⟩ := Fpc.writing_of_er hc hb hp hn hs
  have hlt : fpcMeasure c f < fpcMeasure c b := (fpcSeq_measure hc hb (hb.busy_of_pos (by simp [hp])) hs hf).2
  have hfuel := fpcMeasure_le_fuel c b
  obtain ⟨m, hm⟩ : ∃ m, fpcFuel c b = m + 1 := ⟨fpcFuel c b - 1, by omega⟩
  obtain ⟨g, hg, -, hwritten⟩ := runSeq_terminates (μ := fpcMeasure c) (n := m)
    (fun _ ha => fpcMeasure_pos ha.inv (ha.busy hop)) (fun _ => Fpc.Writing.step hc hop) hwriting (by omega)
  rw [hm, runSeq_succ hf, if_neg (by simp [hwriting.stops_eq_false hop])]
  exact ⟨g, hg, hwritten⟩

end body

/-! ## The two commands -/

/-- With no host move pending an accepted FPC command runs with all the steps it may need (log 9). -/
theorem fpcStart_of_some {s : State} {f g : Fpc} (hhost : s.host = [])
    (h : runSeq (fpcSeq s.cfg) Fpc.stops (fpcFuel s.cfg f) f = some g) :
    fpcStart { s with fpc := f } = .next { s with fpc := g } := by
  rw [fpcStart, State.budgetAccepted_nil (s := { s with fpc := f }) hhost]
  exact fpcRun_of_some h

/-- FPC.WRITE at an FPC that is ready for it completes (R123). -/
theorem exec_fpcWrite {s : State} {n : Half} {data : List Byte} (h : s.ReadyForFpc) (hn : n.toNat ≤ s.cfg.pageBytes)
    (hd : data.length = n.toNat) :
    ∃ f, exec (.fpcWrite n data) s = .next { s with fpc := f }
      ∧ Fpc.Written s.cfg (acceptedFpc (.fpcWrite n data) s.fpc) f := by
  obtain ⟨⟨hc, hf, -, -, -⟩, hhost, hbusy, hidle, hstalled⟩ := h
  have hp : precondition (.fpcWrite n data) s = true := decide_eq_true hn
  have ho : s.occupied .fpc = false := by simp [State.occupied, Fpc.takes_iff hf, hbusy]
  have hinv := acceptedFpc_inv (i := .fpcWrite n data) hc rfl hf hbusy (beq_iff_eq.2 hd) hp
  obtain ⟨f, hrun, hw⟩ := runSeq_fpcSeq_written hc hinv rfl rfl hidle hstalled
  exact ⟨f, (exec_accepted (i := .fpcWrite n data) ho hp).trans (fpcStart_of_some hhost hrun), hw⟩

/-- FPC.READ at an FPC that can take it, with an idle device: one step, and the first `n` bytes of the page are on `DOUT`
(R121). -/
theorem exec_fpcRead {s : State} {n : Half} (hhost : s.host = []) (htakes : s.fpc.takes = true) (hidle : s.fpc.nvm.busy = false)
    (hn : n.toNat ≤ s.cfg.pageBytes) :
    exec (.fpcRead n) s = .next { s with fpc :=
      { (acceptedFpc (.fpcRead n) s.fpc).moves.callRead n.toNat s.cfg.pageBase with
        dout := s.fpc.dout ++ s.page.take n.toNat }.complete } := by
  have hp : precondition (.fpcRead n) s = true := decide_eq_true hn
  have ho : s.occupied .fpc = false := by simp [State.occupied, htakes]
  have hread : s.fpc.nvm.moves.readResult n.toNat s.cfg.pageBase = s.page.take n.toNat := by
    rw [Nvm.readResult_idle (Nvm.moves_idle hidle), Nvm.moves_flash, State.page, Memory.take_bytes hn]
  have hstep : fpcSeq s.cfg (acceptedFpc (.fpcRead n) s.fpc) = some _ := fpcRow_rd rfl
  refine (exec_accepted (i := .fpcRead n) ho hp).trans (fpcStart_of_some hhost ?_)
  rw [← hread, fpcFuel, runSeq_succ hstep]
  rfl

/-- The start of the page after FPC.WRITE is the payload (R123). -/
theorem Nvm.HoldsRows.bytes_eq_data {c : Config} (hc : c.Valid) {data : List Byte} {d d' : Nvm}
    (h : d.HoldsRows c data c.rows d') (hd : data.length ≤ c.pageBytes) :
    d'.flash.bytes .flash c.pageBase data.length = data := by
  apply List.ext_getElem?
  intro k
  by_cases hk : k < data.length
  · rw [Memory.getElem?_bytes hk, ← Memory.read?_eq_some_byte (by simp), h.page hc hd ⟨by omega, by omega⟩,
      Nat.add_sub_cancel_left, List.getD_eq_getElem?_getD, List.getElem?_eq_getElem hk, Option.getD_some]
  · rw [List.getElem?_eq_none (by simp; omega), List.getElem?_eq_none (by omega)]

/-- Settles O24: FPC.WRITE leaves the payload at the start of the page and FPC at rest, where FPC.READ reads it back. -/
theorem fpcRoundTrip : Obligations.FpcRoundTrip := by
  intro s n data h hn hd
  obtain ⟨f, hwrite, hstate, hidle, hrows⟩ := exec_fpcWrite h hn hd
  obtain ⟨⟨hc, -⟩, hhost, -⟩ := h
  have htakes : f.takes = true := by rw [hstate]; rfl
  have hdout : f.dout = s.fpc.dout := by rw [hstate]; rfl
  have hpage : (State.page { s with fpc := f }).take n.toNat = data := by
    rw [State.page, Memory.take_bytes hn, ← hd]
    exact hrows.bytes_eq_data hc (hd ▸ hn : data.length ≤ _)
  exact ⟨_, _, hwrite, exec_fpcRead (s := { s with fpc := f }) hhost htakes hidle hn, by
    rw [hpage, hdout]; rfl⟩

end Sys2Proof.Machine
end

section
/-! PROOFS. The statement that scratch carries nothing from one command to the next (40_flash_page_controller.md R130). -/

namespace Sys2Proof.Machine

/-! ## Where the content of scratch matters (R130) -/

/-- The positions at which what scratch holds is still to be read: the row-write loop, after `F_FILL` (R123). -/
def FpcPos.readsScratch : FpcPos → Bool
  | .rw | .wp => true
  | .ready | .rd | .ucmp | .er | .ep | .fill | .pr => false

/-- FPC with the content of scratch struck out where no row of R127's table will read it. -/
def Fpc.withoutDeadScratch (f : Fpc) : Fpc := { f with scratch := if f.pos.readsScratch then f.scratch else [] }

/-- No row reads scratch outside the row-write loop, and `F_FILL`, the way into the loop, writes all of it (R123). -/
theorem fpcRow_withoutDeadScratch (c : Config) (f : Fpc) :
    (fpcRow c f.withoutDeadScratch).map Fpc.withoutDeadScratch = (fpcRow c f).map Fpc.withoutDeadScratch := by
  obtain ⟨_, _, pos, row, _, op, n, data, _, _, _, _, _, _, _, d⟩ := f
  cases pos
  case ucmp =>
    dsimp only [fpcRow, Fpc.withoutDeadScratch]
    cases differ (d.readResult c.pageBytes c.pageBase) n data <;> rfl
  case ep => dsimp only [fpcRow, Fpc.withoutDeadScratch]; cases d.busy <;> cases op <;> rfl
  case pr => dsimp only [fpcRow, Fpc.withoutDeadScratch]; split_ifs <;> rfl
  all_goals rfl

/-- A sequencer step does the same whatever dead scratch holds; the device's move does not see scratch at all. -/
theorem fpcSeq_congr_deadScratch {c : Config} {f g : Fpc} (h : f.withoutDeadScratch = g.withoutDeadScratch) :
    (fpcSeq c f).map Fpc.withoutDeadScratch = (fpcSeq c g).map Fpc.withoutDeadScratch := by
  have hm : f.moves.withoutDeadScratch = g.moves.withoutDeadScratch := congrArg Fpc.moves h
  unfold fpcSeq
  rw [← fpcRow_withoutDeadScratch c f.moves, hm, fpcRow_withoutDeadScratch]

/-- States a view does not tell apart, whose steps and stops it does not tell apart either, have runs it does not tell apart. -/
theorem runSeq_congr_view {σ τ : Type} {seq : σ → Option σ} {stop : σ → Bool} {view : σ → τ}
    (hseq : ∀ a b, view a = view b → (seq a).map view = (seq b).map view)
    (hstop : ∀ a b, view a = view b → stop a = stop b) :
    ∀ {n : Nat} {x y : σ}, view x = view y → (runSeq seq stop n x).map view = (runSeq seq stop n y).map view := by
  intro n
  induction n with
  | zero => intro x y h; exact congrArg some h
  | succ n ih =>
    intro x y h
    have hs := hseq x y h
    cases hx : seq x with
    | none =>
      rw [hx] at hs
      simp [runSeq, hx, Option.map_eq_none_iff.1 hs.symm]
    | some x' =>
      rw [hx] at hs
      obtain ⟨y', hy, hv⟩ := Option.map_eq_some_iff.1 hs.symm
      rw [runSeq_succ hx, runSeq_succ hy, hstop y' x' hv]
      split
      · exact congrArg some hv.symm
      · exact ih hv.symm

/-! ## A command at its unit -/

/-- FPC, having just accepted a command, runs on in the same way whatever dead scratch holds (R130). -/
theorem fpcStart_congr_deadScratch {s : State} {f g : Fpc} (h : f.withoutDeadScratch = g.withoutDeadScratch) :
    mapNext (State.withScratch []) (fpcStart { s with fpc := f })
      = mapNext (State.withScratch []) (fpcStart { s with fpc := g }) := by
  have hfuel : fpcFuel s.cfg f = fpcFuel s.cfg g := (congrArg (fpcFuel s.cfg) h :)
  have hrun := runSeq_congr_view (seq := fpcSeq s.cfg) (stop := Fpc.stops) (n := State.budgetAccepted (fpcFuel s.cfg g) s)
    (fun _ _ => fpcSeq_congr_deadScratch) (fun _ _ => congrArg Fpc.stops) h
  have hend : ∀ a b : Fpc, a.withoutDeadScratch = b.withoutDeadScratch →
      State.withScratch [] { s with fpc := a } = State.withScratch [] { s with fpc := b } :=
    fun _ _ hab => (congrArg (fun x => State.withScratch [] { s with fpc := x }) hab :)
  simp only [fpcStart, fpcRun, State.budgetAccepted, hfuel] at hrun ⊢
  revert hrun
  generalize runSeq (fpcSeq s.cfg) Fpc.stops _ f = a
  generalize runSeq (fpcSeq s.cfg) Fpc.stops _ g = b
  intro hrun
  cases a <;> cases b
  case none.none => rfl
  case some.some a b => exact congrArg Host.Outcome.next (hend a b (Option.some.inj hrun))
  all_goals cases hrun

/-- Acceptance of an FPC command leads to a position at which scratch is dead (R127). -/
theorem acceptedFpc_withScratch {i : Instr} (hu : i.unit = .fpc) (f : Fpc) (x : List Byte) :
    (acceptedFpc i { f with scratch := x }).withoutDeadScratch = (acceptedFpc i f).withoutDeadScratch := by
  cases i
  case fpcRead | fpcWrite | fpcUpdate | fpcErase | fpcPrint => rfl
  all_goals cases hu

@[simp] theorem precondition_withScratch (i : Instr) (x : List Byte) (s : State) :
    precondition i (s.withScratch x) = precondition i s := by cases i <;> rfl

@[simp] theorem occupied_withScratch (u : UnitId) (x : List Byte) (s : State) :
    (s.withScratch x).occupied u = s.occupied u := by cases u <;> rfl

/-- An FPC command has the same outcome but for scratch, whatever scratch holds. -/
theorem exec_withScratch_of_fpc {i : Instr} (hu : i.unit = .fpc) (s : State) (x : List Byte) :
    mapNext (State.withScratch []) (exec i (s.withScratch x)) = mapNext (State.withScratch []) (exec i s) := by
  cases ho : s.occupied i.unit with
  | true => rw [exec_occupied ho, exec_occupied ((occupied_withScratch _ x s).trans ho)]; rfl
  | false =>
    have ho' := (occupied_withScratch i.unit x s).trans ho
    have hp' := precondition_withScratch i x s
    cases hp : precondition i s with
    | false => rw [exec_refused ho hp, exec_refused ho' (hp'.trans hp), hu]; rfl
    | true =>
      rw [exec_accepted ho hp, exec_accepted ho' (hp'.trans hp), hu]
      exact fpcStart_congr_deadScratch (s := s) (acceptedFpc_withScratch hu s.fpc x)

/-- A command of another unit does not look at FPC (R20). -/
theorem exec_withScratch_of_ne_fpc {i : Instr} (hu : i.unit ≠ .fpc) (s : State) (x : List Byte) :
    exec i (s.withScratch x) = mapNext (State.withScratch x) (exec i s) := by
  have hself : (s.withScratch x).withUnitOf i.unit s = s.withScratch x := by
    cases h : i.unit
    case fpc => exact absurd h hu
    all_goals rfl
  have hcomm : ∀ t, (s.withScratch x).withUnitOf i.unit t = (s.withUnitOf i.unit t).withScratch x := by
    intro t
    cases h : i.unit
    case fpc => exact absurd h hu
    all_goals rfl
  have hexec := exec_withUnitOf (i := i) (s := s.withScratch x) (t := s) rfl rfl
  rw [hself] at hexec
  rw [hexec]
  cases he : exec i s with
  | next t => simp only [mapNext, hcomm, ← exec_frame he]
  | fault r => rfl
  | refused r => rfl

/-- Settles O25: at the positions an acceptance leads to scratch is dead, and no step tells states apart that differ in dead
scratch alone; a command of another unit does not look at FPC. -/
theorem scratchIsDeadBetweenCommands : Obligations.ScratchIsDeadBetweenCommands := by
  intro i s x _
  by_cases hu : i.unit = .fpc
  · exact exec_withScratch_of_fpc hu s x
  · rw [exec_withScratch_of_ne_fpc hu]
    cases exec i s <;> rfl

end Sys2Proof.Machine
end

section
/-! PROOFS. What EWS looks at in the acknowledge poll: the timeout and the one acknowledge (41_eeprom_write_splitter.md R151,
R152, R156). -/

namespace Sys2Proof.Machine

/-! ## The timeout (R152) -/

/-- The ticks elapsed are the difference of the two readings, `2^TICK_BITS` added where the tick has wrapped (R152). -/
theorem elapsed_eq {c : Config} {now t0 : Nat} (h0 : t0 < 2 ^ c.tickBits) (hn : now < 2 ^ c.tickBits) :
    elapsed c now t0 = if t0 ≤ now then now - t0 else now + 2 ^ c.tickBits - t0 := by
  rw [elapsed, Nat.mod_eq_of_lt h0]
  split
  · rw [Nat.sub_add_comm ‹_›, Nat.add_mod_right, Nat.mod_eq_of_lt (by omega)]
  · exact Nat.mod_eq_of_lt (by omega)

/-- The timeout has not elapsed exactly while fewer than `TIMEOUT_TICKS` ticks have (R152). -/
theorem pollTimedOut_eq_false_iff {c : Config} {now t0 : Nat} (h0 : t0 < 2 ^ c.tickBits) (hn : now < 2 ^ c.tickBits) :
    pollTimedOut c now t0 = false
      ↔ (if t0 ≤ now then now - t0 else now + 2 ^ c.tickBits - t0) < 5 * c.ticksPerSecond / 1000 := by
  rw [pollTimedOut, elapsed_eq h0 hn, decide_eq_false_iff_not, Nat.not_le]
  rfl

/-- Settles O33: `SS_CK` goes back to `SS_ST` while the timeout has not elapsed, and on to `SS_HI` with the flag set once it
has. -/
theorem ewsPollTimeout : Obligations.EwsPollTimeout := by
  intro c e hp h0 hn
  refine ⟨_, ewsLine_ssCK hp, ?_⟩
  simp only [← pollTimedOut_eq_false_iff h0 hn]
  cases pollTimedOut c e.clock.tick e.t0 <;> simp

/-! ## The acknowledge (R156) -/

/-- The end of a read's body does not look at the EEPROM (R153, R205). -/
theorem Ews.readDone_control_congr_eeprom (c : Config) (e : Ews) (d : Eeprom) :
    (Ews.readDone c { e with eeprom := d }).map control = (Ews.readDone c e).map control := by
  unfold readDone
  cases e.op
  case print => dsimp only; split_ifs <;> rfl
  all_goals rfl

/-- The end of a write's body does not look at the EEPROM (R154, R155). -/
theorem Ews.writeDone_control_congr_eeprom (c : Config) (e : Ews) (d : Eeprom) :
    (Ews.writeDone c { e with eeprom := d }).map control = (Ews.writeDone c e).map control := by
  unfold writeDone
  cases e.op
  case eraseAll => dsimp only; split_ifs <;> rfl
  all_goals rfl

/-- Away from `SS_CT` no line looks at the EEPROM to say what EWS does next and what it reports (R156). -/
theorem ewsLine_control_congr_eeprom {c : Config} {e : Ews} (d : Eeprom) (hp : e.pos ≠ .ssCT) :
    (ewsLine c { e with eeprom := d }).map Ews.control = (ewsLine c e).map Ews.control := by
  unfold ewsLine
  cases hpos : e.pos
  case ssCT => exact absurd hpos hp
  case r2Stop => exact Ews.readDone_control_congr_eeprom c e.callStop d.stop
  case ws => exact Ews.writeDone_control_congr_eeprom c e.callStop d.stop
  case r1 | ssCK => dsimp only; split_ifs <;> rfl
  case ssLO => simp only [Option.map_map]; rfl
  all_goals rfl

/-- Settles O35: the line at `SS_CT` makes its one choice by the acknowledge, and no other line sees the EEPROM. -/
theorem ewsLooksAtOneAcknowledge : Obligations.EwsLooksAtOneAcknowledge :=
  ⟨fun _ _ _ hp => ⟨_, ewsLine_ssCT hp, rfl, rfl⟩, fun _ _ => ewsLine_control_congr_eeprom⟩

end Sys2Proof.Machine
end

section
/-! PROOFS. The run of EWS.WRITE and of EWS.READ, what they leave in the EEPROM and bring back from it while no acknowledge poll
gives up, and the round trip of the two (41_eeprom_write_splitter.md R151, R153, R154, R158, R162). -/

namespace Sys2Proof.Machine

/-! ## The EEPROM in a transaction (R75, R76) -/

section device
variable {c : Config} {d : Eeprom}

/-- The high byte of the address at a listening EEPROM (R75). -/
theorem Eeprom.afterSend_aHi {b : Byte} (h : d.mode = .aHi) : d.afterSend c b = { d with hi := b, mode := .aLo } := by
  simp only [afterSend, h]

/-- The low byte of the address at a listening EEPROM that has the high one: its pointer is at the address (R55, R75). -/
theorem Eeprom.afterSend_aLo (hc : c.Valid) {a : Nat} (h : d.mode = .aLo) (hh : d.hi = addressHi a) (ha : a < c.eeSize) :
    d.afterSend c (addressLo a) = { d with ptr := a, mode := .wData } := by
  have hsize := Config.eeSize_le hc
  simp only [afterSend, h, hh]
  rw [address_bytes (by omega), Nat.mod_eq_of_lt ha]

/-- The control byte `CTRL_R` at an EEPROM that is not committing (R75, R76). -/
theorem Eeprom.afterSend_ctrlR (hc : c.Valid) (h : d.mode = .ctrl) (hcm : d.commit = false) :
    d.afterSend c c.ctrlR = { d with mode := .rData } := by
  obtain ⟨-, -, -, -, -, hne, -⟩ := hc
  simp [afterSend, h, hcm, Ne.symm hne]

/-- A receive from an EEPROM that is read gives the byte at its pointer, which then moves on (R76). -/
theorem Eeprom.afterReceive_rData {ack : Bool} (h : d.mode = .rData) :
    d.receiveResult = d.ee.byte .eeprom d.ptr
      ∧ d.afterReceive c ack = { d with ptr := (d.ptr + 1) % c.eeSize, mode := if ack then .rData else .ignore } := by
  simp only [receiveResult, afterReceive, h, and_self]

/-- One byte more of a memory (R54). -/
theorem Memory.bytes_succ (sp : Space) (m : Memory) (a n : Nat) :
    m.bytes sp a (n + 1) = m.bytes sp a n ++ [m.byte sp (a + n)] := by
  simp [Memory.bytes, List.range_succ]

end device

/-! ## What a line of R160 leaves as it is -/

/-- EWS as in `b`, but for what StartSequence and the bodies of EWS.READ and EWS.WRITE work with, which is as in `e` (R151, R153,
R154). -/
def Ews.withBodyOf (b e : Ews) : Ews :=
  { b with
    addr := e.addr, i := e.i, txnOpen := e.txnOpen, t0 := e.t0, timedOut := e.timedOut, pos := e.pos, ri := e.ri, rx := e.rx
    trace := e.trace, eeprom := e.eeprom, clock := e.clock, sched := e.sched }

section lines
variable {c : Config} {e g : Ews}

/-- The collaborators' own move changes the collaborators only (R262). -/
theorem Ews.withBodyOf_moves (c : Config) (e : Ews) : e.withBodyOf (e.moves c) = e.moves c := by
  unfold moves
  split
  · split_ifs <;> rfl
  · rfl

/-- A line other than the last of a body changes nothing but what the bodies work with (R160). -/
theorem ewsLine_frame (hw : e.pos ≠ .ws) (hr : e.pos ≠ .r2Stop) (hs : ewsLine c e = some g) : e.withBodyOf g = g := by
  cases hp : e.pos
  case ready => rw [ewsLine_ready hp] at hs; cases hs
  case ws => exact absurd hp hw
  case r2Stop => exact absurd hp hr
  case r1 => rw [ewsLine_r1 hp] at hs; cases hs; split <;> rfl
  case ssCK => rw [ewsLine_ssCK hp] at hs; cases hs; split <;> rfl
  case ssLO =>
    rw [ewsLine_ssLO hp] at hs
    obtain ⟨p, -, rfl⟩ := Option.map_eq_some_iff.1 hs
    rfl
  all_goals
    simp only [ewsLine, hp] at hs
    cases hs
    rfl

/-- What a body works on is as before where nothing but what it works with has changed. -/
theorem Ews.body_congr (hf : e.withBodyOf g = g) :
    g.bodyAddress c = e.bodyAddress c ∧ g.bodyLength c = e.bodyLength c ∧ g.bodyByte = e.bodyByte := by
  rw [← hf]
  exact ⟨rfl, rfl, rfl⟩

/-- The timed-out flag is sticky (R31). -/
theorem ewsLine_timedOut_eq_false (hs : ewsLine c e = some g) (hg : g.timedOut = false) : e.timedOut = false :=
  Bool.eq_false_iff.2 fun he => Bool.eq_false_iff.1 hg ((ewsLine_timedOut hs).2 (.inl he))

/-- EWS.READ or EWS.WRITE at a position EWS.READ does not reach is EWS.WRITE (R160). -/
theorem Ews.op_eq_write (hb : e.BlockInv c) (hop : e.op = .read ∨ e.op = .write) (hp : e.pos.serves .read = false) :
    e.op = .write := by
  obtain ⟨hserves, -⟩ := hb
  rcases hop with hop | hop
  · rw [hop, hp] at hserves; cases hserves
  · exact hop

/-- EWS.READ or EWS.WRITE at a position EWS.WRITE does not reach is EWS.READ (R160). -/
theorem Ews.op_eq_read (hb : e.BlockInv c) (hop : e.op = .read ∨ e.op = .write) (hp : e.pos.serves .write = false) :
    e.op = .read := by
  obtain ⟨hserves, -⟩ := hb
  rcases hop with hop | hop
  · exact hop
  · rw [hop, hp] at hserves; cases hserves

/-- No line makes the EEPROM a stalled one, or another one not stalled (log 8). -/
theorem ewsLine_stalled (hs : ewsLine c e = some g) : g.eeprom.stalled = e.eeprom.stalled := by
  cases hp : e.pos
  case ready => rw [ewsLine_ready hp] at hs; cases hs
  case ws =>
    rw [ewsLine_ws hp] at hs
    rcases Ews.writeDone_some hs with ⟨-, rfl⟩ | ⟨-, -, rfl⟩ | ⟨-, -, rfl⟩ <;> rfl
  case r2Stop =>
    rw [ewsLine_r2Stop hp] at hs
    rcases Ews.readDone_some hs with ⟨-, rfl⟩ | ⟨-, -, rfl⟩ | ⟨-, -, rfl⟩ <;> rfl
  case r1 => rw [ewsLine_r1 hp] at hs; cases hs; split <;> rfl
  case ssCK => rw [ewsLine_ssCK hp] at hs; cases hs; split <;> rfl
  case ssLO =>
    rw [ewsLine_ssLO hp] at hs
    obtain ⟨p, -, rfl⟩ := Option.map_eq_some_iff.1 hs
    simp
  all_goals
    simp only [ewsLine, hp] at hs
    cases hs
    simp

end lines

/-! ## EWS and its EEPROM while no acknowledge poll has given up (R75, R76, R158) -/

/-- The number of payload bytes EWS.WRITE's body has sent (R154). -/
def Ews.sent (e : Ews) : Nat := if e.op = .write ∧ e.pos ≠ .w0 then e.i else 0

/-- The EEPROM holds the payload bytes sent so far at their addresses, and `m` everywhere else (R154). -/
def Ews.Holds (c : Config) (m : Memory) (e : Ews) : Prop :=
  ∀ a, e.eeprom.ee.read? .eeprom a
    = if e.bodyAddress c ≤ a ∧ a < e.bodyAddress c + e.sent then some (e.bodyByte (a - e.bodyAddress c))
      else m.read? .eeprom a

/-- Where the EEPROM is when it has heard every call of EWS.WRITE, or of EWS.READ in its acknowledge-polled form, so far, and what
EWS has sent to it or received from it (R151, R153, R154). The plain form's positions are not reached. -/
def Ews.Heard (c : Config) (e : Ews) : Prop :=
  match e.pos with
  | .ssCT => e.eeprom.got = 0
  | .ssHI => e.eeprom.mode = .aHi ∧ e.eeprom.got = 0 ∧ e.eeprom.commit = false
  | .ssLO => e.eeprom.mode = .aLo ∧ e.eeprom.got = 0 ∧ e.eeprom.commit = false
  | .wb => e.eeprom.mode = .wData
  | .ws => e.i = e.bodyLength c
  | .r1Stop => e.eeprom.got = 0 ∧ e.eeprom.commit = false ∧ e.eeprom.ptr = e.bodyAddress c
  | .r2 => e.eeprom.commit = false ∧ e.eeprom.ptr = e.bodyAddress c
  | .r2Ctl => e.eeprom.mode = .ctrl ∧ e.eeprom.commit = false ∧ e.eeprom.ptr = e.bodyAddress c
  | .r2Rx => e.eeprom.mode = .rData ∧ e.eeprom.ptr = e.bodyAddress c + e.ri
      ∧ e.rx = e.eeprom.ee.bytes .eeprom (e.bodyAddress c) e.ri
  | .r2Stop => e.rx = e.eeprom.ee.bytes .eeprom (e.bodyAddress c) (e.bodyLength c)
  | .r1Ctl | .r1Hi | .r1Lo => False
  | .ready | .r1 | .w0 | .wx | .ea | .pr | .ssT0 | .ssST | .ssCK => True

section track
variable {c : Config} {m : Memory} {e g : Ews}

/-- The collaborators' own move: the EEPROM is where it was, at most a commit has ended (R77). -/
theorem Ews.Heard.moves (h : e.Heard c) : (e.moves c).Heard c := by
  have hl : (e.moves c).bodyLength c = e.bodyLength c := by simp [bodyLength]
  have ha : (e.moves c).bodyAddress c = e.bodyAddress c := by simp [bodyAddress]
  unfold Heard at h
  simp only [Heard, moves_pos, moves_mode, moves_got, moves_ptr, moves_ee, moves_i, moves_ri, moves_rx, hl, ha]
  cases hp : e.pos <;> simp only [hp] at h ⊢
  case ssHI | ssLO =>
    obtain ⟨hmode, hgot, hcm⟩ := h
    exact ⟨hmode, hgot, moves_commit hcm⟩
  case r1Stop =>
    obtain ⟨hgot, hcm, hptr⟩ := h
    exact ⟨hgot, moves_commit hcm, hptr⟩
  case r2 =>
    obtain ⟨hcm, hptr⟩ := h
    exact ⟨moves_commit hcm, hptr⟩
  case r2Ctl =>
    obtain ⟨hmode, hcm, hptr⟩ := h
    exact ⟨hmode, moves_commit hcm, hptr⟩
  all_goals exact h

/-- The collaborators' own move changes no byte (R77, R78). -/
theorem Ews.Holds.moves (h : e.Holds c m) : (e.moves c).Holds c m := by
  have ha : (e.moves c).bodyAddress c = e.bodyAddress c := by simp [bodyAddress]
  have hb : (e.moves c).bodyByte = e.bodyByte := by funext; simp [bodyByte]
  have hs : (e.moves c).sent = e.sent := by simp [sent]
  simpa only [Holds, ha, hb, hs, moves_ee] using h

/-- A line that sends no data byte and leaves the byte counter as it is keeps what the EEPROM is to hold. -/
theorem Ews.Holds.keep (h : e.Holds c m) (hf : e.withBodyOf g = g) (hee : g.eeprom.ee = e.eeprom.ee) (hsent : g.sent = e.sent) :
    g.Holds c m := by
  obtain ⟨ha, -, hb⟩ := Ews.body_congr (c := c) hf
  simpa only [Holds, hee, ha, hb, hsent] using h

/-- The send of the next payload byte puts it at its address (R154, R158). -/
theorem Ews.Holds.wb (hop : e.op = .write) (hp : e.pos = .wb) (hb : e.BlockInv c) (hd : e.DeviceInv c) (hi : e.InStep c)
    (hm : e.eeprom.mode = .wData) (h : e.Holds c m) (hs : ewsLine c e = some g) : g.Holds c m := by
  obtain ⟨ha, -, hbyte⟩ := Ews.body_congr (c := c) (ewsLine_frame (by simp [hp]) (by simp [hp]) hs)
  obtain ⟨-, -, -, -, -, -, -, -, hsending, -⟩ := hb
  obtain ⟨-, haddr⟩ := hsending (.inl hop) (by simp [EwsPos.sending, hp])
  obtain ⟨-, -, -, -, hptr⟩ := hi
  obtain ⟨hwf, -⟩ := hd
  have hptr : e.eeprom.ptr = e.bodyAddress c + e.i := by
    rw [← haddr]
    simpa [hm] using hptr hp
  have hsent : e.sent = e.i := by simp [sent, hop, hp]
  obtain ⟨hsent', hee⟩ : g.sent = e.i + 1
      ∧ g.eeprom.ee = e.eeprom.ee.set .eeprom (e.bodyAddress c + e.i) (e.bodyByte e.i) := by
    rw [ewsLine_wb hp] at hs
    cases hs
    refine ⟨?_, by simp [Eeprom.afterSend_wData hm, hptr]⟩
    unfold sent afterByte
    split_ifs <;> simp_all
  intro a
  rw [ha, hbyte, hsent', hee, Memory.read?_set hwf, h a, hsent]
  rcases Nat.lt_trichotomy a (e.bodyAddress c + e.i) with hlt | heq | hgt
  · rw [if_neg (by omega)]
    exact if_congr (by omega) rfl rfl
  · rw [if_pos heq, if_pos (by omega), heq, Nat.add_sub_cancel_left]
  · rw [if_neg (by omega), if_neg (by omega), if_neg (by omega)]

/-- A line before the last that sends no data byte leaves the content and the byte counter as they are (R154, R160). -/
theorem ewsLine_content (hi : e.InStep c) (h : e.Heard c) (hwb : e.pos ≠ .wb) (hw0 : e.pos ≠ .w0) (hea : e.pos ≠ .ea)
    (hw : e.pos ≠ .ws) (hr : e.pos ≠ .r2Stop) (hs : ewsLine c e = some g) :
    g.eeprom.ee = e.eeprom.ee ∧ g.sent = e.sent := by
  have hop : g.op = e.op := by rw [← ewsLine_frame hw hr hs]; rfl
  suffices g.eeprom.ee = e.eeprom.ee ∧ g.i = e.i ∧ g.pos ≠ .w0 by
    obtain ⟨hee, hindex, hpos⟩ := this
    exact ⟨hee, by simp [Ews.sent, hop, hindex, hw0, hpos]⟩
  obtain ⟨hct, -⟩ := hi
  unfold Ews.Heard at h
  have send : ∀ b, e.eeprom.mode ≠ .wData → (e.callSend c b).eeprom.ee = e.eeprom.ee := fun _ => Eeprom.ee_afterSend
  cases hp : e.pos <;> simp only [hp] at h
  case ready => rw [ewsLine_ready hp] at hs; cases hs
  case wb => exact absurd hp hwb
  case w0 => exact absurd hp hw0
  case ea => exact absurd hp hea
  case ws => exact absurd hp hw
  case r2Stop => exact absurd hp hr
  case r1 => rw [ewsLine_r1 hp] at hs; cases hs; split <;> exact ⟨rfl, rfl, nofun⟩
  case ssCK => rw [ewsLine_ssCK hp] at hs; cases hs; split <;> exact ⟨rfl, rfl, nofun⟩
  case ssCT =>
    rw [ewsLine_ssCT hp] at hs; cases hs
    exact ⟨send _ (by simp [hct hp]), rfl, by split <;> nofun⟩
  case ssHI =>
    rw [ewsLine_ssHI hp] at hs; cases hs
    exact ⟨send _ (by simp [h]), rfl, nofun⟩
  case ssLO =>
    rw [ewsLine_ssLO hp] at hs
    obtain ⟨p, hret, rfl⟩ := Option.map_eq_some_iff.1 hs
    refine ⟨send _ (by simp [h]), rfl, ?_⟩
    rcases Ews.startReturn_some hret with ⟨-, rfl⟩ | ⟨-, rfl⟩ <;> nofun
  case r2Ctl =>
    rw [ewsLine_r2Ctl hp] at hs; cases hs
    exact ⟨send _ (by simp [h]), rfl, nofun⟩
  case r2Rx =>
    rw [ewsLine_r2Rx hp] at hs; cases hs
    exact ⟨by simp, rfl, by dsimp only; split <;> nofun⟩
  all_goals
    simp only [ewsLine, hp] at hs
    cases hs
    exact ⟨rfl, rfl, nofun⟩

/-- A line before the last keeps what the EEPROM is to hold. -/
theorem ewsLine_holds (hop : e.op = .read ∨ e.op = .write) (hb : e.BlockInv c) (hd : e.DeviceInv c)
    (hi : e.InStep c) (hh : e.Heard c) (h : e.Holds c m) (hw : e.pos ≠ .ws) (hr : e.pos ≠ .r2Stop)
    (hs : ewsLine c e = some g) : g.Holds c m := by
  obtain ⟨hserves, -⟩ := id hb
  by_cases hwb : e.pos = .wb
  · exact h.wb (Ews.op_eq_write hb hop (by rw [hwb]; rfl)) hwb hb hd hi (by simpa only [Ews.Heard, hwb] using hh) hs
  by_cases hw0 : e.pos = .w0
  · have hframe := ewsLine_frame hw hr hs
    rw [ewsLine_w0 hw0] at hs
    cases hs
    exact h.keep hframe rfl (by simp [Ews.sent, hw0])
  have hea : e.pos ≠ .ea := by
    intro hea
    rcases hop with hop | hop <;> simp [hea, hop, EwsPos.serves] at hserves
  obtain ⟨hee, hsent⟩ := ewsLine_content hi hh hwb hw0 hea hw hr hs
  exact h.keep (ewsLine_frame hw hr hs) hee hsent

/-- A line before the last at which no acknowledge poll gives up leaves EWS and its EEPROM together (R75, R76, R151 to R154). -/
theorem ewsLine_heard (hc : c.Valid) (hop : e.op = .read ∨ e.op = .write) (hack : e.op = .read → c.ewsReadAckpoll = true)
    (hb : e.BlockInv c) (hi : e.InStep c) (h : e.Heard c) (hw : e.pos ≠ .ws) (hr : e.pos ≠ .r2Stop)
    (hs : ewsLine c e = some g) (hlate : g.timedOut = false) : g.Heard c := by
  have hrange := Ews.body_range hc hb (by rcases hop with hop | hop <;> simp [hop])
  have hstart := Ews.startAddress_lt hc hb
  obtain ⟨hserves, -, -, -, -, -, -, -, hsending, -, hrx, -⟩ := id hb
  obtain ⟨hct, -, -, hhi, -⟩ := hi
  unfold Ews.Heard at h
  cases hp : e.pos <;> simp only [hp] at h
  case ready => rw [ewsLine_ready hp] at hs; cases hs
  case ws => exact absurd hp hw
  case r2Stop => exact absurd hp hr
  case ssT0 => rw [ewsLine_ssT0 hp] at hs; cases hs; trivial
  case ssST => rw [ewsLine_ssST hp] at hs; cases hs; exact Eeprom.start_got _
  case ssCT =>
    rw [ewsLine_ssCT hp] at hs; cases hs
    cases hcm : e.eeprom.commit with
    | true =>
      rw [(Eeprom.afterSend_committing (hct hp) hcm).2]
      trivial
    | false =>
      obtain ⟨hsend, hyes⟩ := Eeprom.afterSend_ctrlW (c := c) (hct hp) hcm
      rw [hyes]
      simp [Ews.Heard, hsend, h, hcm]
  case ssCK =>
    rw [ewsLine_ssCK hp] at hs
    split at hs
    · cases hs; cases hlate
    · cases hs; trivial
  case ssHI =>
    rw [ewsLine_ssHI hp] at hs; cases hs
    obtain ⟨hmode, hgot, hcm⟩ := h
    simp [Ews.Heard, Eeprom.afterSend_aHi hmode, hgot, hcm]
  case ssLO =>
    rw [ewsLine_ssLO hp] at hs
    obtain ⟨p, hret, rfl⟩ := Option.map_eq_some_iff.1 hs
    obtain ⟨hmode, hgot, hcm⟩ := h
    have hstart := hstart (by simp [hp, EwsPos.sending]) (by rcases hop with hop | hop <;> simp [hop])
    have hsend := Eeprom.afterSend_aLo hc hmode (by simpa [hmode] using hhi hp) hstart
    rcases Ews.startReturn_some hret with ⟨-, rfl⟩ | ⟨hread, rfl⟩
    · simp [Ews.Heard, hsend]
    · have hbody : e.startAddress c = e.bodyAddress c := by rcases hread with hr | hr <;> simp [Ews.startAddress, hr]
      exact ⟨(congrArg Eeprom.got hsend).trans hgot, (congrArg Eeprom.commit hsend).trans hcm,
        (congrArg Eeprom.ptr hsend).trans hbody⟩
  case w0 => rw [ewsLine_w0 hp] at hs; cases hs; trivial
  case wb =>
    rw [ewsLine_wb hp] at hs; cases hs
    obtain ⟨hlt, -⟩ := hsending (.inl (Ews.op_eq_write hb hop (by rw [hp]; rfl))) (by simp [hp, EwsPos.sending])
    unfold afterByte
    split_ifs
    · trivial
    · simp [Ews.Heard, Eeprom.afterSend_wData h, h]
    · show e.i + 1 = e.bodyLength c
      omega
  case wx => rw [ewsLine_wx hp] at hs; cases hs; trivial
  case r1 =>
    rw [ewsLine_r1 hp, if_pos (hack (Ews.op_eq_read hb hop (by rw [hp]; rfl)))] at hs
    cases hs
    trivial
  case r1Stop =>
    rw [ewsLine_r1Stop hp] at hs; cases hs
    obtain ⟨hgot, hcm, hptr⟩ := h
    exact ⟨by simp [hgot, hcm], hptr⟩
  case r2 => rw [ewsLine_r2 hp] at hs; cases hs; exact ⟨rfl, h⟩
  case r2Ctl =>
    rw [ewsLine_r2Ctl hp] at hs; cases hs
    obtain ⟨hmode, hcm, hptr⟩ := h
    have hsend := Eeprom.afterSend_ctrlR hc hmode hcm
    exact ⟨congrArg Eeprom.mode hsend, (congrArg Eeprom.ptr hsend).trans hptr, rfl⟩
  case r2Rx =>
    rw [ewsLine_r2Rx hp] at hs; cases hs
    obtain ⟨hmode, hptr, hgot⟩ := h
    obtain ⟨hlt, -⟩ := hrx hp
    obtain ⟨hbyte, hnext⟩ := Eeprom.afterReceive_rData (c := c) (ack := decide (e.ri + 1 ≠ e.bodyLength c)) hmode
    have hrx : e.rx ++ [e.eeprom.receiveResult] = e.eeprom.ee.bytes .eeprom (e.bodyAddress c) (e.ri + 1) := by
      rw [hbyte, hptr, hgot, Memory.bytes_succ]
    rw [← Eeprom.ee_afterReceive c (decide (e.ri + 1 ≠ e.bodyLength c))] at hrx
    rcases Nat.lt_or_ge (e.ri + 1) (e.bodyLength c) with hmore | hlast
    · rw [if_pos hmore]
      refine ⟨(congrArg Eeprom.mode hnext).trans (if_pos (by simp; omega)), (congrArg Eeprom.ptr hnext).trans ?_, hrx⟩
      rw [hptr]
      exact Nat.mod_eq_of_lt (by omega)
    · rw [if_neg (Nat.not_lt.2 hlast)]
      have hall : e.ri + 1 = e.bodyLength c := by omega
      exact hrx.trans (congrArg (Memory.bytes .eeprom _ _) hall)
  case ea | pr => rcases hop with hop | hop <;> simp [hp, hop, EwsPos.serves] at hserves

end track

/-! ## The run of a command (R153, R154, R222) -/

/-- EWS is running a command on an EEPROM that is not stalled; `b` is EWS as it was accepted, `m` what the EEPROM held then. -/
structure Ews.Running (c : Config) (m : Memory) (b e : Ews) : Prop where
  block : e.BlockInv c
  device : e.DeviceInv c
  inStep : e.InStep c
  stalled : e.eeprom.stalled = false
  frame : b.withBodyOf e = e
  heard : e.timedOut = false → e.Heard c
  holds : e.timedOut = false → e.Holds c m

/-- EWS.WRITE or EWS.READ has come to its end, by the last line of its body (R153, R154). -/
def Ews.Ended (c : Config) (m : Memory) (b g : Ews) : Prop :=
  ∃ e, Ews.Running c m b e
    ∧ ((b.op = .write ∧ e.pos = .ws ∧ g = e.callStop.complete)
      ∨ (b.op = .read ∧ e.pos = .r2Stop ∧ g = { e.callStop with dout := b.dout ++ e.rx }.complete))

section run
variable {c : Config} {m : Memory} {b e g : Ews}

/-- The command is the accepted one (R28). -/
theorem Ews.Running.op_eq (h : Ews.Running c m b e) : e.op = b.op := by rw [← h.frame]; rfl

/-- The collaborators' own move keeps a command running (R77, R78). -/
theorem Ews.Running.moves (h : Ews.Running c m b e) : Ews.Running c m b (e.moves c) where
  block := Ews.blockInv_moves h.block
  device := Ews.deviceInv_moves h.device
  inStep := Ews.inStep_moves h.inStep
  stalled := by rw [Ews.moves_stalled, h.stalled]
  frame := (congrArg (Ews.withBodyOf · (e.moves c)) h.frame).trans (Ews.withBodyOf_moves c e)
  heard hlate := (h.heard (by simpa using hlate)).moves
  holds hlate := (h.holds (by simpa using hlate)).moves

section
variable (hop : b.op = .read ∨ b.op = .write)
include hop

/-- EWS.READ and EWS.WRITE keep EWS busy (R32). -/
theorem Ews.Running.busy (h : Ews.Running c m b e) : e.busy = true := by
  refine (Ews.op_of_pos h.block fun hp => ?_).2
  obtain ⟨hserves, -⟩ := h.block
  rw [hp, h.op_eq] at hserves
  rcases hop with hop | hop <;> simp [hop, EwsPos.serves] at hserves

/-- A line before the last keeps a command running. -/
theorem Ews.Running.line (hc : c.Valid) (hack : b.op = .read → c.ewsReadAckpoll = true) (h : Ews.Running c m b e)
    (hw : e.pos ≠ .ws) (hr : e.pos ≠ .r2Stop) (hs : ewsLine c e = some g) : Ews.Running c m b g := by
  obtain ⟨-, -, -, htick⟩ := id h.device
  rw [← h.op_eq] at hop hack
  have hlate := ewsLine_timedOut_eq_false hs
  have hframe := ewsLine_frame hw hr hs
  exact {
    block := ewsLine_blockInv hc h.block htick hs
    device := ewsLine_deviceInv hc h.device hs
    inStep := ewsLine_inStep hc h.block h.inStep hs
    stalled := (ewsLine_stalled hs).trans h.stalled
    frame := (congrArg (Ews.withBodyOf · g) h.frame).trans hframe
    heard := fun hg => ewsLine_heard hc hop hack h.block h.inStep (h.heard (hlate hg)) hw hr hs hg
    holds := fun hg => ewsLine_holds hop h.block h.device h.inStep (h.heard (hlate hg)) (h.holds (hlate hg)) hw hr hs }

/-- The last line of the body ends the command (R153, R154). -/
theorem Ews.Running.lastLine (h : Ews.Running c m b e) (hp : e.pos = .ws ∨ e.pos = .r2Stop) :
    ∃ g, ewsLine c e = some g ∧ Ews.Ended c m b g := by
  have hdout : e.dout = b.dout := by rw [← h.frame]; rfl
  have heq := h.op_eq
  rw [← heq] at hop
  rcases hp with hp | hp
  · have hwrite := Ews.op_eq_write h.block hop (by rw [hp]; rfl)
    refine ⟨_, (ewsLine_ws hp).trans ?_, e, h, .inl ⟨heq ▸ hwrite, hp, rfl⟩⟩
    simp [Ews.writeDone, hwrite]
  · have hread := Ews.op_eq_read h.block hop (by rw [hp]; rfl)
    refine ⟨_, (ewsLine_r2Stop hp).trans ?_, e, h, .inr ⟨heq ▸ hread, hp, rfl⟩⟩
    simp [Ews.readDone, hread, hdout]

/-- A sequencer step of a running command: it ends the command, or the command runs on with less left to do. -/
theorem Ews.Running.step (hc : c.Valid) (hack : b.op = .read → c.ewsReadAckpoll = true) (h : Ews.Running c m b e) :
    ∃ g, ewsSeq c e = some g ∧ (g.stops c = true → Ews.Ended c m b g)
      ∧ (g.stops c = false → Ews.Running c m b g ∧ ewsMeasure c g < ewsMeasure c e) := by
  by_cases hp : (e.moves c).pos = .ws ∨ (e.moves c).pos = .r2Stop
  · obtain ⟨g, hs, hend⟩ := h.moves.lastLine hop hp
    have hstops : g.stops c = true := by
      obtain ⟨_, -, ⟨-, -, rfl⟩ | ⟨-, -, rfl⟩⟩ := hend <;> rfl
    exact ⟨g, hs, fun _ => hend, by simp [hstops]⟩
  · obtain ⟨hw, hr⟩ := not_or.1 hp
    obtain ⟨g, hs⟩ := ewsLine_progress h.moves.block (h.moves.busy hop)
    have hrun := h.moves.line hop hc hack hw hr hs
    have hstops : g.stops c = false := by simp [Ews.stops, Ews.hung, hrun.busy hop, hrun.stalled]
    exact ⟨g, hs, by simp [hstops], fun _ => ⟨hrun, ewsSeq_measure hc h.block h.device h.inStep h.stalled hs⟩⟩

/-- EWS.WRITE, and EWS.READ in its acknowledge-polled form, come to their end whatever the EEPROM and the tick do, the EEPROM not
being stalled (R153, R154). -/
theorem runSeq_ewsSeq_ended (hc : c.Valid) (hack : b.op = .read → c.ewsReadAckpoll = true) (h : Ews.Running c m b b) :
    ∃ g, runSeq (ewsSeq c) (Ews.stops c) (ewsFuel c b) b = some g ∧ Ews.Ended c m b g := by
  obtain ⟨g, hrun, -, hend⟩ := runSeq_terminates (P := Ews.Running c m b) (fun _ ha => ewsMeasure_pos hc ha.block (ha.busy hop))
    (fun _ ha => ha.step hop hc hack) h (ewsMeasure_le_fuel hc h.block)
  exact ⟨g, hrun, hend⟩

end

/-- The end of a command leaves EWS at rest, its invariants kept. -/
theorem Ews.Ended.atRest (h : Ews.Ended c m b g) :
    g.BlockInv c ∧ g.DeviceInv c ∧ g.busy = false ∧ g.eeprom.stalled = false := by
  obtain ⟨e, hrun, ⟨-, -, rfl⟩ | ⟨-, -, rfl⟩⟩ := h
  all_goals
    obtain ⟨-, -, -, -, -, -, -, -, -, -, -, -, hpbuf, -⟩ := id hrun.block
    exact ⟨Ews.blockInv_done hrun.block rfl rfl rfl rfl rfl hpbuf rfl, hrun.device, rfl, hrun.stalled⟩

/-- EWS.WRITE that no poll gave up on leaves its payload at its addresses, and sends nothing out (R154). -/
theorem Ews.Ended.written (h : Ews.Ended c m b g) (hop : b.op = .write) (hlate : g.timedOut = false) :
    g.dout = b.dout ∧ ∀ k, k < b.n.toNat → g.eeprom.ee.read? .eeprom (b.opAddr.toNat + k) = some (b.data.getD k 0#8) := by
  obtain ⟨e, hrun, ⟨-, hp, rfl⟩ | ⟨hread, -⟩⟩ := h
  · have hlate : e.timedOut = false := hlate
    have hframe := hrun.frame
    obtain ⟨haddr, hlen, hbyte⟩ := Ews.body_congr (c := c) hframe
    have hi : e.i = b.n.toNat := by
      have := hrun.heard hlate
      simp only [Ews.Heard, hp] at this
      rw [this, hlen, Ews.bodyLength, hop]
    refine ⟨by rw [← hframe]; rfl, fun k hk => ?_⟩
    have hk' := hrun.holds hlate (b.opAddr.toNat + k)
    have ha : b.bodyAddress c = b.opAddr.toNat := by simp [Ews.bodyAddress, hop]
    have hsent : e.sent = b.n.toNat := by simp [Ews.sent, hrun.op_eq, hop, hp, hi]
    rw [haddr, ha, hsent, hbyte, if_pos (by omega), Nat.add_sub_cancel_left] at hk'
    simpa [Ews.bodyByte, hop] using hk'
  · rw [hop] at hread; cases hread

/-- EWS.READ that no poll gave up on sends out the EEPROM's bytes (R153). -/
theorem Ews.Ended.dout (h : Ews.Ended c m b g) (hop : b.op = .read) (hlate : g.timedOut = false) :
    g.dout = b.dout ++ m.bytes .eeprom b.opAddr.toNat b.n.toNat := by
  obtain ⟨e, hrun, ⟨hwrite, -⟩ | ⟨-, hp, rfl⟩⟩ := h
  · rw [hop] at hwrite; cases hwrite
  · have hlate : e.timedOut = false := hlate
    obtain ⟨haddr, hlen, -⟩ := Ews.body_congr (c := c) hrun.frame
    have hrx := hrun.heard hlate
    simp only [Ews.Heard, hp, haddr, hlen] at hrx
    have hsent : e.sent = 0 := by simp [Ews.sent, hrun.op_eq, hop]
    have hee : ∀ a, e.eeprom.ee.read? .eeprom a = m.read? .eeprom a := fun a => by
      rw [hrun.holds hlate a, hsent, if_neg (by omega)]
    show b.dout ++ e.rx = _
    rw [hrx, Memory.bytes_congr fun a _ _ => hee a]
    simp [Ews.bodyAddress, Ews.bodyLength, hop]

end run

/-! ## The two commands -/

/-- With no host move pending an accepted EWS command runs with all the steps it may need (log 9). -/
theorem ewsStart_of_some {s : State} {e g : Ews} (hhost : s.host = [])
    (h : runSeq (ewsSeq s.cfg) (Ews.stops s.cfg) (ewsFuel s.cfg e) e = some g) :
    ewsStart { s with ews := e } = .next { s with ews := g } := by
  rw [ewsStart, State.budgetAccepted_nil (s := { s with ews := e }) hhost]
  exact ewsRun_of_some h

section commands
variable {s : State} {i : Instr}

/-- EWS.READ or EWS.WRITE, just accepted, is running (R150). -/
theorem Ews.running_accepted (h : s.ReadyForEws) (hu : i.unit = .ews) (hw : i.wellFormed = true) (hp : precondition i s = true)
    (hop : (acceptedEws i s.ews).op = .read ∨ (acceptedEws i s.ews).op = .write) :
    Ews.Running s.cfg s.ews.eeprom.ee (acceptedEws i s.ews) (acceptedEws i s.ews) := by
  obtain ⟨⟨hc, -, hblock, hdevice, -⟩, -, hbusy, hstalled⟩ := h
  have hblock' := acceptedEws_blockInv hc rfl hblock hbusy hw hp
  cases i
  case ewsRead | ewsWrite =>
    exact ⟨hblock', hdevice, Ews.inStep_of_pos (by simp [acceptedEws]), hstalled, rfl, fun _ => trivial,
      fun _ a => by simp [Ews.sent, acceptedEws]⟩
  case ewsEraseAll | ewsPrint => rcases hop with hop | hop <;> cases hop
  all_goals cases hu

/-- EWS.WRITE, and EWS.READ in its acknowledge-polled form, at an EWS that is ready for it comes to its end. -/
theorem exec_ews_ended (h : s.ReadyForEws) (hu : i.unit = .ews) (hw : i.wellFormed = true) (hp : precondition i s = true)
    (hop : (acceptedEws i s.ews).op = .read ∨ (acceptedEws i s.ews).op = .write)
    (hack : (acceptedEws i s.ews).op = .read → s.cfg.ewsReadAckpoll = true) :
    ∃ g, exec i s = .next { s with ews := g } ∧ Ews.Ended s.cfg s.ews.eeprom.ee (acceptedEws i s.ews) g := by
  have hrunning := Ews.running_accepted h hu hw hp hop
  obtain ⟨⟨hc, -⟩, hhost, hbusy, -⟩ := h
  obtain ⟨g, hrun, hend⟩ := runSeq_ewsSeq_ended hop hc hack hrunning
  refine ⟨g, ?_, hend⟩
  rw [exec_accepted (by simp [hu, State.occupied, hbusy]) hp, hu]
  exact ewsStart_of_some hhost hrun

/-- EWS at the end of a command is ready for the next. -/
theorem Ews.Ended.ready {m : Memory} {b g : Ews} (hend : Ews.Ended s.cfg m b g) (h : s.ReadyForEws) :
    State.ReadyForEws { s with ews := g } := by
  obtain ⟨⟨hc, hfpc, -, -, hrpa⟩, hhost, -⟩ := h
  obtain ⟨hblock, hdevice, hbusy, hstalled⟩ := hend.atRest
  exact ⟨⟨hc, hfpc, hblock, hdevice, hrpa⟩, hhost, hbusy, hstalled⟩

end commands

/-- A range of the EEPROM is what its addresses read as. -/
theorem Memory.bytes_eq_of_read? {sp : Space} {m : Memory} {a : Nat} {data : List Byte}
    (h : ∀ k, k < data.length → m.read? sp (a + k) = some (data.getD k 0#8)) : m.bytes sp a data.length = data := by
  apply List.ext_getElem (by simp)
  intro k hk hk'
  simp [Memory.bytes, Memory.byte, h k hk', hk']

/-- Settles O43: EWS.WRITE comes to its end with the payload at its addresses and EWS ready, where EWS.READ comes to its end with
what stands at those addresses. -/
theorem ewsRoundTrip : Obligations.EwsRoundTrip := by
  intro s address n data h hack hn hrange hd
  have hok : ewsRangeOk s.cfg address n = true := by simp [ewsRangeOk, hn, hrange]
  obtain ⟨g, hwrite, hwritten⟩ := exec_ews_ended (i := .ewsWrite address n data) h rfl (by simpa [Instr.wellFormed] using hd) hok
    (.inr rfl) nofun
  refine ⟨_, hwrite, fun hlate => ?_⟩
  obtain ⟨hdout, hbytes⟩ := hwritten.written rfl hlate
  obtain ⟨g', hread, hended⟩ := exec_ews_ended (i := .ewsRead address n) (hwritten.ready h) rfl rfl hok (.inl rfl) fun _ => hack
  refine ⟨_, hread, fun hlate' => (hended.dout rfl hlate').trans ?_⟩
  have hdata : g.eeprom.ee.bytes .eeprom address.toNat n.toNat = data := by
    rw [← hd]
    exact Memory.bytes_eq_of_read? fun k hk => hbytes k (hk.trans_eq hd)
  exact congrArg₂ (· ++ ·) hdout hdata

end Sys2Proof.Machine
end

section
/-! PROOFS. The cursor arithmetic of the ring (42_ringbuffer_pointer_arith.md R180). -/

namespace Sys2Proof.Machine

/-- The new cursor is the old one moved by the length, modulo the capacity (R180). -/
theorem rpaArith_next {cap cursor n : Nat} : (rpaArith cap cursor n).next = (cursor + n) % cap := rfl

/-- Settles O47, by whether the copy reaches the end of the ring: one that does not is one piece, one that does is split there. -/
theorem ringArithmetic : Obligations.RingArithmetic := by
  intro cap cursor n _ hc hn
  rw [← rpaArith_next]
  rcases Nat.lt_or_ge (cursor + n) cap with h | h
  · rw [rpaArith_no_wrap h, if_neg h.not_ge, if_neg h.not_ge]
    exact ⟨by simpa using h, rfl, rfl, Nat.zero_le _, rfl, rfl, fun he => absurd he h.ne⟩
  · rw [rpaArith_wrap hc hn h, if_pos h, if_pos h]
    have hhead : cap - cursor ≤ n := by omega
    have htail : n - (cap - cursor) ≤ cursor := by omega
    exact ⟨by simpa using h, rfl, Nat.add_sub_of_le hhead, htail, rfl, rfl, fun he => ⟨rfl, by dsimp only; omega⟩⟩

end Sys2Proof.Machine
end

section
/-! PROOFS. Refusals at a unit's port and FPC's hang (60_exceptions.md R223 to R225): what a unit finds at its port, a turn
touches one unit only, and a poll of a stalled device changes the call trace alone. -/

namespace Sys2Proof.Machine

/-! ## What a unit finds at its port (R97 steps 1 to 3) -/

/-- An opcode that is not the unit's is illegal and takes no payload (R97 step 1). -/
theorem fetchAt_foreign {u : UnitId} {cw : Word64} {rest : List Word64} {pay : List Byte}
    (h : ∀ op : Opcode, op.unit = u → Cw.opc cw ≠ op.toByte) :
    fetchAt u (cw :: rest) pay = .illegal (Cw.opc cw) rest pay := by
  cases ho : Opcode.ofByte? (Cw.opc cw) with
  | none => simp [fetchAt, ho]
  | some op =>
    have hu : op.unit ≠ u := fun hu => h op hu (Opcode.ofByte?_eq_some.1 ho)
    simp [fetchAt, ho, hu]

/-- A must-be-zero field that is not zero is illegal, and the payload is taken whole (R97 step 3). -/
theorem fetchAt_reservedField {u : UnitId} {op : Opcode} {cw : Word64} {rest : List Word64} {pay : List Byte}
    (hu : op.unit = u) (ho : Cw.opc cw = op.toByte) (hl : op.payloadLength cw ≤ pay.length)
    (hm : cw &&& op.mask ≠ op.matchWord) :
    fetchAt u (cw :: rest) pay = .illegal (Cw.opc cw) rest (pay.drop (op.payloadLength cw)) := by
  have hd : decodeCommand cw pay = .error .reservedField := by simp [decodeCommand, ho, hl.not_gt, hm]
  simp [fetchAt, ho, hu, hd]

/-- The opcode of a word that spells a command. -/
theorem opc_of_decodeCommand {cw : Word64} {pay pay' : List Byte} {i : Instr} (h : decodeCommand cw pay = .ok (i, pay')) :
    Cw.opc cw = i.opcode.toByte := by
  obtain ⟨op, ho, -, -, rfl, -⟩ := decodeCommand_ok.1 h
  rw [ho, Opcode.opcode_build]

/-- A word and its payload that spell a command of the unit are that command. -/
theorem fetchAt_command {u : UnitId} {cw : Word64} {rest : List Word64} {pay pay' : List Byte} {i : Instr}
    (hu : i.unit = u) (h : decodeCommand cw pay = .ok (i, pay')) :
    fetchAt u (cw :: rest) pay = .command i (Cw.opc cw) rest pay' := by
  have hop : i.opcode.unit = u := hu
  simp [fetchAt, opc_of_decodeCommand h, h, hop]

/-- The command a unit finds is one of its own. -/
theorem unit_of_fetchAt {u : UnitId} {cmd cmd' : List Word64} {pay pay' : List Byte} {i : Instr} {opc : Byte}
    (h : fetchAt u cmd pay = .command i opc cmd' pay') : i.unit = u := by
  unfold fetchAt at h
  split at h
  · cases h
  split at h
  · cases h
  rename_i cw _ _ op ho
  split_ifs at h with hu
  split at h
  · rename_i hd
    cases h
    have hop : op = i.opcode := by
      rw [opc_of_decodeCommand hd, Opcode.ofByte?_toByte] at ho
      exact (Option.some.inj ho).symm
    rw [Instr.unit, ← hop]
    exact not_not.1 hu
  · cases h
  · cases h

/-! ## The turn of a unit that can take a command (R97, R100) -/

/-- A precondition does not look at the ports (R102). -/
@[simp] theorem precondition_setPort (i : Instr) (u : UnitId) (p : Port) (s : State) :
    precondition i (s.setPort u p) = precondition i s := by
  cases i <;> cases u <;> rfl

/-- A unit that finds an illegal word refuses it, and that is its turn (R224). -/
theorem step_illegal {s : State} {opc : Byte} {cmd : List Word64} {pay : List Byte} (hm : s.NoMoveDue)
    (ho : s.occupied s.turn = false)
    (hf : fetchAt s.turn (s.port s.turn).cmd (s.port s.turn).pay = .illegal opc cmd pay) :
    step s = .next ((s.setPort s.turn ⟨cmd, pay⟩).refuse s.turn opc .errIllegal).endTurn := by
  rw [step_unitTurn hm, unitTurn_free ho]
  simp [takeCommand, hf, mapNext]

/-- A unit that finds a command runs it with its word and payload taken, and that is its turn (R97). -/
theorem step_command {s : State} {i : Instr} {opc : Byte} {cmd : List Word64} {pay : List Byte} (hm : s.NoMoveDue)
    (ho : s.occupied s.turn = false)
    (hf : fetchAt s.turn (s.port s.turn).cmd (s.port s.turn).pay = .command i opc cmd pay) :
    step s = mapNext State.endTurn (exec i (s.setPort s.turn ⟨cmd, pay⟩)) := by
  rw [step_unitTurn hm, unitTurn_free ho]
  simp [takeCommand, hf]

/-! ## Refusals (R223, R224) -/

/-- Settles O6: the unit finds an illegal word at its port, and a refusal leaves it as free as it was. -/
theorem illegalWordIsRefused : Obligations.IllegalWordIsRefused := by
  intro s cw rest hm ho hcmd
  refine ⟨fun hforeign => step_illegal hm ho ?_, fun op hu hopc hl hmask => step_illegal hm ho ?_, fun pay => by simpa using ho⟩
  · rw [hcmd, fetchAt_foreign hforeign]
  · rw [hcmd, fetchAt_reservedField hu hopc hl hmask]

/-- Settles O7: the meaning refuses, and at the port the refusal comes after the word and its payload are taken. -/
theorem preconditionRefusal : Obligations.PreconditionRefusal := by
  refine ⟨fun i s ho hp => ⟨exec_refused ho hp, by simpa using ho⟩, fun s cw rest i pay hm ho hcmd hd hu hp => ?_⟩
  have hf : fetchAt s.turn (s.port s.turn).cmd (s.port s.turn).pay = .command i (Cw.opc cw) rest pay := by
    rw [hcmd, fetchAt_command hu hd]
  rw [step_command hm ho hf, exec_refused (by simpa [hu] using ho) (by simpa using hp), hu, opc_of_decodeCommand hd]
  rfl

/-! ## What a step of the machine can do (R20, R262) -/

/-- A step is a host move that is due or, with none due, the turn of one unit (R262). -/
theorem step_cases {s t : State} (h : step s = .next t) :
    (∃ m rest, s.host = (0, m) :: rest ∧ t = { s with host := rest }.hostMove m)
      ∨ s.NoMoveDue ∧ ∃ u, unitTurn s = .next u ∧ t = u.endTurn := by
  by_cases hm : s.NoMoveDue
  · rw [step_unitTurn hm] at h
    exact .inr ⟨hm, mapNext_eq_next h⟩
  · obtain ⟨⟨k, m⟩, hk, rfl⟩ : ∃ x, s.host.head? = some x ∧ x.1 = 0 := by simpa [State.NoMoveDue] using hm
    obtain ⟨rest, hhost⟩ := List.head?_eq_some_iff.1 hk
    rw [step_hostMove hhost] at h
    exact .inl ⟨m, rest, hhost, (Host.Outcome.next.inj h).symm⟩

@[simp] theorem State.withUnitOf_setPort (u : UnitId) (p : Port) (s t : State) :
    (s.setPort u p).withUnitOf u t = s.withUnitOf u t := by cases u <;> rfl

/-- A unit that goes on with its command leaves the rest of the machine as it is (R20). -/
theorem resume_frame {u : UnitId} {s t : State} (h : resume u s = .next t) : t = s.withUnitOf u t := by
  cases u with
  | fpc => obtain ⟨f, -, rfl⟩ := fpcRun_next h; rfl
  | ews => obtain ⟨e, -, rfl⟩ := ewsRun_next h; rfl
  | rpa => obtain ⟨r, -, rfl⟩ := rpaRun_next h; rfl

/-- A unit that looks at its ports leaves the rest of the machine as it is (R20). -/
theorem takeCommand_frame {u : UnitId} {s t : State} (h : takeCommand u s = .next t) : t = s.withUnitOf u t := by
  unfold takeCommand at h
  split at h
  case h_1 => cases h; simp
  case h_2 => cases h; simp
  case h_3 => cases h; cases u <;> rfl
  case h_4 hf =>
    obtain rfl := unit_of_fetchAt hf
    simpa using exec_frame h

/-- A turn leaves all but the unit whose turn it is as it is (R20). -/
theorem unitTurn_frame {s t : State} (h : unitTurn s = .next t) : t = s.withUnitOf s.turn t := by
  cases ho : s.occupied s.turn with
  | true => exact resume_frame (unitTurn_occupied ho ▸ h)
  | false => exact takeCommand_frame (unitTurn_free ho ▸ h)

/-! ## FPC's hang (R225) -/

theorem Fpc.hung_iff {f : Fpc} :
    f.hung = true ↔ f.nvm.busy = true ∧ f.nvm.stalled = true ∧ f.nvm.sched = [] ∧ (f.pos = .ep ∨ f.pos = .wp) := by
  simp [Fpc.hung, and_assoc]

/-- A sequencer step in a hang is a poll that finds the device busy (R127, R225). -/
theorem fpcSeq_hung {c : Config} {f : Fpc} (h : f.hung = true) : fpcSeq c f = some f.callIsBusy := by
  obtain ⟨hbusy, hstalled, hsched, hpos⟩ := Fpc.hung_iff.1 h
  have hmoves : f.moves = f := by simp [Fpc.moves, Nvm.moves, hsched, hstalled]
  rw [fpcSeq, hmoves, fpcRow_poll hpos hbusy]

/-- However many steps FPC makes in a hang, they add polls to the call trace and change nothing else (R225). -/
theorem runSeq_fpcSeq_hung {c : Config} {stop : Fpc → Bool} {n : Nat} {f g : Fpc} (h : f.hung = true)
    (hr : runSeq (fpcSeq c) stop n f = some g) : ∃ tr, g = { f with trace := tr } := by
  refine runSeq_keeps (P := fun g => ∃ tr, g = { f with trace := tr }) ?_ ⟨f.trace, rfl⟩ hr
  rintro _ b ⟨tr, rfl⟩ hs
  rw [fpcSeq_hung (f := { f with trace := tr }) h] at hs
  cases hs
  exact ⟨_, rfl⟩

/-- A turn of any unit adds at most polls to the trace of an FPC that is in a hang (R225). -/
theorem unitTurn_hung {s t : State} (hb : s.fpc.busy = true) (h : s.fpc.hung = true) (ht : unitTurn s = .next t) :
    ∃ tr, t.fpc = { s.fpc with trace := tr } := by
  cases hu : s.turn with
  | fpc =>
    have hocc : s.occupied s.turn = true := by simp [hu, State.occupied, Fpc.takes, hb]
    rw [unitTurn_occupied hocc, hu] at ht
    obtain ⟨f, hr, rfl⟩ := fpcRun_next ht
    exact runSeq_fpcSeq_hung h hr
  | ews => exact ⟨s.fpc.trace, by rw [unitTurn_frame ht, hu]; rfl⟩
  | rpa => exact ⟨s.fpc.trace, by rw [unitTurn_frame ht, hu]; rfl⟩

/-- A host move that is no reset adds at most a word and payload at FPC's ports (R38, R90). -/
theorem hostMove_fpc {m : HostMove} (s : State) (hm : m ≠ .reset) :
    ∃ p, (s.hostMove m).fpc = { s.fpc with port := p } ∧ s.fpc.port.cmd <+: p.cmd := by
  cases m with
  | reset => exact absurd rfl hm
  | readStatus u => exact ⟨_, rfl, List.prefix_rfl⟩
  | present u cw payload =>
    cases u with
    | fpc => exact ⟨_, rfl, List.prefix_append _ _⟩
    | ews => exact ⟨_, rfl, List.prefix_rfl⟩
    | rpa => exact ⟨_, rfl, List.prefix_rfl⟩

/-- A step that is no reset leaves an FPC that is in a hang as it is but for its call trace and what the host puts behind
its waiting commands (R225). -/
theorem step_hung {s t : State} (hb : s.fpc.busy = true) (h : s.fpc.hung = true) (ht : step s = .next t)
    (hreset : ∀ rest, s.host ≠ (0, .reset) :: rest) :
    ∃ tr p, t.fpc = { s.fpc with trace := tr, port := p } ∧ s.fpc.port.cmd <+: p.cmd := by
  obtain ⟨m, rest, hhost, rfl⟩ | ⟨-, u, hu, rfl⟩ := step_cases ht
  · obtain ⟨p, hp, hpre⟩ := hostMove_fpc { s with host := rest } (fun hm => hreset rest (hm ▸ hhost))
    exact ⟨_, p, hp, hpre⟩
  · obtain ⟨tr, htr⟩ := unitTurn_hung hb h hu
    exact ⟨tr, _, htr, List.prefix_rfl⟩

/-- In a hang FPC is busy, ERASING or WRITING (R127). -/
theorem Fpc.Inv.busy_phase_of_hung {c : Config} {f : Fpc} (hi : f.Inv c) (h : f.hung = true) :
    f.busy = true ∧ (f.phase = .erasing ∨ f.phase = .writing) := by
  obtain ⟨-, -, -, hpos⟩ := Fpc.hung_iff.1 h
  have hbusy : f.busy = true := Fpc.Inv.busy_of_pos hi (by rcases hpos with hp | hp <;> simp [hp])
  obtain ⟨hphase, -⟩ := hi
  exact ⟨hbusy, hpos.imp (fun hp => by rw [hphase, hp]; rfl) (fun hp => by rw [hphase, hp]; rfl)⟩

/-- Settles O30: a hang is made of FPC's own state and its device's, of which a step that is no reset changes nothing; a reset
puts FPC at rest. -/
theorem fpcHangIsForEver : Obligations.FpcHangIsForEver := by
  rintro s t ⟨-, hfpc, -⟩ hhung ht
  refine ⟨fun hreset => ?_, fun rest hhost => ?_⟩
  · obtain ⟨hb, hphase⟩ := Fpc.Inv.busy_phase_of_hung hfpc hhung
    obtain ⟨tr, p, ht', hpre⟩ := step_hung hb hhung ht hreset
    rw [ht']
    exact ⟨hhung, hb, rfl, hphase, rfl, hpre⟩
  · rw [step_hostMove hhost] at ht
    cases ht
    exact ⟨rfl, rfl, rfl⟩

end Sys2Proof.Machine
end

section
/-! PROOFS. Encoding and decoding of commands and responses (30_encoding.md R91 to R99). -/

namespace Sys2Proof

/-! ## A command and its word (R91 to R96) -/

/-- Every command's word is a word of its row, and its fields are its operands. -/
theorem Instr.wordFields (i : Instr) : Laws.WordFields.Statement i := by
  cases i with
  | fpcRead n => exact Laws.WordFields.fpcRead n
  | fpcWrite n data => exact Laws.WordFields.fpcWrite n data
  | fpcUpdate n data => exact Laws.WordFields.fpcUpdate n data
  | fpcErase => exact Laws.WordFields.fpcErase
  | fpcPrint => exact Laws.WordFields.fpcPrint
  | ewsRead address n => exact Laws.WordFields.ewsRead address n
  | ewsWrite address n data => exact Laws.WordFields.ewsWrite address n data
  | ewsEraseAll => exact Laws.WordFields.ewsEraseAll
  | ewsPrint => exact Laws.WordFields.ewsPrint
  | rpaRead n => exact Laws.WordFields.rpaRead n
  | rpaWrite n src => exact Laws.WordFields.rpaWrite n src
  | rpaCfg cap rd wr => exact Laws.WordFields.rpaCfg cap rd wr

/-- A well-formed command's word, its payload behind it, spells the command (R94, R96). -/
theorem decodeCommand_word {i : Instr} (h : i.wellFormed = true) (rest : List Byte) :
    decodeCommand i.word (i.payload ++ rest) = .ok (i, rest) := by
  obtain ⟨hmask, hbuild⟩ := i.wordFields
  have hlen := Instr.payloadLength_word h
  refine decodeCommand_ok.2 ⟨i.opcode, Instr.opc_word i, ?_, hmask, ?_, ?_⟩
  · rw [hlen, List.length_append]; omega
  · rw [hlen, List.take_left, hbuild]
  · rw [hlen, List.drop_left]

/-- The word of the command that a word of a row spells is that word (R92, R93). -/
theorem Opcode.word_build {op : Opcode} {cw : Word64} {pay : List Byte} (h : cw &&& op.mask = op.matchWord) :
    (op.build cw pay).word = cw := by
  obtain ⟨hopc, hrsv, ha, hb, hc⟩ := (Opcode.and_mask_iff op cw).1 h
  conv_rhs => rw [← Cw.make_fields hrsv]
  cases op <;> simp_all [Opcode.build, Instr.word, Instr.opcode, Opcode.format]

/-- The payload of the command that a word of a row spells (R94). -/
theorem Opcode.payload_build (op : Opcode) (cw : Word64) (pay : List Byte) :
    (op.build cw pay).payload = if op.hasPayload then pay else [] := by cases op <;> rfl

/-- A word of a row with as many payload bytes as it says spells a well-formed command (R94). -/
theorem Opcode.wellFormed_build {op : Opcode} {cw : Word64} {pay : List Byte} (h : pay.length = op.payloadLength cw) :
    (op.build cw pay).wellFormed = true := by
  cases op <;> simp_all [Opcode.build, Instr.wellFormed, Opcode.payloadLength, Opcode.hasPayload]

/-- A word and a payload that spell a command are that command's, and it is well-formed (R94, R96). -/
theorem eq_word_of_decodeCommand {cw : Word64} {pay rest : List Byte} {i : Instr} (h : decodeCommand cw pay = .ok (i, rest)) :
    i.wellFormed = true ∧ i.word = cw ∧ i.payload ++ rest = pay := by
  obtain ⟨op, -, hlen, hmask, rfl, rfl⟩ := decodeCommand_ok.1 h
  refine ⟨Opcode.wellFormed_build (by simp [hlen]), Opcode.word_build hmask, ?_⟩
  have hpay : (if op.hasPayload then pay.take (op.payloadLength cw) else []) = pay.take (op.payloadLength cw) := by
    split
    · rfl
    · simp [Opcode.payloadLength, *]
  rw [Opcode.payload_build, hpay, List.take_append_drop]

/-- Settles O2: the word decodes to the command's fields, and the payload is cut at the length the word gives. -/
theorem decodeOfEncode : Obligations.DecodeOfEncode := fun i rest h => by
  rw [encode, List.append_assoc, decode_bytes, decodeCommand_word h]

/-- Settles O3: the bytes are a word's and what is behind it, and these are a command's word and its payload. -/
theorem encodeOfDecode : Obligations.EncodeOfDecode := by
  intro bs i rest h
  unfold decode at h
  split at h
  next b7 b6 b5 b4 b3 b2 b1 b0 pay =>
    obtain ⟨hw, hword, hpay⟩ := eq_word_of_decodeCommand h
    refine ⟨hw, ?_⟩
    rw [encode, List.append_assoc, hword, hpay, Cw.bytes_ofBytes]
    rfl
  next => cases h

/-- Settles O4: a word decodes to the one row whose opcode it has, and it meets that row's mask; the table by evaluation. -/
theorem rowIsMaskAndMatch : Obligations.RowIsMaskAndMatch := by
  refine ⟨fun cw pay op hlen => ⟨?_, fun h => ?_⟩, rfl⟩
  · rintro ⟨i, rest, hd, rfl⟩
    obtain ⟨op, -, -, hmask, rfl, -⟩ := decodeCommand_ok.1 hd
    rwa [Opcode.opcode_build]
  · obtain ⟨hopc, -⟩ := (Opcode.and_mask_iff op cw).1 h
    exact ⟨_, _, decodeCommand_ok.2 ⟨op, hopc, hlen, h, rfl, rfl⟩, Opcode.opcode_build op _ _⟩

/-- Settles O1, by evaluation. -/
theorem decodeWordsOfTheManual : Obligations.DecodeWordsOfTheManual := ⟨rfl, rfl, rfl, rfl, rfl, rfl, rfl⟩

end Sys2Proof

namespace Sys2Proof.Machine

/-! ## The bytes of a response (R95, R98, R99) -/

/-- The first byte of a response word is the opcode it answers (R98). -/
@[simp] theorem extractLsb'_response (opc : Byte) (r : ResultCode) (value : Half) :
    (response opc r value).extractLsb' 24 8 = opc := by
  rw [response, BitVec.append_assoc]
  exact BitVec.extractLsb'_append_eq_left

/-- The four bytes of a response word (R95, R98). -/
theorem bytes_response (opc : Byte) (r : ResultCode) (value : Half) :
    Rw.bytes (response opc r value) = [opc, r.toByte, value.extractLsb' 8 8, value.extractLsb' 0 8] := by
  have hresult : (response opc r value).extractLsb' 16 8 = r.toByte := by
    rw [response, BitVec.extractLsb'_append_eq_of_le (by decide)]
    exact BitVec.extractLsb'_append_eq_right
  have hvalue : ∀ k, k + 8 ≤ 16 → (response opc r value).extractLsb' k 8 = value.extractLsb' k 8 := fun k hk => by
    rw [response, BitVec.extractLsb'_append_eq_of_add_le hk]
  rw [Rw.bytes, extractLsb'_response, hresult, hvalue 8 (by decide), hvalue 0 (by decide)]

/-- A refusal adds its response word to its unit's responses (R223, R224). -/
@[simp] theorem State.responses_refuse (u : UnitId) (opc : Byte) (r : ResultCode) (s : State) :
    (s.refuse u opc r).responses u = s.responses u ++ [response opc r 0#16] := by cases u <;> rfl

/-- Settles O5: a response word is an append of its fields, and a refusal adds one. -/
theorem responseBytes : Obligations.ResponseBytes := by
  refine ⟨fun opc r value => ?_, fun s u opc => ?_⟩
  · rw [bytes_response]
    cases r <;> rfl
  · simp [State.responseBytes, bytes_response, ResultCode.toByte]

end Sys2Proof.Machine
end

section
/-! PROOFS. The statements about every step of the machine: the invariant, progress, the parameters, the ports of a busy unit, the
streams, the responses, and what a unit does with the word it finds (10_state.md R20, R21, R44; 30_encoding.md R97 to R100;
60_exceptions.md R220). -/

namespace Sys2Proof.Machine

/-! ## What a unit finds at its port (R97) -/

/-- The command a unit finds is spelt by the first word at its port and the payload bytes there, and is one of its own. -/
theorem decodeCommand_of_fetchAt {u : UnitId} {cmd cmd' : List Word64} {pay pay' : List Byte} {i : Instr} {opc : Byte}
    (h : fetchAt u cmd pay = .command i opc cmd' pay') : ∃ cw, cmd = cw :: cmd' ∧ decodeCommand cw pay = .ok (i, pay') := by
  unfold fetchAt at h
  split at h
  · cases h
  split at h
  · cases h
  split_ifs at h
  split at h
  · next hd => cases h; exact ⟨_, rfl, hd⟩
  · cases h
  · cases h

/-- A unit that finds a word of its own whose payload is not yet whole waits (R94). -/
theorem fetchAt_waiting {u : UnitId} {op : Opcode} {cw : Word64} {rest : List Word64} {pay : List Byte} (hu : op.unit = u)
    (ho : Cw.opc cw = op.toByte) (hl : pay.length < op.payloadLength cw) : fetchAt u (cw :: rest) pay = .waiting := by
  have hd : decodeCommand cw pay = .error .truncated := by simp [decodeCommand, ho, hl]
  simp [fetchAt, ho, hu, hd]

/-- A unit that finds nothing to take leaves the machine as it is, and that is its turn (R251). -/
theorem step_waits {s : State} (hm : s.NoMoveDue) (ho : s.occupied s.turn = false)
    (hf : fetchAt s.turn (s.port s.turn).cmd (s.port s.turn).pay = .empty
      ∨ fetchAt s.turn (s.port s.turn).cmd (s.port s.turn).pay = .waiting) : step s = .next s.endTurn := by
  rw [step_unitTurn hm, unitTurn_free ho]
  rcases hf with hf | hf <;> simp [takeCommand, hf, mapNext]

/-- Settles O10: an empty port and a payload that is not whole are the two cases in which a unit finds nothing to take. -/
theorem idleUnitWaits : Obligations.IdleUnitWaits := by
  rintro s hm ho (hcmd | ⟨cw, rest, hcmd, op, hu, hopc, hl⟩)
  · exact step_waits hm ho (.inl (by rw [hcmd]; rfl))
  · exact step_waits hm ho (.inr (by rw [hcmd, fetchAt_waiting hu hopc hl]))

/-- Settles O11: the unit finds the command at its port. -/
theorem stepRunsDecodedCommand : Obligations.StepRunsDecodedCommand := by
  intro s cw rest i pay hm ho hcmd hd hu
  exact step_command hm ho (opc := Cw.opc cw) (by rw [hcmd, fetchAt_command hu hd])

/-- Settles O12: the command's word and payload stand alone at the ports of its unit, which is free and has the turn. -/
theorem withCommandRunsNext : Obligations.WithCommandRunsNext := by
  intro s i hw
  have hu : unitOfOpc (Cw.opc i.word) = i.unit := by rw [Instr.opc_word, unitOfOpc_toByte]; rfl
  have hd : decodeCommand i.word i.payload = .ok (i, []) := by simpa using decodeCommand_word hw []
  have hplaced : s.withCommand i.word i.payload
      = { (s.free i.unit).setPort i.unit ⟨[i.word], i.payload⟩ with turn := i.unit, host := [] } := by
    rw [State.withCommand, hu]
  have hf : fetchAt i.unit [i.word] i.payload = .command i (Cw.opc i.word) [] [] := fetchAt_command rfl hd
  rw [hplaced]
  revert hf
  generalize i.unit = u
  intro hf
  cases u <;> exact step_command (by simp [State.NoMoveDue]) rfl hf

/-! ## A step, piece by piece (R97, R127, R160, R187, R262) -/

/-- The machine with a command accepted at its unit (R97 step 5). -/
def State.accepted (i : Instr) (s : State) : State :=
  match i.unit with
  | .fpc => { s with fpc := acceptedFpc i s.fpc }
  | .ews => { s with ews := acceptedEws i s.ews }
  | .rpa => { s with rpa := acceptedRpa i s.rpa }

/-- A unit that has just accepted a command runs on (log 9). -/
def start (u : UnitId) (s : State) : Host.Outcome State Fault Refusal :=
  match u with
  | .fpc => fpcStart s
  | .ews => ewsStart s
  | .rpa => rpaStart s

/-- A command at a unit that can take one, its precondition met, is accepted and the unit runs on (R97 step 5). -/
theorem exec_eq_start {i : Instr} {s : State} (h : s.occupied i.unit = false) (hp : precondition i s = true) :
    exec i s = start i.unit (s.accepted i) := by
  rw [exec_accepted h hp]
  unfold start State.accepted
  cases i.unit <;> rfl

/-- What a step that is no reset is made of keeps `P`: the host's words, a refusal, an acceptance, a sequencer step of a unit;
and `P` does not speak of what the host does next and whose turn it is. -/
structure StepKeeps (P : State → Prop) : Prop where
  frame : ∀ s host turn, P s → P { s with host := host, turn := turn }
  setPort : ∀ s u p, P s → P (s.setPort u p)
  refuse : ∀ s u opc r, P s → P (s.refuse u opc r)
  accept : ∀ (s : State) (i : Instr), s.occupied i.unit = false → i.wellFormed = true → precondition i s = true →
    P s → P (s.accepted i)
  fpc : ∀ (s : State) (f : Fpc), fpcSeq s.cfg s.fpc = some f → P s → P { s with fpc := f }
  ews : ∀ (s : State) (e : Ews), ewsSeq s.cfg s.ews = some e → P s → P { s with ews := e }
  rpa : ∀ (s : State) (r : Rpa), rpaSeq s.rpa = some r → P s → P { s with rpa := r }

namespace StepKeeps

variable {P : State → Prop} {s t : State} {n : Nat}

/-- A run of FPC keeps it. -/
theorem fpcRun (h : StepKeeps P) (hs : P s) (ht : fpcRun n s = .next t) : P t := by
  obtain ⟨f, hr, rfl⟩ := fpcRun_next ht
  exact runSeq_keeps (P := fun f => P { s with fpc := f }) (fun a b ha hb => h.fpc { s with fpc := a } b hb ha) hs hr

/-- A run of EWS keeps it. -/
theorem ewsRun (h : StepKeeps P) (hs : P s) (ht : ewsRun n s = .next t) : P t := by
  obtain ⟨e, hr, rfl⟩ := ewsRun_next ht
  exact runSeq_keeps (P := fun e => P { s with ews := e }) (fun a b ha hb => h.ews { s with ews := a } b hb ha) hs hr

/-- A run of RPA keeps it. -/
theorem rpaRun (h : StepKeeps P) (hs : P s) (ht : rpaRun n s = .next t) : P t := by
  obtain ⟨r, hr, rfl⟩ := rpaRun_next ht
  exact runSeq_keeps (P := fun r => P { s with rpa := r }) (fun a b ha hb => h.rpa { s with rpa := a } b hb ha) hs hr

/-- A unit that goes on with its command keeps it. -/
theorem resume {u : UnitId} (h : StepKeeps P) (hs : P s) (ht : resume u s = .next t) : P t := by
  cases u with
  | fpc => exact h.fpcRun hs ht
  | ews => exact h.ewsRun hs ht
  | rpa => exact h.rpaRun hs ht

/-- A unit that has accepted a command keeps it. -/
theorem start {u : UnitId} (h : StepKeeps P) (hs : P s) (ht : start u s = .next t) : P t := by
  cases u with
  | fpc => exact h.fpcRun hs ht
  | ews => exact h.ewsRun hs ht
  | rpa => exact h.rpaRun hs ht

/-- A command keeps it. -/
theorem exec {i : Instr} (h : StepKeeps P) (hw : i.wellFormed = true) (hs : P s) (ht : exec i s = .next t) : P t := by
  cases ho : s.occupied i.unit with
  | true => rw [exec_occupied ho] at ht; cases ht; exact hs
  | false =>
    cases hp : precondition i s with
    | false => rw [exec_refused ho hp] at ht; cases ht; exact h.refuse s _ _ _ hs
    | true => rw [exec_eq_start ho hp] at ht; exact h.start (h.accept s i ho hw hp hs) ht

/-- A unit that looks at its ports keeps it. -/
theorem takeCommand {u : UnitId} (h : StepKeeps P) (hs : P s) (ht : takeCommand u s = .next t) : P t := by
  unfold Machine.takeCommand at ht
  split at ht
  case h_1 | h_2 => cases ht; exact hs
  case h_3 => cases ht; exact h.refuse _ _ _ _ (h.setPort s _ _ hs)
  case h_4 hf =>
    obtain ⟨cw, -, hd⟩ := decodeCommand_of_fetchAt hf
    exact h.exec (eq_word_of_decodeCommand hd).1 (h.setPort s _ _ hs) ht

/-- A step keeps it, if a reset that is the step does. -/
theorem step (h : StepKeeps P) (hs : P s) (ht : step s = .next t)
    (hreset : ∀ rest, s.host = (0, .reset) :: rest → P s → P s.blockReset) : P t := by
  obtain ⟨m, rest, hhost, rfl⟩ | ⟨-, u, hu, rfl⟩ := step_cases ht
  · cases m with
    | present u cw payload => exact h.setPort _ _ _ (h.frame s rest s.turn hs)
    | readStatus u => exact h.frame s rest s.turn hs
    | reset => exact h.frame s.blockReset rest s.turn (hreset rest hhost hs)
  · refine h.frame u _ _ ?_
    cases ho : s.occupied s.turn with
    | true => exact h.resume hs (unitTurn_occupied ho ▸ hu)
    | false => exact h.takeCommand hs (unitTurn_free ho ▸ hu)

end StepKeeps

/-! ## The parameters and the invariant (R21) -/

@[simp] theorem State.accepted_cfg (i : Instr) (s : State) : (s.accepted i).cfg = s.cfg := by
  unfold State.accepted; cases i.unit <;> rfl

/-- Settles O56: no piece of a step writes the parameters. -/
theorem parametersAreFixed : Obligations.ParametersAreFixed := by
  intro s t ht
  refine StepKeeps.step (P := fun t => t.cfg = s.cfg) ?_ rfl ht (fun _ _ h => h)
  constructor
  case setPort => intro t u p h; simpa using h
  case refuse => intro t u opc r h; simpa using h
  case accept => intro t i _ _ _ h; simpa using h
  all_goals intros; assumption

/-- A unit that can take a command is not busy (R100). -/
theorem Fpc.busy_of_takes {f : Fpc} (h : f.takes = true) : f.busy = false ∧ f.phase = .idle := by
  simpa [Fpc.takes] using h

/-- An acceptance keeps the invariant. -/
theorem State.Inv.accepted {s : State} {i : Instr} (h : s.Inv) (ho : s.occupied i.unit = false) (hw : i.wellFormed = true)
    (hp : precondition i s = true) : (s.accepted i).Inv := by
  obtain ⟨hc, hf, hb, hd, hr⟩ := h
  unfold State.accepted
  cases hu : i.unit <;> rw [hu] at ho
  case fpc =>
    exact ⟨hc, acceptedFpc_inv hc rfl hf (Fpc.busy_of_takes (by simpa [State.occupied] using ho)).1 hw hp, hb, hd, hr⟩
  case ews => exact ⟨hc, hf, acceptedEws_blockInv hc rfl hb ho hw hp,
    by simpa only [Ews.DeviceInv, acceptedEws_eeprom, acceptedEws_clock] using hd, hr⟩
  case rpa => exact ⟨hc, hf, hb, hd, acceptedRpa_inv rfl hr hw hp⟩

/-- A reset keeps the invariant (R250, R252). -/
theorem State.Inv.blockReset {s : State} (h : s.Inv) : s.blockReset.Inv := by
  obtain ⟨hc, ⟨-, -, -, -, -, -, -, -, hwf, hpage, hregion⟩, -, ⟨hewf, hee, hptr, htick⟩, -⟩ := h
  obtain ⟨kwf, kpage⟩ := Nvm.cut_inv hwf hpage hregion
  obtain ⟨kewf, kee, kptr⟩ := Eeprom.ok_cut hc (d := s.ews.eeprom) ⟨hewf, hee, hptr⟩
  exact ⟨hc, Fpc.atReset_inv kwf kpage (by simpa using hregion), Ews.atReset_blockInv, ⟨kewf, kee, kptr, htick⟩,
    Rpa.atReset_inv⟩

/-- Every piece of a step keeps the invariant. -/
theorem State.inv_stepKeeps : StepKeeps State.Inv where
  frame _ _ _ h := h
  setPort s u p h := by cases u <;> exact h
  refuse s u opc r h := by cases u <;> exact h
  accept _ _ ho hw hp h := h.accepted ho hw hp
  fpc _ _ hs := fun ⟨hc, hf, hb, hd, hr⟩ => ⟨hc, fpcSeq_inv hc hf hs, hb, hd, hr⟩
  ews _ _ hs := fun ⟨hc, hf, hb, hd, hr⟩ => ⟨hc, hf, (ewsSeq_inv hc hb hd hs).1, (ewsSeq_inv hc hb hd hs).2, hr⟩
  rpa _ _ hs := fun ⟨hc, hf, hb, hd, hr⟩ => ⟨hc, hf, hb, hd, rpaSeq_inv hr hs⟩

/-- Settles O54: every piece of a step keeps the invariant. -/
theorem everyStepKeepsInvariant : Obligations.EveryStepKeepsInvariant :=
  fun _ _ h ht => State.inv_stepKeeps.step h ht fun _ _ => State.Inv.blockReset

/-- An accepted command leaves EWS at a position at which its line needs nothing of the EEPROM (R160). -/
theorem acceptedEws_inStep {c : Config} {i : Instr} {e : Ews} (h : i.unit = .ews) : (acceptedEws i e).InStep c := by
  cases i
  case ewsRead | ewsWrite | ewsEraseAll | ewsPrint => exact Ews.inStep_of_pos (by simp [acceptedEws])
  all_goals cases h

/-- Every piece of a step keeps the EEPROM in step with EWS, the invariant with it. -/
theorem Ews.inStep_stepKeeps : StepKeeps (fun s => s.Inv ∧ s.ews.InStep s.cfg) where
  frame _ _ _ h := h
  setPort s u p h := by cases u <;> exact h
  refuse s u opc r h := by cases u <;> exact h
  accept s i ho hw hp := fun ⟨h, hi⟩ => by
    refine ⟨h.accepted ho hw hp, ?_⟩
    unfold State.accepted
    cases hu : i.unit
    case ews => exact acceptedEws_inStep hu
    all_goals exact hi
  fpc _ _ hs := fun ⟨h, hi⟩ => ⟨State.inv_stepKeeps.fpc _ _ hs h, hi⟩
  ews s e hs := fun ⟨h, hi⟩ => by
    obtain ⟨hc, -, hb, -⟩ := id h
    exact ⟨State.inv_stepKeeps.ews _ _ hs h, ewsSeq_inStep hc hb hi hs⟩
  rpa _ _ hs := fun ⟨h, hi⟩ => ⟨State.inv_stepKeeps.rpa _ _ hs h, hi⟩

/-- EWS at reset is at `E_READY` (R46). -/
theorem Ews.atReset_inStep {c : Config} {d : Eeprom} {k : Clock} {l : List EwsMove} {tr : List BusCall} :
    (Ews.atReset c d k l tr).InStep c := Ews.inStep_of_pos (by simp [Ews.atReset])

/-- Settles O44: every line keeps the EEPROM in step, and a reset or an acceptance puts EWS where nothing is asked of it. -/
theorem ewsWritePointerFollowsAddress : Obligations.EwsWritePointerFollowsAddress :=
  fun s t h hi ht => parametersAreFixed s t ht ▸
    (Ews.inStep_stepKeeps.step ⟨h, hi⟩ ht fun _ _ h => ⟨h.1.blockReset, Ews.atReset_inStep⟩).2

/-- Settles O53: the parameters are those of R10, the units are at reset, and the collaborators hold nothing. -/
theorem resetMeetsInvariant : Obligations.ResetMeetsInvariant :=
  ⟨⟨by decide, Fpc.atReset_inv (by decide) (by decide) (by decide), Ews.atReset_blockInv, by decide, Rpa.atReset_inv⟩,
    Ews.atReset_inStep⟩

/-! ## Progress (R127, R220) -/

/-- A run of FPC in the middle of a command answers a state. -/
theorem fpcRun_answers {s : State} {n : Nat} (h : s.Inv) (hb : s.fpc.busy = true) : ∃ t, fpcRun n s = .next t := by
  obtain ⟨hc, hf, -⟩ := h
  obtain ⟨f, hr, -⟩ := runSeq_answers (seq := fpcSeq s.cfg) (stop := Fpc.stops) (n := n)
    (P := fun f => f.Inv s.cfg ∧ f.busy = true) (Q := fun _ => True) (fun a ⟨ha, hba⟩ => by
      obtain ⟨b, hs⟩ := fpcRow_progress (Fpc.inv_moves ha) hba
      exact ⟨b, hs, trivial, fun hstop => ⟨fpcSeq_inv hc ha hs, by simp_all [Fpc.stops]⟩⟩) ⟨hf, hb⟩ trivial
  exact ⟨_, fpcRun_of_some hr⟩

/-- A run of EWS in the middle of a command answers a state. -/
theorem ewsRun_answers {s : State} {n : Nat} (h : s.Inv) (hb : s.ews.busy = true) : ∃ t, ewsRun n s = .next t := by
  obtain ⟨hc, -, he, hd, -⟩ := h
  obtain ⟨e, hr, -⟩ := runSeq_answers (seq := ewsSeq s.cfg) (stop := Ews.stops s.cfg) (n := n)
    (P := fun e => e.BlockInv s.cfg ∧ e.DeviceInv s.cfg ∧ e.busy = true) (Q := fun _ => True) (fun a ⟨ha, hda, hba⟩ => by
      obtain ⟨b, hs⟩ := ewsLine_progress (Ews.blockInv_moves (c := s.cfg) ha) (by simpa using hba)
      obtain ⟨hb', hd'⟩ := ewsSeq_inv hc ha hda hs
      exact ⟨b, hs, trivial, fun hstop => ⟨hb', hd', by simp_all [Ews.stops]⟩⟩) ⟨he, hd, hb⟩ trivial
  exact ⟨_, ewsRun_of_some hr⟩

/-- A run of RPA in the middle of a command answers a state. -/
theorem rpaRun_answers {s : State} {n : Nat} (h : s.Inv) (hb : s.rpa.busy = true) : ∃ t, rpaRun n s = .next t := by
  obtain ⟨-, -, -, -, hr⟩ := h
  obtain ⟨r, hr, -⟩ := runSeq_answers (seq := rpaSeq) (stop := Rpa.stops) (n := n)
    (P := fun r => r.Inv s.cfg ∧ r.busy = true) (Q := fun _ => True) (fun a ⟨ha, hba⟩ => by
      obtain ⟨b, hs⟩ := rpaSeq_progress ha hba
      exact ⟨b, hs, trivial, fun hstop => ⟨rpaSeq_inv ha hs, by simp_all [Rpa.stops]⟩⟩) ⟨hr, hb⟩ trivial
  exact ⟨_, rpaRun_of_some hr⟩

/-- An acceptance makes the unit busy (R97 step 5). -/
theorem acceptedFpc_busy {i : Instr} {f : Fpc} (h : i.unit = .fpc) : (acceptedFpc i f).busy = true := by
  cases i
  case fpcRead | fpcWrite | fpcUpdate | fpcErase | fpcPrint => rfl
  all_goals cases h

theorem acceptedEws_busy {i : Instr} {e : Ews} (h : i.unit = .ews) : (acceptedEws i e).busy = true := by
  cases i
  case ewsRead | ewsWrite | ewsEraseAll | ewsPrint => rfl
  all_goals cases h

theorem acceptedRpa_busy {i : Instr} {r : Rpa} (h : i.unit = .rpa) : (acceptedRpa i r).busy = true := by
  cases i
  case rpaRead | rpaWrite | rpaCfg => rfl
  all_goals cases h

/-- A command answers a state: it waits, is refused, or is accepted and run (R220). -/
theorem exec_answers {i : Instr} {s : State} (h : s.Inv) (hw : i.wellFormed = true) : ∃ t, exec i s = .next t := by
  cases ho : s.occupied i.unit with
  | true => exact ⟨s, exec_occupied ho⟩
  | false =>
    cases hp : precondition i s with
    | false => exact ⟨_, exec_refused ho hp⟩
    | true =>
      have hacc := h.accepted ho hw hp
      rw [exec_eq_start ho hp]
      unfold State.accepted at hacc ⊢
      cases hu : i.unit <;> simp only [hu] at hacc ⊢
      case fpc => exact fpcRun_answers hacc (acceptedFpc_busy hu)
      case ews => exact ewsRun_answers hacc (acceptedEws_busy hu)
      case rpa => exact rpaRun_answers hacc (acceptedRpa_busy hu)

/-- A unit in the middle of a command goes on (R127, R160). -/
theorem resume_answers {u : UnitId} {s : State} (h : s.Inv) (ho : s.occupied u = true) : ∃ t, resume u s = .next t := by
  cases u with
  | fpc =>
    obtain ⟨-, hf, -⟩ := id h
    exact fpcRun_answers h (by simpa [State.occupied, Fpc.takes_iff hf] using ho)
  | ews => exact ewsRun_answers h ho
  | rpa => exact rpaRun_answers h ho

/-- A unit that can take a command answers, whatever it finds at its ports (R97, R223, R224). -/
theorem takeCommand_answers {u : UnitId} {s : State} (h : s.Inv) : ∃ t, takeCommand u s = .next t := by
  unfold takeCommand
  split
  case h_1 | h_2 | h_3 => exact ⟨_, rfl⟩
  case h_4 hf =>
    obtain ⟨cw, -, hd⟩ := decodeCommand_of_fetchAt hf
    exact exec_answers (State.inv_stepKeeps.setPort s _ _ h) (eq_word_of_decodeCommand hd).1

/-- Settles O55: a host move answers a state, and so does the turn of a unit, which has a sequencer step wherever it is busy. -/
theorem everyStepAnswersNext : Obligations.EveryStepAnswersNext := by
  intro s h
  by_cases hm : s.NoMoveDue
  · obtain ⟨t, ht⟩ : ∃ t, unitTurn s = .next t := by
      cases ho : s.occupied s.turn with
      | true => exact (unitTurn_occupied ho).symm ▸ resume_answers h ho
      | false => exact (unitTurn_free ho).symm ▸ takeCommand_answers h
    exact ⟨t.endTurn, by rw [step_unitTurn hm, ht]; rfl⟩
  · obtain ⟨⟨k, m⟩, hk, rfl⟩ : ∃ x, s.host.head? = some x ∧ x.1 = 0 := by simpa [State.NoMoveDue] using hm
    obtain ⟨rest, hhost⟩ := List.head?_eq_some_iff.1 hk
    exact ⟨_, step_hostMove hhost⟩

end Sys2Proof.Machine
end

section
/-! PROOFS. What a unit reports and when: its ports while it is busy, its streams, one response per command, and a command in which
a host move lands (10_state.md R44; 30_encoding.md R90, R98, R100; 70_reset_and_hazards.md R262). -/

namespace Sys2Proof.Machine

/-! ## The ports of a busy unit (R100) -/

/-- A sequencer step of FPC leaves its ports as they are. -/
theorem fpcSeq_keeps_port {c : Config} {f g : Fpc} (h : fpcSeq c f = some g) : g.port = f.port := by
  have := fpcSeq_port (c := c) f.port f
  rw [h] at this
  exact congrArg (·.port) (Option.some.inj this)

/-- A sequencer step of EWS leaves its ports as they are. -/
theorem ewsSeq_keeps_port {c : Config} {e g : Ews} (h : ewsSeq c e = some g) : g.port = e.port := by
  have := ewsSeq_port (c := c) e.port e
  rw [h] at this
  exact congrArg (·.port) (Option.some.inj this)

/-- RPA's step leaves its ports as they are. -/
theorem rpaSeq_keeps_port {r q : Rpa} (h : rpaSeq r = some q) : q.port = r.port := by
  have := rpaSeq_port r.port r
  rw [h] at this
  exact congrArg (·.port) (Option.some.inj this)

/-- A run leaves a unit's ports as they are. -/
theorem runSeq_keeps_port {σ : Type} {seq : σ → Option σ} {stop : σ → Bool} {port : σ → Port}
    (hseq : ∀ a b, seq a = some b → port b = port a) {n : Nat} {x y : σ} (h : runSeq seq stop n x = some y) : port y = port x :=
  runSeq_relates (R := fun a b => port b = port a) (fun _ => rfl) (fun _ b c hab hs => (hseq b c hs).trans hab) h

/-- A unit that goes on with its command takes nothing from any port. -/
theorem resume_port {u : UnitId} {s t : State} (h : resume u s = .next t) (v : UnitId) : t.port v = s.port v := by
  cases u with
  | fpc =>
    obtain ⟨f, hr, rfl⟩ := fpcRun_next h
    cases v
    · exact runSeq_keeps_port (fun _ _ => fpcSeq_keeps_port) hr
    all_goals rfl
  | ews =>
    obtain ⟨e, hr, rfl⟩ := ewsRun_next h
    cases v
    case ews => exact runSeq_keeps_port (fun _ _ => ewsSeq_keeps_port) hr
    all_goals rfl
  | rpa =>
    obtain ⟨r, hr, rfl⟩ := rpaRun_next h
    cases v
    case rpa => exact runSeq_keeps_port (fun _ _ => rpaSeq_keeps_port) hr
    all_goals rfl

/-- Settles O9: a busy unit's turn is a run of its sequencer, and no sequencer step sees the ports. -/
theorem busyUnitLeavesItsPorts : Obligations.BusyUnitLeavesItsPorts := by
  intro s t hm ho ht v
  rw [step_unitTurn hm, unitTurn_occupied ho] at ht
  obtain ⟨u, hu, rfl⟩ := mapNext_eq_next ht
  rw [State.endTurn_port, resume_port hu]

/-! ## The streams and the response (R44, R98) -/

/-- What a row of R127's table does to FPC's streams: it adds to `DOUT` or `DIAG` or not; it ends the command with its response, or
leaves FPC as busy as it was with none. -/
theorem fpcRow_report {c : Config} {f g : Fpc} (hs : fpcRow c f = some g) :
    g.opc = f.opc ∧ f.dout <+: g.dout ∧ f.diag <+: g.diag
      ∧ (g.busy = f.busy ∧ g.rsp = f.rsp
        ∨ g.busy = false ∧ g.pos = .ready ∧ g.rsp = f.rsp ++ [response f.opc .ok 0#16]) := by
  unfold fpcRow at hs
  cases hp : f.pos <;> simp only [hp] at hs
  case ready => cases hs
  case ep =>
    split at hs
    · cases hs; simp
    · split at hs
      all_goals cases hs
      all_goals simp
  case rd | er | fill => cases hs; simp
  case ucmp | rw | wp | pr =>
    split_ifs at hs
    all_goals cases hs
    all_goals simp

/-- A sequencer step of FPC does to its streams what its row does. -/
theorem fpcSeq_report {c : Config} {f g : Fpc} (hs : fpcSeq c f = some g) :
    g.opc = f.opc ∧ f.dout <+: g.dout ∧ f.diag <+: g.diag
      ∧ (g.busy = f.busy ∧ g.rsp = f.rsp
        ∨ g.busy = false ∧ g.pos = .ready ∧ g.rsp = f.rsp ++ [response f.opc .ok 0#16]) :=
  fpcRow_report (f := f.moves) hs

/-- What a line of R160 does to EWS's streams: the last one of a body adds to `DOUT` or `DIAG` and may end the command with its
response; every other leaves EWS as busy as it was with none. -/
theorem ewsLine_report {c : Config} {e g : Ews} (hs : ewsLine c e = some g) :
    g.opc = e.opc ∧ e.dout <+: g.dout ∧ e.diag <+: g.diag
      ∧ (g.busy = e.busy ∧ g.rsp = e.rsp
        ∨ g.busy = false ∧ g.pos = .ready ∧ g.rsp = e.rsp ++ [response e.opc e.result 0#16]) := by
  by_cases hr : e.pos = .r2Stop
  · rw [ewsLine_r2Stop hr] at hs
    obtain ⟨-, rfl⟩ | ⟨-, -, rfl⟩ | ⟨-, -, rfl⟩ := Ews.readDone_some hs
    · exact ⟨rfl, List.prefix_append _ _, List.prefix_rfl, .inr ⟨rfl, rfl, rfl⟩⟩
    · exact ⟨rfl, List.prefix_rfl, List.prefix_append _ _, .inl ⟨rfl, rfl⟩⟩
    · exact ⟨rfl, List.prefix_rfl, List.prefix_append _ _, .inr ⟨rfl, rfl, rfl⟩⟩
  by_cases hw : e.pos = .ws
  · rw [ewsLine_ws hw] at hs
    obtain ⟨-, rfl⟩ | ⟨-, -, rfl⟩ | ⟨-, -, rfl⟩ := Ews.writeDone_some hs
    · exact ⟨rfl, List.prefix_rfl, List.prefix_rfl, .inr ⟨rfl, rfl, rfl⟩⟩
    · exact ⟨rfl, List.prefix_rfl, List.prefix_rfl, .inl ⟨rfl, rfl⟩⟩
    · exact ⟨rfl, List.prefix_rfl, List.prefix_rfl, .inr ⟨rfl, rfl, rfl⟩⟩
  rw [← ewsLine_frame hw hr hs]
  exact ⟨rfl, List.prefix_rfl, List.prefix_rfl, .inl ⟨rfl, rfl⟩⟩

/-- A sequencer step of EWS does to its streams what its line does. -/
theorem ewsSeq_report {c : Config} {e g : Ews} (hs : ewsSeq c e = some g) :
    g.opc = e.opc ∧ e.dout <+: g.dout ∧ e.diag <+: g.diag
      ∧ (g.busy = e.busy ∧ g.rsp = e.rsp
        ∨ g.busy = false ∧ g.pos = .ready ∧ g.rsp = e.rsp ++ [response e.opc e.result 0#16]) := by
  simpa [Ews.result] using ewsLine_report hs

/-- What RPA's step does to its streams: it may add to `DOUT`, and ends the command with its response. -/
theorem rpaSeq_report {r q : Rpa} (hs : rpaSeq r = some q) :
    r.dout <+: q.dout ∧ r.diag = q.diag ∧ ∃ v, q.rsp = r.rsp ++ [response r.opc .ok v] := by
  unfold rpaSeq at hs
  cases hop : r.op <;> simp only [hop] at hs <;> cases hs
  case cfg => exact ⟨List.prefix_rfl, rfl, _, rfl⟩
  case read => exact ⟨List.prefix_append _ _, rfl, _, rfl⟩
  case write => exact ⟨List.prefix_rfl, rfl, _, rfl⟩

/-- Every stream of `t` is one of `s` with more at its end (R44). -/
abbrev State.StreamsGrow (s t : State) : Prop :=
  (s.fpc.rsp <+: t.fpc.rsp ∧ s.fpc.dout <+: t.fpc.dout ∧ s.fpc.diag <+: t.fpc.diag)
    ∧ (s.ews.rsp <+: t.ews.rsp ∧ s.ews.dout <+: t.ews.dout ∧ s.ews.diag <+: t.ews.diag)
    ∧ (s.rpa.rsp <+: t.rpa.rsp ∧ s.rpa.dout <+: t.rpa.dout ∧ s.rpa.diag = t.rpa.diag)

/-- An acceptance leaves the streams of its unit as they are. -/
theorem acceptedFpc_streams (i : Instr) (f : Fpc) :
    (acceptedFpc i f).rsp = f.rsp ∧ (acceptedFpc i f).dout = f.dout ∧ (acceptedFpc i f).diag = f.diag := by
  cases i <;> exact ⟨rfl, rfl, rfl⟩

theorem acceptedEws_streams (i : Instr) (e : Ews) :
    (acceptedEws i e).rsp = e.rsp ∧ (acceptedEws i e).dout = e.dout ∧ (acceptedEws i e).diag = e.diag := by
  cases i <;> exact ⟨rfl, rfl, rfl⟩

theorem acceptedRpa_streams (i : Instr) (r : Rpa) :
    (acceptedRpa i r).rsp = r.rsp ∧ (acceptedRpa i r).dout = r.dout ∧ (acceptedRpa i r).diag = r.diag := by
  cases i <;> exact ⟨rfl, rfl, rfl⟩

/-- Every piece of a step that is no reset only adds at the streams' ends. -/
theorem State.streamsGrow_stepKeeps (s : State) : StepKeeps s.StreamsGrow where
  frame _ _ _ h := h
  setPort t u p h := by cases u <;> exact h
  refuse t u opc r := fun ⟨⟨hf, hf'⟩, ⟨he, he'⟩, hr, hr'⟩ => by
    cases u
    case fpc => exact ⟨⟨hf.trans (List.prefix_append _ _), hf'⟩, ⟨he, he'⟩, hr, hr'⟩
    case ews => exact ⟨⟨hf, hf'⟩, ⟨he.trans (List.prefix_append _ _), he'⟩, hr, hr'⟩
    case rpa => exact ⟨⟨hf, hf'⟩, ⟨he, he'⟩, hr.trans (List.prefix_append _ _), hr'⟩
  accept t i _ _ _ h := by
    obtain ⟨f1, f2, f3⟩ := acceptedFpc_streams i t.fpc
    obtain ⟨e1, e2, e3⟩ := acceptedEws_streams i t.ews
    obtain ⟨r1, r2, r3⟩ := acceptedRpa_streams i t.rpa
    unfold State.accepted
    cases i.unit
    case fpc => simpa only [StreamsGrow, f1, f2, f3] using h
    case ews => simpa only [StreamsGrow, e1, e2, e3] using h
    case rpa => simpa only [StreamsGrow, r1, r2, r3] using h
  fpc t f hs := fun ⟨⟨hrsp, hdout, hdiag⟩, h⟩ => by
    obtain ⟨-, kdout, kdiag, k⟩ := fpcSeq_report hs
    refine ⟨⟨?_, hdout.trans kdout, hdiag.trans kdiag⟩, h⟩
    obtain ⟨-, k⟩ | ⟨-, -, k⟩ := k
    · rwa [k]
    · exact k ▸ hrsp.trans (List.prefix_append _ _)
  ews t e hs := fun ⟨hf, ⟨hrsp, hdout, hdiag⟩, h⟩ => by
    obtain ⟨-, kdout, kdiag, k⟩ := ewsSeq_report hs
    refine ⟨hf, ⟨?_, hdout.trans kdout, hdiag.trans kdiag⟩, h⟩
    obtain ⟨-, k⟩ | ⟨-, -, k⟩ := k
    · rwa [k]
    · exact k ▸ hrsp.trans (List.prefix_append _ _)
  rpa t r hs := fun ⟨hf, he, hrsp, hdout, hdiag⟩ => by
    obtain ⟨kdout, kdiag, v, k⟩ := rpaSeq_report hs
    exact ⟨hf, he, k ▸ hrsp.trans (List.prefix_append _ _), hdout.trans kdout, hdiag.trans kdiag⟩

/-- Settles O60: every piece of a step only adds at the streams' ends. -/
theorem streamsOnlyGrow : Obligations.StreamsOnlyGrow := fun s _ hreset ht =>
  (State.streamsGrow_stepKeeps s).step (by simp [State.StreamsGrow]) ht fun rest hhost => absurd hhost (hreset rest)

/-! ## One response per command (R90, R98, R220) -/

/-- A unit in the middle of a command has added nothing to its responses; one that is done has added one word with opcode `o`. -/
def Answered (o : Byte) (before : List Word32) (busy : Bool) (rsp : List Word32) : Prop :=
  if busy then rsp = before else ∃ w, rsp = before ++ [w] ∧ w.extractLsb' 24 8 = o

theorem answered_busy {o : Byte} {before rsp : List Word32} {busy : Bool} (hb : busy = true) (h : rsp = before) :
    Answered o before busy rsp := by simpa [Answered, hb]

theorem answered_done {o : Byte} {before rsp : List Word32} {busy : Bool} {r : ResultCode} {v : Half} (hb : busy = false)
    (h : rsp = before ++ [response o r v]) : Answered o before busy rsp := by simp [Answered, hb, h]

/-- A run of FPC in the middle of a command leaves it there or ends it with one response, from any state. -/
theorem runSeq_fpcSeq_answered {c : Config} {n : Nat} {b f : Fpc} (hb : b.busy = true)
    (h : runSeq (fpcSeq c) Fpc.stops n b = some f) : Answered b.opc b.rsp f.busy f.rsp := by
  suffices f.busy = true ∧ f.opc = b.opc ∧ f.rsp = b.rsp ∨ f.pos = .ready ∧ Answered b.opc b.rsp f.busy f.rsp by
    obtain ⟨hf, -, hrsp⟩ | ⟨-, h⟩ := this
    · exact answered_busy hf hrsp
    · exact h
  refine runSeq_keeps (P := fun f => f.busy = true ∧ f.opc = b.opc ∧ f.rsp = b.rsp
    ∨ f.pos = .ready ∧ Answered b.opc b.rsp f.busy f.rsp) ?_ (.inl ⟨hb, rfl, rfl⟩) h
  rintro x y (⟨hx, hopc, hrsp⟩ | ⟨hp, -⟩) hs
  · obtain ⟨kopc, -, -, ⟨kbusy, krsp⟩ | ⟨kbusy, kpos, krsp⟩⟩ := fpcSeq_report hs
    · exact .inl ⟨kbusy.trans hx, kopc.trans hopc, krsp.trans hrsp⟩
    · exact .inr ⟨kpos, answered_done kbusy (by rw [krsp, hopc, hrsp])⟩
  · rw [fpcSeq, fpcRow_ready (f := x.moves) hp] at hs; cases hs

/-- A run of EWS in the middle of a command leaves it there or ends it with one response, from any state. -/
theorem runSeq_ewsSeq_answered {c : Config} {n : Nat} {b e : Ews} (hb : b.busy = true)
    (h : runSeq (ewsSeq c) (Ews.stops c) n b = some e) : Answered b.opc b.rsp e.busy e.rsp := by
  suffices e.busy = true ∧ e.opc = b.opc ∧ e.rsp = b.rsp ∨ e.pos = .ready ∧ Answered b.opc b.rsp e.busy e.rsp by
    obtain ⟨he, -, hrsp⟩ | ⟨-, h⟩ := this
    · exact answered_busy he hrsp
    · exact h
  refine runSeq_keeps (P := fun e => e.busy = true ∧ e.opc = b.opc ∧ e.rsp = b.rsp
    ∨ e.pos = .ready ∧ Answered b.opc b.rsp e.busy e.rsp) ?_ (.inl ⟨hb, rfl, rfl⟩) h
  rintro x y (⟨hx, hopc, hrsp⟩ | ⟨hp, -⟩) hs
  · obtain ⟨kopc, -, -, ⟨kbusy, krsp⟩ | ⟨kbusy, kpos, krsp⟩⟩ := ewsSeq_report hs
    · exact .inl ⟨kbusy.trans hx, kopc.trans hopc, krsp.trans hrsp⟩
    · exact .inr ⟨kpos, answered_done kbusy (by rw [krsp, hopc, hrsp])⟩
  · rw [ewsSeq, ewsLine_ready (by simpa using hp)] at hs; cases hs

/-- A run of RPA in the middle of a command leaves it there or ends it with one response, from any state. -/
theorem runSeq_rpaSeq_answered {n : Nat} {b r : Rpa} (hb : b.busy = true) (h : runSeq rpaSeq Rpa.stops n b = some r) :
    Answered b.opc b.rsp r.busy r.rsp := by
  suffices r = b ∨ r.op = .none ∧ Answered b.opc b.rsp r.busy r.rsp by
    obtain rfl | ⟨-, h⟩ := this
    · exact answered_busy hb rfl
    · exact h
  refine runSeq_keeps (P := fun r => r = b ∨ r.op = .none ∧ Answered b.opc b.rsp r.busy r.rsp) ?_ (.inl rfl) h
  rintro x y (rfl | ⟨hop, -⟩) hs
  · obtain ⟨kbusy, kop⟩ := rpaSeq_done hs
    obtain ⟨-, -, v, krsp⟩ := rpaSeq_report hs
    exact .inr ⟨kop, answered_done kbusy krsp⟩
  · simp [rpaSeq, hop] at hs

/-- The opcode a unit latches at acceptance is the command's (R98). -/
theorem acceptedFpc_opc {i : Instr} (h : i.unit = .fpc) (f : Fpc) : (acceptedFpc i f).opc = i.opcode.toByte := by
  cases i
  case fpcRead | fpcWrite | fpcUpdate | fpcErase | fpcPrint => rfl
  all_goals cases h

theorem acceptedEws_opc {i : Instr} (h : i.unit = .ews) (e : Ews) : (acceptedEws i e).opc = i.opcode.toByte := by
  cases i
  case ewsRead | ewsWrite | ewsEraseAll | ewsPrint => rfl
  all_goals cases h

theorem acceptedRpa_opc {i : Instr} (h : i.unit = .rpa) (r : Rpa) : (acceptedRpa i r).opc = i.opcode.toByte := by
  cases i
  case rpaRead | rpaWrite | rpaCfg => rfl
  all_goals cases h

/-- Is a unit in the middle of a command (R26, R32, R36)? -/
def State.busy (u : UnitId) (s : State) : Bool :=
  match u with
  | .fpc => s.fpc.busy
  | .ews => s.ews.busy
  | .rpa => s.rpa.busy

/-- A unit that can take a command is not in the middle of one. -/
theorem State.busy_eq_false {u : UnitId} {s : State} (h : s.occupied u = false) : s.busy u = false := by
  cases u
  case fpc => exact (Fpc.busy_of_takes (by simpa [State.occupied] using h)).1
  all_goals exact h

@[simp] theorem State.busy_refuse (u v : UnitId) (opc : Byte) (r : ResultCode) (s : State) :
    (s.refuse u opc r).busy v = s.busy v := by cases u <;> cases v <;> rfl

/-- A command at a unit that can take one is answered once, with its opcode, or is in progress without an answer. -/
theorem exec_answered {i : Instr} {s t : State} (ho : s.occupied i.unit = false) (ht : exec i s = .next t) :
    Answered i.opcode.toByte (s.responses i.unit) (t.busy i.unit) (t.responses i.unit) := by
  cases hp : precondition i s with
  | false =>
    rw [exec_refused ho hp] at ht
    cases ht
    exact answered_done (by rw [State.busy_refuse, State.busy_eq_false ho]) (State.responses_refuse _ _ _ _)
  | true =>
    rw [exec_eq_start ho hp] at ht
    unfold State.accepted at ht
    cases hu : i.unit <;> simp only [hu] at ht ⊢
    case fpc =>
      obtain ⟨f, hr, rfl⟩ := fpcRun_next ht
      have h := runSeq_fpcSeq_answered (acceptedFpc_busy hu) hr
      rwa [acceptedFpc_opc hu, (acceptedFpc_streams i s.fpc).1] at h
    case ews =>
      obtain ⟨e, hr, rfl⟩ := ewsRun_next ht
      have h := runSeq_ewsSeq_answered (acceptedEws_busy hu) hr
      rwa [acceptedEws_opc hu, (acceptedEws_streams i s.ews).1] at h
    case rpa =>
      obtain ⟨r, hr, rfl⟩ := rpaRun_next ht
      have h := runSeq_rpaSeq_answered (acceptedRpa_busy hu) hr
      rwa [acceptedRpa_opc hu, (acceptedRpa_streams i s.rpa).1] at h

/-- Settles O58: the answer of a command, unit by unit. -/
theorem oneResponsePerCommand : Obligations.OneResponsePerCommand := by
  intro i s t ho ht
  have h := exec_answered ho ht
  revert h
  cases i.unit <;> exact id

/-! ## A command in which a host move lands (R100, R262) -/

/-- A run cut in two, where the whole comes to a stop, ends where the whole ends. -/
theorem runSeq_cut {σ : Type} {seq : σ → Option σ} {stop : σ → Bool} {k n m : Nat} {x y z w : σ}
    (hk : runSeq seq stop k x = some y) (hy : k = 0 ∨ stop y = false) (hn : runSeq seq stop n x = some z) (hz : stop z = true)
    (hm : runSeq seq stop m y = some w) (hw : stop w = true) (hn0 : 0 < n) (hm0 : 0 < m) : w = z := by
  have h1 : runSeq seq stop (k + (n + m)) x = some z := runSeq_mono hn hz hn0 (by omega)
  have h2 : runSeq seq stop (k + (n + m)) x = some w := (runSeq_add hk hy).trans (runSeq_mono hm hw hm0 (by omega))
  exact Option.some.inj (h2.symm.trans h1)

/-- FPC in the middle of a command, its device not stalled, comes to its end. -/
theorem runSeq_fpcSeq_stops {c : Config} (hc : c.Valid) {f : Fpc} (hf : f.Inv c) (hb : f.busy = true)
    (hn : f.nvm.stalled = false) : ∃ g, runSeq (fpcSeq c) Fpc.stops (fpcFuel c f) f = some g ∧ g.stops = true := by
  obtain ⟨g, hr, hg, -⟩ := runSeq_terminates (seq := fpcSeq c) (stop := Fpc.stops)
    (P := fun f => f.Inv c ∧ f.busy = true ∧ f.nvm.stalled = false) (Q := fun _ => True) (μ := fpcMeasure c)
    (fun a ⟨ha, hba, _⟩ => fpcMeasure_pos ha hba) (fun a ⟨ha, hba, hna⟩ => by
      obtain ⟨b, hs⟩ := fpcRow_progress (Fpc.inv_moves ha) hba
      obtain ⟨hnb, hlt⟩ := fpcSeq_measure hc ha hba hna hs
      exact ⟨b, hs, fun _ => trivial, fun hstop => ⟨⟨fpcSeq_inv hc ha hs, by simp_all [Fpc.stops], hnb⟩, hlt⟩⟩)
    ⟨hf, hb, hn⟩ (fpcMeasure_le_fuel c f)
  exact ⟨g, hr, hg⟩

/-- EWS in the middle of a command and its EEPROM in step with it, not stalled (R160). -/
structure Ews.OnItsWay (c : Config) (e : Ews) : Prop where
  block : e.BlockInv c
  device : e.DeviceInv c
  inStep : e.InStep c
  stalled : e.eeprom.stalled = false

theorem ewsSeq_onItsWay {c : Config} (hc : c.Valid) {e g : Ews} (h : e.OnItsWay c) (hs : ewsSeq c e = some g) :
    g.OnItsWay c where
  block := (ewsSeq_inv hc h.block h.device hs).1
  device := (ewsSeq_inv hc h.block h.device hs).2
  inStep := ewsSeq_inStep hc h.block h.inStep hs
  stalled := by rw [ewsLine_stalled hs, Ews.moves_stalled, h.stalled]

/-- EWS in the middle of a command, its EEPROM not stalled, comes to its end. -/
theorem runSeq_ewsSeq_stops {c : Config} (hc : c.Valid) {e : Ews} (h : e.OnItsWay c) (hb : e.busy = true) :
    ∃ g, runSeq (ewsSeq c) (Ews.stops c) (ewsFuel c e) e = some g ∧ g.stops c = true := by
  obtain ⟨g, hr, hg, -⟩ := runSeq_terminates (seq := ewsSeq c) (stop := Ews.stops c)
    (P := fun e => e.OnItsWay c ∧ e.busy = true) (Q := fun _ => True) (μ := ewsMeasure c)
    (fun a ⟨ha, hba⟩ => ewsMeasure_pos hc ha.block hba) (fun a ⟨ha, hba⟩ => by
      obtain ⟨b, hs⟩ := ewsLine_progress (Ews.blockInv_moves (c := c) ha.block) (by simpa using hba)
      exact ⟨b, hs, fun _ => trivial, fun hstop => ⟨⟨ewsSeq_onItsWay hc ha hs, by simp_all [Ews.stops]⟩,
        ewsSeq_measure hc ha.block ha.device ha.inStep ha.stalled hs⟩⟩)
    ⟨h, hb⟩ (ewsMeasure_le_fuel hc h.block)
  exact ⟨g, hr, hg⟩

/-- RPA in the middle of a command comes to its end in one step (R187). -/
theorem runSeq_rpaSeq_stops {c : Config} {r : Rpa} (h : r.Inv c) (hb : r.busy = true) :
    ∃ q, runSeq rpaSeq Rpa.stops 1 r = some q ∧ q.stops = true := by
  obtain ⟨q, hs⟩ := rpaSeq_progress h hb
  exact ⟨q, by simp [runSeq, hs], by simp [Rpa.stops, (rpaSeq_done hs).1]⟩

theorem fpcFuel_pos (c : Config) (f : Fpc) : 0 < fpcFuel c f := by unfold fpcFuel; omega

theorem ewsFuel_pos (c : Config) (e : Ews) : 0 < ewsFuel c e := by unfold ewsFuel; omega

/-- A device that is not stalled stays so through FPC's rows (log 7). -/
theorem fpcRow_stalled {c : Config} {f g : Fpc} (hs : fpcRow c f = some g) : g.nvm.stalled = f.nvm.stalled := by
  unfold fpcRow at hs
  cases hp : f.pos <;> simp only [hp] at hs
  case ready => cases hs
  case ep =>
    split at hs
    · cases hs; rfl
    · split at hs
      all_goals cases hs
      all_goals rfl
  case rd | er | fill => cases hs; simp
  case ucmp | rw | wp | pr =>
    split_ifs at hs
    all_goals cases hs
    all_goals simp

theorem fpcSeq_stalled {c : Config} {f g : Fpc} (hs : fpcSeq c f = some g) : g.nvm.stalled = f.nvm.stalled := by
  simpa using fpcRow_stalled hs

/-- A unit in the middle of a command makes so many sequencer steps at most. -/
def run (u : UnitId) (n : Nat) (s : State) : Host.Outcome State Fault Refusal :=
  match u with
  | .fpc => fpcRun n s
  | .ews => ewsRun n s
  | .rpa => rpaRun n s

/-- Enough sequencer steps for a unit's command. -/
def fuel (u : UnitId) (s : State) : Nat :=
  match u with
  | .fpc => fpcFuel s.cfg s.fpc
  | .ews => ewsFuel s.cfg s.ews
  | .rpa => 1

theorem start_eq_run (u : UnitId) (s : State) : start u s = run u (s.budgetAccepted (fuel u s)) s := by cases u <;> rfl

theorem resume_eq_run (u : UnitId) (s : State) : resume u s = run u (s.budget (fuel u s)) s := by cases u <;> rfl

/-- A run does not see the host's coming moves (log 12). -/
theorem run_withHost {u : UnitId} {n : Nat} {s t : State} (l : List (Nat × HostMove)) (h : run u n s = .next t) :
    run u n { s with host := l } = .next { t with host := l } := by
  cases u with
  | fpc => obtain ⟨f, hr, rfl⟩ := fpcRun_next h; exact fpcRun_of_some (s := { s with host := l }) hr
  | ews => obtain ⟨e, hr, rfl⟩ := ewsRun_next h; exact ewsRun_of_some (s := { s with host := l }) hr
  | rpa => obtain ⟨r, hr, rfl⟩ := rpaRun_next h; exact rpaRun_of_some (s := { s with host := l }) hr

/-- A run does not see the ports (R100). -/
theorem run_setPort {u : UnitId} {n : Nat} {s t : State} (v : UnitId) (p : Port) (h : run u n s = .next t) :
    run u n (s.setPort v p) = .next (t.setPort v p) := by
  cases u with
  | fpc =>
    obtain ⟨f, hr, rfl⟩ := fpcRun_next h
    cases v
    case fpc =>
      refine fpcRun_of_some (s := s.setPort .fpc p) ?_
      exact (runSeq_map (fun a => fpcSeq_port p a) (fun _ => rfl)).trans (congrArg (Option.map _) hr)
    all_goals exact fpcRun_of_some hr
  | ews =>
    obtain ⟨e, hr, rfl⟩ := ewsRun_next h
    cases v
    case ews =>
      refine ewsRun_of_some (s := s.setPort .ews p) ?_
      exact (runSeq_map (fun a => ewsSeq_port p a) (fun _ => rfl)).trans (congrArg (Option.map _) hr)
    all_goals exact ewsRun_of_some hr
  | rpa =>
    obtain ⟨r, hr, rfl⟩ := rpaRun_next h
    cases v
    case rpa =>
      refine rpaRun_of_some (s := s.setPort .rpa p) ?_
      exact (runSeq_map (fun a => rpaSeq_port p a) (fun _ => rfl)).trans (congrArg (Option.map _) hr)
    all_goals exact rpaRun_of_some hr

@[simp] theorem fuel_setPort (u v : UnitId) (p : Port) (s : State) : fuel u (s.setPort v p) = fuel u s := by
  cases u <;> cases v <;> rfl

/-- A host move other than a reset does not disturb a unit that goes on (R100, R262). -/
theorem resume_hostMove {u : UnitId} {m : HostMove} {s t : State} (hm : m ≠ .reset) (h : resume u s = .next t) :
    resume u (s.hostMove m) = .next (t.hostMove m) := by
  cases m with
  | reset => exact absurd rfl hm
  | readStatus v => exact h
  | present v cw payload =>
    have hport := resume_port h v
    rw [resume_eq_run] at h ⊢
    rw [State.hostMove, State.hostMove, State.present, State.present, hport, fuel_setPort]
    simpa only [State.budget, State.setPort_host] using run_setPort v _ h

/-- FPC, cut off in the middle of a command, goes on to the end it has without the cut. -/
theorem fpcRun_goes_on {s t : State} {k : Nat} (hc : s.cfg.Valid) (hf : s.fpc.Inv s.cfg) (hb : s.fpc.busy = true)
    (hn : s.fpc.nvm.stalled = false) (ht : fpcRun k s = .next t) (ho : t.occupied .fpc = true) :
    fpcRun (fpcFuel t.cfg t.fpc) t = fpcRun (fpcFuel s.cfg s.fpc) s := by
  obtain ⟨f, hr, rfl⟩ := fpcRun_next ht
  obtain ⟨hf', hn'⟩ : f.Inv s.cfg ∧ f.nvm.stalled = false :=
    runSeq_keeps (P := fun f => f.Inv s.cfg ∧ f.nvm.stalled = false)
      (fun a b ⟨ha, hna⟩ hs => ⟨fpcSeq_inv hc ha hs, (fpcSeq_stalled hs).trans hna⟩) ⟨hf, hn⟩ hr
  have hb' : f.busy = true := by simpa [State.occupied, Fpc.takes_iff hf'] using ho
  obtain ⟨g, hg, hgs⟩ := runSeq_fpcSeq_stops hc hf hb hn
  obtain ⟨g', hg', hgs'⟩ := runSeq_fpcSeq_stops hc hf' hb' hn'
  have hgo : f.stops = false := by simp [Fpc.stops, Fpc.hung, hb', hn']
  rw [fpcRun_of_some hg, fpcRun_of_some (s := { s with fpc := f }) hg',
    runSeq_cut hr (.inr hgo) hg hgs hg' hgs' (fpcFuel_pos _ _) (fpcFuel_pos _ _)]

/-- EWS likewise. -/
theorem ewsRun_goes_on {s t : State} {k : Nat} (hc : s.cfg.Valid) (he : s.ews.OnItsWay s.cfg) (hb : s.ews.busy = true)
    (ht : ewsRun k s = .next t) (ho : t.occupied .ews = true) :
    ewsRun (ewsFuel t.cfg t.ews) t = ewsRun (ewsFuel s.cfg s.ews) s := by
  obtain ⟨e, hr, rfl⟩ := ewsRun_next ht
  have he' : e.OnItsWay s.cfg := runSeq_keeps (P := fun e => e.OnItsWay s.cfg) (fun _ _ ha hs => ewsSeq_onItsWay hc ha hs) he hr
  obtain ⟨g, hg, hgs⟩ := runSeq_ewsSeq_stops hc he hb
  obtain ⟨g', hg', hgs'⟩ := runSeq_ewsSeq_stops hc he' ho
  have hb' : e.busy = true := ho
  have hgo : e.stops s.cfg = false := by simp [Ews.stops, Ews.hung, hb', he'.stalled]
  rw [ewsRun_of_some hg, ewsRun_of_some (s := { s with ews := e }) hg',
    runSeq_cut hr (.inr hgo) hg hgs hg' hgs' (ewsFuel_pos _ _) (ewsFuel_pos _ _)]

/-- RPA likewise: the cut can only be right after the acceptance (R187). -/
theorem rpaRun_goes_on {s t : State} {k : Nat} (hr : s.rpa.Inv s.cfg) (hb : s.rpa.busy = true)
    (ht : rpaRun k s = .next t) (ho : t.occupied .rpa = true) : rpaRun 1 t = rpaRun 1 s := by
  obtain ⟨r, hrun, rfl⟩ := rpaRun_next ht
  have hr' : r.Inv s.cfg := runSeq_keeps (P := fun r => r.Inv s.cfg) (fun _ _ ha hs => rpaSeq_inv ha hs) hr hrun
  obtain ⟨g, hg, hgs⟩ := runSeq_rpaSeq_stops hr hb
  obtain ⟨g', hg', hgs'⟩ := runSeq_rpaSeq_stops hr' ho
  have hb' : r.busy = true := ho
  rw [rpaRun_of_some hg, rpaRun_of_some (s := { s with rpa := r }) hg',
    runSeq_cut hrun (.inr (by simp [Rpa.stops, hb'])) hg hgs hg' hgs' Nat.one_pos Nat.one_pos]

/-- A unit that is ready for a command can take one, keeps the invariant, and has no host move to come. -/
theorem State.ReadyFor.free {u : UnitId} {s : State} (h : s.ReadyFor u) :
    s.Inv ∧ s.host = [] ∧ s.occupied u = false := by
  cases u with
  | fpc =>
    obtain ⟨hi, hhost, hb, -⟩ := h
    obtain ⟨-, hf, -⟩ := id hi
    exact ⟨hi, hhost, by simp [State.occupied, Fpc.takes_iff hf, hb]⟩
  | ews => obtain ⟨hi, hhost, hb, -⟩ := h; exact ⟨hi, hhost, hb⟩
  | rpa => obtain ⟨hi, hhost, hb⟩ := h; exact ⟨hi, hhost, hb⟩

/-- A unit that is ready for a command, the command accepted and cut off somewhere, goes on to the end it has without the cut. -/
theorem run_accepted_goes_on {i : Instr} {s t : State} {k : Nat} (h : s.ReadyFor i.unit) (hw : i.wellFormed = true)
    (hp : precondition i s = true) (ht : run i.unit k (s.accepted i) = .next t) (ho : t.occupied i.unit = true) :
    run i.unit (fuel i.unit t) t = run i.unit (fuel i.unit (s.accepted i)) (s.accepted i) := by
  obtain ⟨hi, -, hfree⟩ := h.free
  have hacc := hi.accepted hfree hw hp
  unfold State.accepted at hacc ht ⊢
  cases hu : i.unit <;> simp only [hu] at h hacc ht ho ⊢
  case fpc =>
    obtain ⟨hc, hf, -⟩ := hacc
    obtain ⟨-, -, -, -, hn⟩ := h
    exact fpcRun_goes_on hc hf (acceptedFpc_busy hu) (by simpa using hn) ht ho
  case ews =>
    obtain ⟨hc, -, hb, hd, -⟩ := hacc
    obtain ⟨-, -, -, hn⟩ := h
    exact ewsRun_goes_on hc ⟨hb, hd, acceptedEws_inStep hu, by simpa using hn⟩ (acceptedEws_busy hu) ht ho
  case rpa =>
    obtain ⟨-, -, -, -, hr⟩ := hacc
    exact rpaRun_goes_on hr (acceptedRpa_busy hu) ht ho

@[simp] theorem State.accepted_host (i : Instr) (s : State) : (s.accepted i).host = s.host := by
  unfold State.accepted; cases i.unit <;> rfl

theorem State.accepted_withHost (i : Instr) (s : State) (l : List (Nat × HostMove)) :
    State.accepted i { s with host := l } = { s.accepted i with host := l } := by
  unfold State.accepted; cases i.unit <;> rfl

/-- A unit that has just accepted a command is occupied (R100). -/
theorem State.occupied_accepted (i : Instr) (s : State) : (s.accepted i).occupied i.unit = true := by
  unfold State.accepted
  cases hu : i.unit
  case fpc => simp [State.occupied, Fpc.takes, acceptedFpc_busy hu]
  case ews => exact acceptedEws_busy hu
  case rpa => exact acceptedRpa_busy hu

theorem State.occupied_withHost (u : UnitId) (s : State) (l : List (Nat × HostMove)) :
    State.occupied u { s with host := l } = s.occupied u := by cases u <;> rfl

theorem precondition_withHost (i : Instr) (s : State) (l : List (Nat × HostMove)) :
    precondition i { s with host := l } = precondition i s := by cases i <;> rfl

/-- No sequencer step is no run. -/
theorem run_zero (u : UnitId) (s : State) : run u 0 s = .next s := by cases u <;> rfl

/-- Settles O59: the move cuts the command's run in two, and neither part sees the ports. -/
theorem interruptedCommandGoesOn : Obligations.InterruptedCommandGoesOn := by
  intro i s t k m rest h hw hp hm ht
  obtain ⟨-, hhost, hfree⟩ := h.free
  rw [exec_eq_start ((State.occupied_withHost _ _ _).trans hfree) ((precondition_withHost _ _ _).trans hp), start_eq_run,
    State.accepted_withHost, State.budgetAccepted_cons rfl, Nat.add_sub_cancel] at ht
  have hrun : run i.unit k (s.accepted i) = .next { t with host := (s.accepted i).host } :=
    (run_withHost (s.accepted i).host ht :)
  rw [State.accepted_host, hhost] at hrun
  refine ⟨fun hk => ?_, fun ho => ?_⟩
  · subst hk
    rw [run_zero] at ht
    cases ht
    exact (State.occupied_withHost _ _ _).trans (State.occupied_accepted i s)
  · have hgo := run_accepted_goes_on h hw hp hrun ((State.occupied_withHost _ _ _).trans ho)
    have hresume : resume i.unit { t with host := [] } = exec i s := by
      rw [exec_eq_start hfree hp, start_eq_run, State.budgetAccepted_nil (by simpa using hhost), ← hgo, resume_eq_run,
        State.budget_nil rfl]
    obtain ⟨u, hu⟩ := exec_answers h.free.1 hw
    rw [hu] at hresume ⊢
    exact resume_hostMove hm hresume

end Sys2Proof.Machine
end

section
/-! PROOFS. The commands of RPA: their results and frames, the round trip, and the cursor that moves last
(42_ringbuffer_pointer_arith.md R181 to R187). -/

namespace Sys2Proof.Machine

/-! ## A ring command, run to its end (R181 to R183) -/

/-- A ring command at an RPA that is ready for it is accepted, and RPA's one step follows (R187, log 21). -/
theorem exec_rpa {i : Instr} {s : State} {r : Rpa} (hhost : s.host = []) (hb : s.rpa.busy = false) (hu : i.unit = .rpa)
    (hp : precondition i s = true) (hs : rpaSeq (acceptedRpa i s.rpa) = some r) : exec i s = .next { s with rpa := r } := by
  rw [exec_accepted (by rw [hu]; exact hb) hp, hu]
  show rpaStart _ = _
  rw [rpaStart, State.budgetAccepted_nil (s := { s with rpa := acceptedRpa i s.rpa }) hhost]
  exact rpaRun_of_some (by simp [runSeq, hs])

/-- A response word with result `OK`, its opcode and result code written as one number (R98). -/
theorem response_ok {opc : Byte} {w : Half} (v : Half) (h : opc ++ 0x00#8 = w) : response opc .ok v = w ++ v := by
  subst h; rfl

/-- An RPA that is not busy has no command (R36). -/
theorem State.ReadyForRpa.op {s : State} (h : s.ReadyForRpa) : s.rpa.op = .none := by
  obtain ⟨⟨-, -, -, -, hbusy, -⟩, -, hb⟩ := h
  exact hbusy.1 hb

/-- The cursors of a configured ring are below its capacity (R34). -/
theorem State.ReadyForRpa.cursors {s : State} (h : s.ReadyForRpa) (hcap : 1 ≤ s.rpa.cap.toNat) :
    s.rpa.rd.toNat < s.rpa.cap.toNat ∧ s.rpa.wr.toNat < s.rpa.cap.toNat := by
  obtain ⟨⟨-, -, -, -, -, -, -, hcursors, -⟩, -⟩ := h
  exact hcursors fun h0 => by simp [h0] at hcap

/-- The ring holds its bytes in the canonical form. -/
theorem State.ReadyForRpa.wf {s : State} (h : s.ReadyForRpa) : Memory.wf .ring s.rpa.mem := by
  obtain ⟨⟨-, -, -, -, -, -, -, -, -, -, -, hwf, -⟩, -⟩ := h
  exact hwf

/-- Settles O48: RPA's step after the acceptance is the configuration. -/
theorem rpaCfgResult : Obligations.RpaCfgResult := by
  intro s cap rd wr h h1 h2 h3 h4
  have hop := h.op
  obtain ⟨-, hhost, hb⟩ := h
  rw [exec_rpa (i := .rpaCfg cap rd wr) hhost hb rfl (ringConfigOk_iff.2 ⟨h1, h2, h3, h4⟩) rfl]
  rw [← response_ok _ (by decide : 0x32#8 ++ 0x00#8 = 0x3200#16)]
  simp only [hop, hb]
  rfl

/-- The next state of RPA.READ: the two copies on `DOUT`, then the cursor (R182). -/
theorem exec_rpaRead {s : State} {n : Half} (h : s.ReadyForRpa) (hcap : 1 ≤ s.rpa.cap.toNat)
    (hn : n.toNat ≤ s.rpa.cap.toNat) :
    exec (.rpaRead n) s = .next { s with rpa := { s.rpa with
      n := n, data := [], opc := 0x30#8
      rd := BitVec.ofNat 16 ((s.rpa.rd.toNat + n.toNat) % s.rpa.cap.toNat)
      dout := s.rpa.dout ++ (acceptedRpa (.rpaRead n) s.rpa).readBytes
      rsp := s.rpa.rsp ++ [0x3000#16 ++ BitVec.ofNat 16 ((s.rpa.rd.toNat + n.toNat) % s.rpa.cap.toNat)]
      draws := s.rpa.draws + n.toNat } } := by
  have hop := h.op
  obtain ⟨-, hhost, hb⟩ := h
  rw [exec_rpa (i := .rpaRead n) hhost hb rfl (ringLengthOk_iff.2 ⟨hcap, hn⟩) rfl]
  rw [← response_ok _ (by decide : 0x30#8 ++ 0x00#8 = 0x3000#16)]
  simp only [hop, hb]
  rfl

/-- The next state of RPA.WRITE: the two copies in the ring, then the cursor (R183). -/
theorem exec_rpaWrite {s : State} {n : Half} {src : List Byte} (h : s.ReadyForRpa) (hcap : 1 ≤ s.rpa.cap.toNat)
    (hn : n.toNat ≤ s.rpa.cap.toNat) :
    exec (.rpaWrite n src) s = .next { s with rpa := { s.rpa with
      n := n, data := src, opc := 0x31#8
      mem := (acceptedRpa (.rpaWrite n src) s.rpa).writtenRing
      wr := BitVec.ofNat 16 ((s.rpa.wr.toNat + n.toNat) % s.rpa.cap.toNat)
      rsp := s.rpa.rsp ++ [0x3100#16 ++ BitVec.ofNat 16 ((s.rpa.wr.toNat + n.toNat) % s.rpa.cap.toNat)] } } := by
  have hop := h.op
  obtain ⟨-, hhost, hb⟩ := h
  rw [exec_rpa (i := .rpaWrite n src) hhost hb rfl (ringLengthOk_iff.2 ⟨hcap, hn⟩) rfl]
  rw [← response_ok _ (by decide : 0x31#8 ++ 0x00#8 = 0x3100#16)]
  simp only [hop, hb]
  rfl

/-- RPA.READ of a ring copies `n` bytes, byte `k` the ring's at `(rb_rd + k) mod rb_cap` where one was written since reset
(R182). -/
theorem readBytes_accepted {r : Rpa} {n : Half} (hc : r.rd.toNat < r.cap.toNat) (hn : n.toNat ≤ r.cap.toNat) :
    (acceptedRpa (.rpaRead n) r).readBytes.length = n.toNat
      ∧ ∀ k b, k < n.toNat → r.mem.read? .ring ((r.rd.toNat + k) % r.cap.toNat) = some b →
          (acceptedRpa (.rpaRead n) r).readBytes[k]? = some b :=
  ⟨length_splitRead hc hn, fun _ _ hk hb => getElem?_splitRead hc hn hk hb⟩

/-- Settles O49: the two copies are the bytes from the read cursor on, modulo the capacity. -/
theorem rpaReadResult : Obligations.RpaReadResult := by
  intro s n h hcap hn
  obtain ⟨hlen, hbytes⟩ := readBytes_accepted (h.cursors hcap).1 hn
  exact ⟨_, _, exec_rpaRead h hcap hn, hlen, hbytes⟩

/-- Where a byte of the ring lies from the cursor on, it lies so modulo the capacity. -/
theorem ring_offset {cap cursor k : Nat} (hc : cursor < cap) (hk : k < cap) :
    ((cursor + k) % cap + cap - cursor) % cap = k := by
  rcases Nat.lt_or_ge (cursor + k) cap with h | h
  · rw [Nat.mod_eq_of_lt h, show cursor + k + cap - cursor = k + cap by omega, Nat.add_mod_right, Nat.mod_eq_of_lt hk]
  · rw [Nat.mod_eq_sub_mod h, Nat.mod_eq_of_lt (a := cursor + k - cap) (by omega),
      show cursor + k - cap + cap - cursor = k by omega, Nat.mod_eq_of_lt hk]

/-- Every byte of the ring lies somewhere from the cursor on, modulo the capacity. -/
theorem ring_address {cap cursor a : Nat} (hc : cursor < cap) (ha : a < cap) :
    (cursor + (a + cap - cursor) % cap) % cap = a := by
  rcases Nat.lt_or_ge a cursor with h | h
  · rw [Nat.mod_eq_of_lt (a := a + cap - cursor) (by omega), show cursor + (a + cap - cursor) = a + cap by omega,
      Nat.add_mod_right, Nat.mod_eq_of_lt ha]
  · rw [show a + cap - cursor = a - cursor + cap by omega, Nat.add_mod_right, Nat.mod_eq_of_lt (a := a - cursor) (by omega),
      Nat.add_sub_of_le h, Nat.mod_eq_of_lt ha]

/-- RPA.WRITE to a ring puts payload byte `k` at `(rb_wr + k) mod rb_cap` and changes no other byte (R183). -/
theorem writtenRing_accepted {r : Rpa} {n : Half} {src : List Byte} (hm : Memory.wf .ring r.mem)
    (hc : r.wr.toNat < r.cap.toNat) (hn : n.toNat ≤ r.cap.toNat) (hl : src.length = n.toNat) :
    (∀ k, k < n.toNat →
        (acceptedRpa (.rpaWrite n src) r).writtenRing.read? .ring ((r.wr.toNat + k) % r.cap.toNat) = src[k]?)
      ∧ ∀ a, (∀ k, k < n.toNat → a ≠ (r.wr.toNat + k) % r.cap.toNat) →
          (acceptedRpa (.rpaWrite n src) r).writtenRing.read? .ring a = r.mem.read? .ring a := by
  have hread : ∀ a, (acceptedRpa (.rpaWrite n src) r).writtenRing.read? .ring a = _ :=
    fun a => hl ▸ read_splitCopy hm hc (hl.symm ▸ hn) a
  refine ⟨fun k hk => ?_, fun a ha => ?_⟩
  · rw [hread, ring_offset hc (by omega), if_pos ⟨Nat.mod_lt _ (by omega), hl ▸ hk⟩]
  · rw [hread, if_neg]
    rintro ⟨h1, h2⟩
    exact ha _ (hl ▸ h2) (ring_address hc h1).symm

/-- Settles O50: the two copies lie from the write cursor on, modulo the capacity. -/
theorem rpaWriteResult : Obligations.RpaWriteResult := by
  intro s n src h hcap hn hl
  obtain ⟨hin, hout⟩ := writtenRing_accepted h.wf (h.cursors hcap).2 hn hl
  exact ⟨_, exec_rpaWrite h hcap hn, hin, hout⟩

/-- RPA.READ from where the bytes of `src` lie copies them in order (R182). -/
theorem readBytes_eq {r : Rpa} {n : Half} {src : List Byte} (hc : r.rd.toNat < r.cap.toNat) (hn : n.toNat ≤ r.cap.toNat)
    (hl : src.length = n.toNat)
    (h : ∀ k, k < n.toNat → r.mem.read? .ring ((r.rd.toNat + k) % r.cap.toNat) = src[k]?) :
    (acceptedRpa (.rpaRead n) r).readBytes = src := by
  obtain ⟨hlen, hbytes⟩ := readBytes_accepted hc hn
  apply List.ext_getElem?
  intro k
  rcases Nat.lt_or_ge k n.toNat with hk | hk
  · have hsrc : src[k]? = some src[k] := List.getElem?_eq_getElem (hl ▸ hk)
    rw [hsrc, hbytes k _ hk ((h k hk).trans hsrc)]
  · rw [List.getElem?_eq_none (hlen ▸ hk), List.getElem?_eq_none (hl ▸ hk)]

/-- Settles O51: the bytes read are at the indices the bytes written went to. -/
theorem rpaRoundTrip : Obligations.RpaRoundTrip := by
  intro s n src h hcap hn hl hrd
  have hwrite := exec_rpaWrite (src := src) h hcap hn
  obtain ⟨hrdlt, hwrlt⟩ := h.cursors hcap
  obtain ⟨hin, -⟩ := writtenRing_accepted h.wf hwrlt hn hl
  have hw : (Instr.rpaWrite n src).wellFormed = true := by simpa [Instr.wellFormed] using hl
  obtain ⟨hinv, hhost, hb⟩ := h
  refine ⟨_, _, hwrite, exec_rpaRead ⟨State.inv_stepKeeps.exec hw hinv hwrite, hhost, hb⟩ hcap hn, ?_, ?_⟩
  · exact congrArg (s.rpa.dout ++ ·) (readBytes_eq hrdlt hn hl (hrd ▸ hin))
  · show BitVec.ofNat 16 _ = BitVec.ofNat 16 _
    rw [hrd]

/-! ## The cursor moves last (R187, log 12) -/

/-- An acceptance leaves the ring, its cursors and its streams as they are (R187). -/
theorem acceptedRpa_ring (i : Instr) (r : Rpa) :
    (acceptedRpa i r).rd = r.rd ∧ (acceptedRpa i r).wr = r.wr ∧ (acceptedRpa i r).cap = r.cap
      ∧ (acceptedRpa i r).mem = r.mem := by cases i <;> exact ⟨rfl, rfl, rfl, rfl⟩

/-- RPA has a step after every acceptance (R187). -/
theorem rpaSeq_accepted {i : Instr} (hu : i.unit = .rpa) (r : Rpa) : ∃ q, rpaSeq (acceptedRpa i r) = some q := by
  cases i
  case rpaRead | rpaWrite | rpaCfg => exact ⟨_, rfl⟩
  all_goals cases hu

/-- A ring command with a host move right after its acceptance is accepted, and that is all (log 12). -/
theorem exec_rpa_accepted {i : Instr} {s : State} {m : HostMove} {rest : List (Nat × HostMove)} (hhost : s.host = (1, m) :: rest)
    (hb : s.rpa.busy = false) (hu : i.unit = .rpa) (hp : precondition i s = true) :
    exec i s = .next { s with rpa := acceptedRpa i s.rpa } := by
  rw [exec_accepted (by rw [hu]; exact hb) hp, hu]
  show rpaStart _ = _
  rw [rpaStart, State.budgetAccepted_cons (s := { s with rpa := acceptedRpa i s.rpa }) hhost]
  rfl

/-- An RPA that is in the middle of a command ends it on its turn (R187). -/
theorem step_rpa_done {v : State} {q : Rpa} (hturn : v.turn = .rpa) (hm : v.NoMoveDue) (hb : v.rpa.busy = true)
    (hs : rpaSeq v.rpa = some q) : step v = .next (State.endTurn { v with rpa := q }) := by
  obtain ⟨n, hn⟩ : ∃ n, v.budget 1 = n + 1 := by
    unfold State.budget
    split
    · exact ⟨0, rfl⟩
    · next k _ _ hhost =>
      have : k ≠ 0 := by rintro rfl; simp [State.NoMoveDue, hhost] at hm
      exact ⟨k - 1, by omega⟩
  have hrun : rpaRun (v.budget 1) v = .next { v with rpa := q } :=
    rpaRun_of_some (by rw [hn, runSeq_succ hs, if_pos (by simp [Rpa.stops, (rpaSeq_done hs).1])])
  have hresume : resume v.turn v = .next { v with rpa := q } := (congrArg (resume · v) hturn).trans hrun
  rw [step_unitTurn hm, unitTurn_occupied (by rw [hturn]; exact hb), hresume]
  rfl

/-- Settles O52: the acceptance writes neither cursor, and RPA's one step after it is the one it has without the move. -/
theorem rpaCursorMovesLast : Obligations.RpaCursorMovesLast := by
  intro s cw ws i pay m rest hturn hhost hb hcmd hd hu hp
  have hf : fetchAt s.turn (s.port s.turn).cmd (s.port s.turn).pay = .command i (Cw.opc cw) ws pay := by
    rw [hturn]
    show fetchAt .rpa s.rpa.port.cmd s.rpa.port.pay = _
    rw [hcmd, fetchAt_command hu hd]
  have hm : s.NoMoveDue := by simp [State.NoMoveDue, hhost]
  have hstep := step_command hm (by rw [hturn]; exact hb) hf
  rw [hturn, exec_rpa_accepted (s := s.setPort .rpa ⟨ws, pay⟩) hhost hb hu (by simpa using hp)] at hstep
  obtain ⟨krd, kwr, kcap, kmem⟩ := acceptedRpa_ring i { s.rpa with port := ⟨ws, pay⟩ }
  obtain ⟨krsp, kdout, -⟩ := acceptedRpa_streams i { s.rpa with port := ⟨ws, pay⟩ }
  have kbusy := acceptedRpa_busy (r := { s.rpa with port := ⟨ws, pay⟩ }) hu
  refine ⟨_, hstep, ?_, (rpaStatus_fields _).1.trans kbusy, congrArg₂ (fun x y : Half => x ++ y) krd kwr, kcap, kmem, kdout, krsp,
    ?_, ?_⟩
  · show (match s.host with | [] => [] | (_, m) :: rest => (0, m) :: rest) = _
    rw [hhost]
  · rintro rfl
    refine step_hostMove (m := .readStatus .rpa) (rest := rest) ?_
    show (match s.host with | [] => [] | (_, m) :: rest => (0, m) :: rest) = _
    rw [hhost]
  · intro v hv hvturn hvm
    have hv : v.rpa = acceptedRpa i { s.rpa with port := ⟨ws, pay⟩ } := hv
    obtain ⟨q, hq⟩ := rpaSeq_accepted hu { s.rpa with port := ⟨ws, pay⟩ }
    have hp' : precondition i { s with host := [], rpa := { s.rpa with port := ⟨ws, pay⟩ } } = true :=
      (precondition_withHost i (s.setPort .rpa ⟨ws, pay⟩) []).trans (by simpa using hp)
    exact ⟨_, _, step_rpa_done hvturn hvm (hv ▸ kbusy) (hv ▸ hq), exec_rpa rfl hb hu hp' hq, rfl⟩

end Sys2Proof.Machine
end

section
/-! PROOFS. Statements about single operations: the preconditions at their edges (30_encoding.md R102), a reset and the
collaborators (70_reset_and_hazards.md R250, R252), a diagnostic line (43_diagnostic_print.md R200 to R202), the two devices
(20_memory.md R61, R62, R75), one sequencer step (R78, R127, R157, R160). -/

namespace Sys2Proof.Machine

/-! ## The preconditions at their edges (R102, R184) -/

/-- What FPC's length check says (R102). -/
theorem fpcLengthOk_iff {c : Config} {n : Half} : fpcLengthOk c n = true ↔ n.toNat ≤ c.pageBytes := decide_eq_true_iff

/-- What EWS's range check says (R102). -/
theorem ewsRangeOk_iff {c : Config} {address n : Half} :
    ewsRangeOk c address n = true ↔ 1 ≤ n.toNat ∧ address.toNat + n.toNat ≤ c.eeSize := by simp [ewsRangeOk]

/-- Settles O8: each check is its inequalities, and the edges are where these turn. -/
theorem preconditionEdges : Obligations.PreconditionEdges := by
  intro s n address cap rd wr data
  have fpc : ∀ i ∈ [Instr.fpcRead n, .fpcWrite n data, .fpcUpdate n data], precondition i s = fpcLengthOk s.cfg n := by
    simp [precondition]
  have ews : ∀ i ∈ [Instr.ewsRead address n, .ewsWrite address n data], precondition i s = ewsRangeOk s.cfg address n := by
    simp [precondition]
  have rpa : ∀ i ∈ [Instr.rpaRead n, .rpaWrite n data], precondition i s = ringLengthOk s.rpa.cap n := by simp [precondition]
  refine ⟨fun i hi => ?_, fun i hi => ?_, fun i hi => ?_, fun h1 h2 h3 h4 => ?_, fun h => ?_, ?_, by simp [precondition]⟩
  · rw [fpc i hi, Bool.eq_false_iff, Ne, fpcLengthOk_iff]
    constructor <;> omega
  · rw [ews i hi, Bool.eq_false_iff, Ne, ewsRangeOk_iff]
    refine ⟨?_, ?_, ?_⟩ <;> omega
  · rw [rpa i hi, Bool.eq_false_iff, Ne, ringLengthOk_iff]
    refine ⟨?_, ?_, ?_⟩ <;> omega
  · exact ringConfigOk_iff.2 ⟨h1, h2, h3, h4⟩
  · rw [Bool.eq_false_iff, Ne]
    refine fun hok => ?_
    have := ringConfigOk_iff.1 hok
    omega
  · exact decide_eq_true_iff

/-! ## A reset and the collaborators (R250, R252) -/

/-- A cut operation leaves the bytes outside its region as they were (R252, log 16). -/
theorem Nvm.read?_cut {d : Nvm} (hw : Memory.wf .flash d.flash) {a : Nat}
    (ha : d.busy = true → ¬ (d.regionAddr ≤ a ∧ a < d.regionAddr + d.regionLen)) :
    d.cut.flash.read? .flash a = d.flash.read? .flash a := by
  rw [Nvm.cut_flash]
  split
  · next hb => rw [Memory.read?_setBytes hw, length_freeBytes, if_neg (ha hb)]
  · rfl

/-- Bytes put at addresses other than `a` leave the byte at `a` as it was. -/
theorem Eeprom.read?_spoil {as : List Nat} : ∀ {m : Memory} {d a : Nat}, Memory.wf .eeprom m → a ∉ as →
    (Eeprom.spoil m as d).read? .eeprom a = m.read? .eeprom a := by
  induction as with
  | nil => intro m d a _ _; rfl
  | cons x as ih =>
    intro m d a hw ha
    obtain ⟨hx, has⟩ := List.ne_and_not_mem_of_not_mem_cons ha
    rw [spoil, ih (Memory.wf_set hw) has, Memory.read?_set hw, if_neg hx]

/-- A cut transaction leaves the bytes it has not touched as they were (R252, log 16). -/
theorem Eeprom.read?_cut {c : Config} {d : Eeprom} (hw : Memory.wf .eeprom d.ee) {a : Nat}
    (ha : d.mode = .wData → a ∉ d.openBytes c) : (d.cut c).ee.read? .eeprom a = d.ee.read? .eeprom a := by
  unfold cut
  split
  · next hm => exact read?_spoil hw (ha hm)
  · rfl

/-- Settles O15: a reset changes the collaborators by the two cuts only. -/
theorem resetKeepsCollaborators : Obligations.ResetKeepsCollaborators := by
  rintro s rest ⟨-, ⟨-, -, -, -, -, -, -, -, hflash, -⟩, -, ⟨hee, -⟩, -⟩ hhost
  refine ⟨_, step_hostMove hhost, rfl, Nvm.cut_busy _, Nvm.cut_eraseCount _, Nvm.cut_rowWriteCount _,
    fun a ha => Nvm.read?_cut hflash ha, Eeprom.cut_ptr _ _, Eeprom.cut_commit _ _, Eeprom.cut_mode _ _, Eeprom.cut_hi _ _,
    Eeprom.cut_got _ _, rfl, fun a ha => Eeprom.read?_cut hee ha⟩

/-! ## A diagnostic line (R200 to R202) -/

/-- A byte is shown in three characters (R201). -/
theorem length_cell (b : Byte) : (cell b).length = 3 := by
  unfold cell; split <;> simp [hex2]

/-- A line has what it begins with, four characters more, and three per byte (R202). -/
theorem length_line (pre : List Char) (row : List Byte) : (line pre row).length = pre.length + 3 * row.length + 4 := by
  have hcells : (row.flatMap cell).length = 3 * row.length := by
    induction row with
    | nil => rfl
    | cons b row ih => rw [List.flatMap_cons, List.length_append, length_cell, ih, List.length_cons]; omega
  simp only [line, List.length_append, hcells, List.length_cons, List.length_nil]
  omega

/-- Settles O28: the length of a line of 32 bytes, and of an address. -/
theorem lineLengths : Obligations.LineLengths := by
  intro pre row a hrow
  refine ⟨?_, ?_, length_cell⟩
  · rw [length_line]; omega
  · rw [length_line, hrow]; rfl

/-! ## The devices (R61, R62, R75) -/

/-- Settles O46: the data byte after the last of a page goes to the page's first address, and no further. -/
theorem eepromPointerWraps : Obligations.EepromPointerWraps := by
  intro c e p b hc hw hm hptr h2
  have hpos := Config.eePage_pos hc
  have hwrap : Eeprom.nextWritePtr c e.ptr = p * c.eePage := by
    rw [Eeprom.nextWritePtr_wrap, hptr]
    · rw [Nat.mul_comm p, Nat.mul_add_div (by omega), Nat.div_eq_of_lt (by omega), Nat.add_zero, Nat.mul_comm]
    · rw [hptr, show p * c.eePage + (c.eePage - 1) + 1 = p * c.eePage + c.eePage by omega]
      simp
  have hfirst := Eeprom.afterSend_wData (c := c) (b := b) hm
  have hsecond : (e.afterSend c b).afterSend c 0x22#8 = _ := Eeprom.afterSend_wData (by rw [hfirst]; exact hm)
  rw [hsecond, hfirst]
  refine ⟨hwrap, ?_, ?_⟩
  · rw [Memory.read?_set (Memory.wf_set hw), if_pos hwrap.symm]
  · rw [Memory.read?_set (Memory.wf_set hw), Memory.read?_set hw, if_neg (by dsimp only; omega), if_neg (by omega)]

/-- A blank row of an idle device is ready for a row-write (R62). -/
theorem Nvm.rowReady_of_readResult {c : Config} {a : Nat} {d : Nvm} (hb : d.busy = false)
    (h : d.readResult c.rowBytes a = List.replicate c.rowBytes 0xFF#8) : d.rowReady c a = true := by
  rw [Nvm.readResult_idle hb] at h
  simp [Nvm.rowReady, hb, h]

/-- Settles O32: what a device operation writes is what the device reads back once it has taken `DONE`. -/
theorem nvmContract : Obligations.NvmContract := by
  intro c d a buf hw hb
  refine ⟨rfl, ?_, fun x hx => ?_, fun hbuf hblank => ?_⟩
  · rw [Nvm.readResult_idle (Nvm.takeDone_busy _), Nvm.takeDone_flash, Nvm.pageErase_flash, hb]
    simpa using Memory.bytes_setBytes (a := a) (bs := List.replicate c.pageBytes 0xFF#8) hw
  · rw [Nvm.read_pageErase hw hb, if_neg hx]
  · have hready := Nvm.rowReady_of_readResult hb hblank
    refine ⟨rfl, ?_, fun x hx => ?_⟩
    · rw [Nvm.readResult_idle (Nvm.takeDone_busy _), Nvm.takeDone_flash, Nvm.rowWrite_flash, if_pos hready, ← hbuf]
      exact Memory.bytes_setBytes hw
    · rw [Nvm.read_rowWrite hw hready, if_neg (hbuf ▸ hx)]

/-! ## The tick inside StartSequence (R78) -/

/-- The lines of StartSequence's loop leave `ews_t0` and the tick as they are (R151). -/
theorem ewsLine_timing {c : Config} {e g : Ews} (hp : e.pos.timing = true) (hs : ewsLine c e = some g) :
    g.t0 = e.t0 ∧ g.clock = e.clock := by
  cases hpos : e.pos
  case ssST => rw [ewsLine_ssST hpos] at hs; cases hs; exact ⟨rfl, rfl⟩
  case ssCT => rw [ewsLine_ssCT hpos] at hs; cases hs; exact ⟨rfl, rfl⟩
  case ssCK => rw [ewsLine_ssCK hpos] at hs; cases hs; split <;> exact ⟨rfl, rfl⟩
  all_goals simp [hpos, EwsPos.timing] at hp

/-- The tick after the collaborators' move: it stands where the schedule is used up, else it advances as far as it may (R78). -/
theorem Ews.moves_clock_nil {c : Config} {e : Ews} (h : e.sched = []) : (e.moves c).clock = e.clock := by
  simp only [moves, h]; split <;> rfl

theorem Ews.moves_clock_cons {c : Config} {e : Ews} {m : EwsMove} {rest : List EwsMove} (h : e.sched = m :: rest) :
    (e.moves c).clock = ⟨(e.clock.tick + e.tickAdvance c m.ticks) % 2 ^ c.tickBits⟩ := by
  simp only [moves, h]

/-- Inside StartSequence elapsed time grows by what the tick advances (R78). -/
theorem Ews.elapsed_moves {c : Config} {e : Ews} {m : EwsMove} {rest : List EwsMove} (h : e.sched = m :: rest)
    (ht : e.t0 < 2 ^ c.tickBits) (hp : e.pos.timing = true) :
    elapsed c (e.moves c).clock.tick e.t0 = elapsed c e.clock.tick e.t0 + e.tickAdvance c m.ticks := by
  rw [moves_clock_cons h, elapsed_advance _ ht, Nat.mod_eq_of_lt (elapsed_add_tickAdvance_lt hp _)]

/-- Settles O34: no line of the loop touches the tick or `ews_t0`, and an advance is cut before elapsed time wraps. -/
theorem elapsedNeverDecreases : Obligations.ElapsedNeverDecreases := by
  intro c e g ht _ hpos hs
  have hp : e.pos.timing = true := by rcases hpos with h | h | h <;> simp [h, EwsPos.timing]
  obtain ⟨hg0, hgc⟩ := ewsLine_timing (by simpa using hp) hs
  rw [Ews.moves_t0] at hg0
  rw [hg0, hgc]
  cases hsched : e.sched with
  | nil =>
    rw [Ews.moves_clock_nil hsched]
    exact ⟨rfl, Nat.le_refl _, nofun, fun _ => rfl⟩
  | cons m rest =>
    rw [Ews.elapsed_moves hsched ht hp]
    refine ⟨rfl, Nat.le_add_right _ _, fun m' rest' he hlt => ?_, nofun⟩
    cases he
    simp only [Ews.tickAdvance, hp, if_true]
    omega

/-! ## One call a step (R127, R157, R160) -/

/-- A row of R127's table makes one call at most. -/
theorem fpcRow_calls {c : Config} {f g : Fpc} (hs : fpcRow c f = some g) : g.trace = f.trace ∨ ∃ k, g.trace = k :: f.trace := by
  unfold fpcRow at hs
  cases hp : f.pos <;> simp only [hp] at hs
  case ready => cases hs
  case ep =>
    split at hs
    · cases hs; exact .inr ⟨_, rfl⟩
    · split at hs
      all_goals cases hs
      all_goals exact .inr ⟨_, rfl⟩
  case fill => cases hs; exact .inl rfl
  case rd | er => cases hs; exact .inr ⟨_, rfl⟩
  case ucmp | rw | wp | pr =>
    split_ifs at hs
    all_goals cases hs
    all_goals exact .inr ⟨_, rfl⟩

/-- What R157 says of the one call `k` EWS makes in a step from `e` to `g`. -/
abbrev Ews.CallFits (c : Config) (e g : Ews) (k : BusCall) : Prop :=
  (k = .stop → e.txnOpen = true ∧ g.txnOpen = false)
    ∧ (k = .start → g.txnOpen = true ∧ (e.txnOpen = true → e.pos = .ssST))
    ∧ (∀ a b, k = .receive a b → e.pos = .r2Rx ∧ (a = false ↔ e.ri + 1 = e.bodyLength c))
    ∧ (∀ n, k = .now n → e.pos = .ssT0 ∨ e.pos = .ssCK)

section calls
variable {c : Config} {e g : Ews}

/-- A `BUS.Send` fits anywhere. -/
theorem Ews.callFits_send (b : Byte) (ack : Bool) : e.CallFits c g (.send b ack) := ⟨nofun, nofun, nofun, nofun⟩

/-- A `BUS.Stop` where a transaction is open closes it. -/
theorem Ews.callFits_stop (he : e.txnOpen = true) (hg : g.txnOpen = false) : e.CallFits c g .stop :=
  ⟨fun _ => ⟨he, hg⟩, nofun, nofun, nofun⟩

/-- A `BUS.Start` opens a transaction, where none is open or in StartSequence's loop. -/
theorem Ews.callFits_start (hg : g.txnOpen = true) (he : e.txnOpen = true → e.pos = .ssST) : e.CallFits c g .start :=
  ⟨nofun, fun _ => ⟨hg, he⟩, nofun, nofun⟩

/-- `TICK.Now` inside StartSequence. -/
theorem Ews.callFits_now (n : Nat) (he : e.pos = .ssT0 ∨ e.pos = .ssCK) : e.CallFits c g (.now n) :=
  ⟨nofun, nofun, nofun, fun _ _ => he⟩

/-- A line of R160 makes one call at most, and R157's shape of the bus traffic is kept. -/
theorem ewsLine_calls (hb : e.BlockInv c) (hs : ewsLine c e = some g) :
    g.trace = e.trace ∨ ∃ k, g.trace = k :: e.trace ∧ e.CallFits c g k := by
  obtain ⟨-, -, hopen, -⟩ := hb
  have hopen : e.pos ≠ .ssST → ∀ b, e.pos.inTxn = b → e.txnOpen = b := fun hp b h => (hopen hp).trans h
  have hstop : e.pos = .r1Stop ∨ e.pos = .r2Stop ∨ e.pos = .wx ∨ e.pos = .ws → e.txnOpen = true := by
    rintro (hp | hp | hp | hp) <;> exact hopen (by simp [hp]) true (by simp [hp, EwsPos.inTxn])
  cases hp : e.pos
  case ready => rw [ewsLine_ready hp] at hs; cases hs
  case r1 =>
    rw [ewsLine_r1 hp] at hs; cases hs
    split
    · exact .inl rfl
    · exact .inr ⟨_, rfl, Ews.callFits_start rfl fun h => by
        rw [hopen (by simp [hp]) false (by simp [hp, EwsPos.inTxn])] at h; cases h⟩
  case r2 =>
    rw [ewsLine_r2 hp] at hs; cases hs
    exact .inr ⟨_, rfl, Ews.callFits_start rfl fun h => by
      rw [hopen (by simp [hp]) false (by simp [hp, EwsPos.inTxn])] at h; cases h⟩
  case ssST => rw [ewsLine_ssST hp] at hs; cases hs; exact .inr ⟨_, rfl, Ews.callFits_start rfl fun _ => hp⟩
  case r1Stop => rw [ewsLine_r1Stop hp] at hs; cases hs; exact .inr ⟨_, rfl, Ews.callFits_stop (hstop (by simp [hp])) rfl⟩
  case wx => rw [ewsLine_wx hp] at hs; cases hs; exact .inr ⟨_, rfl, Ews.callFits_stop (hstop (by simp [hp])) rfl⟩
  case r2Stop =>
    rw [ewsLine_r2Stop hp] at hs
    rcases Ews.readDone_some hs with ⟨-, rfl⟩ | ⟨-, -, rfl⟩ | ⟨-, -, rfl⟩ <;>
      exact .inr ⟨_, rfl, Ews.callFits_stop (hstop (by simp [hp])) rfl⟩
  case ws =>
    rw [ewsLine_ws hp] at hs
    rcases Ews.writeDone_some hs with ⟨-, rfl⟩ | ⟨-, -, rfl⟩ | ⟨-, -, rfl⟩ <;>
      exact .inr ⟨_, rfl, Ews.callFits_stop (hstop (by simp [hp])) rfl⟩
  case r2Rx =>
    rw [ewsLine_r2Rx hp] at hs; cases hs
    exact .inr ⟨_, rfl, nofun, nofun, fun a b h => by cases h; exact ⟨hp, by simp⟩, nofun⟩
  case ssT0 => rw [ewsLine_ssT0 hp] at hs; cases hs; exact .inr ⟨_, rfl, Ews.callFits_now _ (.inl hp)⟩
  case ssCK =>
    rw [ewsLine_ssCK hp] at hs; cases hs
    split <;> exact .inr ⟨_, rfl, Ews.callFits_now _ (.inr hp)⟩
  case ssLO =>
    rw [ewsLine_ssLO hp] at hs
    obtain ⟨p, -, rfl⟩ := Option.map_eq_some_iff.1 hs
    exact .inr ⟨_, rfl, Ews.callFits_send _ _⟩
  case w0 | ea | pr =>
    simp only [ewsLine, hp] at hs
    cases hs
    exact .inl rfl
  all_goals
    simp only [ewsLine, hp] at hs
    cases hs
    exact .inr ⟨_, rfl, Ews.callFits_send _ _⟩

end calls

/-- Settles O31: one call a row and one call a line. -/
theorem oneCallPerSequencerStep : Obligations.OneCallPerSequencerStep :=
  ⟨fun _ _ _ => fpcRow_calls, fun _ _ _ => ewsLine_calls⟩

end Sys2Proof.Machine
end

section
/-! PROOFS. The commands of FPC: their results, their calls and their frames, and the hang of an erase
(40_flash_page_controller.md R121 to R127; 43_diagnostic_print.md R204 to R207; 60_exceptions.md R225). -/

namespace Sys2Proof.Machine

/-! ## FPC at rest (R120) -/

/-- FPC that is not busy is at `F_READY`, without a command, IDLE. -/
structure Fpc.AtRest (f : Fpc) : Prop where
  phase : f.phase = .idle
  pos : f.pos = .ready
  op : f.op = .none
  busy : f.busy = false

theorem Fpc.Inv.atRest {c : Config} {f : Fpc} (h : f.Inv c) (hb : f.busy = false) : f.AtRest := by
  obtain ⟨hphase, hserves, hready, -⟩ := h
  have hpos := hready.1 hb
  rw [hpos] at hphase hserves
  exact ⟨hphase, hpos, by simpa [FpcPos.serves] using hserves, hb⟩

theorem Fpc.AtRest.takes {f : Fpc} (h : f.AtRest) : f.takes = true := by simp [Fpc.takes, h.busy, h.phase]

/-- An FPC command at an FPC at rest is accepted, and FPC's sequencer runs with all the steps it may need. -/
theorem exec_fpc {i : Instr} {s : State} {g : Fpc} (hhost : s.host = []) (h : s.fpc.AtRest) (hu : i.unit = .fpc)
    (hp : precondition i s = true)
    (hrun : runSeq (fpcSeq s.cfg) Fpc.stops (fpcFuel s.cfg (acceptedFpc i s.fpc)) (acceptedFpc i s.fpc) = some g) :
    exec i s = .next { s with fpc := g } := by
  rw [exec_accepted (by simp [hu, State.occupied, h.takes]) hp, hu]
  exact fpcStart_of_some hhost hrun

/-- The first sequencer step of a run, if it stops there, is the run. -/
theorem runSeq_fpcSeq_one {c : Config} {f g : Fpc} (hs : fpcSeq c f = some g) (hstop : g.stops = true) :
    runSeq (fpcSeq c) Fpc.stops (fpcFuel c f) f = some g := by
  obtain ⟨m, hm⟩ : ∃ m, fpcFuel c f = m + 1 := ⟨fpcFuel c f - 1, by have := fpcFuel_pos c f; omega⟩
  rw [hm, runSeq_succ hs, if_pos hstop]

/-- FPC in the middle of a command, its device not stalled, does not stop (R225). -/
theorem Fpc.stops_eq_false {f : Fpc} (hb : f.busy = true) (hn : f.nvm.stalled = false) : f.stops = false := by
  simp [Fpc.stops, Fpc.hung, hb, hn]

/-! ## FPC.READ (R121, U2) -/

/-- FPC.READ at an FPC at rest: one sequencer step, whatever the device does (R121). -/
theorem exec_fpcRead_any {s : State} {n : Half} (hhost : s.host = []) (h : s.fpc.AtRest) (hn : n.toNat ≤ s.cfg.pageBytes) :
    exec (.fpcRead n) s = .next { s with fpc := { s.fpc with
      n := n, data := [], opc := 0x10#8
      dout := s.fpc.dout ++ s.fpc.nvm.moves.readResult n.toNat s.cfg.pageBase
      rsp := s.fpc.rsp ++ [response 0x10#8 .ok 0#16]
      nvm := s.fpc.nvm.moves.afterRead n.toNat
      trace := .read n.toNat s.cfg.pageBase (s.fpc.nvm.moves.readResult n.toNat s.cfg.pageBase) :: s.fpc.trace } } := by
  have hstep : fpcSeq s.cfg (acceptedFpc (.fpcRead n) s.fpc) = some _ := fpcRow_rd rfl
  rw [exec_fpc (i := .fpcRead n) hhost h rfl (fpcLengthOk_iff.2 hn) (runSeq_fpcSeq_one hstep rfl)]
  simp only [h.pos, h.op, h.busy]
  rfl

/-- A read has no effect on an idle device (R59). -/
theorem Nvm.afterRead_idle {n : Nat} {d : Nvm} (h : d.busy = false) : d.afterRead n = d := by simp [Nvm.afterRead, h]

/-- A read of an idle device only says what stands there (R59, R64). -/
theorem Fpc.moves_callRead_idle {f : Fpc} (n a : Nat) (h : f.nvm.busy = false) :
    f.moves.callRead n a = { f with nvm := f.nvm.moves, trace := .read n a (f.nvm.moves.readResult n a) :: f.trace } := by
  rw [Fpc.callRead, Fpc.moves, Nvm.afterRead_idle (Nvm.moves_idle h)]

/-- What an idle device's read of the page's first bytes returns (R64). -/
theorem State.readResult_page {s : State} {k : Nat} (hidle : s.fpc.nvm.busy = false) (hk : k ≤ s.cfg.pageBytes) :
    s.fpc.nvm.moves.readResult k s.cfg.pageBase = s.page.take k := by
  rw [Nvm.readResult_idle (Nvm.moves_idle hidle), Nvm.moves_flash, State.page, Memory.take_bytes hk]

/-- FPC that is ready for a command is at rest. -/
theorem State.ReadyForFpc.atRest {s : State} (h : s.ReadyForFpc) : s.fpc.AtRest := by
  obtain ⟨⟨-, hf, -⟩, -, hb, -⟩ := h
  exact Fpc.Inv.atRest hf hb

/-- Settles O16: the one step reads from an idle device. -/
theorem fpcReadResult : Obligations.FpcReadResult := by
  intro s n h hn
  have hrest := h.atRest
  obtain ⟨-, hhost, -, hidle, -⟩ := h
  rw [exec_fpcRead_any hhost hrest hn, State.readResult_page hidle hn, Nvm.afterRead_idle (Nvm.moves_idle hidle)]
  rfl

/-- Settles O17: the one step does not look at the device's flag. -/
theorem fpcReadOfBusyDevice : Obligations.FpcReadOfBusyDevice := by
  intro s n hi hhost hb hn hbusy
  obtain ⟨-, hf, -⟩ := hi
  refine ⟨_, _, _, exec_fpcRead_any hhost (Fpc.Inv.atRest hf hb) hn, Nvm.length_readResult _ _ _,
    (Nvm.afterRead_busy _ _).trans hbusy, fun a => ?_⟩
  rw [Nvm.afterRead_flash, Nvm.moves_flash]
  rfl

/-! ## FPC.ERASE (R122, R225) -/

/-- FPC is polling the erase of FPC.ERASE; `b` is FPC when it came to `F_ER` (R122, R127). -/
structure Fpc.Erasing (c : Config) (b f : Fpc) : Prop where
  inv : f.Inv c
  frame : f = { b with phase := .erasing, pos := .ep, nvm := f.nvm, trace := f.trace }
  stalled : f.nvm.stalled = false
  rows : b.nvm.HoldsRows c [] 0 f.nvm

/-- FPC has completed FPC.ERASE (R122). -/
structure Fpc.Erased (c : Config) (b f : Fpc) : Prop where
  state : f = { b.complete with phase := .idle, nvm := f.nvm, trace := f.trace }
  idle : f.nvm.busy = false
  rows : b.nvm.HoldsRows c [] 0 f.nvm

section erase
variable {c : Config} {b f : Fpc}

theorem Fpc.Erasing.busy (h : Fpc.Erasing c b f) : f.busy = true := h.inv.busy_of_pos (by rw [h.frame]; nofun)

/-- A poll: the device is still busy, or the command completes. -/
theorem Fpc.Erasing.step (hc : c.Valid) (hop : b.op = .erase) (h : Fpc.Erasing c b f) :
    ∃ g, fpcSeq c f = some g ∧ (g.stops = true → Fpc.Erased c b g)
      ∧ (g.stops = false → Fpc.Erasing c b g ∧ fpcMeasure c g < fpcMeasure c f) := by
  have hpos : f.moves.pos = .ep := by rw [h.frame]; rfl
  have hopf : f.moves.op = .erase := by rw [h.frame]; exact hop
  have hframe : f.moves = { b with phase := .erasing, pos := .ep, nvm := f.moves.nvm, trace := f.trace } := by
    conv_lhs => rw [h.frame]
    rfl
  cases hb : f.moves.nvm.busy with
  | true =>
    have hs : fpcSeq c f = some f.moves.callIsBusy := fpcRow_poll (.inl hpos) hb
    obtain ⟨hstalled, hlt⟩ := fpcSeq_measure hc h.inv h.busy h.stalled hs
    have hgo : f.moves.callIsBusy.stops = false := Fpc.stops_eq_false h.busy hstalled
    refine ⟨_, hs, by simp [hgo], fun _ => ⟨⟨fpcSeq_inv hc h.inv hs, ?_, hstalled, h.rows.moves⟩, hlt⟩⟩
    exact congrArg Fpc.callIsBusy hframe
  | false =>
    refine ⟨_, fpcRow_ep_erase hpos hb hopf, fun _ => ⟨?_, hb, h.rows.moves⟩, nofun⟩
    conv_lhs => rw [hframe]
    rfl

/-- From `F_ER` with an idle device that is not stalled FPC.ERASE completes, whatever the number of polls (R122). -/
theorem runSeq_fpcSeq_erased (hc : c.Valid) (hb : b.Inv c) (hop : b.op = .erase) (hp : b.pos = .er) (hn : b.nvm.busy = false)
    (hs : b.nvm.stalled = false) : ∃ f, runSeq (fpcSeq c) Fpc.stops (fpcFuel c b) b = some f ∧ Fpc.Erased c b f := by
  have hrow : fpcSeq c b = some _ := fpcRow_er (f := b.moves) hp
  have hlt := (fpcSeq_measure hc hb (hb.busy_of_pos (by simp [hp])) hs hrow).2
  have hfuel := fpcMeasure_le_fuel c b
  obtain ⟨m, hm⟩ : ∃ m, fpcFuel c b = m + 1 := ⟨fpcFuel c b - 1, by omega⟩
  have herasing : Fpc.Erasing c b { b.moves.callPageErase c c.pageBase with phase := .erasing, pos := .ep } :=
    ⟨fpcSeq_inv hc hb hrow, rfl, by simpa using hs,
      (Nvm.holdsRows_pageErase [] (Fpc.inv_moves hb).flash_wf (Nvm.moves_idle hn)).of_moves⟩
  obtain ⟨g, hg, -, herased⟩ := runSeq_terminates (μ := fpcMeasure c) (n := m)
    (fun _ ha => fpcMeasure_pos ha.inv ha.busy) (fun _ => Fpc.Erasing.step hc hop) herasing (by omega)
  rw [hm, runSeq_succ hrow, if_neg (Bool.eq_false_iff.1 (Fpc.stops_eq_false herasing.busy herasing.stalled))]
  exact ⟨g, hg, herased⟩

end erase

/-- A response word with result `OK` and value 0 (R98). -/
theorem response_ok_zero {opc : Byte} {w : Word32} (h : opc ++ 0#24 = w) : response opc .ok 0#16 = w := by
  rw [← h, response, BitVec.append_assoc]
  rfl

/-- Settles O18: the command ends at the poll that finds the device done, the page blank. -/
theorem fpcEraseResult : Obligations.FpcEraseResult := by
  intro s h
  have hrest := h.atRest
  obtain ⟨hi, hhost, hb, hidle, hstalled⟩ := h
  obtain ⟨hc, hf, -⟩ := id hi
  have hinv := acceptedFpc_inv (i := .fpcErase) hc rfl hf hb rfl rfl
  obtain ⟨f, hrun, hstate, hdone, hrows⟩ := runSeq_fpcSeq_erased hc hinv rfl rfl hidle hstalled
  refine ⟨f.nvm, f.trace, ?_, hrows.erases, hrows.rowWrites, fun a ha => ?_, hrows.outside, hdone⟩
  · rw [exec_fpc (i := .fpcErase) hhost hrest rfl rfl hrun, hstate, ← response_ok_zero (by decide : 0x13#8 ++ 0#24 = 0x13000000#32)]
    simp only [hrest.pos, hrest.op, hrest.busy, hrest.phase]
    rfl
  · rw [hrows.inside a ha]; simp

/-- Settles O29: the first poll is never answered, and FPC stands there from the erase on. -/
theorem fpcEraseHangs : Obligations.FpcEraseHangs := by
  intro s hi hhost hb hstalled hsched
  obtain ⟨-, hf, -⟩ := hi
  have hrow : fpcSeq s.cfg (acceptedFpc .fpcErase s.fpc) = some _ := fpcRow_er rfl
  have hhung : Fpc.hung { (acceptedFpc .fpcErase s.fpc).moves.callPageErase s.cfg s.cfg.pageBase with
      phase := .erasing, pos := .ep } = true := Fpc.hung_iff.2 ⟨rfl, by simpa using hstalled, by simp [hsched], .inl rfl⟩
  refine ⟨_, exec_fpc (i := .fpcErase) hhost (Fpc.Inv.atRest hf hb) rfl rfl (runSeq_fpcSeq_one hrow ?_), hhung, rfl, rfl, rfl, rfl⟩
  simp only [Fpc.stops, hhung, Bool.or_true]

/-! ## FPC.WRITE (R123, R126) -/

/-- Settles O19: FPC has gone through the body of FPC.WRITE, every row written. -/
theorem fpcWriteResult : Obligations.FpcWriteResult := by
  intro s n data h hn hd
  have hrest := h.atRest
  obtain ⟨f, hexec, hstate, hdone, hrows⟩ := exec_fpcWrite h hn hd
  obtain ⟨⟨hc, -⟩, -⟩ := h
  refine ⟨f.nvm, f.trace, ?_, hrows.erases, hrows.rowWrites, fun a ha => hrows.page hc (hd ▸ hn : data.length ≤ _) ha,
    hrows.outside, hdone⟩
  rw [hexec, hstate, ← response_ok_zero (by decide : 0x11#8 ++ 0#24 = 0x11000000#32)]
  simp only [hrest.pos, hrest.op, hrest.busy, ← hrest.phase]
  rfl

/-- The calls that write the first `k` rows of a staged page to a device that is done before the next call (R123, R126). -/
def rowCalls (c : Config) (page : List Byte) (k : Nat) : List NvmCall :=
  (List.range k).flatMap (fun r => [.rowWrite (rowBuffer c page r) (rowAddress c r), .isBusy false])

theorem rowCalls_succ (c : Config) (page : List Byte) (k : Nat) :
    rowCalls c page (k + 1) = rowCalls c page k ++ [.rowWrite (rowBuffer c page k) (rowAddress c k), .isBusy false] := by
  simp [rowCalls, List.range_succ]

/-- The calls FPC.WRITE has made at a position, its device done before every call; `page` is the staged page (R123, R127). -/
def Fpc.writeCalls (c : Config) (page : List Byte) (f : Fpc) : List NvmCall :=
  match f.pos with
  | .er => []
  | .ep => [.pageErase c.pageBase]
  | .fill => [.pageErase c.pageBase, .isBusy false]
  | .rw => [.pageErase c.pageBase, .isBusy false] ++ rowCalls c page f.row
  | .wp => [.pageErase c.pageBase, .isBusy false] ++ rowCalls c page f.row
      ++ [.rowWrite (rowBuffer c page f.row) (rowAddress c f.row)]
  | .ready => [.pageErase c.pageBase, .isBusy false] ++ rowCalls c page c.rows
  | .rd | .ucmp | .pr => []

/-- FPC.WRITE, its device done before every call, has made the calls of its position. -/
structure Fpc.Calling (c : Config) (b f : Fpc) : Prop where
  inv : f.Inv c
  op : f.pos ≠ .ready → f.op = .write
  ideal : f.nvm.sched = [] ∧ f.nvm.stalled = false
  latches : f.n = b.n ∧ f.data = b.data
  staged : f.pos = .rw ∨ f.pos = .wp → f.scratch = stagedPage c b.n b.data
  calls : f.trace.reverse = b.trace.reverse ++ f.writeCalls c (stagedPage c b.n b.data)

/-- A sequencer step of FPC.WRITE adds the calls that lead to its next position. -/
theorem fpcSeq_calling {c : Config} (hc : c.Valid) {b f g : Fpc} (h : Fpc.Calling c b f) (hs : fpcSeq c f = some g) :
    Fpc.Calling c b g := by
  have hinv := fpcSeq_inv hc h.inv hs
  obtain ⟨⟨-, hserves, -, -, -, -, hrow, -⟩, hop, ⟨hsched, hstalled⟩, ⟨hn, hd⟩, hstaged, hcalls⟩ := h
  have hidle : f.nvm.moves.busy = false := Nvm.busy_moves_ideal hsched hstalled
  have hideal : f.moves.nvm.sched = [] ∧ f.moves.nvm.stalled = false := by simp [hsched, hstalled]
  unfold Fpc.writeCalls at hcalls
  cases hp : f.pos
  case ready => rw [fpcSeq, fpcRow_ready (f := f.moves) hp] at hs; cases hs
  case rd | ucmp | pr => simp [hp, hop (by simp [hp]), FpcPos.serves] at hserves
  all_goals simp only [hp] at hcalls
  case er =>
    rw [fpcSeq, fpcRow_er (f := f.moves) hp] at hs
    cases hs
    exact ⟨hinv, fun _ => hop (by simp [hp]), by simpa using hideal, ⟨hn, hd⟩, by simp, by simp [Fpc.writeCalls, hcalls]⟩
  case ep =>
    rw [fpcSeq, fpcRow_ep_write (f := f.moves) hp hidle (hop (by simp [hp]))] at hs
    cases hs
    exact ⟨hinv, fun _ => hop (by simp [hp]), hideal, ⟨hn, hd⟩, by simp, by simp [Fpc.writeCalls, hcalls, hidle]⟩
  case fill =>
    rw [fpcSeq, fpcRow_fill (f := f.moves) hp] at hs
    cases hs
    exact ⟨hinv, fun _ => hop (by simp [hp]), hideal, ⟨hn, hd⟩, fun _ => congrArg₂ (stagedPage c) hn hd,
      by simp [Fpc.writeCalls, hcalls, rowCalls]⟩
  case rw =>
    rw [fpcSeq, fpcRow_rw (f := f.moves) hp (hrow (.inl hp))] at hs
    cases hs
    have hscratch := hstaged (.inl hp)
    exact ⟨hinv, fun _ => hop (by simp [hp]), by simpa using hideal, ⟨hn, hd⟩, fun _ => hscratch,
      by simp [Fpc.writeCalls, hcalls, hscratch]⟩
  case wp =>
    have hlt := hrow (.inr hp)
    rcases Nat.lt_or_ge (f.row + 1) c.rows with hl | hl
    · rw [fpcSeq, fpcRow_wp_next (f := f.moves) hp hidle hl] at hs
      cases hs
      exact ⟨hinv, fun _ => hop (by simp [hp]), hideal, ⟨hn, hd⟩, fun _ => hstaged (.inr hp),
        by simp [Fpc.writeCalls, hcalls, hidle, rowCalls_succ]⟩
    · have hlast : f.row + 1 = c.rows := by omega
      rw [fpcSeq, fpcRow_wp_last (f := f.moves) hp hidle hlast] at hs
      cases hs
      exact ⟨hinv, by simp, hideal, ⟨hn, hd⟩, by simp, by simp [Fpc.writeCalls, hcalls, hidle, ← hlast, rowCalls_succ]⟩

/-- Settles O20: every step adds the calls that lead to its next position, and the command ends at `F_READY`. -/
theorem fpcWriteCallTrace : Obligations.FpcWriteCallTrace := by
  intro s n data h hsched hn hd
  obtain ⟨f, hexec, hwritten⟩ := exec_fpcWrite h hn hd
  obtain ⟨⟨hc, hf, -⟩, hhost, hb, -, hstalled⟩ := h
  have hp : precondition (.fpcWrite n data) s = true := fpcLengthOk_iff.2 hn
  have hinv := acceptedFpc_inv (i := .fpcWrite n data) hc rfl hf hb (beq_iff_eq.2 hd) hp
  refine ⟨f, hexec, ?_⟩
  rw [exec_eq_start (by simp [State.occupied, Instr.unit, Instr.opcode, Opcode.unit, Fpc.takes_iff hf, hb]) hp] at hexec
  obtain ⟨g, hrun, hg⟩ := fpcRun_next hexec
  obtain rfl : f = g := congrArg State.fpc hg
  have hcalling : Fpc.Calling s.cfg (acceptedFpc (.fpcWrite n data) s.fpc) f :=
    runSeq_keeps (P := Fpc.Calling s.cfg (acceptedFpc (.fpcWrite n data) s.fpc)) (fun _ _ ha hs => fpcSeq_calling hc ha hs)
      ⟨hinv, fun _ => rfl, ⟨hsched, hstalled⟩, ⟨rfl, rfl⟩, nofun, by simp [Fpc.writeCalls, acceptedFpc]⟩ hrun
  have hpos : f.pos = .ready := by rw [hwritten.state]; rfl
  rw [hcalling.calls, Fpc.writeCalls, hpos, ← List.append_assoc]
  rfl

/-! ## FPC.UPDATE (R124) -/

/-- The compare of FPC.UPDATE at an FPC that is ready for it: the page is read whole into scratch, and a difference leads into
FPC.WRITE's body (R124). -/
theorem fpcSeq_update {s : State} {n : Half} {data : List Byte} (hidle : s.fpc.nvm.busy = false) :
    fpcSeq s.cfg (acceptedFpc (.fpcUpdate n data) s.fpc) = some
      (let g := { (acceptedFpc (.fpcUpdate n data) s.fpc) with
        scratch := s.page, nvm := s.fpc.nvm.moves, trace := .read s.cfg.pageBytes s.cfg.pageBase s.page :: s.fpc.trace }
      if s.page.take n.toNat = data then g.complete else { g with op := .write, pos := .er }) := by
  have hrow : fpcSeq s.cfg (acceptedFpc (.fpcUpdate n data) s.fpc) = some _ := fpcRow_ucmp rfl
  have hpage : s.fpc.nvm.moves.readResult s.cfg.pageBytes s.cfg.pageBase = s.page := by
    rw [State.readResult_page hidle (Nat.le_refl _), List.take_of_length_le (by simp [State.page])]
  have hread : (acceptedFpc (.fpcUpdate n data) s.fpc).nvm.moves.readResult s.cfg.pageBytes s.cfg.pageBase = s.page := hpage
  have hcall := Fpc.moves_callRead_idle (f := acceptedFpc (.fpcUpdate n data) s.fpc) s.cfg.pageBytes s.cfg.pageBase hidle
  rw [hrow, hcall, Fpc.moves_nvm, hread]
  by_cases heq : s.page.take n.toNat = data
  · have hdiffer : ¬ differ s.page n data = true := by simp [differ, heq]
    exact congrArg some ((if_neg hdiffer).trans (if_pos heq).symm)
  · have hdiffer : differ s.page n data = true := by simp [differ, heq]
    exact congrArg some ((if_pos hdiffer).trans (if_neg heq).symm)

/-- Settles O21: the compare finds no difference, and the command ends there. -/
theorem fpcUpdateEqualIsNoOp : Obligations.FpcUpdateEqualIsNoOp := by
  intro s n data h hn hd heq
  have hrest := h.atRest
  obtain ⟨-, hhost, -, hidle, -⟩ := h
  have hrow := fpcSeq_update (n := n) (data := data) hidle
  simp only [if_pos heq] at hrow
  rw [exec_fpc (i := .fpcUpdate n data) hhost hrest rfl (fpcLengthOk_iff.2 hn) (runSeq_fpcSeq_one hrow rfl),
    ← response_ok_zero (by decide : 0x12#8 ++ 0#24 = 0x12000000#32)]
  simp only [hrest.pos, hrest.op, hrest.busy]
  rfl

/-- FPC.UPDATE of different data goes, after the compare, through FPC.WRITE's body to its end (R124). -/
theorem exec_fpcUpdate {s : State} {n : Half} {data : List Byte} (h : s.ReadyForFpc) (hn : n.toNat ≤ s.cfg.pageBytes)
    (hd : data.length = n.toNat) (hne : s.page.take n.toNat ≠ data) :
    ∃ f b, exec (.fpcUpdate n data) s = .next { s with fpc := f } ∧ Fpc.Written s.cfg b f
      ∧ b = { acceptedFpc (.fpcUpdate n data) s.fpc with
          op := .write, pos := .er, scratch := s.page, nvm := s.fpc.nvm.moves, trace := b.trace } := by
  have hrest := h.atRest
  obtain ⟨⟨hc, hf, -⟩, hhost, hb, hidle, hstalled⟩ := h
  have hp : precondition (.fpcUpdate n data) s = true := fpcLengthOk_iff.2 hn
  have hinv := acceptedFpc_inv (i := .fpcUpdate n data) hc rfl hf hb (beq_iff_eq.2 hd) hp
  have hrow := fpcSeq_update (n := n) (data := data) hidle
  simp only [if_neg hne] at hrow
  have hstalled' : s.fpc.nvm.moves.stalled = false := by simpa using hstalled
  obtain ⟨f, hbody, hwritten⟩ := runSeq_fpcSeq_written hc (fpcSeq_inv hc hinv hrow) rfl rfl (Nvm.moves_idle hidle) hstalled'
  obtain ⟨g, hrun, hstop⟩ := runSeq_fpcSeq_stops hc hinv rfl hstalled
  have hgo : Fpc.stops { acceptedFpc (.fpcUpdate n data) s.fpc with
      op := .write, pos := .er, scratch := s.page, nvm := s.fpc.nvm.moves
      trace := .read s.cfg.pageBytes s.cfg.pageBase s.page :: s.fpc.trace } = false := Fpc.stops_eq_false rfl hstalled'
  have hone := (runSeq_succ (stop := Fpc.stops) (n := 0) hrow).trans (if_neg (Bool.eq_false_iff.1 hgo))
  have hfg : f = g := runSeq_cut hone (.inr hgo) hrun hstop hbody hwritten.stops_eq_true (fpcFuel_pos _ _) (fpcFuel_pos _ _)
  exact ⟨f, _, hfg ▸ exec_fpc (i := .fpcUpdate n data) hhost hrest rfl hp hrun, hwritten, rfl⟩

/-- Settles O22: the compare finds a difference, and FPC goes through the body of FPC.WRITE. -/
theorem fpcUpdateDifferentWrites : Obligations.FpcUpdateDifferentWrites := by
  intro s n data h hn hd hne
  have hrest := h.atRest
  obtain ⟨f, b, hexec, ⟨hstate, hdone, hrows⟩, hb⟩ := exec_fpcUpdate h hn hd hne
  obtain ⟨⟨hc, -⟩, -⟩ := h
  rw [hb] at hstate hrows
  have hrows : s.fpc.nvm.HoldsRows s.cfg data s.cfg.rows f.nvm := hrows.of_moves
  refine ⟨f.nvm, f.trace, ?_, hrows.erases, hrows.rowWrites, fun a ha => hrows.page hc (hd ▸ hn : data.length ≤ _) ha,
    hrows.outside, hdone⟩
  rw [hexec, hstate, ← response_ok_zero (by decide : 0x12#8 ++ 0#24 = 0x12000000#32)]
  simp only [hrest.pos, hrest.op, hrest.busy, ← hrest.phase]
  rfl

/-- No step makes a device that is not stalled a stalled one (log 7). -/
theorem State.fpcStalled_stepKeeps : StepKeeps (fun s => s.fpc.nvm.stalled = false) where
  frame _ _ _ h := h
  setPort _ u _ h := by cases u <;> exact h
  refuse _ u _ _ h := by cases u <;> exact h
  accept t i _ _ _ h := by
    unfold State.accepted
    cases i.unit
    case fpc => cases i <;> exact h
    all_goals exact h
  fpc t f hs h := (fpcSeq_stalled hs).trans h
  ews _ _ _ h := h
  rpa _ _ _ h := h

/-- Settles O23: the first update leaves FPC ready with the payload at the start of the page, where the second finds it. -/
theorem fpcUpdateTwiceIsOneCycle : Obligations.FpcUpdateTwiceIsOneCycle := by
  intro s n data h hn hd hne
  obtain ⟨nvm, trace, hexec, herases, hwrites, hpage, -, hdone⟩ := fpcUpdateDifferentWrites s n data h hn hd hne
  obtain ⟨hi, hhost, hb, -, hstalled⟩ := h
  have hwf : (Instr.fpcUpdate n data).wellFormed = true := beq_iff_eq.2 hd
  have hstalled' : nvm.stalled = false := State.fpcStalled_stepKeeps.exec hwf hstalled hexec
  have hready : State.ReadyForFpc _ := ⟨State.inv_stepKeeps.exec hwf hi hexec, hhost, hb, hdone, hstalled'⟩
  have htake : nvm.flash.bytes .flash s.cfg.pageBase n.toNat = data := by
    rw [← hd] at hn ⊢
    refine Memory.bytes_eq_of_read? fun k hk => ?_
    rw [hpage _ ⟨by omega, by omega⟩]
    simp [hk]
  refine ⟨_, _, hexec, fpcUpdateEqualIsNoOp _ n data hready hn hd ?_, ?_, ?_, ?_, ?_⟩
  · exact (Memory.take_bytes hn).trans htake
  · simpa using herases
  · simpa using hwrites
  · simp
  · simp [State.page]

/-! ## FPC.PRINT (R204 to R207) -/

/-- The run flag when FPC comes to row `r`: the row before it was not shown (R204). -/
def printRun (c : Config) (page : List Byte) (r : Nat) : Bool := decide (0 < r) && !shown c page (r - 1)

/-- The characters of the first `k` rows of a page (R204). -/
def printedTo (c : Config) (page : List Byte) (k : Nat) : List Char :=
  ((List.range k).filterMap (printedLine c page)).flatten

/-- The condition of the `F_PR` line: the row is shown with its address. -/
theorem shown_iff {c : Config} {page : List Byte} {r : Nat} :
    (r = 0 ∨ r + 1 = c.printRows ∨ blank (printRowOf page r) = false) ↔ shown c page r = true := by
  simp [shown, or_assoc]

/-- The `F_PR` line leaves the run flag for the next row (R204). -/
theorem printInrun_eq {c : Config} {page : List Byte} (r : Nat) :
    printInrun c r (printRowOf page r) = printRun c page (r + 1) := by
  simp only [printInrun, shown_iff, printRun, Nat.add_sub_cancel]
  cases shown c page r <;> simp

/-- The `F_PR` line emits the next row (R204). -/
theorem printedTo_succ {c : Config} {page : List Byte} (r : Nat) :
    printedTo c page (r + 1) = printedTo c page r ++ printRow c r (printRun c page r) (printRowOf page r) := by
  have hline : (printedLine c page r).getD [] = printRow c r (printRun c page r) (printRowOf page r) := by
    simp only [printRow, shown_iff, printedLine, printRun]
    cases hs : shown c page r with
    | true => simp
    | false =>
      have hr : 0 < r := Nat.pos_of_ne_zero fun h => by simp [shown, h] at hs
      by_cases hb : shown c page (r - 1) = true <;> simp [hb, hr]
  rw [← hline, printedTo, List.range_succ, List.filterMap_append, List.flatten_append]
  cases hl : printedLine c page r <;> simp [printedTo, hl]

/-- The first `k` rows are read, and nothing else is done to the device; `b` is FPC when it accepted the command (R204, R206). -/
structure Fpc.RowsRead (c : Config) (b : Fpc) (k : Nat) (f : Fpc) : Prop where
  idle : f.nvm.busy = false
  flash : f.nvm.flash = b.nvm.flash
  counts : f.nvm.eraseCount = b.nvm.eraseCount ∧ f.nvm.rowWriteCount = b.nvm.rowWriteCount
  calls : f.trace.reverse = b.trace.reverse ++ (List.range k).map (fun r =>
    .read 32 (c.pageBase + 32 * r) (printRowOf (b.nvm.flash.bytes .flash c.pageBase c.pageBytes) r))

/-- FPC as in `b`, with the first `k` rows shown, at row `r` (R204). -/
def Fpc.showing (c : Config) (b : Fpc) (k r : Nat) : Fpc :=
  { b with
    row := r, inrun := printRun c (b.nvm.flash.bytes .flash c.pageBase c.pageBytes) k
    diag := b.diag ++ printedTo c (b.nvm.flash.bytes .flash c.pageBase c.pageBytes) k }

/-- FPC is at a row of FPC.PRINT (R204). -/
structure Fpc.Printing (c : Config) (b f : Fpc) : Prop where
  row : f.row < c.printRows
  frame : f = { Fpc.showing c b f.row f.row with nvm := f.nvm, trace := f.trace }
  rows : Fpc.RowsRead c b f.row f

/-- FPC has completed FPC.PRINT (R204, R206). -/
structure Fpc.Printed (c : Config) (b f : Fpc) : Prop where
  state : f = { (Fpc.showing c b c.printRows (c.printRows - 1)).complete with nvm := f.nvm, trace := f.trace }
  rows : Fpc.RowsRead c b c.printRows f

section print
variable {c : Config} {b f g : Fpc}

/-- The row at a diagnostic row's address (R204). -/
theorem printRowOf_bytes (hc : c.Valid) {m : Memory} {r : Nat} (hr : r < c.printRows) :
    printRowOf (m.bytes .flash c.pageBase c.pageBytes) r = m.bytes .flash (printAddress c r) 32 :=
  Memory.take_drop_bytes (Config.printRow_in_page hc hr)

/-- The read of the next row, the device's move before it. -/
theorem Fpc.RowsRead.succ {d : Nvm} {t : List NvmCall} (h : Fpc.RowsRead c b f.row f) (hd : d = f.nvm.moves)
    (ht : t = .read 32 (c.pageBase + 32 * f.row)
      (printRowOf (b.nvm.flash.bytes .flash c.pageBase c.pageBytes) f.row) :: f.trace)
    (hg : g.nvm = d ∧ g.trace = t) : Fpc.RowsRead c b (f.row + 1) g := by
  obtain ⟨hidle, hflash, hcounts, hcalls⟩ := h
  obtain ⟨rfl, rfl⟩ := hg
  refine ⟨by rw [hd]; exact Nvm.moves_idle hidle, by simpa [hd] using hflash, by simpa [hd] using hcounts, ?_⟩
  rw [ht, List.reverse_cons, hcalls, List.range_succ, List.map_append, List.append_assoc]
  rfl

/-- The output of a row. -/
theorem Fpc.Printing.emitRow (h : Fpc.Printing c b f) (d : Nvm) (t : List NvmCall) :
    Fpc.emitRow c (printRowOf (b.nvm.flash.bytes .flash c.pageBase c.pageBytes) f.row) { f with nvm := d, trace := t }
      = { Fpc.showing c b (f.row + 1) f.row with nvm := d, trace := t } := by
  have hinrun : f.inrun = printRun c _ f.row := congrArg Fpc.inrun h.frame
  have hdiag : f.diag = b.diag ++ printedTo c _ f.row := congrArg Fpc.diag h.frame
  rw [Fpc.emitRow, printInrun_eq, hinrun, hdiag, List.append_assoc, ← printedTo_succ]
  conv_lhs => rw [h.frame]
  rfl

/-- One row of FPC.PRINT: the next one follows, or the command completes. -/
theorem Fpc.Printing.step (hc : c.Valid) (hp : b.pos = .pr) (h : Fpc.Printing c b f) (hs : fpcSeq c f = some g) :
    Fpc.Printing c b g ∨ Fpc.Printed c b g := by
  have hrow := h.row
  have hpos : f.pos = .pr := by rw [h.frame]; exact hp
  have hread : f.nvm.moves.readResult 32 (printAddress c f.row)
      = printRowOf (b.nvm.flash.bytes .flash c.pageBase c.pageBytes) f.row := by
    rw [Nvm.readResult_idle (Nvm.moves_idle h.rows.idle), Nvm.moves_flash, h.rows.flash, printRowOf_bytes hc hrow]
  rw [fpcSeq, fpcRow_pr (f := f.moves) hpos hrow, Fpc.moves_nvm, Fpc.moves_row, Fpc.moves_callRead_idle _ _ h.rows.idle, hread,
    h.emitRow] at hs
  by_cases hn : f.row + 1 < c.printRows
  · simp only [if_pos hn] at hs
    cases hs
    exact .inl ⟨hn, rfl, h.rows.succ rfl rfl ⟨rfl, rfl⟩⟩
  · simp only [if_neg hn] at hs
    cases hs
    have hlast : c.printRows = f.row + 1 := by omega
    exact .inr ⟨by rw [hlast, Nat.add_sub_cancel]; rfl, by rw [hlast]; exact h.rows.succ rfl rfl ⟨rfl, rfl⟩⟩

/-- FPC at a row of FPC.PRINT does not stop: its device is not busy, so there is nothing to poll. -/
theorem Fpc.Printing.stops_eq_false (hb : b.busy = true) (h : Fpc.Printing c b f) : f.stops = false := by
  have hbusy : f.busy = true := by rw [h.frame]; exact hb
  simp [Fpc.stops, Fpc.hung, hbusy, h.rows.idle]

/-- FPC.PRINT at an FPC that is ready for it completes (R204). -/
theorem exec_fpcPrint {s : State} (h : s.ReadyForFpc) :
    ∃ f, exec .fpcPrint s = .next { s with fpc := f } ∧ Fpc.Printed s.cfg (acceptedFpc .fpcPrint s.fpc) f := by
  have hrest := h.atRest
  obtain ⟨⟨hc, hf, -⟩, hhost, hb, hidle, hstalled⟩ := h
  have hinv := acceptedFpc_inv (i := .fpcPrint) hc rfl hf hb rfl rfl
  obtain ⟨f, hrun, hstop⟩ := runSeq_fpcSeq_stops hc hinv rfl hstalled
  refine ⟨f, exec_fpc (i := .fpcPrint) hhost hrest rfl rfl hrun, ?_⟩
  have hstart : Fpc.Printing s.cfg (acceptedFpc .fpcPrint s.fpc) (acceptedFpc .fpcPrint s.fpc) :=
    ⟨Config.printRows_pos hc, by simp [Fpc.showing, printRun, printedTo, acceptedFpc, Fpc.accept], hidle, rfl, ⟨rfl, rfl⟩,
      by simp [acceptedFpc, Fpc.accept]⟩
  have hend := runSeq_keeps
    (P := fun f => Fpc.Printing s.cfg (acceptedFpc .fpcPrint s.fpc) f ∨ Fpc.Printed s.cfg (acceptedFpc .fpcPrint s.fpc) f)
    (fun a g ha hs => by
      obtain ha | ha := ha
      · exact ha.step hc rfl hs
      · rw [ha.state, fpcSeq, fpcRow_ready rfl] at hs; cases hs) (.inl hstart) hrun
  exact hend.resolve_left fun hp => by rw [hp.stops_eq_false rfl] at hstop; cases hstop

end print

/-- Settles O26: row after row is read and shown, to the last. -/
theorem fpcPrintResult : Obligations.FpcPrintResult := by
  intro s h
  have hrest := h.atRest
  obtain ⟨f, hexec, hstate, hidle, hflash, hcounts, hcalls⟩ := exec_fpcPrint h
  obtain ⟨⟨hc, -⟩, -⟩ := h
  have hrows := Config.printRows_pos hc
  have hrun : printRun s.cfg s.page s.cfg.printRows = false := by
    simp [printRun, shown, Nat.sub_add_cancel (Nat.succ_le_of_lt hrows)]
  refine ⟨f.nvm, f.trace, ?_, hcalls, hcounts.1, hcounts.2, fun a => congrArg (Memory.read? .flash · a) hflash, hidle⟩
  rw [hexec, hstate, ← response_ok_zero (by decide : 0x14#8 ++ 0#24 = 0x14000000#32), ← hrun]
  simp only [hrest.pos, hrest.op, hrest.busy]
  rfl

/-! ## How many lines (R207) -/

/-- A hexadecimal digit is not a newline (R200). -/
theorem hexDigit_ne_newline (d : Nat) : hexDigit d ≠ '\n' := by
  have hdigit : ∀ m < 16, hexDigit m ≠ '\n' := by decide
  have hmod : hexDigit d = hexDigit (d % 16) := by simp [hexDigit]
  exact hmod ▸ hdigit _ (Nat.mod_lt _ (by decide))

/-- A cell has no newline (R201). -/
theorem newline_not_mem_cell (b : Byte) : '\n' ∉ cell b := by
  have hchar : ∀ n < 127, 32 ≤ n → '\n' ≠ Char.ofNat n := by decide
  unfold cell
  split
  next h => simpa using hchar _ (by omega) h.1
  next => simp [hex2, (hexDigit_ne_newline _).symm]

/-- A line has one newline, at its end, where what it begins with has none (R202). -/
theorem count_newline_line {pre : List Char} (h : '\n' ∉ pre) (row : List Byte) : (line pre row).count '\n' = 1 := by
  have hcells : (row.flatMap cell).count '\n' = 0 := by
    simp only [List.count_eq_zero, List.mem_flatMap, not_exists, not_and]
    exact fun b _ => newline_not_mem_cell b
  simp [line, List.count_append, List.count_eq_zero_of_not_mem h, hcells]

/-- An address has no newline (R200). -/
theorem newline_not_mem_hex8 (a : Nat) : '\n' ∉ hex8 a := by simp [hex8, (hexDigit_ne_newline _).symm]

/-- Lines with one newline each have as many newlines as there are lines. -/
theorem count_newline_flatten {lines : List (List Char)} (h : ∀ l ∈ lines, l.count '\n' = 1) :
    lines.flatten.count '\n' = lines.length := by
  rw [List.count_flatten, List.map_congr_left h]
  simp

section lines
variable {c : Config} {page : List Byte}

/-- A line of FPC.PRINT is that of a row of the page, with its address or the marker (R204). -/
theorem mem_printedLines {l : List Char} (h : l ∈ printedLines c page) :
    ∃ r < c.printRows, l = line (hex8 (printAddress c r)) (printRowOf page r) ∨ l = line c.ellipsis (printRowOf page r) := by
  obtain ⟨r, hr, hl⟩ := List.mem_filterMap.1 h
  refine ⟨r, List.mem_range.1 hr, ?_⟩
  unfold printedLine at hl
  split_ifs at hl
  · exact .inl (Option.some.inj hl).symm
  · exact .inr (Option.some.inj hl).symm

/-- A shown row has a line. -/
theorem printedLine_of_shown {r : Nat} (h : shown c page r = true) :
    printedLine c page r = some (line (hex8 (printAddress c r)) (printRowOf page r)) := if_pos h

/-- A page of one row has one line. -/
theorem length_printedLines_one (h : c.printRows = 1) : (printedLines c page).length = 1 := by
  simp [printedLines, h, printedLine_of_shown (show shown c page 0 = true by simp [shown])]

/-- The first and the last row of a page have a line each (R204). -/
theorem length_printedLines {k : Nat} (h : c.printRows = k + 2) :
    (printedLines c page).length = ((List.range' 1 k).filterMap (printedLine c page)).length + 2 := by
  have hfirst := printedLine_of_shown (show shown c page 0 = true by simp [shown])
  have hlast := printedLine_of_shown (show shown c page (k + 1) = true by simp [shown, h])
  have hrange : List.range (k + 2) = 0 :: (List.range' 1 k ++ [k + 1]) := by
    rw [List.range_eq_range', List.range'_succ, List.range'_concat]; simp [Nat.add_comm]
  simp [printedLines, h, hrange, hfirst, hlast]

/-- Of blank rows that follow a shown one only the first has a line (R204). -/
theorem length_filterMap_blank {k : Nat} (h : c.printRows = k + 3)
    (hblank : ∀ r, 0 < r → r + 1 < c.printRows → blank (printRowOf page r) = true) :
    ((List.range' 1 (k + 1)).filterMap (printedLine c page)).length = 1 := by
  have hhidden : ∀ r, 0 < r → r + 1 < c.printRows → shown c page r = false := fun r h1 h2 => by
    simp [shown, hblank r h1 h2]; omega
  have hfirst : shown c page 0 = true := by simp [shown]
  have hmarker : printedLine c page 1 = some (line c.ellipsis (printRowOf page 1)) := by
    simp [printedLine, hhidden 1 (by omega) (by omega), hfirst]
  have hrest : (List.range' 2 k).filterMap (printedLine c page) = [] := by
    refine List.filterMap_eq_nil_iff.2 fun r hr => ?_
    obtain ⟨h2, hk⟩ := List.mem_range'_1.1 hr
    simp [printedLine, hhidden r (by omega) (by omega), hhidden (r - 1) (by omega) (by omega)]
  rw [List.range'_succ, List.filterMap_cons_some hmarker, hrest]
  rfl

end lines

/-- Settles O27: the first and the last row have a line each, and a run of blank rows has one. -/
theorem fpcPrintLineCounts : Obligations.FpcPrintLineCounts := by
  intro s h
  obtain ⟨nvm, trace, hexec, -⟩ := fpcPrintResult s h
  obtain ⟨⟨hc, -⟩, -⟩ := h
  have hrows := Config.printRows_pos hc
  refine ⟨_, printedLines s.cfg s.page, hexec, rfl, fun l => mem_printedLines, ?_, ?_, fun hblank => ⟨fun h2 => ?_, fun h3 => ?_⟩,
    fun hnl => ?_⟩
  · obtain h1 | ⟨k, hk⟩ : s.cfg.printRows = 1 ∨ ∃ k, s.cfg.printRows = k + 2 := by
      rcases Nat.lt_or_ge s.cfg.printRows 2 with h | h
      · exact .inl (by omega)
      · exact .inr ⟨s.cfg.printRows - 2, by omega⟩
    · rw [length_printedLines_one h1]; omega
    · rw [length_printedLines hk]; omega
  · simpa [printedLines] using List.length_filterMap_le (printedLine s.cfg s.page) (List.range s.cfg.printRows)
  · rw [length_printedLines (k := 0) h2]; rfl
  · obtain ⟨k, hk⟩ : ∃ k, s.cfg.printRows = k + 3 := ⟨s.cfg.printRows - 3, by omega⟩
    rw [length_printedLines (k := k + 1) hk, length_filterMap_blank hk hblank]
  · refine (List.count_append ..).trans (congrArg _ (count_newline_flatten fun l hl => ?_))
    obtain ⟨r, -, rfl | rfl⟩ := mem_printedLines hl
    · exact count_newline_line (newline_not_mem_hex8 _) _
    · exact count_newline_line hnl _

end Sys2Proof.Machine
end

section
/-! PROOFS. The run of an EWS command to its last line, and the two commands that write: EWS.WRITE and EWS.ERASEALL
(41_eeprom_write_splitter.md R154, R155, R158, R160). -/

namespace Sys2Proof.Machine

/-! ## A command, run to its last line (R160, R222) -/

/-- What a sequencer step of EWS on its way to the command's end keeps, holds up to the last step, which the run makes. -/
theorem runSeq_ewsSeq_last {c : Config} (hc : c.Valid) {b : Ews} {P : Ews → Prop} (h : b.OnItsWay c) (hb : b.busy = true) (hP : P b)
    (hkeeps : ∀ e g, e.OnItsWay c → e.busy = true → P e → ewsSeq c e = some g → g.busy = true → P g) :
    ∃ e g, runSeq (ewsSeq c) (Ews.stops c) (ewsFuel c b) b = some g
      ∧ e.OnItsWay c ∧ e.busy = true ∧ P e ∧ ewsSeq c e = some g ∧ g.busy = false := by
  obtain ⟨g, hrun, hstop⟩ := runSeq_ewsSeq_stops hc h hb
  have hend := runSeq_keeps (P := fun x => (x.OnItsWay c ∧ x.busy = true ∧ P x)
    ∨ ∃ e, e.OnItsWay c ∧ e.busy = true ∧ P e ∧ ewsSeq c e = some x ∧ x.busy = false) (fun x y hx hs => by
      obtain ⟨hway, hbusy, hPx⟩ | ⟨e, hway, -, -, hlast, hdone⟩ := hx
      · cases hy : y.busy with
        | true => exact .inl ⟨ewsSeq_onItsWay hc hway hs, rfl, hkeeps x y hway hbusy hPx hs hy⟩
        | false => exact .inr ⟨x, hway, hbusy, hPx, hs, rfl⟩
      · obtain ⟨-, hready, -⟩ := (ewsSeq_onItsWay hc hway hlast).block
        rw [ewsSeq, ewsLine_ready (by simpa using hready.1 hdone)] at hs
        cases hs) (.inl ⟨h, hb, hP⟩) hrun
  obtain ⟨hway, hbusy, -⟩ | ⟨e, hend⟩ := hend
  · simp [Ews.stops, Ews.hung, hbusy, hway.stalled] at hstop
  · exact ⟨e, g, hrun, hend⟩

/-- An EWS command at an EWS that is ready for it is accepted and runs to its last step, up to which holds what every step before it
keeps. -/
theorem exec_ews {s : State} {i : Instr} {P : Ews → Prop} (h : s.ReadyForEws) (hu : i.unit = .ews) (hw : i.wellFormed = true)
    (hp : precondition i s = true) (hP : P (acceptedEws i s.ews))
    (hkeeps : ∀ e g, e.OnItsWay s.cfg → e.busy = true → P e → ewsSeq s.cfg e = some g → g.busy = true → P g) :
    ∃ e g, exec i s = .next { s with ews := g }
      ∧ e.OnItsWay s.cfg ∧ e.busy = true ∧ P e ∧ ewsSeq s.cfg e = some g ∧ g.busy = false := by
  obtain ⟨⟨hc, -, hblock, hdevice, -⟩, hhost, hbusy, hstalled⟩ := h
  have hway : (acceptedEws i s.ews).OnItsWay s.cfg := by
    refine ⟨acceptedEws_blockInv hc rfl hblock hbusy hw hp, ?_, acceptedEws_inStep hu, ?_⟩
    all_goals
      cases i
      case ewsRead | ewsWrite | ewsEraseAll | ewsPrint => assumption
      all_goals cases hu
  obtain ⟨e, g, hrun, hend⟩ := runSeq_ewsSeq_last hc hway (acceptedEws_busy hu) hP hkeeps
  refine ⟨e, g, ?_, hend⟩
  rw [exec_accepted (by simp [hu, State.occupied, hbusy]) hp, hu]
  exact ewsStart_of_some hhost hrun

/-- The collaborators' own move leaves EWS on its way. -/
theorem Ews.OnItsWay.moves {c : Config} {e : Ews} (h : e.OnItsWay c) : (e.moves c).OnItsWay c :=
  ⟨Ews.blockInv_moves h.block, Ews.deviceInv_moves h.device, Ews.inStep_moves h.inStep, by simpa using h.stalled⟩

/-- An EWS that is not busy is at `E_READY`, without a command, no transaction open (R29, R150). -/
theorem Ews.BlockInv.atRest {c : Config} {e : Ews} (h : e.BlockInv c) (hb : e.busy = false) :
    e.pos = .ready ∧ e.op = .none ∧ e.txnOpen = false := by
  obtain ⟨hserves, hready, htxn, -⟩ := h
  have hpos := hready.1 hb
  rw [hpos] at hserves htxn
  exact ⟨hpos, by simpa [EwsPos.serves] using hserves, htxn nofun⟩

/-- The response of a command that comes to its end, its opcode and the two result codes written as one number (R98, R222). -/
theorem response_result {opc : Byte} {late : Bool} {w w' : Word32} (h : opc ++ 0x000000#24 = w) (h' : opc ++ 0x010000#24 = w') :
    response opc (if late then .okTimedOut else .ok) 0#16 = if late then w' else w := by
  subst h h'
  cases late <;> exact BitVec.append_assoc

/-! ## What a line of R160 leaves as it is -/

section lines
variable {c : Config} {e g : Ews}

/-- The indices of the loops, `ews_addr` and `ews_t0` change where the rule says so and nowhere else (R151, R153, R154). -/
theorem ewsLine_keeps (hs : ewsLine c e = some g) :
    (e.pos ≠ .r2Ctl → e.pos ≠ .r2Rx → g.ri = e.ri ∧ g.rx = e.rx) ∧ (e.pos ≠ .w0 → e.pos ≠ .wb → g.addr = e.addr ∧ g.i = e.i)
      ∧ (e.pos ≠ .ssT0 → g.t0 = e.t0) := by
  cases hp : e.pos
  case ready => rw [ewsLine_ready hp] at hs; cases hs
  case ws =>
    rw [ewsLine_ws hp] at hs
    obtain ⟨-, rfl⟩ | ⟨-, -, rfl⟩ | ⟨-, -, rfl⟩ := Ews.writeDone_some hs
    all_goals simp
  case r2Stop =>
    rw [ewsLine_r2Stop hp] at hs
    obtain ⟨-, rfl⟩ | ⟨-, -, rfl⟩ | ⟨-, -, rfl⟩ := Ews.readDone_some hs
    all_goals simp
  case r1 => rw [ewsLine_r1 hp] at hs; cases hs; split <;> simp
  case ssCK => rw [ewsLine_ssCK hp] at hs; cases hs; split <;> simp
  case ssLO =>
    rw [ewsLine_ssLO hp] at hs
    obtain ⟨p, -, rfl⟩ := Option.map_eq_some_iff.1 hs
    simp
  all_goals
    simp only [ewsLine, hp] at hs
    cases hs
    simp

/-- The lines that lead to the heads and the ends of the bodies (R160). -/
theorem ewsLine_leads (hs : ewsLine c e = some g) :
    (g.pos = .ws → e.pos = .wb) ∧ (g.pos = .w0 → e.pos = .ea) ∧ (g.pos = .ea → e.pos = .ws) ∧ (g.pos = .r2Stop → e.pos = .r2Rx) := by
  cases hp : e.pos
  case ready => rw [ewsLine_ready hp] at hs; cases hs
  case wb | r2Rx =>
    simp only [ewsLine, hp, afterByte] at hs
    cases hs
    dsimp only
    split_ifs
    all_goals simp
  case ws =>
    rw [ewsLine_ws hp] at hs
    obtain ⟨-, rfl⟩ | ⟨-, -, rfl⟩ | ⟨-, -, rfl⟩ := Ews.writeDone_some hs
    all_goals simp
  case r2Stop =>
    rw [ewsLine_r2Stop hp] at hs
    obtain ⟨-, rfl⟩ | ⟨-, -, rfl⟩ | ⟨-, -, rfl⟩ := Ews.readDone_some hs
    all_goals simp
  case r1 => rw [ewsLine_r1 hp] at hs; cases hs; split <;> simp
  case ssCT => rw [ewsLine_ssCT hp] at hs; cases hs; dsimp only; split <;> simp
  case ssCK => rw [ewsLine_ssCK hp] at hs; cases hs; split <;> simp
  case ssLO =>
    rw [ewsLine_ssLO hp] at hs
    obtain ⟨p, hret, rfl⟩ := Option.map_eq_some_iff.1 hs
    obtain ⟨-, rfl⟩ | ⟨-, rfl⟩ := Ews.startReturn_some hret
    all_goals simp
  all_goals
    simp only [ewsLine, hp] at hs
    cases hs
    simp

/-- Only the last line of a body ends a command (R160). -/
theorem ewsLine_ends (hb : e.busy = true) (hs : ewsLine c e = some g) (hg : g.busy = false) :
    (e.pos = .r2Stop ∧ Ews.readDone c e.callStop = some g) ∨ (e.pos = .ws ∧ Ews.writeDone c e.callStop = some g) := by
  by_cases hr : e.pos = .r2Stop
  · exact .inl ⟨hr, (ewsLine_r2Stop hr).symm.trans hs⟩
  by_cases hw : e.pos = .ws
  · exact .inr ⟨hw, (ewsLine_ws hw).symm.trans hs⟩
  rw [← ewsLine_frame hw hr hs] at hg
  exact absurd hb (Bool.eq_false_iff.1 hg)

end lines

/-! ## EWS.WRITE's body, for EWS.WRITE and EWS.ERASEALL (R154, R155) -/

/-- EWS as in `b`, but for what EWS.WRITE's body and its page loop work with, which is as in `e` (R154, R155). -/
def Ews.withWriteOf (b e : Ews) : Ews :=
  { b with
    addr := e.addr, i := e.i, page := e.page, txnOpen := e.txnOpen, t0 := e.t0, timedOut := e.timedOut, pos := e.pos
    trace := e.trace, eeprom := e.eeprom, clock := e.clock, sched := e.sched }

/-- The first address a writing command writes: EWS.ERASEALL visits every page (R154, R155). -/
def Ews.firstAddress (e : Ews) : Nat := if e.op = .write then e.opAddr.toNat else 0

/-- The address behind the last one a writing command writes. -/
def Ews.endAddress (c : Config) (e : Ews) : Nat := if e.op = .write then e.opAddr.toNat + e.n.toNat else c.eeSize

/-- The byte a writing command writes at an address. -/
def Ews.byteAt (e : Ews) (a : Nat) : Byte := if e.op = .write then e.data.getD (a - e.opAddr.toNat) 0#8 else 0xFF#8

/-- The address behind the last one a writing command has sent a byte for. -/
def Ews.frontier (c : Config) (e : Ews) : Nat := e.bodyAddress c + if e.pos = .ea ∨ e.pos = .w0 then 0 else e.i

/-- EWS has not lost the EEPROM: it listens wherever EWS is about to send an address or a data byte, and has taken data where EWS is
about to commit (R75, R151). -/
def Ews.Attended (e : Ews) : Prop :=
  (e.pos = .ssHI ∨ e.pos = .ssLO ∨ e.pos = .wb → e.eeprom.mode ≠ .ignore)
    ∧ (e.pos = .ws → e.eeprom.mode = .wData ∧ 1 ≤ e.eeprom.got)

/-- EWS is running EWS.WRITE's body; `b` is EWS as it accepted the command (R154, R155). -/
structure Ews.Sending (c : Config) (b e : Ews) : Prop where
  frame : b.withWriteOf e = e
  page : b.op = .write → e.page = b.page
  last : e.pos = .ws → e.i = e.bodyLength c ∧ e.addr.toNat = e.bodyAddress c + e.bodyLength c
  attended : e.timedOut = false → e.Attended
  outside : ∀ a, ¬ (b.firstAddress ≤ a ∧ a < b.endAddress c) → e.eeprom.ee.read? .eeprom a = b.eeprom.ee.read? .eeprom a
  inside : e.timedOut = false → ∀ a, b.firstAddress ≤ a → a < e.frontier c → e.eeprom.ee.read? .eeprom a = some (b.byteAt a)

section write
variable {c : Config} {b e g : Ews}

/-- A position that a writing command reaches (R160). -/
theorem Ews.writes_serves (hb : e.BlockInv c) (hop : e.writes) : e.pos.serves .write = true ∨ e.pos.serves .eraseAll = true := by
  obtain ⟨hserves, -⟩ := hb
  obtain hop | hop := hop
  · exact .inl (hop ▸ hserves)
  · exact .inr (hop ▸ hserves)

/-- A line of a writing command changes nothing but what it works with; EWS.WRITE stays at its page. -/
theorem ewsLine_withWriteOf (hb : e.BlockInv c) (hop : e.writes) (hs : ewsLine c e = some g) (hg : g.busy = true) :
    e.withWriteOf g = g ∧ (e.op = .write → g.page = e.page) := by
  have hserves := Ews.writes_serves hb hop
  by_cases hw : e.pos = .ws
  · rw [ewsLine_ws hw] at hs
    obtain ⟨-, rfl⟩ | ⟨herase, -, rfl⟩ | ⟨-, -, rfl⟩ := Ews.writeDone_some hs
    · cases hg
    · exact ⟨rfl, fun hwrite => by rw [← Ews.callStop_op, herase] at hwrite; cases hwrite⟩
    · cases hg
  · have hne : e.pos ≠ .r2Stop ∧ e.pos ≠ .r2Ctl ∧ e.pos ≠ .r2Rx := by
      refine ⟨?_, ?_, ?_⟩ <;> intro hp <;> simp [hp, EwsPos.serves] at hserves
    have hframe := ewsLine_frame hw hne.1 hs
    obtain ⟨hrx, -⟩ := ewsLine_keeps hs
    obtain ⟨hri, hrx⟩ := hrx hne.2.1 hne.2.2
    refine ⟨?_, fun _ => by rw [← hframe]; rfl⟩
    conv_rhs => rw [← hframe]
    rw [Ews.withWriteOf, Ews.withBodyOf, hri, hrx, ← hframe]
    rfl

/-- A writing command's line changes the EEPROM only by the send of a data byte to an EEPROM that listens, which puts the byte at its
address (R75, R154, R158). -/
theorem ewsLine_writes_ee (hb : e.BlockInv c) (hi : e.InStep c) (hop : e.writes) (hs : ewsLine c e = some g) :
    (g.eeprom.ee = e.eeprom.ee ∧ (e.pos = .wb → e.eeprom.mode = .ignore))
      ∨ (e.pos = .wb ∧ g.eeprom.ee = e.eeprom.ee.set .eeprom (e.bodyAddress c + e.i) (e.bodyByte e.i)) := by
  have hserves := Ews.writes_serves hb hop
  obtain ⟨-, -, -, -, -, -, -, -, hsending, -⟩ := hb
  obtain ⟨hct, -, hhi, hlo, hwb⟩ := hi
  have send : ∀ b, e.eeprom.mode ≠ .wData → (e.callSend c b).eeprom.ee = e.eeprom.ee := fun _ => Eeprom.ee_afterSend
  cases hp : e.pos
  case ready => rw [ewsLine_ready hp] at hs; cases hs
  case ssCT =>
    rw [ewsLine_ssCT hp] at hs; cases hs
    exact .inl ⟨send _ (by simp [hct hp]), nofun⟩
  case ssHI =>
    rw [ewsLine_ssHI hp] at hs; cases hs
    exact .inl ⟨send _ (by obtain h | h := hhi hp <;> simp [h]), nofun⟩
  case ssLO =>
    rw [ewsLine_ssLO hp] at hs
    obtain ⟨p, -, rfl⟩ := Option.map_eq_some_iff.1 hs
    exact .inl ⟨send _ (by obtain ⟨h, -⟩ | h := hlo hp <;> simp [h]), nofun⟩
  case ssCK => rw [ewsLine_ssCK hp] at hs; cases hs; split <;> exact .inl ⟨rfl, nofun⟩
  case wb =>
    rw [ewsLine_wb hp] at hs; cases hs
    obtain ⟨-, haddr⟩ := hsending hop (by simp [hp, EwsPos.sending])
    obtain ⟨hmode, hptr⟩ | hmode := hwb hp
    · exact .inr ⟨rfl, by simp [Eeprom.afterSend_wData hmode, hptr, haddr]⟩
    · exact .inl ⟨by simp [Eeprom.afterSend_ignore hmode], fun _ => hmode⟩
  case ws =>
    rw [ewsLine_ws hp] at hs
    obtain ⟨-, rfl⟩ | ⟨-, -, rfl⟩ | ⟨-, -, rfl⟩ := Ews.writeDone_some hs
    all_goals exact .inl ⟨rfl, nofun⟩
  case ea | w0 | wx | ssT0 | ssST =>
    simp only [ewsLine, hp] at hs
    cases hs
    exact .inl ⟨rfl, nofun⟩
  all_goals simp [hp, EwsPos.serves] at hserves

/-- A line at which no acknowledge poll gives up loses no EEPROM that listens (R75, R151). -/
theorem ewsLine_attended (hi : e.InStep c) (h : e.Attended) (hs : ewsLine c e = some g)
    (hlate : g.timedOut = false) : g.Attended := by
  obtain ⟨hct, -, hhi, hlo, hwb⟩ := hi
  obtain ⟨hlisten, -⟩ := h
  cases hp : e.pos
  case ready => rw [ewsLine_ready hp] at hs; cases hs
  case ssCT =>
    rw [ewsLine_ssCT hp] at hs; cases hs
    cases hcm : e.eeprom.commit with
    | true => simp [Ews.Attended, Eeprom.afterSend_committing (hct hp) hcm]
    | false => simp [Ews.Attended, Eeprom.afterSend_ctrlW (hct hp) hcm]
  case ssCK =>
    rw [ewsLine_ssCK hp] at hs
    split at hs
    · cases hs; cases hlate
    · cases hs; simp [Ews.Attended]
  case ssHI =>
    rw [ewsLine_ssHI hp] at hs; cases hs
    have hmode := (hhi hp).resolve_right (hlisten (.inl hp))
    simp [Ews.Attended, Eeprom.afterSend_aHi hmode]
  case ssLO =>
    rw [ewsLine_ssLO hp] at hs
    obtain ⟨p, hret, rfl⟩ := Option.map_eq_some_iff.1 hs
    obtain ⟨hmode, -⟩ := (hlo hp).resolve_right (hlisten (.inr (.inl hp)))
    obtain ⟨-, rfl⟩ | ⟨-, rfl⟩ := Ews.startReturn_some hret
    all_goals simp [Ews.Attended, Eeprom.afterSend, hmode]
  case wb =>
    rw [ewsLine_wb hp] at hs; cases hs
    obtain ⟨hmode, -⟩ := (hwb hp).resolve_right (hlisten (.inr (.inr hp)))
    simp [Ews.Attended, Eeprom.afterSend_wData hmode, hmode]
  case ws =>
    rw [ewsLine_ws hp] at hs
    obtain ⟨-, rfl⟩ | ⟨-, -, rfl⟩ | ⟨-, -, rfl⟩ := Ews.writeDone_some hs
    all_goals simp [Ews.Attended]
  case r2Stop =>
    rw [ewsLine_r2Stop hp] at hs
    obtain ⟨-, rfl⟩ | ⟨-, -, rfl⟩ | ⟨-, -, rfl⟩ := Ews.readDone_some hs
    all_goals simp [Ews.Attended]
  case r1 => rw [ewsLine_r1 hp] at hs; cases hs; split <;> simp [Ews.Attended]
  case r2Rx => rw [ewsLine_r2Rx hp] at hs; cases hs; simp [Ews.Attended]; split <;> simp
  all_goals
    simp only [ewsLine, hp] at hs
    cases hs
    simp [Ews.Attended]

/-- EWS.WRITE's body ends behind its last byte (R154). -/
theorem ewsLine_reaches_ws (hc : c.Valid) (hb : e.BlockInv c) (hop : e.writes) (hs : ewsLine c e = some g) (hg : g.pos = .ws) :
    g.i = g.bodyLength c ∧ g.addr.toNat = g.bodyAddress c + g.bodyLength c := by
  obtain ⟨hlead, -⟩ := ewsLine_leads hs
  have hp := hlead hg
  have hsize := Config.eeSize_le hc
  obtain ⟨-, hrange⟩ := Ews.body_range hc hb (by obtain h | h := hop <;> simp [h])
  obtain ⟨ha, hl, -⟩ := Ews.body_congr (c := c) (ewsLine_frame (by simp [hp]) (by simp [hp]) hs)
  obtain ⟨-, -, -, -, -, -, -, -, hsending, -⟩ := hb
  obtain ⟨hlt, haddr⟩ := hsending hop (by simp [hp, EwsPos.sending])
  rw [ha, hl]
  rw [ewsLine_wb hp] at hs
  cases hs
  have hnext : (e.addr + 1).toNat = e.addr.toNat + 1 := by
    rw [BitVec.toNat_add]; exact Nat.mod_eq_of_lt (by simp; omega)
  have hlast : e.i + 1 = e.bodyLength c := by
    by_contra hne
    have hmore : e.i + 1 < e.bodyLength c := by omega
    simp only [afterByte, if_pos hmore] at hg
    split at hg <;> cases hg
  exact ⟨hlast, by simp only [hnext, haddr]; omega⟩

/-- The frontier moves with a data byte and nowhere else (R154, R155). -/
theorem ewsLine_frontier (hb : e.BlockInv c) (hop : e.writes) (hlast : e.pos = .ws → e.i = e.bodyLength c)
    (hs : ewsLine c e = some g) (hg : g.busy = true) :
    g.frontier c = e.frontier c + if e.pos = .wb then 1 else 0 := by
  have hserves := Ews.writes_serves hb hop
  obtain ⟨-, hw0, hea, -⟩ := ewsLine_leads hs
  obtain ⟨-, hindex, -⟩ := ewsLine_keeps hs
  by_cases hw : e.pos = .ws
  · rw [ewsLine_ws hw] at hs
    obtain ⟨-, rfl⟩ | ⟨herase, -, rfl⟩ | ⟨-, -, rfl⟩ := Ews.writeDone_some hs
    · cases hg
    · have herase : e.op = .eraseAll := herase
      have hi : e.i = c.eePage := by simpa [Ews.bodyLength, herase] using hlast hw
      simp [Ews.frontier, Ews.bodyAddress, herase, hw, hi, Nat.succ_mul]
    · cases hg
  have hr : e.pos ≠ .r2Stop := fun hp => by simp [hp, EwsPos.serves] at hserves
  obtain ⟨ha, -⟩ := Ews.body_congr (c := c) (ewsLine_frame hw hr hs)
  rw [Ews.frontier, Ews.frontier, ha]
  by_cases h0 : e.pos = .w0
  · rw [ewsLine_w0 h0] at hs; cases hs
    simp [h0]
  by_cases h1 : e.pos = .ea
  · rw [ewsLine_ea h1] at hs; cases hs
    simp [h1]
  have hg' : ¬ (g.pos = .ea ∨ g.pos = .w0) := fun h => h.elim (fun h => hw (hea h)) fun h => h1 (hw0 h)
  have he : ¬ (e.pos = .ea ∨ e.pos = .w0) := fun h => h.elim h1 h0
  rw [if_neg hg', if_neg he]
  by_cases hwb : e.pos = .wb
  · rw [ewsLine_wb hwb] at hs; cases hs
    simp [hwb, Nat.add_assoc]
  · rw [(hindex h0 hwb).2, if_neg hwb, Nat.add_zero]

/-- The accepted command is the one that runs (R28). -/
theorem Ews.withWriteOf_eq (h : b.withWriteOf e = e) :
    e.op = b.op ∧ e.opAddr = b.opAddr ∧ e.n = b.n ∧ e.data = b.data ∧ e.opc = b.opc ∧ e.rsp = b.rsp := by
  rw [← h]
  exact ⟨rfl, rfl, rfl, rfl, rfl, rfl⟩

/-- The byte EWS is at stands, in the command, at the address EWS is at (R154, R155). -/
theorem Ews.byteAt_body (hop : e.writes) (h : b.withWriteOf e = e) (k : Nat) :
    b.byteAt (e.bodyAddress c + k) = e.bodyByte k := by
  obtain ⟨hbop, haddr, -, hdata, -⟩ := Ews.withWriteOf_eq h
  rw [Ews.byteAt, ← hbop, ← haddr, ← hdata]
  obtain hop | hop := hop <;> simp [Ews.bodyAddress, Ews.bodyByte, hop]

/-- EWS.WRITE's bytes are its payload. -/
theorem Ews.byteAt_write (hop : b.op = .write) (k : Nat) : b.byteAt (b.opAddr.toNat + k) = b.data.getD k 0#8 := by
  simp [Ews.byteAt, hop]

/-- The body's range lies inside the command's (R154, R155). -/
theorem Ews.body_in_range (hc : c.Valid) (hb : e.BlockInv c) (hop : e.writes) (h : b.withWriteOf e = e) :
    b.firstAddress ≤ e.bodyAddress c ∧ e.bodyAddress c + e.bodyLength c ≤ b.endAddress c := by
  obtain ⟨-, hrange⟩ := Ews.body_range hc hb (by obtain h | h := hop <;> simp [h])
  obtain ⟨hbop, haddr, hn, -⟩ := Ews.withWriteOf_eq h
  rw [Ews.firstAddress, Ews.endAddress, ← hbop, ← haddr, ← hn]
  obtain hop | hop := hop
  · simp [Ews.bodyAddress, Ews.bodyLength, hop]
  · simpa [hop] using hrange

theorem Ews.withWriteOf_moves (c : Config) (e : Ews) : e.withWriteOf (e.moves c) = e.moves c := by
  unfold moves
  split
  · split_ifs <;> rfl
  · rfl

/-- The collaborators' own move is none of the command's doing (R77, R78). -/
theorem Ews.Sending.moves (h : Ews.Sending c b e) : Ews.Sending c b (e.moves c) where
  frame := (congrArg (Ews.withWriteOf · (e.moves c)) h.frame).trans (Ews.withWriteOf_moves c e)
  page := by simpa using h.page
  last := by simpa [Ews.bodyLength, Ews.bodyAddress] using h.last
  attended hlate := by simpa [Ews.Attended] using h.attended (by simpa using hlate)
  outside a ha := by simpa using h.outside a ha
  inside hlate a h1 h2 := by
    simpa using h.inside (by simpa using hlate) a h1 (by simpa [Ews.frontier, Ews.bodyAddress] using h2)

/-- A line of a writing command that does not end it (R154, R155). -/
theorem Ews.Sending.line (hc : c.Valid) (hop : b.writes) (hway : e.OnItsWay c) (h : Ews.Sending c b e) (hs : ewsLine c e = some g)
    (hg : g.busy = true) : Ews.Sending c b g := by
  obtain ⟨hb, hd, hi, -⟩ := hway
  obtain ⟨hframe, hpage, hlast, hattended, houtside, hinside⟩ := h
  obtain ⟨hbop, -⟩ := Ews.withWriteOf_eq hframe
  have hope : e.writes := by simpa [Ews.writes, hbop] using hop
  obtain ⟨hgframe, hgpage⟩ := ewsLine_withWriteOf hb hope hs hg
  have hlate := ewsLine_timedOut_eq_false hs
  have hfrontier := ewsLine_frontier hb hope (fun hp => (hlast hp).1) hs hg
  obtain ⟨hfirst, hend⟩ := Ews.body_in_range hc hb hope hframe
  have hwrite := ewsLine_writes_ee hb hi hope hs
  obtain ⟨hwf, -⟩ := hd
  obtain ⟨-, -, -, -, -, -, -, -, hsending, -⟩ := id hb
  refine ⟨?_, fun hw => (hgpage (hbop ▸ hw)).trans (hpage hw), ewsLine_reaches_ws hc hb hope hs,
    fun hl => ewsLine_attended hi (hattended (hlate hl)) hs hl, ?_, ?_⟩
  · exact (congrArg (Ews.withWriteOf · g) hframe).trans hgframe
  · intro a ha
    obtain ⟨hee, -⟩ | ⟨hp, hee⟩ := hwrite
    · rw [hee, houtside a ha]
    · have hlt := (hsending hope (by simp [hp, EwsPos.sending])).1
      rw [hee, Memory.read?_set hwf, if_neg (by omega), houtside a ha]
  · intro hl a h1 h2
    rw [hfrontier] at h2
    obtain ⟨hee, hdeaf⟩ | ⟨hp, hee⟩ := hwrite
    · have hp : e.pos ≠ .wb := fun hp => (hattended (hlate hl)).1 (.inr (.inr hp)) (hdeaf hp)
      rw [hee, hinside (hlate hl) a h1 (by simpa [hp] using h2)]
    · have hat : e.frontier c = e.bodyAddress c + e.i := by simp [Ews.frontier, hp]
      rw [hee, Memory.read?_set hwf]
      split
      next ha => rw [ha, Ews.byteAt_body hope hframe]
      next ha => exact hinside (hlate hl) a h1 (by rw [if_pos hp] at h2; omega)

/-- A sequencer step of a writing command that does not end it. -/
theorem Ews.Sending.step (hc : c.Valid) (hop : b.writes) (hway : e.OnItsWay c) (h : Ews.Sending c b e) (hs : ewsSeq c e = some g)
    (hg : g.busy = true) : Ews.Sending c b g :=
  h.moves.line hc hop hway.moves hs hg

/-- EWS.WRITE or EWS.ERASEALL, just accepted (R150). -/
theorem Ews.sending_accepted (hp : b.pos = .w0 ∨ b.pos = .ea) (h0 : b.firstAddress = b.bodyAddress c) :
    Ews.Sending c b b where
  frame := rfl
  page _ := rfl
  last hp' := by simp [hp'] at hp
  attended _ := ⟨fun hp' => by obtain h | h := hp <;> simp [h] at hp', fun hp' => by simp [hp'] at hp⟩
  outside _ _ := rfl
  inside _ a h1 h2 := by
    rw [Ews.frontier, if_pos hp.symm] at h2
    omega

/-- The last step of a writing command is the stop of its last transaction (R154, R155). -/
theorem Ews.Sending.ends (hop : b.writes) (hway : e.OnItsWay c) (hbusy : e.busy = true) (h : Ews.Sending c b e)
    (hs : ewsSeq c e = some g) (hg : g.busy = false) :
    ∃ x, Ews.Sending c b x ∧ x.pos = .ws ∧ g = x.callStop.complete ∧ (b.op = .eraseAll → x.page + 1 = c.eePages) := by
  have hx := h.moves
  have hb := hway.moves.block
  have hxbusy : (e.moves c).busy = true := by simpa using hbusy
  unfold ewsSeq at hs
  generalize e.moves c = x at *
  obtain ⟨hbop, -⟩ := Ews.withWriteOf_eq hx.frame
  have hserves := Ews.writes_serves hb (by simpa [Ews.writes, hbop] using hop)
  obtain ⟨hp, -⟩ | ⟨hp, hdone⟩ := ewsLine_ends hxbusy hs hg
  · simp [hp, EwsPos.serves] at hserves
  · refine ⟨x, hx, hp, ?_⟩
    obtain ⟨hwrite, rfl⟩ | ⟨-, -, rfl⟩ | ⟨-, hpage, rfl⟩ := Ews.writeDone_some hdone
    · exact ⟨rfl, fun herase => by rw [← hbop, ← Ews.callStop_op, hwrite] at herase; cases herase⟩
    · exact absurd hxbusy (Bool.eq_false_iff.1 hg)
    · exact ⟨rfl, fun _ => hpage⟩

/-- EWS at the end of a writing command (R154, R155). -/
theorem Ews.Sending.complete_eq (h : Ews.Sending c b e) (hp : e.pos = .ws) : e.callStop.complete = { b with
    addr := BitVec.ofNat 17 (e.bodyAddress c + e.bodyLength c), i := e.bodyLength c, page := e.page
    op := .none, pos := .ready, busy := false, txnOpen := false, timedOut := e.timedOut, t0 := e.t0
    rsp := b.rsp ++ [response b.opc (if e.timedOut then .okTimedOut else .ok) 0#16]
    eeprom := e.eeprom.stop, clock := e.clock, sched := e.sched, trace := .stop :: e.trace } := by
  obtain ⟨hi, haddr⟩ := h.last hp
  rw [← haddr, BitVec.ofNat_toNat, BitVec.setWidth_eq, ← hi]
  conv_lhs => rw [← h.frame]
  rfl

end write

/-! ## The two commands -/

/-- Settles O39: up to the stop of the last transaction the payload stands where it was sent, as long as the EEPROM listens, and
nothing else has changed. -/
theorem ewsWriteResult : Obligations.EwsWriteResult := by
  intro s address n data h hn hrange hd
  obtain ⟨⟨hc, -, hblock, -⟩, -, hbusy, -⟩ := id h
  obtain ⟨hpos, hop, htxn⟩ := hblock.atRest hbusy
  obtain ⟨e, g, hexec, hway, hebusy, hsending, hlast, hdone⟩ := exec_ews (i := .ewsWrite address n data)
    (P := Ews.Sending s.cfg (acceptedEws (.ewsWrite address n data) s.ews)) h rfl (beq_iff_eq.2 hd) (ewsRangeOk_iff.2 ⟨hn, hrange⟩)
    (Ews.sending_accepted (.inl rfl) rfl) fun e g hway _ hP hs hg => hP.step hc (.inl rfl) hway hs hg
  obtain ⟨x, hx, hp, rfl, -⟩ := hsending.ends (.inl rfl) hway hebusy hlast hdone
  obtain ⟨hxop, hxaddr, hxn, -⟩ := Ews.withWriteOf_eq hx.frame
  have hxop : x.op = .write := hxop
  have ha : x.bodyAddress s.cfg = address.toNat := by simp only [Ews.bodyAddress, hxop, hxaddr]; rfl
  have hl : x.bodyLength s.cfg = n.toNat := by simp only [Ews.bodyLength, hxop, hxn]; rfl
  refine ⟨x.timedOut, x.t0, x.eeprom.stop, x.clock, x.sched, .stop :: x.trace, ?_, fun hlate => ⟨fun k hk => ?_, ?_⟩, ?_, rfl⟩
  · rw [hexec, hx.complete_eq hp, ha, hl, hx.page rfl, ← response_result (by decide : 0x21#8 ++ 0#24 = 0x21000000#32)
      (by decide : 0x21#8 ++ 0x010000#24 = 0x21010000#32)]
    simp only [hpos, hop, htxn, hbusy]
    rfl
  · have hfrontier : x.frontier s.cfg = address.toNat + n.toNat := by simp [Ews.frontier, hp, ha, ← hl, (hx.last hp).1]
    refine (hx.inside hlate (address.toNat + k) (Nat.le_add_right _ _) (by rw [hfrontier]; omega)).trans
      ((congrArg some (Ews.byteAt_write rfl k)).trans ?_)
    simp [acceptedEws, Ews.accept, hd, hk]
  · have := (hx.attended hlate).2 hp
    simp [this]
  · exact hx.outside

/-- Settles O41: up to the stop of the last page's transaction the pages visited are 0xFF, as long as the EEPROM listens. -/
theorem ewsEraseAllResult : Obligations.EwsEraseAllResult := by
  intro s h
  obtain ⟨⟨hc, -, hblock, -⟩, -, hbusy, -⟩ := id h
  obtain ⟨hpos, hop, htxn⟩ := hblock.atRest hbusy
  obtain ⟨e, g, hexec, hway, hebusy, hsending, hlast, hdone⟩ := exec_ews (i := .ewsEraseAll)
    (P := Ews.Sending s.cfg (acceptedEws .ewsEraseAll s.ews)) h rfl rfl rfl
    (Ews.sending_accepted (.inr rfl) (Nat.zero_mul _).symm) fun e g hway _ hP hs hg => hP.step hc (.inr rfl) hway hs hg
  obtain ⟨x, hx, hp, rfl, hpage⟩ := hsending.ends (.inr rfl) hway hebusy hlast hdone
  obtain ⟨hxop, -⟩ := Ews.withWriteOf_eq hx.frame
  have hxop : x.op = .eraseAll := hxop
  have hpage := hpage rfl
  have hl : x.bodyLength s.cfg = s.cfg.eePage := by simp only [Ews.bodyLength, hxop]
  have ha : x.bodyAddress s.cfg + s.cfg.eePage = s.cfg.eeSize := by
    simp only [Ews.bodyAddress, hxop, ← Nat.succ_mul, Nat.succ_eq_add_one, hpage, Config.eePages_mul hc]
  refine ⟨x.timedOut, x.t0, x.eeprom.stop, x.clock, x.sched, .stop :: x.trace, ?_, fun hlate a hlt => ?_, fun a hle => ?_, rfl⟩
  · rw [hexec, hx.complete_eq hp, hl, ha, ← hpage, ← response_result (by decide : 0x22#8 ++ 0#24 = 0x22000000#32)
      (by decide : 0x22#8 ++ 0x010000#24 = 0x22010000#32)]
    simp only [hpos, hop, htxn, hbusy]
    rfl
  · have hfrontier : x.frontier s.cfg = s.cfg.eeSize := by simp [Ews.frontier, hp, (hx.last hp).1, hl, ha]
    exact hx.inside hlate a (Nat.zero_le _) (hfrontier ▸ hlt)
  · exact hx.outside a fun hlt => absurd hlt.2 (Nat.not_lt.2 hle)

end Sys2Proof.Machine
end

section
/-! PROOFS. The two commands of EWS that read: EWS.READ and EWS.PRINT (41_eeprom_write_splitter.md R153, R157;
43_diagnostic_print.md R205). -/

namespace Sys2Proof.Machine

/-! ## The EEPROM while nothing is written to it (R75, R76) -/

section device
variable {c : Config} {d : Eeprom} {b : Byte}

/-- A send that is no data byte changes no byte, no count and no commit (R75). -/
theorem Eeprom.afterSend_quiet (h : d.mode ≠ .wData) :
    (d.afterSend c b).ee = d.ee ∧ (d.afterSend c b).got = d.got ∧ (d.afterSend c b).commit = d.commit := by
  unfold afterSend
  cases hm : d.mode
  case ctrl => dsimp only; split_ifs <;> exact ⟨rfl, rfl, rfl⟩
  case wData => exact absurd hm h
  all_goals exact ⟨rfl, rfl, rfl⟩

/-- A receive changes no byte, no count and no commit (R76). -/
theorem Eeprom.afterReceive_quiet (ack : Bool) :
    (d.afterReceive c ack).ee = d.ee ∧ (d.afterReceive c ack).got = d.got ∧ (d.afterReceive c ack).commit = d.commit := by
  unfold afterReceive
  split <;> exact ⟨rfl, rfl, rfl⟩

/-- A stop of a transaction without data starts no commit (R75, R77). -/
theorem Eeprom.stop_commit_of_got (h : d.got = 0) : d.stop.commit = d.commit := by simp [h]

end device

/-! ## EWS.READ's body, for EWS.READ and EWS.PRINT (R153, R205) -/

/-- EWS is running EWS.READ's body, for itself or for EWS.PRINT (R153, R205). -/
abbrev Ews.reads (e : Ews) : Prop := e.op = .read ∨ e.op = .print

/-- EWS as in `b`, but for what EWS.READ's body and its page loop work with, which is as in `e` (R153, R205). -/
def Ews.withReadOf (b e : Ews) : Ews :=
  { b with
    page := e.page, pbuf := e.pbuf, txnOpen := e.txnOpen, t0 := e.t0, timedOut := e.timedOut, pos := e.pos, ri := e.ri, rx := e.rx
    diag := e.diag, trace := e.trace, eeprom := e.eeprom, clock := e.clock, sched := e.sched }

/-- The EEPROM has taken no data in the open transaction, and at the plain form's sends and at `CTRL_R` it is in step with EWS or has
given up (R75, R153). -/
structure Ews.Quiet (c : Config) (e : Ews) : Prop where
  ctl : e.pos = .r1Ctl ∨ e.pos = .r2Ctl → e.eeprom.mode = .ctrl
  hi : e.pos = .r1Hi → e.eeprom.mode = .aHi ∨ e.eeprom.mode = .ignore
  lo : e.pos = .r1Lo → (e.eeprom.mode = .aLo ∧ e.eeprom.hi = addressHi (e.bodyAddress c)) ∨ e.eeprom.mode = .ignore
  got : e.pos.inTxn = true → e.eeprom.got = 0

/-- Where the EEPROM is when it has heard every call of the body so far, and what EWS has received from it (R75, R76, R153). -/
def Ews.Listened (c : Config) (e : Ews) : Prop :=
  match e.pos with
  | .ssHI | .ssLO | .r1Hi | .r1Lo => e.eeprom.mode ≠ .ignore ∧ e.eeprom.commit = false
  | .r1Ctl => e.eeprom.commit = false
  | .r1Stop | .r2 | .r2Ctl => e.eeprom.ptr = e.bodyAddress c ∧ e.eeprom.commit = false
  | .r2Rx => e.eeprom.mode = .rData ∧ e.eeprom.ptr = e.bodyAddress c + e.ri
      ∧ e.rx = e.eeprom.ee.bytes .eeprom (e.bodyAddress c) e.ri
  | .r2Stop => e.rx = e.eeprom.ee.bytes .eeprom (e.bodyAddress c) (e.bodyLength c)
  | .ready | .r1 | .w0 | .wb | .wx | .ws | .ea | .pr | .ssT0 | .ssST | .ssCT | .ssCK => True

/-- What EWS.PRINT has shown of an EEPROM content before page `k` (R205). -/
def printedPages (c : Config) (m : Memory) (k : Nat) : List Char :=
  (List.range k).flatMap (fun p => pageLines c p (m.bytes .eeprom (p * c.eePage) c.eePage))

theorem printedPages_succ (c : Config) (m : Memory) (k : Nat) :
    printedPages c m (k + 1) = printedPages c m k ++ pageLines c k (m.bytes .eeprom (k * c.eePage) c.eePage) := by
  simp [printedPages, List.range_succ]

/-- EWS is running EWS.READ's body; `b` is EWS as it accepted the command (R153, R205). -/
structure Ews.Receiving (c : Config) (b e : Ews) : Prop where
  frame : b.withReadOf e = e
  page : b.op = .read → e.page = b.page ∧ e.pbuf = b.pbuf ∧ e.diag = b.diag
  quiet : e.Quiet c
  ee : e.eeprom.ee = b.eeprom.ee
  commit : b.eeprom.commit = false → e.eeprom.commit = false
  count : e.pos = .r2Stop → e.ri = e.bodyLength c
  plain : c.ewsReadAckpoll = false → e.timedOut = false ∧ e.t0 = b.t0 ∧ e.pos.sending = false
  listened : e.timedOut = false → c.ewsReadAckpoll = true ∨ b.eeprom.commit = false → e.Listened c
  diag : b.diag <+: e.diag
  shown : b.op = .print → e.timedOut = false → c.ewsReadAckpoll = true ∨ b.eeprom.commit = false →
    e.diag = b.diag ++ printedPages c b.eeprom.ee e.page

section read
variable {c : Config} {b e g : Ews}

/-- A position that a reading command reaches (R160). -/
theorem Ews.reads_serves (hb : e.BlockInv c) (hop : e.reads) : e.pos.serves .read = true ∨ e.pos.serves .print = true := by
  obtain ⟨hserves, -⟩ := hb
  obtain hop | hop := hop
  · exact .inl (hop ▸ hserves)
  · exact .inr (hop ▸ hserves)

/-- A line of a reading command changes nothing but what it works with; EWS.READ stays at its page. -/
theorem ewsLine_withReadOf (hb : e.BlockInv c) (hop : e.reads) (hs : ewsLine c e = some g) (hg : g.busy = true) :
    e.withReadOf g = g ∧ (e.op = .read ∨ e.pos ≠ .r2Stop → g.page = e.page ∧ g.pbuf = e.pbuf ∧ g.diag = e.diag) := by
  have hserves := Ews.reads_serves hb hop
  by_cases hr : e.pos = .r2Stop
  · rw [ewsLine_r2Stop hr] at hs
    obtain ⟨-, rfl⟩ | ⟨hprint, -, rfl⟩ | ⟨-, -, rfl⟩ := Ews.readDone_some hs
    · cases hg
    · rw [Ews.callStop_op] at hprint
      exact ⟨rfl, fun h => by simp [hprint, hr] at h⟩
    · cases hg
  · have hne : e.pos ≠ .ws ∧ e.pos ≠ .w0 ∧ e.pos ≠ .wb := by
      refine ⟨?_, ?_, ?_⟩ <;> intro hp <;> simp [hp, EwsPos.serves] at hserves
    have hframe := ewsLine_frame hne.1 hr hs
    obtain ⟨-, hindex, -⟩ := ewsLine_keeps hs
    obtain ⟨haddr, hi⟩ := hindex hne.2.1 hne.2.2
    refine ⟨?_, fun _ => by rw [← hframe]; exact ⟨rfl, rfl, rfl⟩⟩
    conv_rhs => rw [← hframe]
    rw [Ews.withReadOf, Ews.withBodyOf, haddr, hi, ← hframe]
    rfl

/-- A line of a reading command changes no byte of the EEPROM, starts no commit and keeps the EEPROM quiet (R75, R76, R153). -/
theorem ewsLine_quiet (hb : e.BlockInv c) (hi : e.InStep c) (hop : e.reads) (h : e.Quiet c) (hs : ewsLine c e = some g) :
    g.Quiet c ∧ g.eeprom.ee = e.eeprom.ee ∧ g.eeprom.commit = e.eeprom.commit := by
  have hserves := Ews.reads_serves hb hop
  obtain ⟨hct, -, hhi, hlo, -⟩ := hi
  obtain ⟨hctl, hrhi, hrlo, hgot⟩ := h
  have send : ∀ b, e.eeprom.mode ≠ .wData → _ := fun b => Eeprom.afterSend_quiet (c := c) (d := e.eeprom) (b := b)
  cases hp : e.pos <;> simp only [hp, EwsPos.inTxn, true_implies] at hgot
  case ready => rw [ewsLine_ready hp] at hs; cases hs
  case r1 =>
    rw [ewsLine_r1 hp] at hs; cases hs
    split
    · exact ⟨⟨by simp, by simp, by simp, by simp [EwsPos.inTxn]⟩, rfl, rfl⟩
    · exact ⟨⟨by simp, by simp, by simp, by simp [EwsPos.inTxn]⟩, rfl, rfl⟩
  case r1Ctl =>
    rw [ewsLine_r1Ctl hp] at hs; cases hs
    have hmode := hctl (.inl hp)
    obtain ⟨hee, hgot', hcm'⟩ := send c.ctrlW (by simp [hmode])
    refine ⟨⟨by simp, fun _ => ?_, by simp, fun _ => hgot'.trans hgot⟩, hee, hcm'⟩
    cases hcm : e.eeprom.commit with
    | true => exact .inr (by simp [Eeprom.afterSend_committing hmode hcm])
    | false => exact .inl (by simp [Eeprom.afterSend_ctrlW hmode hcm])
  case r1Hi =>
    rw [ewsLine_r1Hi hp] at hs; cases hs
    have hmode := hrhi hp
    obtain ⟨hee, hgot', hcm'⟩ := send (addressHi (e.bodyAddress c)) (by obtain h | h := hmode <;> simp [h])
    refine ⟨⟨by simp, by simp, fun _ => ?_, fun _ => hgot'.trans hgot⟩, hee, hcm'⟩
    obtain hmode | hmode := hmode
    · exact .inl ⟨by simp [Eeprom.afterSend_aHi hmode], by simp [Eeprom.afterSend_aHi hmode]; rfl⟩
    · exact .inr (by simp [Eeprom.afterSend_ignore hmode, hmode])
  case r1Lo =>
    rw [ewsLine_r1Lo hp] at hs; cases hs
    obtain ⟨hee, hgot', hcm'⟩ := send (addressLo (e.bodyAddress c)) (by obtain ⟨h, -⟩ | h := hrlo hp <;> simp [h])
    exact ⟨⟨by simp, by simp, by simp, fun _ => hgot'.trans hgot⟩, hee, hcm'⟩
  case r1Stop =>
    rw [ewsLine_r1Stop hp] at hs; cases hs
    exact ⟨⟨by simp, by simp, by simp, by simp [EwsPos.inTxn]⟩, rfl, Eeprom.stop_commit_of_got hgot⟩
  case r2 =>
    rw [ewsLine_r2 hp] at hs; cases hs
    exact ⟨⟨fun _ => rfl, by simp, by simp, fun _ => rfl⟩, rfl, rfl⟩
  case r2Ctl =>
    rw [ewsLine_r2Ctl hp] at hs; cases hs
    obtain ⟨hee, hgot', hcm'⟩ := send c.ctrlR (by simp [hctl (.inr hp)])
    exact ⟨⟨by simp, by simp, by simp, fun _ => hgot'.trans hgot⟩, hee, hcm'⟩
  case r2Rx =>
    rw [ewsLine_r2Rx hp] at hs; cases hs
    obtain ⟨hee, hgot', hcm'⟩ := Eeprom.afterReceive_quiet (c := c) (d := e.eeprom) (decide (e.ri + 1 ≠ e.bodyLength c))
    refine ⟨⟨fun h => ?_, fun h => ?_, fun h => ?_, fun _ => hgot'.trans hgot⟩, hee, hcm'⟩
    all_goals
      dsimp only at h
      split at h
      all_goals simp at h
  case r2Stop =>
    rw [ewsLine_r2Stop hp] at hs
    obtain ⟨-, rfl⟩ | ⟨-, -, rfl⟩ | ⟨-, -, rfl⟩ := Ews.readDone_some hs
    all_goals exact ⟨⟨by simp, by simp, by simp, by simp [EwsPos.inTxn]⟩, rfl, Eeprom.stop_commit_of_got hgot⟩
  case pr | ssT0 | ssST =>
    simp only [ewsLine, hp] at hs
    cases hs
    exact ⟨⟨by simp, by simp, by simp, by simp [EwsPos.inTxn]⟩, rfl, rfl⟩
  case ssCT =>
    rw [ewsLine_ssCT hp] at hs; cases hs
    obtain ⟨hee, hgot', hcm'⟩ := send c.ctrlW (by simp [hct hp])
    refine ⟨⟨fun h => ?_, fun h => ?_, fun h => ?_, fun _ => hgot'.trans hgot⟩, hee, hcm'⟩
    all_goals
      dsimp only at h
      split at h
      all_goals simp at h
  case ssCK =>
    rw [ewsLine_ssCK hp] at hs; cases hs
    split
    all_goals exact ⟨⟨by simp, by simp, by simp, fun _ => hgot⟩, rfl, rfl⟩
  case ssHI =>
    rw [ewsLine_ssHI hp] at hs; cases hs
    obtain ⟨hee, hgot', hcm'⟩ := send (addressHi (e.startAddress c)) (by obtain h | h := hhi hp <;> simp [h])
    exact ⟨⟨by simp, by simp, by simp, fun _ => hgot'.trans hgot⟩, hee, hcm'⟩
  case ssLO =>
    rw [ewsLine_ssLO hp] at hs
    obtain ⟨p, hret, rfl⟩ := Option.map_eq_some_iff.1 hs
    obtain ⟨hee, hgot', hcm'⟩ := send (addressLo (e.startAddress c)) (by obtain ⟨h, -⟩ | h := hlo hp <;> simp [h])
    obtain ⟨-, rfl⟩ | ⟨-, rfl⟩ := Ews.startReturn_some hret
    all_goals exact ⟨⟨by simp, by simp, by simp, fun _ => hgot'.trans hgot⟩, hee, hcm'⟩
  all_goals simp [hp, EwsPos.serves] at hserves

/-- In the plain form of EWS.READ's body StartSequence is not reached (R153). -/
theorem ewsLine_plain (hb : e.BlockInv c) (hop : e.reads) (hack : c.ewsReadAckpoll = false) (hp : e.pos.sending = false)
    (hs : ewsLine c e = some g) : g.timedOut = e.timedOut ∧ g.t0 = e.t0 ∧ g.pos.sending = false := by
  have hserves := Ews.reads_serves hb hop
  obtain ⟨-, -, ht0⟩ := ewsLine_keeps hs
  have htimed : g.timedOut = e.timedOut := by
    have h := ewsLine_timedOut hs
    have hck : e.pos ≠ .ssCK := fun h => by simp [h, EwsPos.sending] at hp
    simpa [hck, ← Bool.eq_iff_iff] using h
  refine ⟨htimed, ht0 fun h => (by simp [h, EwsPos.sending] at hp), ?_⟩
  cases hp' : e.pos <;> simp only [hp', EwsPos.sending] at hp
  case ready => rw [ewsLine_ready hp'] at hs; cases hs
  case r1 =>
    rw [ewsLine_r1 hp', if_neg (Bool.eq_false_iff.1 hack)] at hs
    cases hs
    rfl
  case r2Rx => rw [ewsLine_r2Rx hp'] at hs; cases hs; dsimp only; split <;> rfl
  case r2Stop =>
    rw [ewsLine_r2Stop hp'] at hs
    obtain ⟨-, rfl⟩ | ⟨-, -, rfl⟩ | ⟨-, -, rfl⟩ := Ews.readDone_some hs
    all_goals rfl
  case pr | r1Ctl | r1Hi | r1Lo | r1Stop | r2 | r2Ctl =>
    simp only [ewsLine, hp'] at hs
    cases hs
    rfl
  case w0 | ws | ea => simp [hp', EwsPos.serves] at hserves
  all_goals cases hp

/-- A line at which no acknowledge poll gives up leaves EWS and its EEPROM together (R75, R76, R151, R153). -/
theorem ewsLine_listened (hc : c.Valid) (hb : e.BlockInv c) (hi : e.InStep c) (hop : e.reads) (hq : e.Quiet c)
    (hgood : c.ewsReadAckpoll = true ∨ e.eeprom.commit = false) (h : e.Listened c) (hs : ewsLine c e = some g)
    (hlate : g.timedOut = false) : g.Listened c := by
  have hserves := Ews.reads_serves hb hop
  have hstart : e.startAddress c = e.bodyAddress c := by obtain h | h := hop <;> simp [Ews.startAddress, h]
  have hrange := Ews.body_range hc hb (by obtain h | h := hop <;> simp [h])
  obtain ⟨-, -, -, -, -, -, -, -, -, -, hrx, -⟩ := hb
  obtain ⟨hct, -, hhi, hlo, -⟩ := hi
  obtain ⟨hctl, hrhi, hrlo, hgot⟩ := hq
  unfold Ews.Listened at h
  cases hp : e.pos <;> simp only [hp] at h
  case ready => rw [ewsLine_ready hp] at hs; cases hs
  case r2Stop =>
    rw [ewsLine_r2Stop hp] at hs
    obtain ⟨-, rfl⟩ | ⟨-, -, rfl⟩ | ⟨-, -, rfl⟩ := Ews.readDone_some hs
    all_goals trivial
  case r1 =>
    rw [ewsLine_r1 hp] at hs; cases hs
    split
    next => trivial
    next hack => exact hgood.resolve_left hack
  case r1Ctl =>
    rw [ewsLine_r1Ctl hp] at hs; cases hs
    simp [Ews.Listened, Eeprom.afterSend_ctrlW (hctl (.inl hp)) h, h]
  case r1Hi =>
    rw [ewsLine_r1Hi hp] at hs; cases hs
    obtain ⟨hmode, hcm⟩ := h
    simp [Ews.Listened, Eeprom.afterSend_aHi ((hrhi hp).resolve_right hmode), hcm]
  case r1Lo =>
    rw [ewsLine_r1Lo hp] at hs; cases hs
    obtain ⟨hmode, hcm⟩ := h
    obtain ⟨hmode, hh⟩ := (hrlo hp).resolve_right hmode
    have hsend := Eeprom.afterSend_aLo hc hmode hh (by omega)
    exact ⟨congrArg Eeprom.ptr hsend, (congrArg Eeprom.commit hsend).trans hcm⟩
  case r1Stop =>
    rw [ewsLine_r1Stop hp] at hs; cases hs
    obtain ⟨hptr, hcm⟩ := h
    exact ⟨hptr, (Eeprom.stop_commit_of_got (hgot (by simp [hp, EwsPos.inTxn]))).trans hcm⟩
  case r2 => rw [ewsLine_r2 hp] at hs; cases hs; exact h
  case r2Ctl =>
    rw [ewsLine_r2Ctl hp] at hs; cases hs
    obtain ⟨hptr, hcm⟩ := h
    have hsend := Eeprom.afterSend_ctrlR hc (hctl (.inr hp)) hcm
    exact ⟨congrArg Eeprom.mode hsend, (congrArg Eeprom.ptr hsend).trans hptr, rfl⟩
  case r2Rx =>
    obtain ⟨hmode, hptr, hgot⟩ := h
    obtain ⟨hlt, -⟩ := hrx hp
    obtain ⟨hbyte, hnext⟩ := Eeprom.afterReceive_rData (c := c) (ack := decide (e.ri + 1 ≠ e.bodyLength c)) hmode
    have hrx : e.rx ++ [e.eeprom.receiveResult] = e.eeprom.ee.bytes .eeprom (e.bodyAddress c) (e.ri + 1) := by
      rw [hbyte, hptr, hgot, Memory.bytes_succ]
    rw [← Eeprom.ee_afterReceive c (decide (e.ri + 1 ≠ e.bodyLength c))] at hrx
    rw [ewsLine_r2Rx hp] at hs; cases hs
    rcases Nat.lt_or_ge (e.ri + 1) (e.bodyLength c) with hmore | hlast
    · rw [if_pos hmore]
      refine ⟨(congrArg Eeprom.mode hnext).trans (if_pos (by simp; omega)), (congrArg Eeprom.ptr hnext).trans ?_, hrx⟩
      rw [hptr]
      exact Nat.mod_eq_of_lt (by omega)
    · rw [if_neg (Nat.not_lt.2 hlast)]
      exact hrx.trans (congrArg (Memory.bytes .eeprom _ _) (show e.ri + 1 = e.bodyLength c by omega))
  case pr | ssT0 | ssST =>
    simp only [ewsLine, hp] at hs
    cases hs
    trivial
  case ssCT =>
    rw [ewsLine_ssCT hp] at hs; cases hs
    cases hcm : e.eeprom.commit with
    | true => simp [Ews.Listened, Eeprom.afterSend_committing (hct hp) hcm]
    | false => simp [Ews.Listened, Eeprom.afterSend_ctrlW (hct hp) hcm, hcm]
  case ssCK =>
    rw [ewsLine_ssCK hp] at hs
    split at hs
    · cases hs; cases hlate
    · cases hs; trivial
  case ssHI =>
    rw [ewsLine_ssHI hp] at hs; cases hs
    obtain ⟨hmode, hcm⟩ := h
    simp [Ews.Listened, Eeprom.afterSend_aHi ((hhi hp).resolve_right hmode), hcm]
  case ssLO =>
    rw [ewsLine_ssLO hp] at hs
    obtain ⟨p, hret, rfl⟩ := Option.map_eq_some_iff.1 hs
    obtain ⟨hmode, hcm⟩ := h
    obtain ⟨hmode, hh⟩ := (hlo hp).resolve_right hmode
    have hsend := Eeprom.afterSend_aLo hc hmode hh (by omega)
    obtain ⟨hwrite, -⟩ | ⟨-, rfl⟩ := Ews.startReturn_some hret
    · obtain h | h := hop <;> simp [h] at hwrite
    · exact ⟨(congrArg Eeprom.ptr hsend).trans hstart, (congrArg Eeprom.commit hsend).trans hcm⟩
  all_goals simp [hp, EwsPos.serves] at hserves

/-- EWS.READ's body ends behind its last byte (R153). -/
theorem ewsLine_reaches_r2Stop (hb : e.BlockInv c) (hs : ewsLine c e = some g) (hg : g.pos = .r2Stop) :
    g.ri = g.bodyLength c := by
  obtain ⟨-, -, -, hlead⟩ := ewsLine_leads hs
  have hp := hlead hg
  obtain ⟨-, hl, -⟩ := Ews.body_congr (c := c) (ewsLine_frame (by simp [hp]) (by simp [hp]) hs)
  obtain ⟨-, -, -, -, -, -, -, -, -, -, hrx, -⟩ := hb
  obtain ⟨hlt, -⟩ := hrx hp
  rw [hl]
  rw [ewsLine_r2Rx hp] at hs
  cases hs
  show e.ri + 1 = e.bodyLength c
  by_contra hne
  rw [if_pos (show e.ri + 1 < e.bodyLength c by omega)] at hg
  cases hg

theorem Ews.withReadOf_moves (c : Config) (e : Ews) : e.withReadOf (e.moves c) = e.moves c := by
  unfold moves
  split
  · split_ifs <;> rfl
  · rfl

/-- The accepted command is the one that runs (R28). -/
theorem Ews.withReadOf_eq (h : b.withReadOf e = e) : e.op = b.op ∧ e.opAddr = b.opAddr ∧ e.n = b.n := by
  rw [← h]
  exact ⟨rfl, rfl, rfl⟩

/-- The collaborators' own move: the EEPROM is where it was, at most a commit has ended (R77). -/
theorem Ews.Listened.moves (h : e.Listened c) : (e.moves c).Listened c := by
  have hl : (e.moves c).bodyLength c = e.bodyLength c := by simp [bodyLength]
  have ha : (e.moves c).bodyAddress c = e.bodyAddress c := by simp [bodyAddress]
  unfold Listened at h
  simp only [Listened, moves_pos, moves_mode, moves_ptr, moves_ee, moves_ri, moves_rx, hl, ha]
  cases hp : e.pos <;> simp only [hp] at h ⊢
  case r1Ctl => exact moves_commit h
  case ssHI | ssLO | r1Hi | r1Lo | r1Stop | r2 | r2Ctl => exact h.imp_right moves_commit
  all_goals exact h

/-- The collaborators' own move is none of the command's doing (R77, R78). -/
theorem Ews.Receiving.moves (h : Ews.Receiving c b e) : Ews.Receiving c b (e.moves c) where
  frame := (congrArg (Ews.withReadOf · (e.moves c)) h.frame).trans (Ews.withReadOf_moves c e)
  page := by simpa using h.page
  quiet := by
    obtain ⟨hctl, hhi, hlo, hgot⟩ := h.quiet
    exact ⟨by simpa using hctl, by simpa using hhi, by simpa [Ews.bodyAddress] using hlo, by simpa using hgot⟩
  ee := by simpa using h.ee
  commit hcm := Ews.moves_commit (h.commit hcm)
  count := by simpa [Ews.bodyLength] using h.count
  plain := by simpa using h.plain
  listened hlate hgood := (h.listened (by simpa using hlate) hgood).moves
  diag := by simpa using h.diag
  shown := by simpa using h.shown

/-- A line of a reading command that does not end it (R153, R205). -/
theorem Ews.Receiving.line (hc : c.Valid) (hop : b.reads) (hway : e.OnItsWay c) (h : Ews.Receiving c b e)
    (hs : ewsLine c e = some g) (hg : g.busy = true) : Ews.Receiving c b g := by
  obtain ⟨hb, -, hi, -⟩ := hway
  obtain ⟨hframe, hpage, hquiet, hee, hcommit, -, hplain, hlistened, hdiag, hshown⟩ := h
  obtain ⟨hbop, -⟩ := Ews.withReadOf_eq hframe
  have hope : e.reads := by simpa [Ews.reads, hbop] using hop
  obtain ⟨hgframe, hgpage⟩ := ewsLine_withReadOf hb hope hs hg
  obtain ⟨hgquiet, hgee, hgcm⟩ := ewsLine_quiet hb hi hope hquiet hs
  have hlate := ewsLine_timedOut_eq_false hs
  refine ⟨(congrArg (Ews.withReadOf · g) hframe).trans hgframe, fun hread => ?_, hgquiet, hgee.trans hee,
    fun hcm => hgcm.trans (hcommit hcm), ewsLine_reaches_r2Stop hb hs, fun hack => ?_, fun hl hgood => ?_,
    hdiag.trans (ewsLine_report hs).2.2.1, fun hprint hl hgood => ?_⟩
  · obtain ⟨h1, h2, h3⟩ := hgpage (.inl (hbop.trans hread))
    obtain ⟨k1, k2, k3⟩ := hpage hread
    exact ⟨h1.trans k1, h2.trans k2, h3.trans k3⟩
  · obtain ⟨h1, h2, h3⟩ := hplain hack
    obtain ⟨k1, k2, k3⟩ := ewsLine_plain hb hope hack h3 hs
    exact ⟨k1.trans h1, k2.trans h2, k3⟩
  · exact ewsLine_listened hc hb hi hope hquiet (hgood.imp_right hcommit) (hlistened (hlate hl) hgood) hs hl
  · have hshown := hshown hprint (hlate hl) hgood
    by_cases hr : e.pos = .r2Stop
    · have hrx : e.rx = b.eeprom.ee.bytes .eeprom (e.page * c.eePage) c.eePage := by
        have := hlistened (hlate hl) hgood
        simpa [Ews.Listened, hr, hee, Ews.bodyAddress, Ews.bodyLength, hbop, hprint] using this
      rw [ewsLine_r2Stop hr] at hs
      obtain ⟨-, rfl⟩ | ⟨-, -, rfl⟩ | ⟨-, -, rfl⟩ := Ews.readDone_some hs
      · cases hg
      · simp [hshown, hrx, printedPages_succ]
      · cases hg
    · obtain ⟨h1, -, h3⟩ := hgpage (.inr hr)
      rw [h3, hshown, h1]

/-- A sequencer step of a reading command that does not end it. -/
theorem Ews.Receiving.step (hc : c.Valid) (hop : b.reads) (hway : e.OnItsWay c) (h : Ews.Receiving c b e) (hs : ewsSeq c e = some g)
    (hg : g.busy = true) : Ews.Receiving c b g :=
  h.moves.line hc hop hway.moves hs hg

/-- EWS.READ or EWS.PRINT, just accepted (R150). -/
theorem Ews.receiving_accepted (hp : b.pos = .r1 ∨ b.pos = .pr) (hlate : b.timedOut = false)
    (hpage : b.op = .print → b.page = 0) : Ews.Receiving c b b where
  frame := rfl
  page _ := ⟨rfl, rfl, rfl⟩
  quiet := by obtain h | h := hp <;> exact ⟨by simp [h], by simp [h], by simp [h], by simp [h, EwsPos.inTxn]⟩
  ee := rfl
  commit := id
  count hp' := by simp [hp'] at hp
  plain _ := ⟨hlate, rfl, by obtain h | h := hp <;> simp [h, EwsPos.sending]⟩
  listened _ _ := by obtain h | h := hp <;> simp [Ews.Listened, h]
  diag := List.prefix_rfl
  shown hprint _ _ := by simp [hpage hprint, printedPages]

/-- The last step of a reading command is the stop of its last transaction and what follows it (R153, R205). -/
theorem Ews.Receiving.ends (hop : b.reads) (hway : e.OnItsWay c) (hbusy : e.busy = true) (h : Ews.Receiving c b e)
    (hs : ewsSeq c e = some g) (hg : g.busy = false) :
    ∃ x, Ews.Receiving c b x ∧ x.pos = .r2Stop ∧ x.rx.length = x.bodyLength c
      ∧ ((b.op = .read ∧ g = { x.callStop with dout := x.dout ++ x.rx }.complete)
        ∨ (b.op = .print ∧ x.page + 1 = c.eePages
          ∧ g = { x.callStop with pbuf := x.rx, diag := x.diag ++ pageLines c x.page x.rx }.complete)) := by
  have hx := h.moves
  have hb := hway.moves.block
  have hxbusy : (e.moves c).busy = true := by simpa using hbusy
  unfold ewsSeq at hs
  generalize e.moves c = x at *
  obtain ⟨hbop, -⟩ := Ews.withReadOf_eq hx.frame
  have hserves := Ews.reads_serves hb (by simpa [Ews.reads, hbop] using hop)
  obtain ⟨hp, hdone⟩ | ⟨hp, -⟩ := ewsLine_ends hxbusy hs hg
  · obtain ⟨-, -, -, -, -, -, -, -, -, -, -, hrx, -⟩ := hb
    refine ⟨x, hx, hp, hrx hp, ?_⟩
    obtain ⟨hread, rfl⟩ | ⟨-, -, rfl⟩ | ⟨hprint, hpage, rfl⟩ := Ews.readDone_some hdone
    · exact .inl ⟨hbop ▸ hread, rfl⟩
    · exact absurd hxbusy (Bool.eq_false_iff.1 hg)
    · exact .inr ⟨hbop ▸ hprint, hpage, rfl⟩
  · simp [hp, EwsPos.serves] at hserves

/-- EWS at the end of a reading command (R150, R153, R205). -/
theorem Ews.Receiving.complete_eq (h : Ews.Receiving c b e) (dout pbuf : List Byte) (diag : List Char) :
    Ews.complete { e.callStop with dout := dout, pbuf := pbuf, diag := diag } = { b with
      page := e.page, pbuf := pbuf, op := .none, pos := .ready, busy := false, txnOpen := false, timedOut := e.timedOut, t0 := e.t0
      ri := e.ri, rx := e.rx, dout := dout, diag := diag
      rsp := b.rsp ++ [response b.opc (if e.timedOut then .okTimedOut else .ok) 0#16]
      eeprom := e.eeprom.stop, clock := e.clock, sched := e.sched, trace := .stop :: e.trace } := by
  conv_lhs => rw [← h.frame]
  rfl

/-- What a reading command leaves of the EEPROM (R153): its content, and a commit only where one was in progress. -/
theorem Ews.Receiving.stop_eeprom (h : Ews.Receiving c b e) (hp : e.pos = .r2Stop) :
    (∀ a, e.eeprom.stop.ee.read? .eeprom a = b.eeprom.ee.read? .eeprom a)
      ∧ (b.eeprom.commit = false → e.eeprom.stop.commit = false) ∧ e.eeprom.stop.mode = .idle :=
  ⟨fun _ => congrArg (Memory.read? .eeprom · _) h.ee,
    fun hcm => (Eeprom.stop_commit_of_got (h.quiet.got (by simp [hp, EwsPos.inTxn]))).trans (h.commit hcm), rfl⟩

end read

/-! ## The two commands -/

/-- Settles O37: the bytes received up to the stop of the last transaction are the EEPROM's, as long as it listens. -/
theorem ewsReadResult : Obligations.EwsReadResult := by
  intro s address n h hn hrange
  obtain ⟨⟨hc, -, hblock, -⟩, -, hbusy, -⟩ := id h
  obtain ⟨hpos, hop, htxn⟩ := hblock.atRest hbusy
  obtain ⟨e, g, hexec, hway, hebusy, hreceiving, hlast, hdone⟩ := exec_ews (i := .ewsRead address n)
    (P := Ews.Receiving s.cfg (acceptedEws (.ewsRead address n) s.ews)) h rfl rfl (ewsRangeOk_iff.2 ⟨hn, hrange⟩)
    (Ews.receiving_accepted (.inl rfl) rfl nofun) fun e g hway _ hP hs hg => hP.step hc (.inl rfl) hway hs hg
  obtain ⟨x, hx, hp, hlen, ⟨-, rfl⟩ | ⟨hprint, -⟩⟩ := hreceiving.ends (.inl rfl) hway hebusy hlast hdone
  · obtain ⟨hxop, hxaddr, hxn⟩ := Ews.withReadOf_eq hx.frame
    have hxop : x.op = .read := hxop
    have hl : x.bodyLength s.cfg = n.toNat := by simp only [Ews.bodyLength, hxop, hxn]; rfl
    have hdout : x.dout = s.ews.dout := by rw [← hx.frame]; rfl
    obtain ⟨hpage, hpbuf, hdiag⟩ := hx.page rfl
    obtain ⟨hee, hcommit, hidle⟩ := hx.stop_eeprom hp
    obtain ⟨hri, hlen⟩ : x.ri = n.toNat ∧ x.rx.length = n.toNat := ⟨(hx.count hp).trans hl, hlen.trans hl⟩
    refine ⟨x.timedOut, x.t0, x.rx, x.eeprom.stop, x.clock, x.sched, .stop :: x.trace, ?_, hlen, fun hlate hgood => ?_, fun hack => ?_,
      hee, hcommit, hidle⟩
    · rw [hexec, hx.complete_eq, Ews.callStop_pbuf, Ews.callStop_diag, hpage, hpbuf, hdiag, hri, hdout,
        ← response_result (by decide : 0x20#8 ++ 0#24 = 0x20000000#32)
        (by decide : 0x20#8 ++ 0x010000#24 = 0x20010000#32)]
      simp only [hpos, hop, htxn, hbusy]
      rfl
    · have hrx := hx.listened hlate hgood
      simp only [Ews.Listened, hp] at hrx
      rw [hrx, hx.ee, hl, Ews.bodyAddress, hxop, hxaddr]
      rfl
    · obtain ⟨hlate, ht0, -⟩ := hx.plain hack
      exact ⟨hlate, ht0⟩
  · cases hprint

/-- Settles O42: page after page is received, as long as the EEPROM listens, and shown, to the last. -/
theorem ewsPrintResult : Obligations.EwsPrintResult := by
  intro s h hrows
  obtain ⟨⟨hc, -, hblock, -⟩, -, hbusy, -⟩ := id h
  obtain ⟨hpos, hop, htxn⟩ := hblock.atRest hbusy
  obtain ⟨e, g, hexec, hway, hebusy, hreceiving, hlast, hdone⟩ := exec_ews (i := .ewsPrint)
    (P := Ews.Receiving s.cfg (acceptedEws .ewsPrint s.ews)) h rfl rfl (decide_eq_true hrows)
    (Ews.receiving_accepted (.inr rfl) rfl fun _ => rfl) fun e g hway _ hP hs hg => hP.step hc (.inr rfl) hway hs hg
  obtain ⟨x, hx, hp, hlen, ⟨hread, -⟩ | ⟨-, hlastPage, rfl⟩⟩ := hreceiving.ends (.inr rfl) hway hebusy hlast hdone
  · cases hread
  · obtain ⟨hxop, -⟩ := Ews.withReadOf_eq hx.frame
    have hxop : x.op = .print := hxop
    have hl : x.bodyLength s.cfg = s.cfg.eePage := by simp only [Ews.bodyLength, hxop]
    have hdout : x.dout = s.ews.dout := by rw [← hx.frame]; rfl
    have hpage : x.page = s.cfg.eePages - 1 := by omega
    obtain ⟨hee, hcommit, hidle⟩ := hx.stop_eeprom hp
    obtain ⟨hri, hlen⟩ : x.ri = s.cfg.eePage ∧ x.rx.length = s.cfg.eePage := ⟨(hx.count hp).trans hl, hlen.trans hl⟩
    obtain ⟨shown, hshown⟩ : s.ews.diag <+: x.diag := hx.diag
    refine ⟨x.timedOut, x.t0, x.rx, shown ++ pageLines s.cfg x.page x.rx, x.eeprom.stop, x.clock, x.sched, .stop :: x.trace, ?_, hlen,
      fun hlate hgood => ?_, fun hack => ?_, hee, hcommit, hidle⟩
    · rw [hexec, hx.complete_eq, Ews.callStop_dout, hri, hdout, ← List.append_assoc, hshown, ← hpage,
        ← response_result (by decide : 0x23#8 ++ 0#24 = 0x23000000#32) (by decide : 0x23#8 ++ 0x010000#24 = 0x23010000#32)]
      simp only [hpos, hop, htxn, hbusy]
      rfl
    · have hrx : x.rx = s.ews.eeprom.ee.bytes .eeprom (x.page * s.cfg.eePage) s.cfg.eePage := by
        have hrx := hx.listened hlate hgood
        simp only [Ews.Listened, hp] at hrx
        rw [hrx, hx.ee, hl, Ews.bodyAddress, hxop]
        rfl
      have hdiag := hx.shown rfl hlate hgood
      have hshown : shown = printedPages s.cfg s.ews.eeprom.ee x.page :=
        List.append_cancel_left (hshown.trans hdiag)
      refine ⟨?_, hpage ▸ hrx⟩
      rw [hshown, hrx, ← printedPages_succ, hlastPage]
      rfl
    · obtain ⟨hlate, ht0, -⟩ := hx.plain hack
      exact ⟨hlate, ht0⟩

end Sys2Proof.Machine
end

section
/-! PROOFS. The calls of EWS.READ and EWS.WRITE with an ideal EEPROM (41_eeprom_write_splitter.md R153, R154, R157). -/

namespace Sys2Proof.Machine

/-! ## Ideal collaborators (R79) -/

/-- EWS's collaborators are ideal: the tick stands still and the EEPROM takes `DONE` before every sequencer step, so that no poll is
refused; `b` is EWS as it accepted the command (R79, log 8). -/
structure Ews.Ideal (b e : Ews) : Prop where
  sched : e.sched = []
  clock : e.clock = b.clock
  polled : e.pos ≠ .ssCK ∧ e.timedOut = false

/-- The calls EWS has made since it accepted a command, the oldest first. -/
theorem newCalls_of_append {before after l : List BusCall} (h : after = l ++ before) : newCalls before after = l.reverse := by
  simp [newCalls, h]

theorem newCalls_of_reverse {before after calls : List BusCall} (h : after.reverse = before.reverse ++ calls) :
    newCalls before after = calls := by
  have happend : after = calls.reverse ++ before := by
    rw [← List.reverse_reverse after, h, List.reverse_append, List.reverse_reverse]
  rw [newCalls_of_append happend, List.reverse_reverse]

section ideal
variable {c : Config} {b e g : Ews}

/-- The ideal collaborators' own move. -/
theorem Ews.Ideal.moves (h : Ews.Ideal b e) : Ews.Ideal b (e.moves c) where
  sched := by simp [h.sched]
  clock := (Ews.moves_clock_nil h.sched).trans h.clock
  polled := by simpa using h.polled

/-- A line with an EEPROM that is not committing keeps the collaborators ideal. -/
theorem ewsLine_ideal (hi : e.InStep c) (hcm : e.eeprom.commit = false) (h : Ews.Ideal b e) (hs : ewsLine c e = some g) :
    Ews.Ideal b g := by
  obtain ⟨hsched, hclock, hck, hlate⟩ := h
  have ideal : ∀ x : Ews, x.sched = e.sched → x.clock = e.clock → x.timedOut = e.timedOut → x.pos ≠ .ssCK → Ews.Ideal b x :=
    fun x h1 h2 h3 h4 => ⟨h1.trans hsched, h2.trans hclock, h4, h3.trans hlate⟩
  cases hp : e.pos
  case ready => rw [ewsLine_ready hp] at hs; cases hs
  case ssCK => exact absurd hp hck
  case ssCT =>
    rw [ewsLine_ssCT hp, (Eeprom.afterSend_ctrlW (c := c) (hi.1 hp) hcm).2] at hs
    cases hs
    exact ideal _ rfl rfl rfl nofun
  case ssLO =>
    rw [ewsLine_ssLO hp] at hs
    obtain ⟨p, hret, rfl⟩ := Option.map_eq_some_iff.1 hs
    obtain ⟨-, rfl⟩ | ⟨-, rfl⟩ := Ews.startReturn_some hret
    all_goals exact ideal _ rfl rfl rfl nofun
  case ws =>
    rw [ewsLine_ws hp] at hs
    obtain ⟨-, rfl⟩ | ⟨-, -, rfl⟩ | ⟨-, -, rfl⟩ := Ews.writeDone_some hs
    all_goals exact ideal _ rfl rfl rfl nofun
  case r2Stop =>
    rw [ewsLine_r2Stop hp] at hs
    obtain ⟨-, rfl⟩ | ⟨-, -, rfl⟩ | ⟨-, -, rfl⟩ := Ews.readDone_some hs
    all_goals exact ideal _ rfl rfl rfl nofun
  case r1 => rw [ewsLine_r1 hp] at hs; cases hs; split <;> exact ideal _ rfl rfl rfl nofun
  case r2Rx => rw [ewsLine_r2Rx hp] at hs; cases hs; exact ideal _ rfl rfl rfl (by dsimp only; split <;> nofun)
  case wb =>
    rw [ewsLine_wb hp] at hs; cases hs
    exact ideal _ rfl rfl rfl (by dsimp only; unfold afterByte; split_ifs <;> nofun)
  all_goals
    simp only [ewsLine, hp] at hs
    cases hs
    exact ideal _ rfl rfl rfl nofun

end ideal

/-! ## The calls of EWS.READ (R153, R157) -/

/-- The calls of EWS.READ up to the first receive, with ideal collaborators (R151, R153). -/
def readHead (c : Config) (tick a : Nat) : List BusCall :=
  [.now tick, .start, .send c.ctrlW true, .send (addressHi a) true, .send (addressLo a) true, .stop, .start, .send c.ctrlR true]

/-- The first `k` of the `n` receives of EWS.READ (R153, R157). -/
def receives (m : Memory) (a n k : Nat) : List BusCall :=
  (List.range k).map (fun j => .receive (decide (j + 1 < n)) (m.byte .eeprom (a + j)))

theorem receives_succ (m : Memory) (a n k : Nat) :
    receives m a n (k + 1) = receives m a n k ++ [.receive (decide (k + 1 < n)) (m.byte .eeprom (a + k))] := by
  simp [receives, List.range_succ]

/-- The calls EWS.READ in its acknowledge-polled form has made at a position, with ideal collaborators (R151, R153). -/
def Ews.readCalls (c : Config) (e : Ews) : List BusCall :=
  match e.pos with
  | .ssST => (readHead c e.clock.tick (e.bodyAddress c)).take 1
  | .ssCT => (readHead c e.clock.tick (e.bodyAddress c)).take 2
  | .ssHI => (readHead c e.clock.tick (e.bodyAddress c)).take 3
  | .ssLO => (readHead c e.clock.tick (e.bodyAddress c)).take 4
  | .r1Stop => (readHead c e.clock.tick (e.bodyAddress c)).take 5
  | .r2 => (readHead c e.clock.tick (e.bodyAddress c)).take 6
  | .r2Ctl => (readHead c e.clock.tick (e.bodyAddress c)).take 7
  | .r2Rx => readHead c e.clock.tick (e.bodyAddress c) ++ receives e.eeprom.ee (e.bodyAddress c) (e.bodyLength c) e.ri
  | .r2Stop => readHead c e.clock.tick (e.bodyAddress c) ++ receives e.eeprom.ee (e.bodyAddress c) (e.bodyLength c) (e.bodyLength c)
  | .ready | .r1 | .r1Ctl | .r1Hi | .r1Lo | .w0 | .wb | .wx | .ws | .ea | .pr | .ssT0 | .ssCK => []

/-- EWS.READ in its acknowledge-polled form, its collaborators ideal, has made the calls of its position. -/
structure Ews.ReadCalling (c : Config) (b e : Ews) : Prop where
  receiving : Ews.Receiving c b e
  ideal : Ews.Ideal b e
  polled : e.pos ≠ .r1Ctl ∧ e.pos ≠ .r1Hi ∧ e.pos ≠ .r1Lo
  calls : e.trace.reverse = b.trace.reverse ++ e.readCalls c

section read
variable {c : Config} {b e g : Ews}

/-- The collaborators' own move makes no call. -/
theorem Ews.ReadCalling.moves (h : Ews.ReadCalling c b e) : Ews.ReadCalling c b (e.moves c) where
  receiving := h.receiving.moves
  ideal := h.ideal.moves
  polled := by simpa using h.polled
  calls := by
    have hclock : (e.moves c).clock = e.clock := Ews.moves_clock_nil h.ideal.sched
    simpa [Ews.readCalls, hclock, Ews.bodyAddress, Ews.bodyLength] using h.calls

/-- A line of EWS.READ, the EEPROM not committing, adds the call that leads to its next position (R151, R153). -/
theorem ewsLine_readCalling (hc : c.Valid) (hack : c.ewsReadAckpoll = true) (hop : b.op = .read) (hway : e.OnItsWay c)
    (hcm : e.eeprom.commit = false) (h : Ews.ReadCalling c b e) (hs : ewsLine c e = some g) (hg : g.busy = true) :
    Ews.ReadCalling c b g := by
  have hreceiving := h.receiving.line hc (.inl hop) hway hs hg
  have hideal := ewsLine_ideal hway.inStep hcm h.ideal hs
  have hlistened := h.receiving.listened h.ideal.polled.2 (.inl hack)
  have hope : e.op = .read := (Ews.withReadOf_eq h.receiving.frame).1.trans hop
  have hbody : e.bodyAddress c = e.opAddr.toNat := by simp [Ews.bodyAddress, hope]
  have hstart : e.startAddress c = e.opAddr.toNat := by simp [Ews.startAddress, hope, hbody]
  have hlength : e.bodyLength c = e.n.toNat := by simp [Ews.bodyLength, hope]
  obtain ⟨-, -, hck, -⟩ := h.ideal
  obtain ⟨hserves, -, -, -, -, -, -, -, -, -, hrx, -⟩ := hway.block
  obtain ⟨hct, -, hhi, hlo, -⟩ := hway.inStep
  have hcalls := h.calls
  unfold Ews.Listened at hlistened
  unfold Ews.readCalls at hcalls
  cases hp : e.pos <;> simp only [hp, hbody, hlength] at hlistened hcalls
  case ready => rw [ewsLine_ready hp] at hs; cases hs
  case ssCK => exact absurd hp hck
  case r1Ctl => exact absurd hp h.polled.1
  case r1Hi => exact absurd hp h.polled.2.1
  case r1Lo => exact absurd hp h.polled.2.2
  case r1 =>
    rw [ewsLine_r1 hp, if_pos hack] at hs; cases hs
    exact ⟨hreceiving, hideal, ⟨nofun, nofun, nofun⟩, hcalls⟩
  case ssT0 =>
    rw [ewsLine_ssT0 hp] at hs; cases hs
    exact ⟨hreceiving, hideal, ⟨nofun, nofun, nofun⟩, by simp [hcalls, Ews.readCalls, readHead]⟩
  case ssST =>
    rw [ewsLine_ssST hp] at hs; cases hs
    exact ⟨hreceiving, hideal, ⟨nofun, nofun, nofun⟩, by simp [hcalls, Ews.readCalls, readHead]⟩
  case ssCT =>
    obtain ⟨-, hyes⟩ := Eeprom.afterSend_ctrlW (c := c) (hct hp) hcm
    rw [ewsLine_ssCT hp, hyes] at hs; cases hs
    exact ⟨hreceiving, hideal, ⟨nofun, nofun, nofun⟩, by simp [hcalls, Ews.readCalls, readHead, hyes]⟩
  case ssHI =>
    rw [ewsLine_ssHI hp] at hs; cases hs
    have hyes : e.eeprom.sendAck c (addressHi e.opAddr.toNat) = true := by
      simp [Eeprom.sendAck, (hhi hp).resolve_right hlistened.1]
    exact ⟨hreceiving, hideal, ⟨nofun, nofun, nofun⟩, by
      simp [hcalls, Ews.readCalls, readHead, hyes, hstart, Ews.bodyAddress, hope]⟩
  case ssLO =>
    rw [ewsLine_ssLO hp] at hs
    obtain ⟨p, hret, rfl⟩ := Option.map_eq_some_iff.1 hs
    obtain ⟨hmode, -⟩ := (hlo hp).resolve_right hlistened.1
    have hyes : e.eeprom.sendAck c (addressLo e.opAddr.toNat) = true := by simp [Eeprom.sendAck, hmode]
    obtain ⟨hwrite, -⟩ | ⟨-, rfl⟩ := Ews.startReturn_some hret
    · simp [hope] at hwrite
    · exact ⟨hreceiving, hideal, ⟨nofun, nofun, nofun⟩, by
        simp [hcalls, Ews.readCalls, readHead, hyes, hstart, Ews.bodyAddress, hope]⟩
  case r1Stop =>
    rw [ewsLine_r1Stop hp] at hs; cases hs
    exact ⟨hreceiving, hideal, ⟨nofun, nofun, nofun⟩, by simp [hcalls, Ews.readCalls, readHead, Ews.bodyAddress, hope]⟩
  case r2 =>
    rw [ewsLine_r2 hp] at hs; cases hs
    exact ⟨hreceiving, hideal, ⟨nofun, nofun, nofun⟩, by simp [hcalls, Ews.readCalls, readHead, Ews.bodyAddress, hope]⟩
  case r2Ctl =>
    rw [ewsLine_r2Ctl hp] at hs; cases hs
    have hyes : e.eeprom.sendAck c c.ctrlR = true := by simp [Eeprom.sendAck, h.receiving.quiet.ctl (.inr hp), hcm]
    exact ⟨hreceiving, hideal, ⟨nofun, nofun, nofun⟩, by
      simp [hcalls, Ews.readCalls, readHead, hyes, Ews.bodyAddress, hope, receives]⟩
  case r2Rx =>
    obtain ⟨hlt, -⟩ := hrx hp
    obtain ⟨hmode, hptr, -⟩ := hlistened
    obtain ⟨hbyte, -⟩ := Eeprom.afterReceive_rData (c := c) (ack := decide (e.ri + 1 ≠ e.bodyLength c)) hmode
    rw [hlength] at hlt
    rw [ewsLine_r2Rx hp, hlength] at hs; cases hs
    refine ⟨hreceiving, hideal, by dsimp only; split <;> exact ⟨nofun, nofun, nofun⟩, ?_⟩
    rcases Nat.lt_or_ge (e.ri + 1) e.n.toNat with hmore | hlast
    · have hne : e.ri + 1 ≠ e.n.toNat := by omega
      simp [hcalls, Ews.readCalls, Ews.bodyAddress, Ews.bodyLength, hope, hbyte, hptr, receives_succ, hmore, hne]
    · have hall : e.n.toNat = e.ri + 1 := by omega
      simp [hcalls, Ews.readCalls, Ews.bodyAddress, Ews.bodyLength, hope, hbyte, hptr, receives_succ, hall]
  case r2Stop =>
    rw [ewsLine_r2Stop hp] at hs
    obtain ⟨-, rfl⟩ | ⟨hprint, -⟩ | ⟨hprint, -⟩ := Ews.readDone_some hs
    · cases hg
    all_goals simp [hope] at hprint
  all_goals simp [hp, hope, EwsPos.serves] at hserves

/-- A sequencer step of EWS.READ with ideal collaborators. -/
theorem Ews.ReadCalling.step (hc : c.Valid) (hack : c.ewsReadAckpoll = true) (hop : b.op = .read) (hway : e.OnItsWay c)
    (h : Ews.ReadCalling c b e) (hs : ewsSeq c e = some g) (hg : g.busy = true) : Ews.ReadCalling c b g :=
  ewsLine_readCalling hc hack hop hway.moves (Ews.moves_ideal h.ideal.sched hway.stalled) h.moves hs hg

end read

/-- The two address bytes are the two halves of the operand (R55). -/
theorem addressHi_toNat (a : Half) : addressHi a.toNat = a.extractLsb' 8 8 := by
  apply BitVec.eq_of_toNat_eq
  simp [addressHi, Nat.shiftRight_eq_div_pow]

theorem addressLo_toNat (a : Half) : addressLo a.toNat = a.extractLsb' 0 8 := by
  apply BitVec.eq_of_toNat_eq
  simp [addressLo]

/-- Settles O38: every step adds the call that leads to its next position, and the command ends at the stop. -/
theorem ewsReadCallTrace : Obligations.EwsReadCallTrace := by
  intro s address n h hsched hack hn hrange
  obtain ⟨⟨hc, -⟩, -⟩ := id h
  obtain ⟨e, g, hexec, hway, hebusy, hcalling, hlast, hdone⟩ := exec_ews (i := .ewsRead address n)
    (P := Ews.ReadCalling s.cfg (acceptedEws (.ewsRead address n) s.ews)) h rfl rfl (ewsRangeOk_iff.2 ⟨hn, hrange⟩)
    ⟨Ews.receiving_accepted (.inl rfl) rfl nofun, ⟨hsched, rfl, nofun, rfl⟩, ⟨nofun, nofun, nofun⟩, by
      simp [Ews.readCalls, acceptedEws]⟩ fun e g hway _ hP hs hg => hP.step hc hack rfl hway hs hg
  have hx := hcalling.moves
  have hserves := hway.moves.block.1
  have hxbusy : (e.moves s.cfg).busy = true := by simpa using hebusy
  unfold ewsSeq at hlast
  generalize e.moves s.cfg = x at *
  obtain ⟨hxop, hxaddr, hxn⟩ := Ews.withReadOf_eq hx.receiving.frame
  have hxop : x.op = .read := hxop
  obtain ⟨hp, hend⟩ | ⟨hp, -⟩ := ewsLine_ends hxbusy hlast hdone
  · have htrace : g.trace = .stop :: x.trace := by
      obtain ⟨-, rfl⟩ | ⟨-, -, rfl⟩ | ⟨-, -, rfl⟩ := Ews.readDone_some hend
      all_goals rfl
    have ha : x.bodyAddress s.cfg = address.toNat := by simp only [Ews.bodyAddress, hxop, hxaddr]; rfl
    have hl : x.bodyLength s.cfg = n.toNat := by simp only [Ews.bodyLength, hxop, hxn]; rfl
    have hcalls := hx.calls
    simp only [Ews.readCalls, hp, ha, hl, hx.receiving.ee, hx.ideal.clock] at hcalls
    refine ⟨g, hexec, newCalls_of_reverse ?_⟩
    rw [htrace, List.reverse_cons, hcalls, List.append_assoc, readHead, addressHi_toNat, addressLo_toNat]
    rfl
  · simp [hp, hxop, EwsPos.serves] at hserves

/-! ## The calls of EWS.WRITE (R154) -/

/-- How many starts, stops, calls of `TICK.Now` and sends there are among some calls. -/
def callTally (l : List BusCall) : Nat × Nat × Nat × Nat :=
  (countCalls (fun k => k == .start) l, countCalls (fun k => k == .stop) l,
    countCalls (fun k => match k with | .now _ => true | _ => false) l,
    countCalls (fun k => match k with | .send _ _ => true | _ => false) l)

/-- The number of the page `a` is in, counted from the command's first one (R154). -/
def Ews.pagesTo (c : Config) (e : Ews) (a : Nat) : Nat := a / c.eePage - e.opAddr.toNat / c.eePage

/-- How many starts, stops, calls of `TICK.Now` and sends EWS.WRITE has made at a position, with ideal collaborators: its transactions
so far are those of the pages before the one it is in (R154). -/
def Ews.writeTally (c : Config) (e : Ews) : Nat × Nat × Nat × Nat :=
  let k := e.pagesTo c e.addr.toNat
  let j := e.pagesTo c (e.addr.toNat - 1)
  match e.pos with
  | .ssT0 => (k, k, k, 3 * k + e.i)
  | .ssST => (k, k, k + 1, 3 * k + e.i)
  | .ssCT => (k + 1, k, k + 1, 3 * k + e.i)
  | .ssHI => (k + 1, k, k + 1, 3 * k + e.i + 1)
  | .ssLO => (k + 1, k, k + 1, 3 * k + e.i + 2)
  | .wb => (k + 1, k, k + 1, 3 * k + e.i + 3)
  | .wx | .ws => (j + 1, j, j + 1, 3 * j + e.i + 3)
  | .ready | .r1 | .r1Ctl | .r1Hi | .r1Lo | .r1Stop | .r2 | .r2Ctl | .r2Rx | .r2Stop | .w0 | .ea | .pr | .ssCK => (0, 0, 0, 0)

/-- EWS.WRITE, its collaborators ideal, has made as many calls as its position says. -/
structure Ews.WriteCalling (c : Config) (b e : Ews) : Prop where
  sending : Ews.Sending c b e
  ideal : Ews.Ideal b e
  begun : e.pos = .wx → 0 < e.i
  calls : ∃ l, e.trace = l ++ b.trace ∧ callTally l = e.writeTally c

section write
variable {c : Config} {b e g : Ews}

/-- The collaborators' own move makes no call. -/
theorem Ews.WriteCalling.moves (h : Ews.WriteCalling c b e) : Ews.WriteCalling c b (e.moves c) where
  sending := h.sending.moves
  ideal := h.ideal.moves
  begun := by simpa using h.begun
  calls := by simpa [Ews.writeTally, Ews.pagesTo] using h.calls

/-- The first address of a page is in the page behind the one of the address before it. -/
theorem Ews.pagesTo_wrap {a : Nat} (hwrap : a % c.eePage = 0) (hlt : e.opAddr.toNat < a) :
    e.pagesTo c a = e.pagesTo c (a - 1) + 1 := by
  obtain ⟨k, rfl⟩ : ∃ k, a = k + 1 := ⟨a - 1, by omega⟩
  have hnext := Nat.succ_div_of_dvd (Nat.dvd_of_mod_eq_zero hwrap)
  have hle : e.opAddr.toNat / c.eePage ≤ k / c.eePage := Nat.div_le_div_right (by omega)
  simp only [Ews.pagesTo, hnext, Nat.add_sub_cancel]
  omega

/-- One call more. -/
theorem callTally_cons (k : BusCall) (l : List BusCall) (n : Nat × Nat × Nat × Nat) (h : callTally l = n) :
    callTally (k :: l) = match k with
      | .start => (n.1 + 1, n.2)
      | .stop => (n.1, n.2.1 + 1, n.2.2)
      | .now _ => (n.1, n.2.1, n.2.2.1 + 1, n.2.2.2)
      | .send _ _ => (n.1, n.2.1, n.2.2.1, n.2.2.2 + 1)
      | .receive _ _ => n := by
  subst h
  cases k <;> simp [callTally, countCalls]

/-- A line that makes a call keeps the count where the count of its next position is one more. -/
theorem Ews.WriteCalling.call (h : Ews.WriteCalling c b e) (hsending : Ews.Sending c b g) (hideal : Ews.Ideal b g)
    (hbegun : g.pos = .wx → 0 < g.i) {k : BusCall} (ht : g.trace = k :: e.trace) (hk : ∀ l, callTally l = e.writeTally c → callTally (k :: l) = g.writeTally c) :
    Ews.WriteCalling c b g := by
  obtain ⟨l, htrace, htally⟩ := h.calls
  exact ⟨hsending, hideal, hbegun, k :: l, by rw [ht, htrace]; rfl, hk l htally⟩

/-- A line of EWS.WRITE, the EEPROM not committing, adds the call that leads to its next position (R151, R154). -/
theorem ewsLine_writeCalling (hc : c.Valid) (hop : b.op = .write) (hway : e.OnItsWay c) (hcm : e.eeprom.commit = false)
    (h : Ews.WriteCalling c b e) (hs : ewsLine c e = some g) (hg : g.busy = true) : Ews.WriteCalling c b g := by
  have hsending := h.sending.line hc (.inl hop) hway hs hg
  have hideal := ewsLine_ideal hway.inStep hcm h.ideal hs
  have hope : e.op = .write := (Ews.withWriteOf_eq h.sending.frame).1.trans hop
  have hsize := Config.eeSize_le hc
  have hpage := Config.eePage_pos hc
  obtain ⟨-, hrange⟩ := Ews.body_range hc hway.block (by simp [hope])
  obtain ⟨hserves, -, -, -, -, -, -, haddr, hbody, hwx, -⟩ := hway.block
  obtain ⟨hct, -⟩ := hway.inStep
  have hck := h.ideal.polled.1
  cases hp : e.pos
  case ready => rw [ewsLine_ready hp] at hs; cases hs
  case ssCK => exact absurd hp hck
  case w0 =>
    rw [ewsLine_w0 hp] at hs; cases hs
    obtain ⟨l, htrace, htally⟩ := h.calls
    have hlt : e.opAddr.toNat < 131072 := by omega
    exact ⟨hsending, hideal, nofun, l, htrace, by
      simp [htally, Ews.writeTally, hp, Ews.pagesTo, Ews.bodyAddress, hope, Nat.mod_eq_of_lt hlt]⟩
  case ssT0 =>
    rw [ewsLine_ssT0 hp] at hs; cases hs
    exact h.call hsending hideal nofun rfl fun l hl => by rw [callTally_cons _ l _ hl]; simp [Ews.writeTally, Ews.pagesTo, hp]
  case ssST =>
    rw [ewsLine_ssST hp] at hs; cases hs
    exact h.call hsending hideal nofun rfl fun l hl => by rw [callTally_cons _ l _ hl]; simp [Ews.writeTally, Ews.pagesTo, hp]
  case ssCT =>
    rw [ewsLine_ssCT hp, (Eeprom.afterSend_ctrlW (c := c) (hct hp) hcm).2] at hs; cases hs
    exact h.call hsending hideal nofun rfl fun l hl => by rw [callTally_cons _ l _ hl]; simp [Ews.writeTally, Ews.pagesTo, hp]
  case ssHI =>
    rw [ewsLine_ssHI hp] at hs; cases hs
    exact h.call hsending hideal nofun rfl fun l hl => by rw [callTally_cons _ l _ hl]; simp [Ews.writeTally, Ews.pagesTo, hp]
  case ssLO =>
    rw [ewsLine_ssLO hp] at hs
    obtain ⟨p, hret, rfl⟩ := Option.map_eq_some_iff.1 hs
    obtain ⟨-, rfl⟩ | ⟨hread, -⟩ := Ews.startReturn_some hret
    · exact h.call hsending hideal nofun rfl fun l hl => by rw [callTally_cons _ l _ hl]; simp [Ews.writeTally, Ews.pagesTo, hp]
    · simp [hope] at hread
  case wb =>
    obtain ⟨hlt, haddr⟩ := hbody (.inl hope) (by simp [hp, EwsPos.sending])
    have hmod : (e.addr.toNat + 1) % 131072 = e.addr.toNat + 1 := Nat.mod_eq_of_lt (by omega)
    have hnext : (e.addr + 1).toNat = e.addr.toNat + 1 := (BitVec.toNat_add ..).trans hmod
    rw [ewsLine_wb hp] at hs; cases hs
    refine h.call hsending hideal (fun _ => Nat.succ_pos _) rfl fun l hl => ?_
    rw [callTally_cons _ l _ hl]
    unfold afterByte
    split_ifs with hmore hcrossed
    · simp [Ews.writeTally, Ews.pagesTo, hp, hmod]
      omega
    · have hsame := Nat.succ_div_of_not_dvd (a := e.addr.toNat) (b := c.eePage) fun hdvd =>
        hcrossed (decide_eq_true (hnext ▸ Nat.mod_eq_zero_of_dvd hdvd))
      simp [Ews.writeTally, Ews.pagesTo, hp, hmod, hsame]
      omega
    · simp [Ews.writeTally, Ews.pagesTo, hp, hmod]
      omega
  case wx =>
    rw [ewsLine_wx hp] at hs; cases hs
    refine h.call hsending hideal nofun rfl fun l hl => ?_
    rw [callTally_cons _ l _ hl]
    obtain ⟨-, haddr⟩ := hbody (.inl hope) (by simp [hp, EwsPos.sending])
    have hbegun := h.begun hp
    have hbody : e.bodyAddress c = e.opAddr.toNat := by simp [Ews.bodyAddress, hope]
    have hpages := Ews.pagesTo_wrap (hwx hp) (show e.opAddr.toNat < e.addr.toNat by omega)
    simp [Ews.writeTally, hp, Ews.pagesTo] at hpages ⊢
    omega
  case ws =>
    rw [ewsLine_ws hp] at hs
    obtain ⟨-, rfl⟩ | ⟨herase, -⟩ | ⟨herase, -⟩ := Ews.writeDone_some hs
    · cases hg
    all_goals simp [hope] at herase
  all_goals simp [hp, hope, EwsPos.serves] at hserves

/-- A sequencer step of EWS.WRITE with ideal collaborators. -/
theorem Ews.WriteCalling.step (hc : c.Valid) (hop : b.op = .write) (hway : e.OnItsWay c) (h : Ews.WriteCalling c b e)
    (hs : ewsSeq c e = some g) (hg : g.busy = true) : Ews.WriteCalling c b g :=
  ewsLine_writeCalling hc hop hway.moves (Ews.moves_ideal h.ideal.sched hway.stalled) h.moves hs hg

end write

/-- Settles O40: every step adds the call that leads to its next position, and at the last stop the position is behind the last
byte. -/
theorem ewsWriteTransactions : Obligations.EwsWriteTransactions := by
  intro s address n data h hsched hn hrange hd T
  obtain ⟨⟨hc, -⟩, -⟩ := id h
  obtain ⟨e, g, hexec, hway, hebusy, hcalling, hlast, hdone⟩ := exec_ews (i := .ewsWrite address n data)
    (P := Ews.WriteCalling s.cfg (acceptedEws (.ewsWrite address n data) s.ews)) h rfl (beq_iff_eq.2 hd)
    (ewsRangeOk_iff.2 ⟨hn, hrange⟩)
    ⟨Ews.sending_accepted (.inl rfl) rfl, ⟨hsched, rfl, nofun, rfl⟩, nofun, [], rfl, rfl⟩
    fun e g hway _ hP hs hg => hP.step hc rfl hway hs hg
  have hx := hcalling.moves
  have hserves := hway.moves.block.1
  have hxbusy : (e.moves s.cfg).busy = true := by simpa using hebusy
  unfold ewsSeq at hlast
  generalize e.moves s.cfg = x at *
  obtain ⟨hxop, hxaddr, hxn, -⟩ := Ews.withWriteOf_eq hx.sending.frame
  have hxop : x.op = .write := hxop
  obtain ⟨hp, -⟩ | ⟨hp, hend⟩ := ewsLine_ends hxbusy hlast hdone
  · simp [hp, hxop, EwsPos.serves] at hserves
  · have htrace : g.trace = .stop :: x.trace := by
      obtain ⟨-, rfl⟩ | ⟨-, -, rfl⟩ | ⟨-, -, rfl⟩ := Ews.writeDone_some hend
      all_goals rfl
    have ha : x.bodyAddress s.cfg = address.toNat := by simp only [Ews.bodyAddress, hxop, hxaddr]; rfl
    have hl : x.bodyLength s.cfg = n.toNat := by simp only [Ews.bodyLength, hxop, hxn]; rfl
    obtain ⟨hi, haddr⟩ := hx.sending.last hp
    obtain ⟨l, hcalls, htally⟩ := hx.calls
    have hopAddr : x.opAddr = address := hxaddr
    have htally := callTally_cons .stop l _ htally
    simp only [Ews.writeTally, hp, Ews.pagesTo, hi, haddr, ha, hl, hopAddr, callTally, Prod.mk.injEq] at htally
    obtain ⟨h1, h2, h3, h4⟩ := htally
    have hnew : newCalls s.ews.trace g.trace = (.stop :: l).reverse := newCalls_of_append (by rw [htrace, hcalls]; rfl)
    refine ⟨g, hexec, ?_⟩
    simp only [hnew, countCalls, List.countP_reverse] at h1 h2 h3 h4 ⊢
    refine ⟨h1, h2, h3, h4.trans ?_⟩
    omega

end Sys2Proof.Machine
end

section
/-! PROOFS. EWS's hang: an EEPROM that takes no `DONE` while the tick stands still (60_exceptions.md R222, U11). -/

namespace Sys2Proof.Machine

/-! ## A hang ends at a reset only (R222) -/

section hang
variable {c : Config} {e g : Ews}

/-- An EEPROM that takes no `DONE` and a tick that stands still do not move (R77, R78, log 8). -/
theorem Ews.moves_stalled_nil (hsched : e.sched = []) (hstalled : e.eeprom.stalled = true) : e.moves c = e := by
  simp [Ews.moves, hsched, hstalled]

/-- A sequencer step in a hang leads round the acknowledge-poll loop: a start, a `CTRL_W` that is refused, a timeout check that finds
the time not over (R151, R222). -/
theorem ewsSeq_inHang (h : e.InHang c) (hs : ewsSeq c e = some g) :
    g.InHang c ∧ g.rsp = e.rsp ∧ g.timedOut = e.timedOut ∧ g.port = e.port := by
  obtain ⟨hb, hcm, hstalled, hsched, htime, hp | ⟨hp, hmode⟩ | hp⟩ := h
  all_goals rw [ewsSeq, Ews.moves_stalled_nil hsched hstalled] at hs
  · rw [ewsLine_ssST hp] at hs; cases hs
    exact ⟨⟨hb, hcm, hstalled, hsched, htime, .inr (.inl ⟨rfl, rfl⟩)⟩, rfl, rfl, rfl⟩
  · obtain ⟨hsend, hno⟩ := Eeprom.afterSend_committing (c := c) (b := c.ctrlW) hmode hcm
    rw [ewsLine_ssCT hp, hno] at hs; cases hs
    exact ⟨⟨hb, by simp [hsend, hcm], by simp [hsend, hstalled], hsched, htime, .inr (.inr rfl)⟩, rfl, rfl, rfl⟩
  · rw [ewsLine_ssCK hp, if_neg (Bool.eq_false_iff.1 htime)] at hs; cases hs
    exact ⟨⟨hb, hcm, hstalled, hsched, htime, .inl rfl⟩, rfl, rfl, rfl⟩

/-- However many steps EWS makes in a hang, it stays there (R222). -/
theorem runSeq_ewsSeq_inHang {stop : Ews → Bool} {n : Nat} (h : e.InHang c) (hr : runSeq (ewsSeq c) stop n e = some g) :
    g.InHang c ∧ g.rsp = e.rsp ∧ g.timedOut = e.timedOut ∧ g.port = e.port := by
  refine runSeq_keeps (P := fun x => x.InHang c ∧ x.rsp = e.rsp ∧ x.timedOut = e.timedOut ∧ x.port = e.port) ?_ ⟨h, rfl, rfl, rfl⟩ hr
  rintro x y ⟨hx, h1, h2, h3⟩ hs
  obtain ⟨hy, k1, k2, k3⟩ := ewsSeq_inHang hx hs
  exact ⟨hy, k1.trans h1, k2.trans h2, k3.trans h3⟩

end hang

/-- A turn of any unit leaves an EWS that is in a hang there (R222). -/
theorem unitTurn_inHang {s t : State} (h : s.ews.InHang s.cfg) (ht : unitTurn s = .next t) :
    t.ews.InHang s.cfg ∧ t.ews.rsp = s.ews.rsp ∧ t.ews.timedOut = s.ews.timedOut ∧ t.ews.port = s.ews.port := by
  cases hu : s.turn with
  | ews =>
    obtain ⟨hb, -⟩ := id h
    have hocc : s.occupied s.turn = true := by simp [hu, State.occupied, hb]
    rw [unitTurn_occupied hocc, hu] at ht
    obtain ⟨e, hr, rfl⟩ := ewsRun_next ht
    exact runSeq_ewsSeq_inHang h hr
  | fpc => rw [unitTurn_frame ht, hu]; exact ⟨h, rfl, rfl, rfl⟩
  | rpa => rw [unitTurn_frame ht, hu]; exact ⟨h, rfl, rfl, rfl⟩

/-- A host move that is no reset adds at most a word and payload at EWS's ports (R38, R90). -/
theorem hostMove_ews {m : HostMove} (s : State) (hm : m ≠ .reset) :
    ∃ p, (s.hostMove m).ews = { s.ews with port := p } ∧ s.ews.port.cmd <+: p.cmd := by
  cases m with
  | reset => exact absurd rfl hm
  | readStatus u => exact ⟨_, rfl, List.prefix_rfl⟩
  | present u cw payload =>
    cases u with
    | ews => exact ⟨_, rfl, List.prefix_append _ _⟩
    | fpc => exact ⟨_, rfl, List.prefix_rfl⟩
    | rpa => exact ⟨_, rfl, List.prefix_rfl⟩

/-! ## How a command comes to hang (R151, R222) -/

/-- EWS in the middle of a command, its EEPROM committing, no `DONE` to come and the tick standing still. -/
structure Ews.Stuck (c : Config) (e : Ews) : Prop where
  busy : e.busy = true
  commit : e.eeprom.commit = true
  stalled : e.eeprom.stalled = true
  sched : e.sched = []
  tick : e.clock.tick < 2 ^ c.tickBits

/-- A run of at most so many steps ends in the hang, without a response. -/
def Ews.Hangs (c : Config) (n : Nat) (e : Ews) : Prop :=
  ∃ g, runSeq (ewsSeq c) (Ews.stops c) n e = some g ∧ g.hung c = true ∧ g.InHang c ∧ g.rsp = e.rsp

section stuck
variable {c : Config} {e g : Ews}

/-- The step that leads into StartSequence is the last one: no time has passed there (R151, R152). -/
theorem Ews.Stuck.hangs_ssT0 (hc : c.Valid) (h : e.Stuck c) (hp : e.pos = .ssT0) (n : Nat) : e.Hangs c (n + 1) := by
  have htime : pollTimedOut c e.clock.tick e.clock.tick = false := by
    obtain ⟨-, -, -, -, -, -, hticks, -⟩ := hc
    have hzero : elapsed c e.clock.tick e.clock.tick = 0 := by
      rw [elapsed, Nat.mod_eq_of_lt h.tick, Nat.add_sub_cancel_left, Nat.mod_self]
    simp only [pollTimedOut, hzero, Config.timeoutTicks, Config.ackpollTimeoutMs, decide_eq_false_iff_not]
    omega
  have hs : ewsSeq c e = some { e.callNow with t0 := e.clock.tick, pos := .ssST } := by
    rw [ewsSeq, Ews.moves_stalled_nil h.sched h.stalled, ewsLine_ssT0 hp]
  have hhung : Ews.hung c { e.callNow with t0 := e.clock.tick, pos := .ssST } = true := by
    simp [Ews.hung, h.commit, h.stalled, h.sched, htime]
  refine ⟨_, (runSeq_succ hs).trans (if_pos (by rw [Ews.stops, hhung, Bool.or_true])), hhung, ?_, rfl⟩
  exact ⟨h.busy, h.commit, h.stalled, h.sched, htime, .inl rfl⟩

/-- A line before that leaves the collaborators alone, and the run goes on (R154, R155, R205). -/
theorem Ews.Stuck.hangs_line {n : Nat} (h : e.Stuck c) (hs : ewsLine c e = some g)
    (hg : g.busy = e.busy ∧ g.eeprom = e.eeprom ∧ g.sched = e.sched ∧ g.clock = e.clock ∧ g.rsp = e.rsp) (hp : g.pos ≠ .ssST)
    (hhangs : g.Stuck c → g.Hangs c n) : e.Hangs c (n + 1) := by
  obtain ⟨hb, hcm, hstalled, hsched, htick⟩ := h
  obtain ⟨k1, k2, k3, k4, hrsp⟩ := hg
  have hg : g.Stuck c := ⟨k1.trans hb, k2 ▸ hcm, k2 ▸ hstalled, k3.trans hsched, k4 ▸ htick⟩
  obtain ⟨x, hrun, hhung, hin, hx⟩ := hhangs hg
  have hseq : ewsSeq c e = some g := by rw [ewsSeq, Ews.moves_stalled_nil hsched hstalled, hs]
  have hgo : ¬ g.stops c = true := by simp [Ews.stops, Ews.hung, hg.busy, hp]
  exact ⟨x, (runSeq_succ hseq).trans ((if_neg hgo).trans hrun), hhung, hin, hx.trans hrsp⟩

theorem Ews.Stuck.hangs_w0 (hc : c.Valid) (h : e.Stuck c) (hp : e.pos = .w0) (n : Nat) : e.Hangs c (n + 2) :=
  h.hangs_line (ewsLine_w0 hp) ⟨rfl, rfl, rfl, rfl, rfl⟩ nofun fun hg => hg.hangs_ssT0 hc rfl n

theorem Ews.Stuck.hangs_r1 (hc : c.Valid) (hack : c.ewsReadAckpoll = true) (h : e.Stuck c) (hp : e.pos = .r1) (n : Nat) :
    e.Hangs c (n + 2) :=
  h.hangs_line ((ewsLine_r1 hp).trans (congrArg some (if_pos hack))) ⟨rfl, rfl, rfl, rfl, rfl⟩ nofun
    fun hg => hg.hangs_ssT0 hc rfl n

theorem Ews.Stuck.hangs_ea (hc : c.Valid) (h : e.Stuck c) (hp : e.pos = .ea) (n : Nat) : e.Hangs c (n + 3) :=
  h.hangs_line (ewsLine_ea hp) ⟨rfl, rfl, rfl, rfl, rfl⟩ nofun fun hg => hg.hangs_w0 hc rfl n

theorem Ews.Stuck.hangs_pr (hc : c.Valid) (hack : c.ewsReadAckpoll = true) (h : e.Stuck c) (hp : e.pos = .pr) (n : Nat) :
    e.Hangs c (n + 3) :=
  h.hangs_line (ewsLine_pr hp) ⟨rfl, rfl, rfl, rfl, rfl⟩ nofun fun hg => hg.hangs_r1 hc hack rfl n

/-- A command that begins with the acknowledge poll, just accepted with such an EEPROM, hangs. -/
theorem Ews.hangs_accepted {i : Instr} (hc : c.Valid) (hu : i.unit = .ews)
    (hpoll : c.ewsReadAckpoll = true ∨ i.opcode = .ewsWrite ∨ i.opcode = .ewsEraseAll) (hcm : e.eeprom.commit = true)
    (hstalled : e.eeprom.stalled = true) (hsched : e.sched = []) (htick : e.clock.tick < 2 ^ c.tickBits) (n : Nat) :
    (acceptedEws i e).Hangs c (n + 3) := by
  have hstuck : (acceptedEws i e).Stuck c :=
    ⟨acceptedEws_busy hu, by simpa using hcm, by simpa using hstalled, by simpa using hsched, by simpa using htick⟩
  cases i
  case ewsRead => exact hstuck.hangs_r1 hc (hpoll.resolve_right (by simp [Instr.opcode])) rfl (n + 1)
  case ewsWrite => exact hstuck.hangs_w0 hc rfl (n + 1)
  case ewsEraseAll => exact hstuck.hangs_ea hc rfl n
  case ewsPrint => exact hstuck.hangs_pr hc (hpoll.resolve_right (by simp [Instr.opcode])) rfl n
  all_goals cases hu

end stuck

/-- Settles O45: the acknowledge-poll loop has neither an acknowledge nor a timeout to leave it by, and nothing but a reset takes EWS
out of it. -/
theorem ewsHangs : Obligations.EwsHangs := by
  refine ⟨fun i s hu hp hpoll hi hhost hb hcm hstalled hsched => ?_, fun s t h ht => ⟨fun hreset => ?_, fun rest hhost => ?_⟩⟩
  · obtain ⟨hc, -, -, ⟨-, -, -, htick⟩, -⟩ := hi
    obtain ⟨n, hn⟩ : ∃ n, ewsFuel s.cfg (acceptedEws i s.ews) = n + 3 :=
      ⟨ewsFuel s.cfg (acceptedEws i s.ews) - 3, by unfold ewsFuel; omega⟩
    obtain ⟨g, hrun, hhung, hin, hrsp⟩ := Ews.hangs_accepted hc hu hpoll hcm hstalled hsched htick n
    refine ⟨g, ?_, hhung, hin, hrsp.trans (acceptedEws_streams i s.ews).1⟩
    rw [exec_accepted (by simp [hu, State.occupied, hb]) hp, hu]
    exact ewsStart_of_some hhost (hn ▸ hrun)
  · obtain ⟨m, rest, hhost, rfl⟩ | ⟨-, u, hturn, rfl⟩ := step_cases ht
    · obtain ⟨p, hews, hpre⟩ := hostMove_ews { s with host := rest } fun hm => hreset rest (hm ▸ hhost)
      rw [hews]
      exact ⟨h, rfl, rfl, hpre⟩
    · obtain ⟨hin, hrsp, hlate, hport⟩ := unitTurn_inHang h hturn
      exact ⟨hin, hrsp, hlate, hport ▸ List.prefix_rfl⟩
  · rw [step_hostMove hhost] at ht
    cases ht
    exact ⟨rfl, rfl⟩

end Sys2Proof.Machine
end
